-- ==== Sys2Proof/Word.lean ====
section
/-! DEFINITION. The words of the machine: bytes, 16-bit values, round numbers and the sets that
travel as bits (spec/00 section 5, spec/07 R134). -/

namespace Sys2Proof

/-- A character's eight data bits (R133). -/
abbrev Byte := BitVec 8

/-- A two-byte value carried as bits: a digest, a CRC, a seed. -/
abbrev Word16 := BitVec 16

/-- A round number, 0…255, which wraps from 255 to 0 (00 section 5, R1). -/
abbrev RoundNo := BitVec 8

/-- A set of addresses 1…32 (R134): address `n` is bit `n - 1`. -/
abbrev AddrSet := BitVec 32

/-- A set of factor codes 1…24 (R134, R176): code `n` is bit `n - 1`. -/
abbrev FactorSet := BitVec 24

end Sys2Proof
end

