-- ==== Sys2Proof/Syntax.lean ====
section
/-! DEFINITION. The frames of the zone line (spec/07 R134) and the commands of the block: one
constructor of `Instr` per row of spec/opcode_table.json. Outputs, circuits and channels are counted
from 0 here: output O1, circuit 1 and channel T1 are `0 : Fin _`. -/

namespace Sys2Proof

/-- A circuit's urgency (R86). -/
inductive Cls where
  | p0 | p1 | p2 | p3
  deriving DecidableEq, Repr

/-- The flow report of a bid (R24, R134). -/
inductive FlowReport where
  | noReport | flow | stop
  deriving DecidableEq, Repr

/-- One demand record of a bid (R25, R134). -/
structure DemandRecord where
  circuit : Nat
  cls : Cls
  margin : Int
  need : Nat
  deriving DecidableEq, Repr

/-- An OPEN (R134). -/
structure OpenFrame where
  opener : Nat
  round : RoundNo
  heard : AddrSet
  digest : Word16
  deriving DecidableEq, Repr

/-- A BID (R134); `member` is its membership mark, `load` its applied load. -/
structure BidFrame where
  sender : Nat
  round : RoundNo
  opener : Nat
  member : Bool
  flow : FlowReport
  alarm : Bool
  digest : Word16
  load : Nat
  records : List DemandRecord
  deriving DecidableEq, Repr

/-- A TEST frame (R134, R155). -/
structure TestFrame where
  sender : Nat
  seed : Word16
  index : Byte
  payload : List Byte
  deriving DecidableEq, Repr

/-- A result code (R134). -/
inductive Result where
  | done | accepted | busy | refused | badRequest
  deriving DecidableEq, Repr

/-- A REPLY; its destination is always 0 (R134). The request type, 3 or 4 when a station sends it, is
not judged at reception (R139). -/
structure ReplyFrame where
  source : Nat
  tag : Byte
  reqType : Byte
  reqKind : Byte
  result : Result
  page : Byte
  pageCount : Byte
  body : List Byte
  deriving DecidableEq, Repr

/-- A QUERY; its source is always 0 (R134). -/
structure QueryFrame where
  dest : Byte
  tag : Byte
  kind : Byte
  page : Byte
  deriving DecidableEq, Repr

/-- A COMMAND; its source is always 0 (R134). -/
structure CommandFrame where
  dest : Byte
  tag : Byte
  kind : Byte
  args : List Byte
  deriving DecidableEq, Repr

/-- A request of the service tool (spec/09). -/
inductive Request where
  | query (q : QueryFrame)
  | command (c : CommandFrame)
  deriving DecidableEq, Repr

/-- A frame of one of the six kinds (R134). -/
inductive Frame where
  | openFrame (f : OpenFrame)
  | bid (f : BidFrame)
  | request (r : Request)
  | reply (f : ReplyFrame)
  | test (f : TestFrame)
  deriving DecidableEq, Repr

/-- How an attempt of an image transfer ends (R187); the clock held low is a command of its own. -/
inductive TransferOutcome where
  | success (bytes : List Byte)
  | busHeld
  | noAcknowledge
  deriving DecidableEq, Repr

/-- What a conversion measures (R96). An in-range temperature is in thousandths of a degree: the
part rounds it to 0.1 °C itself. -/
inductive Conversion where
  | aboveRange
  | belowRange
  | inRange (milli : Int)
  deriving DecidableEq, Repr

/-- A character of the zone line as it is read: its eight data bits, and whether its stop bit was read
(R133, R145). -/
structure LineChar where
  data : Byte
  stop : Bool
  deriving DecidableEq, Repr

/-- A new level on a pin (R115, R119, R133, R186; log entries 6 and 8): a leakage current in mA, a limit
contact, a load current in 0.1 LU, the FLOW input, a strap; on the zone line, the start bit of another
talker, and a character that has ended. -/
inductive RawInput where
  | leakage (o : Fin 6) (milliamps : Nat)
  | limit (o : Fin 6) (isOpen : Bool)
  | flow (asserted : Bool)
  | load (o : Fin 6) (tenths : Nat)
  | strap (bit : Fin 5) (isOpen : Bool)
  | lineStart
  | lineCharacter (c : LineChar)
  deriving DecidableEq, Repr

/-- The commands of the block, one per row of spec/opcode_table.json, in its order. The operand
`equal` of an own-frame check says that every character was read back equal (R145; log entry 6). -/
inductive Instr where
  | pinReset
  | resetnRelease (straps : BitVec 5)
  | transferAttemptEnd (outcome : TransferOutcome)
  | clockHoldTimeout
  | attemptRetryDelayExpiry
  | openReceived (f : OpenFrame)
  | bidReceived (f : BidFrame)
  | testFrameReceived (f : TestFrame)
  | replyFrameReceived (f : ReplyFrame)
  | badFrameReceived (bytes : List Byte)
  | frameGapTimeout
  | queryStation (dest tag page : Byte)
  | queryCircuits (dest tag page : Byte)
  | queryOutputs (dest tag page : Byte)
  | querySensors (dest tag page : Byte)
  | queryRoster (dest tag page : Byte)
  | queryAllotment (dest tag page : Byte)
  | queryFactors (dest tag page : Byte)
  | queryQuality (dest tag page : Byte)
  | clearFactors (dest tag : Byte) (args : List Byte)
  | setMask (dest tag : Byte) (args : List Byte)
  | testOutput (dest tag : Byte) (args : List Byte)
  | linecheck (dest tag : Byte) (args : List Byte)
  | retire (dest tag : Byte) (args : List Byte)
  | restart (dest tag : Byte) (args : List Byte)
  | clearQuality (dest tag : Byte) (args : List Byte)
  | unknownRequest (r : Request)
  | deferenceExpiry
  | openCheckEnd (equal : Bool)
  | bidCheckEnd (equal : Bool)
  | replyCheckEnd (equal : Bool)
  | testCheckEnd (equal : Bool)
  | roundTimerExpiry
  | listenTimerExpiry
  | windowStart (c : Fin 6)
  | onTimeElapsed (c : Fin 6)
  | conversionEnd (m : Conversion)
  | settleTimerExpiry (c : Fin 6)
  | rawInputChange (i : RawInput)
  | limitFilteredChange (o : Fin 6) (isOpen : Bool)
  | leakageFilteredChange (o : Fin 6) (asserted : Bool)
  | flowFilteredChange (asserted : Bool)
  | overloadDetected (o : Fin 6) (load : Nat)
  | holdOffExpiry (o : Fin 6)
  | tripClearTimeReached (c : Fin 6)
  | testDurationExpiry
  | brokenFrame
  deriving DecidableEq, Repr

end Sys2Proof
end

