-- ==== Sys2Proof/Decode.lean ====
section
/-! DEFINITION. Words of spec/opcode_table.json. No row of the table gives a command bits, so no
word spells a command; the bytes of frames are judged in Sys2Proof/Machine/Frames.lean. -/

namespace Sys2Proof

/-- The command a word spells by the table's bits: the table gives no row any bits. -/
def decodeTableWord (_nbits _w : Nat) : Option Instr := none

end Sys2Proof
end

