-- ==== Sys2Proof/Config.lean ====
section
/-! DEFINITION. What the part fixes, the fields of the configuration image, and the free values
(values the spec does not state). -/

namespace Sys2Proof

namespace Config

/-- FREE VALUE (log entry 10): whether a quotient that is not whole is rounded up. The spec gives the
mean measured load in 0.1 LU steps (R119), the duty in thousandths and the hold-off in whole seconds
(R167) and states no rounding. Arguments: dividend, divisor. -/
opaque roundUp : Nat → Nat → Bool

/-- FREE VALUE (log entry 11): the mean measured load over a period of no length (R119 states none),
in 0.1 LU steps. The argument is the counter `Plant.free`. -/
opaque emptyMean : Nat → Nat

/-- Bytes of the configuration image (R188). -/
def imageLength : Nat := 116

/-- Attempts of one image transfer (R187). -/
def maxAttempts : Nat := 3

/-- Milliseconds between a failed attempt and the next (R187). -/
def retryDelay : Nat := 5

/-- Milliseconds of one conversion (R96). -/
def conversionMs : Nat := 80

/-- Milliseconds of idle time before a frame; a longer gap breaks a frame in progress (R133). -/
def frameGap : Nat := 2

/-- Failed own-frame checks after which an OPEN is given up (R146). -/
def openAttempts : Nat := 3

end Config

/-- One circuit's eleven bytes of the image (R188). -/
structure CircuitCfg where
  configured : Nat
  primary : Nat
  primarySensor : Nat
  backupSensor : Nat
  spFlowing : Int
  spStandstill : Int
  band : Int
  fallback : Nat
  deriving DecidableEq, Repr

/-- The fields of the configuration image (R188), as read from the working copy. -/
structure Image where
  format : Nat
  length : Nat
  budget : Nat
  stations : Nat
  reserveCount : Nat
  reserve1 : Nat × Nat
  reserve2 : Nat × Nat
  pourPoint : Int
  lowMargin : Nat
  period : Nat
  stale : Nat
  outputs : Vector (Nat × Nat) 6
  knownBad : Byte
  circuits : Vector CircuitCfg 6
  channels : Byte
  rate : Nat
  leakThreshold : Nat
  glitchLeakage : Nat
  glitchLimit : Nat
  glitchFlow : Nat
  holdOff : Nat
  tripLimit : Nat
  tripClear : Nat
  window : Nat
  flowWired : Nat
  mask : FactorSet
  checksum : Nat
  deriving DecidableEq, Repr

end Sys2Proof
end

