-- ==== Sys2Proof/Machine/State.lean ====
section
/-! DEFINITION. The state of the station as plain data, block by block (spec/00 section 3), and the
state right after reset. INVENTORY.md lists every item with its rule and its reset value. -/

namespace Sys2Proof.Machine

/-- Levels of the outside world on the pins; no reset changes them (log entry 8). -/
structure Pins where
  resetnHeld : Bool
  straps : BitVec 5
  leakage : Vector Nat 6
  limitOpen : Vector Bool 6
  load : Vector Nat 6
  flow : Bool
  deriving DecidableEq, Repr

/-- Read progress of the Start-up Loader (R187): transfer 1…5, attempt 1…3, and the milliseconds
left of the wait before the attempt begins. -/
inductive Progress where
  | idle
  | reading (transfer attempt : Nat) (wait : Option Nat)
  | done
  deriving DecidableEq, Repr

/-- The judgement of the image (R189). -/
inductive Judgement where
  | good | bad
  deriving DecidableEq, Repr

/-- The Start-up Loader (spec/11). The strap address is `rank + 1`. -/
structure Sul where
  rank : Fin 32
  progress : Progress
  copy : List Byte
  sharedGood : Bool
  digest : Option Word16
  judgement : Option Judgement
  deriving DecidableEq, Repr

/-- The station's standing on the line (R2). -/
inductive Membership where
  | start | blocked | listen | joining | member | retired
  deriving DecidableEq, Repr

/-- The Round Controller (R2); timers hold their remaining milliseconds, `none` is stopped. -/
structure Rct where
  membership : Membership
  round : Option RoundNo
  opener : Option Nat
  degraded : Bool
  roundTimer : Option Nat
  listenTimer : Option Nat
  listenAdoptions : Nat
  declaredCurrent : Option Nat
  declaredClosed : Option Nat
  deriving DecidableEq, Repr

/-- Status of a peer row (R34). -/
inductive PeerStatus where
  | unknown | present | joining | stale | absent | retired | mismatched
  deriving DecidableEq, Repr

/-- One row of the peer table (R34). -/
structure PeerRow where
  status : PeerStatus
  missCount : Nat
  lastBid : Option BidFrame
  lastRound : Option RoundNo
  returnMark : Bool
  deriving DecidableEq, Repr

/-- A bid buffer: at most one whole bid per address (R28); address `n` is place `n - 1`. -/
abbrev BidBuffer := Vector (Option BidFrame) 32

/-- The line state (R45). -/
inductive LineState where
  | flowing | standstill
  deriving DecidableEq, Repr

/-- The Roster (spec/02); the buffer that is not `settled` is collecting. -/
structure Rst where
  buf0 : BidBuffer
  buf1 : BidBuffer
  settled : Fin 2
  rows : Vector PeerRow 32
  silent : Nat
  line : LineState
  deriving DecidableEq, Repr

/-- Kind of a computation (R49). -/
inductive AllotKind where
  | complete | degraded | capped | noAllot
  deriving DecidableEq, Repr

/-- Source of a degraded cap (R61, R67). -/
inductive CapSource where
  | share
  | declared (need : Nat)
  | unsettled
  deriving DecidableEq, Repr

/-- Classification of an address in a COMPLETE computation (R52). -/
inductive Classification where
  | participant | charged | released
  deriving DecidableEq, Repr

/-- What a COMPLETE computation records of one address (R67). -/
structure AddrEntry where
  addr : Nat
  cls : Classification
  charge : Nat
  base : Nat
  poolPart : Nat
  deriving DecidableEq, Repr

/-- What a COMPLETE computation records of one demand record (R67); its grant is the base part plus
the pool part (R57). -/
structure RecEntry where
  addr : Nat
  circuit : Nat
  cls : Cls
  margin : Int
  need : Nat
  basePart : Nat
  poolPart : Nat
  deriving DecidableEq, Repr

/-- The division part of the allotment table (R67). -/
structure Division where
  heard : AddrSet
  entries : List AddrEntry
  records : List RecEntry
  poolTotal : Nat
  poolLeft : Nat
  deriving DecidableEq, Repr

/-- The allotment table (R67); the own circuit grants stand in the circuit rows. -/
structure Alu where
  kind : AllotKind
  round : Option RoundNo
  cap : Option CapSource
  own : Nat
  deduction : Option (Fin 6 × Nat)
  division : Option Division
  deriving DecidableEq, Repr

/-- State of a circuit (R69). -/
inductive CState where
  | disabled | settling | regulating | sensorLost | inhibited | tripped | failed | testing
  deriving DecidableEq, Repr

/-- The settle timer (R74): stopped, running with a count of scan ends 0…2, or its third scan end
has come and the expiry is still to be taken (log entry 24). -/
inductive Settle where
  | stopped
  | running (count : Nat)
  | due
  deriving DecidableEq, Repr

/-- Source of the circuit temperature (R82). -/
inductive TempSource where
  | primary | backup | noSource
  deriving DecidableEq, Repr

/-- One row of the circuit table (R69), with the time to the circuit's next window start (R87). -/
structure CircuitRow where
  state : CState
  settle : Settle
  temp : Option Int
  source : TempSource
  setpoint : Option Int
  need : Nat
  margin : Option Int
  cls : Option Cls
  grant : Nat
  onTime : Nat
  starved : Nat
  toNext : Option Nat
  deriving DecidableEq, Repr

/-- Quality of a reading (R99). -/
inductive Quality where
  | noReading | good | suspect | isOpen | short
  deriving DecidableEq, Repr

/-- One row of the reading table (R99); temperatures in 0.1 °C, `at` in ms of the timebase. -/
structure Channel where
  quality : Quality
  value : Option Int
  lastGood : Option Int
  suspect : Option Int
  lastAt : Option Nat
  deriving DecidableEq, Repr

/-- The Sensor Scanner (spec/05); `conv` is the conversion in progress and its remaining ms. -/
structure Ssc where
  rows : Vector Channel 8
  conv : Option (Fin 8 × Nat)
  deriving DecidableEq, Repr

/-- A glitch filter (R115): the filtered level, and the ms for which the raw level has differed from
it without a break. A filter that is not running has no level. -/
structure Filter where
  level : Option Bool
  held : Option Nat
  deriving DecidableEq, Repr

/-- Role of an output (R111). -/
inductive Role where
  | primary (c : Fin 6)
  | spareFree
  | spareBound (c : Fin 6)
  | unused
  | bad
  deriving DecidableEq, Repr

/-- Kind of a fault (R120, R121, R122). -/
inductive FaultKind where
  | leakage | overload | openElement
  deriving DecidableEq, Repr

/-- Cause of an aborted test (R131). -/
inductive AbortCause where
  | allotment | limit | binding
  deriving DecidableEq, Repr

/-- Outcome of a test (R127). -/
inductive TestOutcome where
  | done
  | tripped (kind : FaultKind)
  | aborted (cause : AbortCause)
  deriving DecidableEq, Repr

/-- A test result (R127). -/
structure TestResult where
  outcome : TestOutcome
  energizedMs : Nat
  mean : Nat
  peak : Nat
  deriving DecidableEq, Repr

/-- A health record (R127), with its energized remainder (R111). -/
structure Health where
  seconds : Nat
  tripTotal : Nat
  peak : Nat
  lastLoad : Nat
  lastFault : Option FaultKind
  lastTest : Option TestResult
  remainder : Nat
  deriving DecidableEq, Repr

/-- One row of the output table (R111). `leakage` is asserted and `limit` open when `true`;
`periodMs`, `loadSum` and `recent` gather the load of the energized period in progress (R119). -/
structure OutputRow where
  role : Role
  rated : Nat
  energized : Bool
  leakage : Filter
  limit : Filter
  measured : Nat
  openCount : Nat
  holdOff : Option Nat
  health : Health
  periodMs : Nat
  loadSum : Nat
  recent : List Nat
  deriving DecidableEq, Repr

/-- Trip record of a circuit (R111). -/
structure TripRec where
  count : Nat
  seconds : Nat
  remainder : Nat
  deriving DecidableEq, Repr

/-- The test record (R129); the mean over the test is `loadSum` over `energizedMs`. -/
structure TestRecord where
  output : Fin 6
  circuit : Option (Fin 6)
  duration : Nat
  startedAt : Nat
  energizedMs : Nat
  loadSum : Nat
  peak : Nat
  deriving DecidableEq, Repr

/-- The Output Guard (spec/06). -/
structure Ogd where
  outputs : Vector OutputRow 6
  trips : Vector TripRec 6
  flow : Filter
  test : Option TestRecord
  deriving DecidableEq, Repr

/-- The Factor Unit (R176). -/
structure Fct where
  status : FactorSet
  mask : FactorSet
  deriving DecidableEq, Repr

/-- The blocks that a grant, a trip or a test can reach: Circuit Controller, Output Guard, Allotment
Unit, Factor Unit, and the counter of the free values. -/
structure Plant where
  cct : Vector CircuitRow 6
  ogd : Ogd
  alu : Alu
  fct : Fct
  free : Nat
  deriving DecidableEq, Repr

/-- A transmit slot (R141), with what is fixed while the frame waits and while it is sent. -/
inductive Slot (π σ : Type) where
  | empty
  | pending (p : π)
  | sending (f : σ)
  deriving DecidableEq, Repr

/-- The receiver (07, table before 7.1). -/
inductive Receiver where
  | off | hunting | receiving
  deriving DecidableEq, Repr

/-- The Line Interface (spec/07). A waiting bid is fixed only in its round and opener (R23); `checked`
counts the characters of the frame in SENDING that have been read back equal (R145). -/
structure Lif where
  receiver : Receiver
  buffer : List Byte
  idle : Option Nat
  openSlot : Slot Unit OpenFrame
  bidSlot : Slot (RoundNo × Nat) BidFrame
  replySlot : Slot ReplyFrame ReplyFrame
  testSlot : Slot Unit TestFrame
  openFailures : Nat
  checked : Nat
  deriving DecidableEq, Repr

/-- One row of the line-quality table (R150). -/
structure QualityRow where
  heard : Nat
  bids : Nat
  bidsMissed : Nat
  testGood : Nat
  testBad : Nat
  testMissed : Nat
  lastIndex : Option Nat
  latch : Bool
  deriving DecidableEq, Repr

/-- The line totals (R150). -/
structure Totals where
  good : Nat
  crcFailures : Nat
  rejected : Nat
  tool : Nat
  outOfRange : Nat
  deriving DecidableEq, Repr

/-- The emission record (R154). -/
structure Emission where
  running : Bool
  count : Nat
  seed : Word16
  nextIndex : Nat
  passed : Nat
  failed : Nat
  deriving DecidableEq, Repr

/-- The Line Check Unit (spec/08). -/
structure Lck where
  rows : Vector QualityRow 32
  totals : Totals
  emission : Emission
  deriving DecidableEq, Repr

/-- The Service Responder (R160); its pending reply is the contents of the REPLY slot. -/
structure Srv where
  restartPending : Bool
  deriving DecidableEq, Repr

/-- The whole machine. -/
structure State where
  pins : Pins
  sul : Sul
  rct : Rct
  rst : Rst
  plant : Plant
  ssc : Ssc
  lif : Lif
  lck : Lck
  srv : Srv
  now : Nat
  pending : List Instr
  deriving DecidableEq, Repr

/-- The spec describes no condition that stops the machine: every condition raises a factor (spec/10)
or is answered in a reply (spec/09). So there is no fault. -/
inductive Fault where
  deriving DecidableEq, Repr

/-- Reasons to have no meaning. -/
inductive Refusal where
  /-- Raised by an arm of `exec` whose command has no meaning yet; safe. No arm raises it now. -/
  | notModelled (mnemonic : String)
  deriving DecidableEq, Repr

/-- What a command answers. -/
abbrev Answer := Host.Outcome State Fault Refusal

/-! ### Reset values -/

/-- R34, last column. -/
def PeerRow.reset : PeerRow := ⟨.unknown, 0, none, none, false⟩

/-- R69, last column; the windows are stopped (R87). -/
def CircuitRow.reset : CircuitRow :=
  ⟨.disabled, .stopped, none, .noSource, none, 0, none, none, 0, 0, 0, none⟩

/-- R99, last column. -/
def Channel.reset : Channel := ⟨.noReading, none, none, none, none⟩

/-- R115: a stopped filter. -/
def Filter.reset : Filter := ⟨none, none⟩

/-- R127: a cleared health record. -/
def Health.reset : Health := ⟨0, 0, 0, 0, none, none, 0⟩

/-- R111, after pin reset. -/
def OutputRow.reset : OutputRow :=
  ⟨.unused, 0, false, .reset, .reset, 0, 0, none, .reset, 0, 0, []⟩

/-- R111, last table. -/
def TripRec.reset : TripRec := ⟨0, 0, 0⟩

/-- R68. -/
def Alu.reset : Alu := ⟨.noAllot, none, none, 0, none, none⟩

/-- R150. -/
def QualityRow.reset : QualityRow := ⟨0, 0, 0, 0, 0, 0, none, false⟩

/-- R150. -/
def Totals.reset : Totals := ⟨0, 0, 0, 0, 0⟩

/-- R154. -/
def Emission.reset : Emission := ⟨false, 0, 0, 0, 0, 0⟩

/-- R2, last column. -/
def Rct.reset : Rct := ⟨.start, none, none, false, none, none, 0, none, none⟩

/-- R28: both buffers empty. -/
def BidBuffer.reset : BidBuffer := Vector.replicate 32 none

/-- R28, R34, R39, R46. -/
def Rst.reset : Rst :=
  ⟨.reset, .reset, 1, Vector.replicate 32 .reset, 0, .standstill⟩

/-- R99, R109. -/
def Ssc.reset : Ssc := ⟨Vector.replicate 8 .reset, none⟩

/-- R111. -/
def Ogd.reset : Ogd := ⟨Vector.replicate 6 .reset, Vector.replicate 6 .reset, .reset, none⟩

/-- The blocks of the plant after pin reset. -/
def Plant.reset : Plant := ⟨Vector.replicate 6 .reset, .reset, .reset, ⟨0, 0⟩, 0⟩

/-- R147. -/
def Lif.reset : Lif := ⟨.off, [], none, .empty, .empty, .empty, .empty, 0, 0⟩

/-- R150, R154. -/
def Lck.reset : Lck := ⟨Vector.replicate 32 .reset, .reset, .reset⟩

/-- The Start-up Loader while RESETN is held; the address is read at entry to START (log entry 9). -/
def Sul.reset : Sul := ⟨0, .idle, [], false, none, none⟩

/-- Pin levels assumed at power-on (log entry 8). -/
def Pins.reset : Pins :=
  ⟨true, 0, Vector.replicate 6 0, Vector.replicate 6 false, Vector.replicate 6 0, false⟩

/-- The machine right after reset: RESETN held low, every item at its pin-reset value (R185). -/
def State.reset : State :=
  ⟨.reset, .reset, .reset, .reset, .reset, .reset, .reset, .reset, ⟨false⟩, 0, []⟩

end Sys2Proof.Machine
end

