-- ==== Sys2Proof/Machine/Ops.lean ====
section
/-! DEFINITION. Operations shared by every family: tables with a fixed number of rows, saturating
counters (spec/00 section 5), sets of addresses, round numbers (R1), ordering, free quotients and
bytes. -/

namespace Sys2Proof.Machine

/-- The six outputs, or the six circuits, in ascending order. -/
def sixIds : List (Fin 6) := [0, 1, 2, 3, 4, 5]

/-- The eight channels, in ascending order. -/
def eightIds : List (Fin 8) := [0, 1, 2, 3, 4, 5, 6, 7]

/-- The addresses 1…32 in ascending order. -/
def stationAddresses : List Nat := List.range' 1 32

/-- Rewrite one row of a table. -/
def updAt {α : Type} {n : Nat} (v : Vector α n) (i : Fin n) (f : α → α) : Vector α n :=
  v.set i (f v[i])

/-- Rewrite every row of a table, each by its place. -/
def mapRows {α : Type} {n : Nat} (v : Vector α n) (f : Fin n → α → α) : Vector α n :=
  Vector.ofFn fun i => f i v[i]

/-- Add to a counter that saturates at `cap` (00 section 5, Counters). -/
def satAdd (cap x n : Nat) : Nat := min cap (x + n)

/-- One more on a 16-bit counter (R150). -/
def bump16 (x : Nat) : Nat := satAdd 65535 x 1

/-- Place of address `a` in a table by address; `none` outside 1…32. -/
def place (a : Nat) : Option (Fin 32) :=
  if h : 1 ≤ a ∧ a ≤ 32 then some ⟨a - 1, by omega⟩ else none

/-- Address `a` is a member of the set (R134). -/
def inSet (h : AddrSet) (a : Nat) : Bool := decide (1 ≤ a) && h.getLsbD (a - 1)

/-- The set of the addresses of a list that lie in 1…32. -/
def addrSetOf (l : List Nat) : AddrSet :=
  l.foldl (fun h a => if 1 ≤ a then h ||| (BitVec.ofNat 32 (2 ^ (a - 1))) else h) 0

/-- Output or channel `i` of a one-byte set (R188): the first is in the least significant bit. -/
def bitOf (b : Byte) (i : Nat) : Bool := b.getLsbD i

/-! ### Round numbers (R1) -/

/-- How a named round stands to the current one (R1, R9). -/
inductive RoundOrder where
  | current
  | newerByOne
  | newerByMore
  | older
  deriving DecidableEq, Repr

/-- R1: `d = (r − c) mod 256`; newer for 1…127, current for 0, older for 128…255. -/
def roundOrder (r c : RoundNo) : RoundOrder :=
  let d := (r - c).toNat
  if d = 0 then .current else if d = 1 then .newerByOne else if d ≤ 127 then .newerByMore else .older

/-! ### Ordering -/

/-- Insert into an ordered list, before the elements that come no earlier. -/
def insertBy {α : Type} (lt : α → α → Bool) (x : α) : List α → List α
  | [] => [x]
  | y :: l => if lt y x then y :: insertBy lt x l else x :: y :: l

/-- A list put into ascending order; elements that come together keep their order. -/
def sortBy {α : Type} (lt : α → α → Bool) : List α → List α
  | [] => []
  | x :: l => insertBy lt x (sortBy lt l)

/-- Number of a class, P0 first (R55, R167). -/
def classRank : Cls → Nat
  | .p0 => 0
  | .p1 => 1
  | .p2 => 2
  | .p3 => 3

/-- Compare two keys of equal length by their first difference. -/
def keyLt : List Int → List Int → Bool
  | a :: l, b :: m => if a = b then keyLt l m else decide (a < b)
  | _, _ => false

/-! ### Free values -/

/-- A quotient whose rounding the spec does not state (log entry 10): exact where it is whole. -/
def freeQuot (a b : Nat) : Nat :=
  if a % b = 0 then a / b else a / b + (if Config.roundUp a b then 1 else 0)

/-- The mean of `ms` samples that sum to `sum`, in 0.1 LU steps up to 400.0 LU (R119); a free value
for a period of no length (log entry 11). -/
def meanLoad (free sum ms : Nat) : Nat :=
  min 4000 (if ms = 0 then Config.emptyMean free else freeQuot sum ms)

/-- The counter of the free values after the mean over a period of `ms` is taken. -/
def freeAfter (free ms : Nat) : Nat := if ms = 0 then free + 1 else free

/-- Division rounded up. -/
def ceilDiv (a b : Nat) : Nat := (a + (b - 1)) / b

/-! ### Bytes -/

/-- A number as one byte. -/
def byteOf (n : Nat) : Byte := BitVec.ofNat 8 n

/-- A number as two bytes, high byte first (R134). -/
def twoBytes (n : Nat) : List Byte := [byteOf (n / 256), byteOf n]

/-- A number as four bytes, high byte first (R134). -/
def fourBytes (n : Nat) : List Byte :=
  [byteOf (n / 16777216), byteOf (n / 65536), byteOf (n / 256), byteOf n]

/-- A signed number as two bytes in two's complement (R134, R165). -/
def signedTwo (i : Int) : List Byte := twoBytes (BitVec.ofInt 16 i).toNat

/-- A signed number as one byte in two's complement (R134). -/
def signedOne (i : Int) : Byte := BitVec.ofInt 8 i

/-- Byte `i` of a list of bytes as a number; 0 beyond its end. -/
def byteAt (l : List Byte) (i : Nat) : Nat := (l.getD i 0).toNat

/-- Bytes `i` and `i + 1` as a number, high byte first (R134, R188). -/
def wordAt (l : List Byte) (i : Nat) : Nat := byteAt l i * 256 + byteAt l (i + 1)

/-- Bytes `i` and `i + 1` as a signed number (R188). -/
def signedAt (l : List Byte) (i : Nat) : Int := (BitVec.ofNat 16 (wordAt l i)).toInt

/-- A set of addresses as four bytes, addresses 1…8 first (R134). -/
def addrSetBytes (h : AddrSet) : List Byte :=
  [h.extractLsb' 0 8, h.extractLsb' 8 8, h.extractLsb' 16 8, h.extractLsb' 24 8]

/-- Four bytes from place `i` as a set of addresses (R134). -/
def addrSetAt (l : List Byte) (i : Nat) : AddrSet :=
  BitVec.ofNat 32
    (byteAt l i + 256 * (byteAt l (i + 1) + 256 * (byteAt l (i + 2) + 256 * byteAt l (i + 3))))

/-- A set of factor codes as three bytes (R134). -/
def factorSetBytes (f : FactorSet) : List Byte :=
  [f.extractLsb' 0 8, f.extractLsb' 8 8, f.extractLsb' 16 8]

/-- Three bytes from place `i` as a set of factor codes (R134). -/
def factorSetAt (l : List Byte) (i : Nat) : FactorSet :=
  BitVec.ofNat 24 (byteAt l i + 256 * (byteAt l (i + 1) + 256 * byteAt l (i + 2)))

/-! ### Timers -/

/-- A timer one millisecond on; it waits at 0 for its expiry to be taken. -/
def countDown (t : Option Nat) : Option Nat := t.map (· - 1)

/-- A slot that is being sent (R141). -/
def Slot.isSending {π σ : Type} : Slot π σ → Bool
  | .sending _ => true
  | .empty => false
  | .pending _ => false

/-- A slot with a frame waiting for the line (R141). -/
def Slot.isPending {π σ : Type} : Slot π σ → Bool
  | .pending _ => true
  | .empty => false
  | .sending _ => false

/-- A slot with its waiting frame discarded; a frame being sent stays (R141). -/
def Slot.discard {π σ : Type} : Slot π σ → Slot π σ
  | .sending f => .sending f
  | .empty => .empty
  | .pending _ => .empty

/-- Some frame of the station's own holds the line (R138, R143). -/
def Lif.sending (l : Lif) : Bool :=
  l.openSlot.isSending || l.bidSlot.isSending || l.replySlot.isSending || l.testSlot.isSending

end Sys2Proof.Machine
end

