-- ==== Sys2Proof/Machine/Flags.lean ====
section
/-! DEFINITION. The Factor Unit (spec/10): the eighteen factors, raising, clearing, masking, the
ALARM pin and the alarm summary. -/

namespace Sys2Proof.Machine

/-- The factors (R176). -/
inductive Factor where
  | configBad | mismatch | isolated | peerLost | degraded | openConflict
  | txFail | duplicateBid | circuitTrip | circuitFailed | spareExhausted | sensorLost
  | belowPour | starved | limitOpen | peerAlarm | lineErrors | retired
  deriving DecidableEq, Repr

/-- Code of a factor (R176). -/
def Factor.code : Factor → Nat
  | .configBad => 1
  | .mismatch => 2
  | .isolated => 3
  | .peerLost => 4
  | .degraded => 5
  | .openConflict => 6
  | .txFail => 7
  | .duplicateBid => 8
  | .circuitTrip => 9
  | .circuitFailed => 10
  | .spareExhausted => 11
  | .sensorLost => 12
  | .belowPour => 13
  | .starved => 14
  | .limitOpen => 15
  | .peerAlarm => 16
  | .lineErrors => 17
  | .retired => 18

/-- The set of one factor. -/
def Factor.mark (f : Factor) : FactorSet := BitVec.ofNat 24 (2 ^ (f.code - 1))

/-- The codes 19…24, which name no factor (R134, R176). -/
def unnamedCodes : FactorSet := 0xFC0000

/-- A raise puts the factor into the status set, whatever its mask bit (R177). -/
def Fct.raise (u : Fct) (f : Factor) : Fct := { u with status := u.status ||| f.mark }

/-- A raise made only where its condition holds. -/
def Fct.raiseIf (u : Fct) (b : Bool) (f : Factor) : Fct := if b then u.raise f else u

/-- CLEAR_FACTORS removes each factor of its set (R179). -/
def Fct.clear (u : Fct) (codes : FactorSet) : Fct := { u with status := u.status &&& ~~~codes }

/-- SET_MASK, and the load of the image's mask, replace the whole mask set (R180). -/
def Fct.setMask (u : Fct) (codes : FactorSet) : Fct := { u with mask := codes }

/-- The factor's status is set. -/
def Fct.held (u : Fct) (f : Factor) : Bool := u.status.getLsbD (f.code - 1)

/-- The ALARM pin: some factor has status set and mask clear (R181). -/
def Fct.alarm (u : Fct) : Bool := decide (u.status &&& ~~~u.mask ≠ 0)

/-- The alarm summary: the level ALARM would have without PEER_ALARM (R182). -/
def Fct.summary (u : Fct) : Bool :=
  decide (u.status &&& ~~~u.mask &&& ~~~Factor.peerAlarm.mark ≠ 0)

/-- Raise a factor from a block of the plant. -/
def Plant.raise (p : Plant) (f : Factor) : Plant := { p with fct := p.fct.raise f }

/-- Raise a factor from a block of the plant where a condition holds. -/
def Plant.raiseIf (p : Plant) (b : Bool) (f : Factor) : Plant := { p with fct := p.fct.raiseIf b f }

/-- Raise a factor. -/
def State.raise (s : State) (f : Factor) : State := { s with plant := s.plant.raise f }

/-- Raise a factor where a condition holds. -/
def State.raiseIf (s : State) (b : Bool) (f : Factor) : State :=
  { s with plant := s.plant.raiseIf b f }

/-- Level of the ALARM pin (R181). -/
def State.alarm (s : State) : Bool := s.plant.fct.alarm

end Sys2Proof.Machine
end

