-- ==== Sys2Proof/WellFormed.lean ====
section
/-! DEFINITION. Which commands the outside world can send: the operands' ranges, from the byte
layouts of spec/07 R134 and R139, the transfers of spec/11 R187 and the measurements of spec/05 R96
and spec/06 R119. -/

namespace Sys2Proof

/-- A demand record that a GOOD BID can carry (R134, R139). -/
def DemandRecord.wf (r : DemandRecord) : Bool :=
  decide (1 ≤ r.circuit ∧ r.circuit ≤ 6) && decide (r.cls ≠ .p3) &&
    decide (-128 ≤ r.margin ∧ r.margin ≤ 127) && decide (1 ≤ r.need ∧ r.need ≤ 200)

/-- Circuit ids strictly ascending (R139). -/
def ascending : List DemandRecord → Bool
  | a :: b :: l => decide (a.circuit < b.circuit) && ascending (b :: l)
  | _ => true

/-- An address of a station, 1…32 (R137). -/
def isStation (a : Nat) : Bool := decide (1 ≤ a ∧ a ≤ 32)

/-- A destination a request may name, 1…32 or 255 (R139). -/
def isDestination (d : Byte) : Bool := isStation d.toNat || decide (d = 255)

/-- The field conditions of an OPEN (R139). -/
def OpenFrame.wf (f : OpenFrame) : Bool := isStation f.opener

/-- The field conditions of a BID (R139). -/
def BidFrame.wf (f : BidFrame) : Bool :=
  isStation f.sender && isStation f.opener && decide (f.load ≤ 1200) &&
    decide (f.records.length ≤ 6) && f.records.all DemandRecord.wf && ascending f.records

/-- The field conditions of a TEST, and its 32 payload bytes (R134, R139). -/
def TestFrame.wf (f : TestFrame) : Bool :=
  isStation f.sender && decide (f.payload.length = 32)

/-- The field conditions of a REPLY (R139). -/
def ReplyFrame.wf (f : ReplyFrame) : Bool :=
  isStation f.source && decide (f.body.length ≤ 52)

/-- The field conditions of a QUERY or COMMAND; a COMMAND is 8…64 bytes long (R139). -/
def Request.wf : Request → Bool
  | .query q => isDestination q.dest
  | .command c => isDestination c.dest && decide (c.args.length ≤ 56)

/-- The fields of a frame hold as R139 asks of a GOOD frame. -/
def Frame.wf : Frame → Bool
  | .openFrame f => f.wf
  | .bid f => f.wf
  | .request r => r.wf
  | .reply f => f.wf
  | .test f => f.wf

/-- A request whose kind names no query and no command (R161, stage 1). -/
def Request.unknown : Request → Bool
  | .query q => decide (q.kind.toNat < 1 ∨ 8 < q.kind.toNat)
  | .command c => decide (c.kind.toNat < 1 ∨ 7 < c.kind.toNat)

/-- A transfer reads at most 32 bytes (R187). -/
def TransferOutcome.wf : TransferOutcome → Bool
  | .success bytes => decide (bytes.length ≤ 32)
  | .busHeld => true
  | .noAcknowledge => true

/-- An in-range result lies in −60.0…+250.0 °C (R96). -/
def Conversion.wf : Conversion → Bool
  | .inRange m => decide (-60000 ≤ m ∧ m ≤ 250000)
  | .aboveRange => true
  | .belowRange => true

/-- The ranges of the measurements: leakage 0…1,000 mA, load 0…400.0 LU, both saturating (R119). -/
def RawInput.wf : RawInput → Bool
  | .leakage _ mA => decide (mA ≤ 1000)
  | .load _ t => decide (t ≤ 4000)
  | .limit _ _ => true
  | .flow _ => true
  | .strap _ _ => true
  | .lineStart => true
  | .lineCharacter _ => true

/-- The operands of a command lie in the ranges the spec gives them. -/
def Instr.wf : Instr → Bool
  | .transferAttemptEnd o => o.wf
  | .openReceived f => f.wf
  | .bidReceived f => f.wf
  | .testFrameReceived f => f.wf
  | .replyFrameReceived f => f.wf
  | .badFrameReceived bytes => decide (8 ≤ bytes.length ∧ bytes.length ≤ 64)
  | .queryStation d _ _ | .queryCircuits d _ _ | .queryOutputs d _ _ | .querySensors d _ _
  | .queryRoster d _ _ | .queryAllotment d _ _ | .queryFactors d _ _ | .queryQuality d _ _ =>
    isDestination d
  | .clearFactors d _ args | .setMask d _ args | .testOutput d _ args | .linecheck d _ args
  | .retire d _ args | .restart d _ args | .clearQuality d _ args =>
    isDestination d && decide (args.length ≤ 56)
  | .unknownRequest r => r.wf && r.unknown
  | .conversionEnd m => m.wf
  | .rawInputChange i => i.wf
  | .overloadDetected _ load => decide (load ≤ 4000)
  | .pinReset | .resetnRelease _ | .clockHoldTimeout | .attemptRetryDelayExpiry
  | .frameGapTimeout | .deferenceExpiry | .openCheckEnd _ | .bidCheckEnd _ | .replyCheckEnd _
  | .testCheckEnd _ | .roundTimerExpiry | .listenTimerExpiry | .windowStart _ | .onTimeElapsed _
  | .settleTimerExpiry _ | .limitFilteredChange _ _ | .leakageFilteredChange _ _
  | .flowFilteredChange _ | .holdOffExpiry _ | .tripClearTimeReached _ | .testDurationExpiry
  | .brokenFrame => true

end Sys2Proof
end

