-- ==== Sys2Proof/Machine/Frames.lean ====
section
/-! DEFINITION. Bytes of the zone line: the CRC (R135), the byte layout of every frame kind (R134),
the judgement of a received frame's bytes (R139), and the TEST payload (R155). -/

namespace Sys2Proof.Machine

/-! ### CRC (R135) -/

/-- One bit of the CRC: generator x^16 + x^12 + x^5 + 1. -/
def crcBit (crc : Word16) (bit : Bool) : Word16 :=
  if crc.msb == bit then crc <<< 1 else (crc <<< 1) ^^^ 0x1021

/-- One byte of the CRC, most significant bit first. -/
def crcByte (crc : Word16) (b : Byte) : Word16 :=
  [7, 6, 5, 4, 3, 2, 1, 0].foldl (fun c i => crcBit c (b.getLsbD i)) crc

/-- The CRC of a run of bytes, from a register of all ones (R135). -/
def crc16 (bytes : List Byte) : Word16 := bytes.foldl crcByte 0xFFFF

/-! ### Layouts (R134) -/

/-- Kind byte of a frame. -/
def kindByte : Frame → Byte
  | .openFrame _ => 1
  | .bid _ => 2
  | .request (.query _) => 3
  | .request (.command _) => 4
  | .reply _ => 5
  | .test _ => 6

/-- Code of a flow report (R134). -/
def flowCode : FlowReport → Nat
  | .noReport => 0
  | .flow => 1
  | .stop => 2

/-- Code of a result (R134). -/
def resultCode : Result → Nat
  | .done => 1
  | .accepted => 2
  | .busy => 3
  | .refused => 4
  | .badRequest => 5

/-- The four bytes of a demand record (R134). -/
def recordBytes (r : DemandRecord) : List Byte :=
  [byteOf r.circuit, byteOf (classRank r.cls), signedOne r.margin, byteOf r.need]

/-- The flags byte of a BID (R134). -/
def bidFlags (f : BidFrame) : Byte :=
  byteOf ((if f.member then 1 else 0) + 2 * flowCode f.flow + (if f.alarm then 8 else 0))

/-- The bytes of a frame between its length byte and its CRC (R134). -/
def fieldBytes : Frame → List Byte
  | .openFrame f =>
    [byteOf f.opener, f.round] ++ addrSetBytes f.heard ++ twoBytes f.digest.toNat
  | .bid f =>
    [byteOf f.sender, f.round, byteOf f.opener, bidFlags f] ++ twoBytes f.digest.toNat ++
      twoBytes f.load ++ [byteOf f.records.length] ++ (f.records.map recordBytes).flatten
  | .request (.query q) => [0, q.dest, q.tag, q.kind, q.page]
  | .request (.command c) => [0, c.dest, c.tag, c.kind] ++ c.args
  | .reply f =>
    [byteOf f.source, 0, f.tag, f.reqType, f.reqKind, byteOf (resultCode f.result), f.page,
      f.pageCount] ++ f.body
  | .test f => [byteOf f.sender] ++ twoBytes f.seed.toNat ++ [f.index] ++ f.payload

/-- All bytes of a frame, first on the line first (R134, R135). -/
def frameBytes (f : Frame) : List Byte :=
  let body := [kindByte f, byteOf ((fieldBytes f).length + 4)] ++ fieldBytes f
  body ++ twoBytes (crc16 body).toNat

/-! ### Judging received bytes (R139) -/

/-- The judgement of received bytes: GOOD with the frame they carry, or BAD by its CRC (a broken
frame counts with these, R151), or BAD by its kind, length or fields. -/
inductive Verdict where
  | good (f : Frame)
  | crcFailed
  | rejected
  deriving DecidableEq, Repr

/-- Class of a record's class byte. -/
def classOf : Nat → Option Cls
  | 0 => some .p0
  | 1 => some .p1
  | 2 => some .p2
  | _ => none

/-- Flow report of a BID's flags. -/
def flowOf : Nat → Option FlowReport
  | 0 => some .noReport
  | 1 => some .flow
  | 2 => some .stop
  | _ => none

/-- Result of a REPLY's result byte. -/
def resultOf : Nat → Option Result
  | 1 => some .done
  | 2 => some .accepted
  | 3 => some .busy
  | 4 => some .refused
  | 5 => some .badRequest
  | _ => none

/-- The `k` demand records that begin at byte `i`. -/
def recordsAt (l : List Byte) (i : Nat) : Nat → Option (List DemandRecord)
  | 0 => some []
  | k + 1 =>
    match classOf (byteAt l (i + 1)), recordsAt l (i + 4) k with
    | some c, some rest =>
      some (⟨byteAt l i, c, (BitVec.ofNat 8 (byteAt l (i + 2))).toInt, byteAt l (i + 3)⟩ :: rest)
    | _, _ => none

/-- The frame that the bytes spell, where the kind, the length and the enumerated fields allow it
(R134, R139). Bits 4…7 of a BID's flags are not judged. -/
def readFrame (l : List Byte) : Option Frame :=
  let b := byteAt l
  let at' := fun i => byteOf (b i)
  let n := l.length
  match b 0 with
  | 1 =>
    if n = 12 then
      some (.openFrame ⟨b 2, at' 3, addrSetAt l 4, BitVec.ofNat 16 (wordAt l 8)⟩)
    else none
  | 2 =>
    if n = 13 + 4 * b 10 then
      match flowOf (b 5 / 2 % 4), recordsAt l 11 (b 10) with
      | some fl, some rs =>
        some (.bid ⟨b 2, at' 3, b 4, decide (b 5 % 2 = 1), fl, decide (b 5 / 8 % 2 = 1),
          BitVec.ofNat 16 (wordAt l 6), wordAt l 8, rs⟩)
      | _, _ => none
    else none
  | 3 =>
    if n = 9 ∧ b 2 = 0 then some (.request (.query ⟨at' 3, at' 4, at' 5, at' 6⟩)) else none
  | 4 =>
    if b 2 = 0 then
      some (.request (.command ⟨at' 3, at' 4, at' 5, (l.drop 6).take (n - 8)⟩))
    else none
  | 5 =>
    if 12 ≤ n ∧ b 3 = 0 then
      (resultOf (b 7)).map fun r =>
        .reply ⟨b 2, at' 4, at' 5, at' 6, r, at' 8, at' 9, (l.drop 10).take (n - 12)⟩
    else none
  | 6 =>
    if n = 40 then
      some (.test ⟨b 2, BitVec.ofNat 16 (wordAt l 3), at' 5, (l.drop 6).take 32⟩)
    else none
  | _ => none

/-- R139: the CRC first, then kind, length and fields. Bytes whose number is not the length byte's,
or outside 8…64, are a broken frame (R133). -/
def judgeBytes (l : List Byte) : Verdict :=
  if byteAt l 1 ≠ l.length ∨ l.length < 8 ∨ 64 < l.length then .crcFailed
  else if (crc16 (l.take (l.length - 2))).toNat ≠ wordAt l (l.length - 2) then .crcFailed
  else
    match readFrame l with
    | some f => if f.wf then .good f else .rejected
    | none => .rejected

/-! ### The TEST payload (R155) -/

/-- One step of the 16-bit shift register. -/
def lfsrStep (r : Word16) : Word16 :=
  let bit := ((r.getLsbD 0 ^^ r.getLsbD 2) ^^ r.getLsbD 3) ^^ r.getLsbD 5
  (r >>> 1) ||| (if bit then 0x8000 else 0)

/-- Eight steps of the register. -/
def lfsrEight (r : Word16) : Word16 :=
  lfsrStep (lfsrStep (lfsrStep (lfsrStep (lfsrStep (lfsrStep (lfsrStep (lfsrStep r)))))))

/-- The value the register is loaded with: the seed combined with index × 257, 1 in place of 0. -/
def lfsrLoad (seed : Word16) (index : Nat) : Word16 :=
  let v := seed ^^^ BitVec.ofNat 16 (index * 257)
  if v = 0 then 1 else v

/-- The next `n` payload bytes of the register. -/
def payloadFrom (r : Word16) : Nat → List Byte
  | 0 => []
  | n + 1 => (lfsrEight r).setWidth 8 :: payloadFrom (lfsrEight r) n

/-- The 32 payload bytes for a seed and an index (R155). -/
def testPayload (seed : Word16) (index : Nat) : List Byte := payloadFrom (lfsrLoad seed index) 32

end Sys2Proof.Machine
end

