-- ==== Sys2Proof/Machine/Image.lean ====
section
/-! DEFINITION. The configuration image (spec/11): its layout (R188), its judgement in six stages
(R189), the digest (R136, R190), the five transfers (R187), the floor and the shares (R48). -/

namespace Sys2Proof.Machine

/-- The eleven bytes of circuit `i + 1` (R188). -/
def readCircuit (l : List Byte) (i : Nat) : CircuitCfg :=
  let o := 31 + 11 * i
  { configured := byteAt l o, primary := byteAt l (o + 1), primarySensor := byteAt l (o + 2),
    backupSensor := byteAt l (o + 3), spFlowing := signedAt l (o + 4),
    spStandstill := signedAt l (o + 6), band := signedAt l (o + 8), fallback := byteAt l (o + 10) }

/-- The fields of the image in the working copy (R188). -/
def readImage (l : List Byte) : Image :=
  { format := byteAt l 0, length := wordAt l 1, budget := wordAt l 3, stations := byteAt l 5,
    reserveCount := byteAt l 6, reserve1 := (byteAt l 7, wordAt l 8),
    reserve2 := (byteAt l 10, wordAt l 11), pourPoint := signedAt l 13, lowMargin := byteAt l 15,
    period := byteAt l 16, stale := byteAt l 17,
    outputs := Vector.ofFn fun i => (byteAt l (18 + 2 * i.val), byteAt l (19 + 2 * i.val)),
    knownBad := byteOf (byteAt l 30), circuits := Vector.ofFn fun i => readCircuit l i.val,
    channels := byteOf (byteAt l 97), rate := byteAt l 98, leakThreshold := wordAt l 99,
    glitchLeakage := byteAt l 101, glitchLimit := byteAt l 102, glitchFlow := byteAt l 103,
    holdOff := wordAt l 104, tripLimit := byteAt l 106, tripClear := wordAt l 107,
    window := byteAt l 109, flowWired := byteAt l 110, mask := factorSetAt l 111,
    checksum := wordAt l 114 }

/-! ### Judging (R189) -/

/-- A number lies in a stored range, both ends included. -/
def inRange (lo x hi : Int) : Bool := decide (lo ≤ x ∧ x ≤ hi)

/-- Stage 1: the format byte is 1. -/
def formatOk (m : Image) : Bool := decide (m.format = 1)

/-- Stage 2: the length field is 116. -/
def lengthOk (m : Image) : Bool := decide (m.length = Config.imageLength)

/-- Stage 3: the CRC over bytes 0…113 equals the checksum. -/
def checksumOk (l : List Byte) : Bool := decide ((crc16 (l.take 114)).toNat = wordAt l 114)

/-- A reserve entry in use names an address in 1…N with 1…65,535 LU; one not in use is zero. -/
def reserveOk (m : Image) (used : Bool) (r : Nat × Nat) : Bool :=
  if used then inRange 1 r.1 m.stations && inRange 1 r.2 65535 else decide (r = (0, 0))

/-- The LU of the used reserves (R48); an unused entry holds 0. -/
def reserveSum (m : Image) : Nat := m.reserve1.2 + m.reserve2.2

/-- Stage 4: the shared section. -/
def sharedOk (m : Image) : Bool :=
  inRange 1 m.budget 65535 && inRange 1 m.stations 32 && inRange 0 m.reserveCount 2 &&
    reserveOk m (decide (1 ≤ m.reserveCount)) m.reserve1 &&
    reserveOk m (decide (2 ≤ m.reserveCount)) m.reserve2 &&
    (decide (m.reserveCount < 2) || decide (m.reserve1.1 ≠ m.reserve2.1)) &&
    decide (reserveSum m < m.budget) && inRange (-200) m.pourPoint 800 &&
    inRange 1 m.lowMargin 30 && inRange 5 m.period 120 && inRange 1 m.stale 7

/-- A circuit id is configured (R70). -/
def isConfigured (m : Image) (c : Fin 6) : Bool := decide (m.circuits[c].configured = 1)

/-- The output a byte 1…6 names. -/
def outputOf (b : Nat) : Option (Fin 6) :=
  if h : 1 ≤ b ∧ b ≤ 6 then some ⟨b - 1, by omega⟩ else none

/-- The channel a byte 1…8 names. -/
def channelOf (b : Nat) : Option (Fin 8) :=
  if h : 1 ≤ b ∧ b ≤ 8 then some ⟨b - 1, by omega⟩ else none

/-- Primary output of a circuit's configuration (R69). -/
def primaryOf (m : Image) (c : Fin 6) : Option (Fin 6) := outputOf m.circuits[c].primary

/-- A channel is enabled (R95). -/
def isEnabled (m : Image) (t : Fin 8) : Bool := bitOf m.channels t.val

/-- Stage 5, one output: its role and rated load. -/
def outputOk (m : Image) (o : Fin 6) : Bool :=
  inRange 0 m.outputs[o].1 2 && inRange 1 m.outputs[o].2 200

/-- Stage 5, a sensor byte names an enabled channel. -/
def sensorOk (m : Image) (b : Nat) : Bool :=
  match channelOf b with
  | some t => isEnabled m t
  | none => false

/-- Stage 5, the fields of one configured circuit and what they must agree with. -/
def circuitOk (m : Image) (c : Fin 6) : Bool :=
  let k := m.circuits[c]
  inRange (-600) k.spFlowing 2500 && inRange (-600) k.spStandstill 2500 &&
    inRange 10 k.band 500 && inRange 0 k.fallback 200 && sensorOk m k.primarySensor &&
    (decide (k.backupSensor = 0) ||
      (sensorOk m k.backupSensor && decide (k.backupSensor ≠ k.primarySensor))) &&
    match outputOf k.primary with
    | some o => decide (m.outputs[o].1 = 1) && decide (k.fallback ≤ m.outputs[o].2)
    | none => false

/-- Stage 5: an output of role PRIMARY is the primary output of exactly one configured circuit. -/
def primaryOnce (m : Image) (o : Fin 6) : Bool :=
  decide (m.outputs[o].1 ≠ 1) ||
    decide ((sixIds.filter fun c => isConfigured m c && decide (primaryOf m c = some o)).length = 1)

/-- Stage 5: the local section. -/
def localOk (m : Image) : Bool :=
  sixIds.all (outputOk m) && decide (m.knownBad.toNat < 64) &&
    sixIds.all (fun c => inRange 0 m.circuits[c].configured 1) &&
    sixIds.all (fun c => !isConfigured m c || circuitOk m c) && sixIds.all (primaryOnce m) &&
    inRange 5 m.rate 200 && inRange 10 m.leakThreshold 300 && inRange 1 m.glitchLeakage 15 &&
    inRange 1 m.glitchLimit 15 && inRange 1 m.glitchFlow 15 && inRange 10 m.holdOff 3600 &&
    inRange 1 m.tripLimit 7 && inRange 10 m.tripClear 1440 && inRange 2 m.window 30 &&
    inRange 0 m.flowWired 1 && decide (m.mask &&& 0xFC0000 = 0)

/-- Stage 6: the strap address is at most N. -/
def addressOk (m : Image) (rank : Fin 32) : Bool := decide (rank.val + 1 ≤ m.stations)

/-- Stages 1 to 4 pass: the shared section is good (R190). -/
def sharedPasses (l : List Byte) : Bool :=
  formatOk (readImage l) && lengthOk (readImage l) && checksumOk l && sharedOk (readImage l)

/-- All six stages pass: the image is GOOD (R189). -/
def imagePasses (l : List Byte) (rank : Fin 32) : Bool :=
  sharedPasses l && localOk (readImage l) && addressOk (readImage l) rank

/-- The digest: the CRC of the shared section, bytes 3…17 (R136, R190). -/
def sharedDigest (l : List Byte) : Word16 := crc16 ((l.drop 3).take 15)

/-- Bytes of each of the five transfers (R187). -/
def transferSize : Nat → Nat
  | 1 => 3
  | 2 => 32
  | 3 => 32
  | 4 => 32
  | 5 => 17
  | _ => 0

/-! ### Shares (R48) -/

/-- The floor F = floor((B − R) / N). -/
def floorOf (m : Image) : Nat := (m.budget - reserveSum m) / m.stations

/-- LU that reserve entry `r` adds to address `a`. -/
def reserveFor (r : Nat × Nat) (a : Nat) : Nat := if r.1 = a then r.2 else 0

/-- The share of address `a`: the floor and its reserve; addresses above N have none. -/
def shareOf (m : Image) (a : Nat) : Nat :=
  if 1 ≤ a ∧ a ≤ m.stations then floorOf m + reserveFor m.reserve1 a + reserveFor m.reserve2 a
  else 0

end Sys2Proof.Machine
end

