-- ==== Sys2Proof/Machine/Operands.lean ====
section
/-! DEFINITION. What the blocks of the plant read from the rest of the station: the image, the
station's address, membership, pins, readings and line state; and the ways of naming rows. -/

namespace Sys2Proof.Machine

/-- What the Circuit Controller, the Output Guard and the Allotment Unit read of other blocks. -/
structure Env where
  img : Image
  good : Bool
  own : Nat
  membership : Membership
  pins : Pins
  channels : Vector Channel 8
  line : LineState
  declaredClosed : Option Nat
  now : Nat

/-- The image in the working copy (R188). -/
def State.img (s : State) : Image := readImage s.sul.copy

/-- The station's own address: the strap value plus one (R186). -/
def State.own (s : State) : Nat := s.sul.rank.val + 1

/-- The image has been judged GOOD, so its settings are in force (R48, R189). -/
def State.imageGood (s : State) : Bool := decide (s.sul.judgement = some .good)

/-- What the plant reads of the station as it stands. -/
def State.env (s : State) : Env :=
  { img := s.img, good := s.imageGood, own := s.own, membership := s.rct.membership,
    pins := s.pins, channels := s.ssc.rows, line := s.rst.line,
    declaredClosed := s.rct.declaredClosed, now := s.now }

/-- The share of an address; none is in force before a GOOD judgement (R48). -/
def Env.share (e : Env) (a : Nat) : Nat := if e.good then shareOf e.img a else 0

/-- Length of a firing window in ms (R87). -/
def Env.windowMs (e : Env) : Nat := e.img.window * 1000

/-- LISTEN, JOINING or MEMBER: the memberships that follow rounds (01 section 1.8). -/
def Membership.follows : Membership → Bool
  | .listen => true
  | .joining => true
  | .member => true
  | .start => false
  | .blocked => false
  | .retired => false

/-- JOINING or MEMBER: the memberships that open rounds and send bids (01 section 1.8). -/
def Membership.bids : Membership → Bool
  | .joining => true
  | .member => true
  | .start => false
  | .blocked => false
  | .listen => false
  | .retired => false

/-- SETTLING, REGULATING and SENSOR-LOST are the energizable states (04 section 4.2). -/
def CState.energizable : CState → Bool
  | .settling => true
  | .regulating => true
  | .sensorLost => true
  | .disabled => false
  | .inhibited => false
  | .tripped => false
  | .failed => false
  | .testing => false

/-- The circuit a role names (R112). -/
def Role.circuit : Role → Option (Fin 6)
  | .primary c => some c
  | .spareBound c => some c
  | .spareFree => none
  | .unused => none
  | .bad => none

/-- The output bound to a circuit: the one whose role names it (R112). -/
def Ogd.boundTo (g : Ogd) (c : Fin 6) : Option (Fin 6) :=
  sixIds.find? fun o => decide (g.outputs[o].role.circuit = some c)

/-- The rated load of a circuit is that of its bound output; 0 with none (R70, log entry 26). -/
def Ogd.ratedOf (g : Ogd) (c : Fin 6) : Nat :=
  match g.boundTo c with
  | some o => g.outputs[o].rated
  | none => 0

/-- An output is in the BAD set (R113). -/
def Ogd.isBad (g : Ogd) (o : Fin 6) : Bool := decide (g.outputs[o].role = .bad)

/-- The lowest-numbered free spare (R114, R126). -/
def Ogd.lowestSpare (g : Ogd) : Option (Fin 6) :=
  sixIds.find? fun o => decide (g.outputs[o].role = .spareFree)

/-- Output `o` is under test (R129). -/
def Ogd.underTest (g : Ogd) (o : Fin 6) : Bool :=
  match g.test with
  | some t => decide (t.output = o)
  | none => false

/-- Rewrite one output row. -/
def Plant.updOut (p : Plant) (o : Fin 6) (f : OutputRow → OutputRow) : Plant :=
  { p with ogd := { p.ogd with outputs := updAt p.ogd.outputs o f } }

/-- Rewrite one circuit row. -/
def Plant.updCct (p : Plant) (c : Fin 6) (f : CircuitRow → CircuitRow) : Plant :=
  { p with cct := updAt p.cct c f }

/-- Rewrite one trip record. -/
def Plant.updTrip (p : Plant) (c : Fin 6) (f : TripRec → TripRec) : Plant :=
  { p with ogd := { p.ogd with trips := updAt p.ogd.trips c f } }

/-- Rewrite the test record. -/
def Plant.setTest (p : Plant) (t : Option TestRecord) : Plant :=
  { p with ogd := { p.ogd with test := t } }

/-- The raw level of a leakage input: asserted at or above the threshold (R115). -/
def Env.rawLeakage (e : Env) (o : Fin 6) : Bool :=
  decide (e.img.leakThreshold ≤ e.pins.leakage[o])

/-- The leakage current as measured: 0…1,000 mA, saturating (R119). -/
def Env.leakageNow (e : Env) (o : Fin 6) : Nat := min 1000 e.pins.leakage[o]

/-- The load current as measured: 0…400.0 LU in 0.1 LU steps, saturating (R111). -/
def Env.loadNow (e : Env) (o : Fin 6) : Nat := min 4000 e.pins.load[o]

/-- The fallback need in use: the lesser of the image's and the rated load (R70). -/
def fallbackInUse (e : Env) (p : Plant) (c : Fin 6) : Nat :=
  min e.img.circuits[c].fallback (p.ogd.ratedOf c)

end Sys2Proof.Machine
end

