-- ==== Sys2Proof/Machine/Allotment.lean ====
section
/-! DEFINITION. The Allotment Unit's arithmetic (spec/03): classification, bases, the pool and its
pass (R51 to R57), the local order and the local spread (R59), the degraded cap (R61), the grants by
kind (R50) and the test deduction (R65). -/

namespace Sys2Proof.Machine

/-! ### The division of a COMPLETE round (R51 to R57) -/

/-- What a COMPLETE division reads (03 section 3.3). -/
structure Ledger where
  settled : BidBuffer
  rows : Vector PeerRow 32
  heard : AddrSet
  digest : Option Word16

/-- The bid of address `a` in a buffer. -/
def bidOf (b : BidBuffer) (a : Nat) : Option BidFrame := (place a).bind fun i => b[i]

/-- The need of a bid: the sum of its records' needs (R51). -/
def bidNeed (b : BidFrame) : Nat := (b.records.map DemandRecord.need).sum

/-- Status of the peer row of address `a`. -/
def statusOf (rows : Vector PeerRow 32) (a : Nat) : Option PeerStatus :=
  (place a).map fun i => rows[i].status

/-- The settled bid that makes address `a` a participant (R52, first line). -/
def participantBid (l : Ledger) (a : Nat) : Option BidFrame :=
  if inSet l.heard a then
    (bidOf l.settled a).filter fun b => b.member && decide (some b.digest = l.digest)
  else none

/-- Classification of address `a` (R52); the own row is never RETIRED. -/
def classify (own : Nat) (l : Ledger) (a : Nat) : Classification :=
  if (participantBid l a).isSome then .participant
  else if !inSet l.heard a && decide (a ≠ own) && decide (statusOf l.rows a = some .retired) then
    .released
  else .charged

/-- Base of an address: the lesser of its share and its need where it is a participant (R53). -/
def baseOf (e : Env) (l : Ledger) (a : Nat) : Nat :=
  match participantBid l a with
  | some b => min (e.share a) (bidNeed b)
  | none => 0

/-- What an address adds to the pool (R54). -/
def poolShare (e : Env) (l : Ledger) (a : Nat) : Nat :=
  match classify e.own l a with
  | .participant => e.share a - baseOf e l a
  | .released => e.share a
  | .charged => 0

/-- Order of records: class, margin, station address, circuit id (R55, R56). -/
def recordLt (x y : RecEntry) : Bool :=
  keyLt [classRank x.cls, x.margin, x.addr, x.circuit] [classRank y.cls, y.margin, y.addr, y.circuit]

/-- A record before any power is given to it. -/
def blankRecord (a : Nat) (r : DemandRecord) : RecEntry :=
  ⟨a, r.circuit, r.cls, r.margin, r.need, 0, 0⟩

/-- R55: each record in turn takes the lesser of its need and the base not yet spread. -/
def spreadBase (base : Nat) : List RecEntry → List RecEntry
  | [] => []
  | r :: l => { r with basePart := min r.need base } :: spreadBase (base - min r.need base) l

/-- R56: each record in turn takes the lesser of its residual need and the pool not yet given. -/
def poolPass (pool : Nat) : List RecEntry → List RecEntry
  | [] => []
  | r :: l =>
    { r with poolPart := min (r.need - r.basePart) pool } ::
      poolPass (pool - min (r.need - r.basePart) pool) l

/-- The records of a participant, with its base spread over them (R55). -/
def recordsOf (e : Env) (l : Ledger) (a : Nat) : List RecEntry :=
  match participantBid l a with
  | some b => spreadBase (baseOf e l a) (sortBy recordLt (b.records.map (blankRecord a)))
  | none => []

/-- The configured addresses 1…N. -/
def configuredAddresses (e : Env) : List Nat := List.range' 1 e.img.stations

/-- The pool parts of one address (R56). -/
def poolPartOf (rs : List RecEntry) (a : Nat) : Nat :=
  ((rs.filter fun r => decide (r.addr = a)).map RecEntry.poolPart).sum

/-- The division of a COMPLETE round (R51 to R57). -/
def divide (e : Env) (l : Ledger) : Division :=
  let addrs := configuredAddresses e
  let pool := (addrs.map (poolShare e l)).sum
  let rs := poolPass pool (sortBy recordLt (addrs.map (recordsOf e l)).flatten)
  { heard := l.heard,
    entries := addrs.map fun a =>
      { addr := a, cls := classify e.own l a,
        charge := if classify e.own l a = .charged then e.share a else 0,
        base := baseOf e l a, poolPart := poolPartOf rs a },
    records := rs, poolTotal := pool, poolLeft := pool - (rs.map RecEntry.poolPart).sum }

/-- Grant of a record (R57). -/
def RecEntry.grant (r : RecEntry) : Nat := r.basePart + r.poolPart

/-- The station's own records of a division. -/
def ownRecords (own : Nat) (d : Division) : List RecEntry :=
  d.records.filter fun r => decide (r.addr = own)

/-- The station is a participant of a division (R52, R58). -/
def isParticipant (own : Nat) (d : Division) : Bool :=
  d.entries.any fun x => decide (x.addr = own) && decide (x.cls = .participant)

/-! ### Local order and spread (R59) -/

/-- Key of a circuit in local order: class, margin (none as −128, R85), circuit id (R59). -/
def localKey (p : Plant) (c : Fin 6) : List Int :=
  [((p.cct[c].cls.map classRank).getD 4 : Nat), p.cct[c].margin.getD (-128), (c.val : Nat)]

/-- The circuits taken in a local spread, in local order (R59). -/
def localOrder (p : Plant) : List (Fin 6) :=
  sortBy (fun a b => keyLt (localKey p a) (localKey p b))
    (sixIds.filter fun c => p.cct[c].state.energizable && decide (0 < p.cct[c].need))

/-- R59: each circuit in turn is granted the lesser of its need and the amount not yet spread. -/
def spreadOver (p : Plant) (amount : Nat) (grants : Vector Nat 6) : List (Fin 6) → Vector Nat 6
  | [] => grants
  | c :: l =>
    spreadOver p (amount - min p.cct[c].need amount) (grants.set c (min p.cct[c].need amount)) l

/-- No grants. -/
def noGrants : Vector Nat 6 := Vector.replicate 6 0

/-- The local spread of an amount (R59). -/
def localSpread (p : Plant) (amount : Nat) : Vector Nat 6 :=
  spreadOver p amount noGrants (localOrder p)

/-- The grants of a participant's own records, by the circuit id each names (R58). -/
def recordGrants (own : Nat) (d : Division) : Vector Nat 6 :=
  Vector.ofFn fun c =>
    (((ownRecords own d).filter fun r => decide (r.circuit = c.val + 1)).map RecEntry.grant).sum

/-- The own circuit grants by kind, from the allotment table (R50, R58, R60). -/
def grantsByKind (e : Env) (p : Plant) : Vector Nat 6 :=
  match p.alu.division with
  | some d => if isParticipant e.own d then recordGrants e.own d else localSpread p p.alu.own
  | none => localSpread p p.alu.own

/-! ### The test deduction (R65) -/

/-- The circuit ids of the station's own records, in their order, as places. -/
def recordOrder (own : Nat) (d : Division) : List (Fin 6) :=
  (sortBy recordLt (ownRecords own d)).filterMap fun r => outputOf r.circuit

/-- Local order for a deduction: a participant's own records, else R59's order; circuits outside it
come last (log entry 16). -/
def deductionOrder (e : Env) (p : Plant) : List (Fin 6) :=
  let order :=
    match p.alu.division with
    | some d => if isParticipant e.own d then recordOrder e.own d else localOrder p
    | none => localOrder p
  order ++ sixIds.filter fun c => decide (c ∉ order)

/-- Lower grants in the order given, each by the lesser of its grant and the excess still to remove. -/
def lowerGrants (excess : Nat) (grants : Vector Nat 6) : List (Fin 6) → Vector Nat 6
  | [] => grants
  | c :: l =>
    lowerGrants (excess - min grants[c] excess) (grants.set c (grants[c] - min grants[c] excess)) l

/-- Sum of the six grants. -/
def grantSum (g : Vector Nat 6) : Nat := (sixIds.map fun c => g[c]).sum

/-- R65: the tested circuit is granted 0, and the other grants are lowered in reverse local order
until their sum is at most `room`. -/
def deductGrants (e : Env) (p : Plant) (circuit : Option (Fin 6)) (room : Nat)
    (grants : Vector Nat 6) : Vector Nat 6 :=
  let g :=
    match circuit with
    | some c => grants.set c 0
    | none => grants
  lowerGrants (grantSum g - room) g (deductionOrder e p).reverse

/-! ### The own allotment (R50, R61) -/

/-- R61: the degraded cap. `unsettled` says that the heard set of the adopted OPEN names the station
and its own bid is not settled. -/
def degradedCap (e : Env) (unsettled : Bool) : CapSource :=
  if unsettled then .unsettled
  else
    match e.declaredClosed with
    | none => .share
    | some n => .declared n

/-- The own allotment a cap source gives (R61). -/
def capAmount (e : Env) : CapSource → Nat
  | .share => e.share e.own
  | .declared n => min (e.share e.own) n
  | .unsettled => 0

/-- What a computation is asked for (R49). -/
inductive Computation where
  | complete (l : Ledger)
  | degraded (unsettled : Bool)
  | capped
  | noAllot

/-- The allotment table a computation writes, before the test deduction (R50, R64, R67). -/
def allotTable (e : Env) (round : Option RoundNo) : Computation → Alu
  | .complete l =>
    let d := divide e l
    { kind := .complete, round := round, cap := none,
      own := if isParticipant e.own d then grantSum (recordGrants e.own d) else e.share e.own,
      deduction := none, division := some d }
  | .degraded unsettled =>
    let cap := degradedCap e unsettled
    { kind := .degraded, round := round, cap := some cap, own := capAmount e cap,
      deduction := none, division := none }
  | .capped =>
    { kind := .capped, round := round, cap := none, own := e.share e.own, deduction := none,
      division := none }
  | .noAllot =>
    { kind := .noAllot, round := round, cap := none, own := 0, deduction := none,
      division := none }

end Sys2Proof.Machine
end

