-- ==== Sys2Proof/Machine/Circuits.lean ====
section
/-! DEFINITION. The Circuit Controller's rows (spec/04): entries to states (R72, R73, R76, R78, R81),
circuit temperature (R82), setpoint, need, margin and class (R83 to R86), on-time (R89, R90), the
starved count (R92). -/

namespace Sys2Proof.Machine

/-! ### Entries to states -/

/-- Entry to SETTLING (R73); without a temperature no setpoint is in use (R83). -/
def settlingRow (fallback : Nat) (r : CircuitRow) : CircuitRow :=
  { r with
    state := .settling, need := fallback, cls := some .p1, margin := none, temp := none,
    source := .noSource, setpoint := none, onTime := 0, settle := .running 0 }

/-- Entry to INHIBITED: on-time and need 0, the settle timer stops, class and margin stay (R76). -/
def inhibitedRow (r : CircuitRow) : CircuitRow :=
  { r with state := .inhibited, onTime := 0, need := 0, settle := .stopped }

/-- Entry to TRIPPED, to FAILED or to TESTING: on-time and need 0, the settle timer stops (R78, R81). -/
def idleRow (st : CState) (r : CircuitRow) : CircuitRow :=
  { r with state := st, onTime := 0, need := 0, settle := .stopped }

/-- Entry to DISABLED (R72). -/
def disabledRow (r : CircuitRow) : CircuitRow :=
  { r with
    state := .disabled, onTime := 0, need := 0, margin := none, cls := none, temp := none,
    source := .noSource, setpoint := none, settle := .stopped, starved := 0 }

/-- A circuit enters SETTLING with its fallback need in use (R70, R73). -/
def enterSettling (e : Env) (c : Fin 6) (p : Plant) : Plant :=
  p.updCct c (settlingRow (fallbackInUse e p c))

/-! ### Temperature (R82), setpoint (R83), need (R84), margin (R85), class (R86) -/

/-- The value of the channel a sensor byte names, where it counts: quality GOOD (R105). -/
def goodReading (e : Env) (b : Nat) : Option Int :=
  match channelOf b with
  | some t => if e.channels[t].quality = .good then e.channels[t].value else none
  | none => none

/-- R82: the lower of the GOOD readings, and where it came from. -/
def formTemperature (e : Env) (c : Fin 6) : Option Int × TempSource :=
  match goodReading e e.img.circuits[c].primarySensor,
    goodReading e e.img.circuits[c].backupSensor with
  | some a, some b => if a ≤ b then (some a, .primary) else (some b, .backup)
  | some a, none => (some a, .primary)
  | none, some b => (some b, .backup)
  | none, none => (none, .noSource)

/-- The setpoint that the line state selects (R83). -/
def setpointOf (e : Env) (c : Fin 6) : Int :=
  match e.line with
  | .flowing => e.img.circuits[c].spFlowing
  | .standstill => e.img.circuits[c].spStandstill

/-- R84: the need in REGULATING, rounded up to a whole LU and at most the rated load. -/
def regulatedNeed (rated : Nat) (setpoint temp band : Int) : Nat :=
  if setpoint ≤ temp then 0
  else min rated (ceilDiv (rated * (setpoint - temp).toNat) band.toNat)

/-- R85: temperature minus pour point in whole °C, rounded down and saturated. -/
def marginOf (temp pourPoint : Int) : Int := max (-128) (min 127 ((temp - pourPoint) / 10))

/-- R86: the first line of the table that holds. -/
def classFor (margin : Option Int) (lowMargin need : Nat) : Cls :=
  match margin with
  | none => .p1
  | some m =>
    if m < 0 then .p0 else if m < lowMargin then .p1 else if 0 < need then .p2 else .p3

/-- R75: the state moves of an evaluation; `temp` says that a temperature has been formed. -/
def movedState (st : CState) (settle : Settle) (temp : Bool) : CState :=
  match st with
  | .settling =>
    if temp then .regulating else if settle = .stopped then .sensorLost else .settling
  | .regulating => if temp then .regulating else .sensorLost
  | .sensorLost => if temp then .regulating else .sensorLost
  | .disabled => .disabled
  | .inhibited => .inhibited
  | .tripped => .tripped
  | .failed => .failed
  | .testing => .testing

/-- R89, R90: W × the lesser of grant and need / rated load, in whole ms rounded down. -/
def onTimeFor (windowMs grant need rated : Nat) : Nat := windowMs * min grant need / rated

/-- Need of a circuit in a state, where its temperature is `temp` (R84). -/
def needIn (e : Env) (p : Plant) (c : Fin 6) (st : CState) (temp : Option Int) : Nat :=
  match st, temp with
  | .regulating, some t =>
    regulatedNeed (p.ogd.ratedOf c) (setpointOf e c) t e.img.circuits[c].band
  | .settling, _ => fallbackInUse e p c
  | .sensorLost, _ => fallbackInUse e p c
  | _, _ => 0

/-- Steps 1 to 3 and 5 of an evaluation (R88). -/
def evaluatedRow (e : Env) (p : Plant) (c : Fin 6) (r : CircuitRow) : CircuitRow :=
  let t := formTemperature e c
  let st := movedState r.state r.settle t.1.isSome
  let need := needIn e p c st t.1
  let margin := t.1.map fun x => marginOf x e.img.pourPoint
  { r with
    state := st, settle := if st = .settling then r.settle else .stopped, temp := t.1,
    source := t.2, setpoint := t.1.map fun _ => setpointOf e c, need := need, margin := margin,
    cls := some (classFor margin e.img.lowMargin need),
    onTime :=
      if st.energizable then onTimeFor e.windowMs r.grant need (p.ogd.ratedOf c) else 0 }

/-! ### Grants and windows -/

/-- Milliseconds since the circuit's window start (R87). -/
def elapsedOf (e : Env) (r : CircuitRow) : Nat := e.windowMs - r.toNext.getD e.windowMs

/-- A row takes its new grant; a fall shortens the on-time of the current window (R90). -/
def grantedRow (e : Env) (p : Plant) (c : Fin 6) (grant : Nat) (r : CircuitRow) : CircuitRow :=
  { r with
    grant := grant,
    onTime :=
      if grant < r.grant then
        min r.onTime (onTimeFor e.windowMs grant r.need (p.ogd.ratedOf c))
      else r.onTime }

/-- A fall in grant has shortened the on-time to a time already past (R90). -/
def cutNow (e : Env) (old new : CircuitRow) : Bool :=
  decide (new.onTime < old.onTime) && decide (new.onTime ≤ elapsedOf e old)

/-- Starved count of a row after a swap (R92). -/
def starvedRow (r : CircuitRow) : CircuitRow :=
  { r with
    starved := if r.cls = some .p0 ∧ r.grant < r.need then satAdd 255 r.starved 1 else 0 }

/-- R92: the counts after a swap's computation, and STARVED where one is 3 or more. -/
def starvedUpdate (p : Plant) : Plant :=
  let p := { p with cct := mapRows p.cct fun _ r => starvedRow r }
  p.raiseIf (sixIds.any fun c => decide (3 ≤ p.cct[c].starved)) .starved

/-- Milliseconds from entry to LISTEN to the first window start of a circuit (R87). -/
def windowOffset (e : Env) (c : Fin 6) : Nat := c.val * e.windowMs / 6

/-- The windows of every circuit start (R87). -/
def startWindows (e : Env) (p : Plant) : Plant :=
  { p with cct := mapRows p.cct fun c r => { r with toNext := some (windowOffset e c) } }

/-- The windows stop (R87). -/
def stopWindows (p : Plant) : Plant :=
  { p with cct := mapRows p.cct fun _ r => { r with toNext := none } }

/-! ### What a bid carries (R25) -/

/-- The demand record of a circuit, where it has one (R25). -/
def demandOf (p : Plant) (c : Fin 6) : Option DemandRecord :=
  let r := p.cct[c]
  if r.state.energizable && decide (0 < r.need) then
    some ⟨c.val + 1, r.cls.getD .p1, r.margin.getD (-128), r.need⟩
  else none

/-- The demand records of the station's bid, in ascending circuit id (R25). -/
def demandRecords (p : Plant) : List DemandRecord := sixIds.filterMap (demandOf p)

/-- Rated load times on-time of a circuit, in LU ms: its duty-weighted load times W (R25, R128). -/
def weightedLoad (p : Plant) (c : Fin 6) : Nat := p.ogd.ratedOf c * p.cct[c].onTime

/-- Rated load of the output under test (R25, R65). -/
def testLoad (p : Plant) : Nat :=
  match p.ogd.test with
  | some t => p.ogd.outputs[t.output].rated
  | none => 0

/-- R25: the applied load, rounded up to whole LU. -/
def appliedLoad (e : Env) (p : Plant) : Nat :=
  ceilDiv ((sixIds.map (weightedLoad p)).sum + testLoad p * e.windowMs) e.windowMs

end Sys2Proof.Machine
end

