-- ==== Sys2Proof/Machine/Guard.lean ====
section
/-! DEFINITION. The Output Guard (spec/06) with what it does to the circuits (spec/04) and to the
grants (spec/03): energizing (R118), the end of an energized period (R119, R122), trips (R123),
failure and spares (R126), tests (R128 to R131), handing over grants (R50, R90), the re-spreads
(R66), the computations (R49, R65), window starts (R88), the load of the roles (R114).

A trip can end a test, the end of a test hands over grants, and a fall in grant can end a period and
trip another output. At most one test is in progress (R128), so a re-spread nested in a re-spread
finds no test: the operations are built once over a re-spread that does nothing, and once more over
the result (log entry 21). -/

namespace Sys2Proof.Machine

/-! ### Energized periods -/

/-- Keep the highest leakage current of an energized output, in its health record and in the record
of its test (R120, R127, R129). -/
def notePeak (e : Env) (o : Fin 6) (p : Plant) : Plant :=
  if p.ogd.outputs[o].energized then
    let p := p.updOut o fun r =>
      { r with health := { r.health with peak := max r.health.peak (e.leakageNow o) } }
    if p.ogd.underTest o then
      p.setTest (p.ogd.test.map fun t => { t with peak := max t.peak (e.leakageNow o) })
    else p
  else p

/-- The output is energized and a new period begins (R118, R119). That its measured load stays that of the
period before until the first millisecond of the new one is the model's choice (log entry 32). -/
def switchOn (e : Env) (o : Fin 6) (p : Plant) : Plant :=
  notePeak e o
    (p.updOut o fun r => { r with energized := true, periodMs := 0, loadSum := 0, recent := [] })

/-- A row whose energized period ends: its measured load, and the health record's last measured
load, become the mean over the period (R119, R127). -/
def offRow (free : Nat) (r : OutputRow) : OutputRow :=
  let m := meanLoad free r.loadSum r.periodMs
  { r with
    energized := false, measured := m, health := { r.health with lastLoad := m }, periodMs := 0,
    loadSum := 0, recent := [] }

/-- The output is switched off; without an energized period nothing changes. -/
def switchOff (o : Fin 6) (p : Plant) : Plant :=
  if p.ogd.outputs[o].energized then
    { p.updOut o (offRow p.free) with free := freeAfter p.free p.ogd.outputs[o].periodMs }
  else p

/-- The mean load over a test so far: 0 before its first millisecond (R129). -/
def testMean (t : TestRecord) : Nat := min 4000 (freeQuot t.loadSum t.energizedMs)

/-- The test record is removed and its result written to the health record (R127, R130, R131). -/
def endTest (outcome : TestOutcome) (p : Plant) : Plant :=
  match p.ogd.test with
  | none => p
  | some t =>
    let result := ⟨outcome, t.energizedMs, testMean t, t.peak⟩
    (p.updOut t.output fun r => { r with health := { r.health with lastTest := some result } }).setTest
      none

/-! ### Aborted tests, failures, trips: over a re-spread -/

/-- What moves a circuit at the end of its test (R81): INHIBITED where the limit opened, else
SETTLING; a circuit that is no longer TESTING stays (R72). -/
def afterAbort (e : Env) (cause : AbortCause) (c : Fin 6) (p : Plant) : Plant :=
  if p.cct[c].state = .testing then
    if cause = .limit then p.updCct c inhibitedRow else enterSettling e c p
  else p

/-- R131: the test in progress ends ABORTED, and the grants are re-spread. -/
def abortWith (respread : Env → Plant → Plant) (e : Env) (cause : AbortCause) (p : Plant) : Plant :=
  match p.ogd.test with
  | none => p
  | some t =>
    let p := endTest (.aborted cause) (switchOff t.output p)
    let p :=
      match t.circuit with
      | some c => afterAbort e cause c p
      | none => p
    respread e p

/-- A spare takes over a circuit: its role, its window count and the circuit's trip record (R126). -/
def bindSpare (c q : Fin 6) (p : Plant) : Plant :=
  (p.updOut q fun r => { r with role := .spareBound c, openCount := 0 }).updTrip c fun _ => ⟨0, 0, 0⟩

/-- A circuit with an output bound to it enters SETTLING, and INHIBITED where that limit is open (R71,
R80). -/
def settleBound (e : Env) (c q : Fin 6) (p : Plant) : Plant :=
  let p := enterSettling e c p
  if p.ogd.outputs[q].limit.level = some true then p.updCct c inhibitedRow else p

/-- R126, R131: a lowest free spare that is under test is taken after its test has ended. -/
def clearSpare (respread : Env → Plant → Plant) (e : Env) (p : Plant) : Plant :=
  match p.ogd.lowestSpare with
  | some q => if p.ogd.underTest q then abortWith respread e .binding p else p
  | none => p

/-- R126: the lowest free spare is bound to the circuit, or SPARE_EXHAUSTED is raised. -/
def takeSpare (e : Env) (c : Fin 6) (p : Plant) : Plant :=
  match p.ogd.lowestSpare with
  | some q => settleBound e c q (bindSpare c q p)
  | none => p.raise .spareExhausted

/-- R126: a circuit at its trip limit: its output becomes BAD and a spare is taken. -/
def failWith (respread : Env → Plant → Plant) (e : Env) (c o : Fin 6) (p : Plant) : Plant :=
  takeSpare e c
    (clearSpare respread e ((p.updOut o fun r => { r with role := .bad }).raise .circuitFailed))

/-- Steps 1 to 3 of a trip (R123). -/
def tripRecorded (o : Fin 6) (k : FaultKind) (p : Plant) : Plant :=
  ((switchOff o p).updOut o fun r =>
    { r with
      openCount := 0,
      health :=
        { r.health with
          tripTotal := satAdd 65535 r.health.tripTotal 1, lastFault := some k } }).raise .circuitTrip

/-- R123: a trip below the trip limit: the hold-off starts and the circuit is TRIPPED (R78). A test of
the output ends TRIPPED (R130), and its grants are re-spread (R66). -/
def tripBelow (respread : Env → Plant → Plant) (e : Env) (tested : Bool) (c o : Fin 6) (k : FaultKind)
    (p : Plant) : Plant :=
  let p := (p.updOut o fun r => { r with holdOff := some (e.img.holdOff * 1000) }).updCct c
    (idleRow .tripped)
  if tested then respread e (endTest (.tripped k) p) else p

/-- R123, R126: a trip that reaches the trip limit. -/
def tripLast (respread : Env → Plant → Plant) (e : Env) (tested : Bool) (c o : Fin 6) (k : FaultKind)
    (p : Plant) : Plant :=
  let p := p.updCct c (idleRow .failed)
  if tested then respread e (failWith respread e c o (endTest (.tripped k) p))
  else failWith respread e c o p

/-- R130: a trip of a free spare under test makes it BAD. -/
def tripSpare (respread : Env → Plant → Plant) (e : Env) (tested : Bool) (o : Fin 6) (k : FaultKind)
    (p : Plant) : Plant :=
  if tested then respread e (endTest (.tripped k) (p.updOut o fun r => { r with role := .bad }))
  else p

/-- R123: the trip of an energized output; a trip of an output that is off is ignored. -/
def tripWith (respread : Env → Plant → Plant) (e : Env) (o : Fin 6) (k : FaultKind) (p : Plant) :
    Plant :=
  if p.ogd.outputs[o].energized then
    let tested := p.ogd.underTest o
    let p := tripRecorded o k p
    match p.ogd.outputs[o].role.circuit with
    | some c =>
      let count := p.ogd.trips[c].count + 1
      let p := p.updTrip c fun _ => ⟨count, 0, 0⟩
      if count < e.img.tripLimit then tripBelow respread e tested c o k p
      else tripLast respread e tested c o k p
    | none => tripSpare respread e tested o k p
  else p

/-- R122: an energized period of a bound output ends by its on-time or by a cut, and is judged for an
open element before the output is switched off. That the exact mean is compared, and not the mean in
0.1 LU steps, is the model's choice (log entry 33). -/
def endPeriodWith (trip : Env → Fin 6 → FaultKind → Plant → Plant) (e : Env) (c : Fin 6)
    (p : Plant) : Plant :=
  match p.ogd.boundTo c with
  | none => p
  | some o =>
    let r := p.ogd.outputs[o]
    if r.energized && !p.ogd.underTest o then
      if r.periodMs < 1000 then switchOff o p
      else if 2 * r.loadSum < 10 * r.rated * r.periodMs then
        let p := p.updOut o fun r => { r with openCount := r.openCount + 1 }
        if 3 ≤ r.openCount + 1 then trip e o .openElement p else switchOff o p
      else switchOff o (p.updOut o fun r => { r with openCount := 0 })
    else p

/-- The Circuit Controller takes six new grants at once, and cuts each on-time whose grant fell (R50,
R90; log entry 20). -/
def handGrantsWith (trip : Env → Fin 6 → FaultKind → Plant → Plant) (e : Env)
    (grants : Vector Nat 6) (p : Plant) : Plant :=
  let taken := { p with cct := mapRows p.cct fun c r => grantedRow e p c grants[c] r }
  sixIds.foldl
    (fun q c => if cutNow e p.cct[c] taken.cct[c] then endPeriodWith trip e c q else q) taken

/-- R66: the re-spread at the end of a test, by kind with the allotment in force, without deduction. -/
def respreadWith (hand : Env → Vector Nat 6 → Plant → Plant) (e : Env) (p : Plant) : Plant :=
  let p := { p with alu := { p.alu with deduction := none } }
  hand e (grantsByKind e p) p

/-! ### The operations, with at most one test ended inside -/

/-- A trip while no test is in progress. -/
def tripUntested (e : Env) (o : Fin 6) (k : FaultKind) (p : Plant) : Plant :=
  tripWith (fun _ q => q) e o k p

/-- Grants handed over while no test is in progress. -/
def handUntested (e : Env) (grants : Vector Nat 6) (p : Plant) : Plant :=
  handGrantsWith tripUntested e grants p

/-- The re-spread at the end of a test (R66): no test is left. -/
def respread (e : Env) (p : Plant) : Plant := respreadWith handUntested e p

/-- A trip of an output (R123). -/
def tripOutput (e : Env) (o : Fin 6) (k : FaultKind) (p : Plant) : Plant := tripWith respread e o k p

/-- Grants handed to the Circuit Controller (R50, R90). -/
def handGrants (e : Env) (grants : Vector Nat 6) (p : Plant) : Plant :=
  handGrantsWith tripOutput e grants p

/-- A test ends ABORTED (R131). -/
def abortTest (e : Env) (cause : AbortCause) (p : Plant) : Plant := abortWith respread e cause p

/-- An energized period ends by its on-time or a cut (R122). -/
def endPeriod (e : Env) (c : Fin 6) (p : Plant) : Plant := endPeriodWith tripOutput e c p

/-- The output is energized; where its filtered leakage is asserted the leakage trip is taken at once
(R118, R120). -/
def energize (e : Env) (o : Fin 6) (p : Plant) : Plant :=
  let p := switchOn e o p
  if p.ogd.outputs[o].leakage.level = some true then tripOutput e o .leakage p else p

/-! ### Computations (R49, R50, R65) -/

/-- A computation of the Allotment Unit: the table is written, the grants are handed over with the
test deduction where a test in progress fits, and a test that no longer fits ends ABORTED. At a swap
the starved counts follow the new grants (R92). -/
def compute (e : Env) (round : Option RoundNo) (swap : Bool) (x : Computation) (p : Plant) : Plant :=
  let p := { p with alu := allotTable e round x }
  let starve := fun q => if swap then starvedUpdate q else q
  match p.ogd.test with
  | none => starve (handGrants e (grantsByKind e p) p)
  | some t =>
    let load := p.ogd.outputs[t.output].rated
    if load ≤ p.alu.own then
      let q := { p with alu := { p.alu with deduction := some (t.output, load) } }
      starve (handGrants e (deductGrants e q t.circuit (p.alu.own - load) (grantsByKind e p)) q)
    else abortTest e .allotment (starve (handGrants e (grantsByKind e p) p))

/-! ### Output tests (R128, R129) -/

/-- R128: the last condition, exact: L × W ≤ A × W − the weighted loads of the other circuits. -/
def testHasRoom (e : Env) (p : Plant) (o : Fin 6) : Bool :=
  let others := sixIds.filter fun c => decide (p.ogd.outputs[o].role.circuit ≠ some c)
  decide (p.ogd.outputs[o].rated * e.windowMs + (others.map (weightedLoad p)).sum ≤
    p.alu.own * e.windowMs)

/-- R128: the answer to a TEST_OUTPUT in range. -/
def judgeTest (e : Env) (p : Plant) (o : Fin 6) : Result :=
  let r := p.ogd.outputs[o]
  if p.ogd.test.isSome then .busy
  else
    let roleOk :=
      match r.role with
      | .primary c => p.cct[c].state.energizable
      | .spareBound c => p.cct[c].state.energizable
      | .spareFree => true
      | .unused => false
      | .bad => false
    if e.membership.bids && roleOk && decide (r.limit.level = some false) && testHasRoom e p o then
      .accepted
    else .refused

/-- The grants in force. -/
def grantsInForce (p : Plant) : Vector Nat 6 := Vector.ofFn fun c => p.cct[c].grant

/-- R129: a test starts. The output is energized only if the test record survives the cuts that make
room for it. -/
def startTest (e : Env) (o : Fin 6) (seconds : Nat) (p : Plant) : Plant :=
  let circuit := p.ogd.outputs[o].role.circuit
  let load := p.ogd.outputs[o].rated
  let p := p.setTest (some ⟨o, circuit, seconds, e.now, 0, 0, 0⟩)
  let p :=
    match circuit with
    | some c => (switchOff o p).updCct c (idleRow .testing)
    | none => p
  let p := { p with alu := { p.alu with deduction := some (o, load) } }
  let p := handGrants e (deductGrants e p circuit (p.alu.own - load) (grantsInForce p)) p
  if p.ogd.underTest o then energize e o p else p

/-- R130: the test duration expires. -/
def finishTest (e : Env) (p : Plant) : Plant :=
  match p.ogd.test with
  | none => p
  | some t =>
    let p := endTest .done (switchOff t.output p)
    let p :=
      match t.circuit with
      | some c => if p.cct[c].state = .testing then enterSettling e c p else p
      | none => p
    respread e p

/-! ### Window starts (R88) -/

/-- What the Output Guard raises at a window start: LIMIT_OPEN while the limit of the bound output is
open (R116), CIRCUIT_FAILED and SPARE_EXHAUSTED while the circuit is FAILED with none (R126). -/
def windowRaises (c : Fin 6) (p : Plant) : Plant :=
  match p.ogd.boundTo c with
  | some o => p.raiseIf (decide (p.ogd.outputs[o].limit.level = some true)) .limitOpen
  | none =>
    let failed := decide (p.cct[c].state = .failed)
    (p.raiseIf failed .circuitFailed).raiseIf failed .spareExhausted

/-- Steps 1 to 5 of an evaluation (R88, R93). -/
def evaluate (e : Env) (c : Fin 6) (p : Plant) : Plant :=
  let p := p.updCct c (evaluatedRow e p c)
  let r := p.cct[c]
  (p.raiseIf (decide (r.margin.any (· < 0))) .belowPour).raiseIf (decide (r.state = .sensorLost))
    .sensorLost

/-- Step 6: the request to energize the bound output, taken only where R118's conditions hold. -/
def requestOutput (e : Env) (c : Fin 6) (p : Plant) : Plant :=
  match p.ogd.boundTo c with
  | some o =>
    if decide (0 < p.cct[c].onTime) && e.membership.follows && p.cct[c].state.energizable &&
        decide (p.ogd.outputs[o].limit.level = some false) then
      energize e o p
    else p
  | none => p

/-- A window start of a circuit (R87, R88). A period still energized from the window before ends here
by its on-time (log entry 18). -/
def windowStart (e : Env) (c : Fin 6) (p : Plant) : Plant :=
  if p.cct[c].toNext.isSome then
    let p := p.updCct c fun r => { r with toNext := some e.windowMs }
    if isConfigured e.img c && decide (p.cct[c].state ≠ .disabled) then
      requestOutput e c (evaluate e c (windowRaises c (endPeriod e c p)))
    else p
  else p

/-! ### Entry to DISABLED (R72) and the load of the roles (R114, R71) -/

/-- One circuit enters DISABLED: its output goes off, its hold-off stops. -/
def disableCircuit (c : Fin 6) (p : Plant) : Plant :=
  let p :=
    match p.ogd.boundTo c with
    | some o => (switchOff o p).updOut o fun r => { r with holdOff := none }
    | none => p
  p.updCct c disabledRow

/-- Every circuit enters DISABLED and the windows stop (R72). -/
def disableAll (p : Plant) : Plant :=
  stopWindows (sixIds.foldl (fun q c => disableCircuit c q) p)

/-- The role the image names for an output (R114, step 1). -/
def imageRole (m : Image) (o : Fin 6) : Role :=
  if m.outputs[o].1 = 1 then
    match sixIds.find? fun c => isConfigured m c && decide (primaryOf m c = some o) with
    | some c => .primary c
    | none => .unused
  else if m.outputs[o].1 = 2 then .spareFree
  else .unused

/-- Steps 1 to 3 of the load for one output: rated load, role, BAD set, filters (R114, R115). -/
def loadedRow (e : Env) (o : Fin 6) (r : OutputRow) : OutputRow :=
  { r with
    rated := e.img.outputs[o].2,
    role :=
      if r.role = .bad || bitOf e.img.knownBad o.val then .bad else imageRole e.img o,
    leakage := ⟨some (e.rawLeakage o), none⟩, limit := ⟨some e.pins.limitOpen[o], none⟩ }

/-- Step 4 of the load for one circuit: a spare in place of a BAD primary (R114). -/
def loadSpare (e : Env) (c : Fin 6) (p : Plant) : Plant :=
  if isConfigured e.img c && (p.ogd.boundTo c).isNone then
    match p.ogd.lowestSpare with
    | some q => bindSpare c q p
    | none => (p.raise .circuitFailed).raise .spareExhausted
  else p

/-- The load of the roles (R114). -/
def loadRoles (e : Env) (p : Plant) : Plant :=
  let flow := if e.img.flowWired = 1 then ⟨some e.pins.flow, none⟩ else Filter.reset
  let p :=
    { p with ogd := { p.ogd with outputs := mapRows p.ogd.outputs (loadedRow e), flow := flow } }
  sixIds.foldl (fun q c => loadSpare e c q) p

/-- A configured circuit leaves DISABLED on entry to LISTEN (R71). -/
def leaveDisabled (e : Env) (c : Fin 6) (p : Plant) : Plant :=
  if isConfigured e.img c then
    match p.ogd.boundTo c with
    | some o => settleBound e c o p
    | none => p.updCct c (idleRow .failed)
  else p

end Sys2Proof.Machine
end

