-- ==== Sys2Proof/Machine/LineCheck.lean ====
section
/-! DEFINITION. The Line Check Unit (spec/08): counting frames (R151), bids out of range and missed
(R152), the linecheck (R153, R154), checking TEST frames (R156, R157), clearing (R158). -/

namespace Sys2Proof.Machine

/-- Rewrite the line-quality row of an address, where there is one. -/
def updQuality (a : Nat) (f : QualityRow → QualityRow) (s : State) : State :=
  match place a with
  | some i => { s with lck := { s.lck with rows := updAt s.lck.rows i f } }
  | none => s

/-- Rewrite the line totals. -/
def updTotals (f : Totals → Totals) (s : State) : State :=
  { s with lck := { s.lck with totals := f s.lck.totals } }

/-- Rewrite the emission record. -/
def updEmission (f : Emission → Emission) (s : State) : State :=
  { s with lck := { s.lck with emission := f s.lck.emission } }

/-- Count a GOOD frame in the totals (R151). -/
def countGood (s : State) : State := updTotals (fun t => { t with good := bump16 t.good }) s

/-- Count a GOOD frame heard from an address (R151). -/
def countHeard (a : Nat) (s : State) : State :=
  updQuality a (fun r => { r with heard := bump16 r.heard }) s

/-- Count a GOOD frame by its kind (R151); the check of a TEST (R156) is the owner's. -/
def countFrame (f : Frame) (s : State) : State :=
  match f with
  | .openFrame o => countHeard o.opener (countGood s)
  | .bid b =>
    updQuality b.sender (fun r => { r with bids := bump16 r.bids })
      (countHeard b.sender (countGood s))
  | .request _ => updTotals (fun t => { t with tool := bump16 t.tool }) (countGood s)
  | .reply r => countHeard r.source (countGood s)
  | .test t => countHeard t.sender (countGood s)

/-- Count a frame that was broken or failed its CRC (R151). -/
def countCrcFailure (s : State) : State :=
  updTotals (fun t => { t with crcFailures := bump16 t.crcFailures }) s

/-- Count a frame that passed its CRC and failed another check (R151). -/
def countRejected (s : State) : State :=
  updTotals (fun t => { t with rejected := bump16 t.rejected }) s

/-- Count an out-of-range bid reported by the Roster (R152). -/
def countOutOfRange (s : State) : State :=
  updTotals (fun t => { t with outOfRange := bump16 t.outOfRange }) s

/-- Count one missed bid against an address (R152). -/
def countMissedBid (a : Nat) (s : State) : State :=
  updQuality a (fun r => { r with bidsMissed := bump16 r.bidsMissed }) s

/-- Number of indices missed before a frame of index `i` (R156, step 1). -/
def gapBefore (last : Option Nat) (i : Nat) : Nat :=
  match last with
  | some l => if i = 0 then 0 else i - (l + 1)
  | none => 0

/-- R156: a sender's row after a TEST frame. An index of 255, which no station sends and no rule judges, is
taken as any other: the model's choice (log entry 35). -/
def checkedRow (f : TestFrame) (r : QualityRow) : QualityRow :=
  let gap := gapBefore r.lastIndex f.index.toNat
  let equal := decide (f.payload = testPayload f.seed f.index.toNat)
  { r with
    testMissed := satAdd 65535 r.testMissed gap,
    testGood := if equal then bump16 r.testGood else r.testGood,
    testBad := if equal then r.testBad else bump16 r.testBad,
    lastIndex := some f.index.toNat, latch := r.latch || decide (0 < gap) || !equal }

/-- Error latch of an address's row. -/
def latchOf (s : State) (a : Nat) : Bool :=
  match place a with
  | some i => s.lck.rows[i].latch
  | none => false

/-- R156, R157: the check of a TEST frame; LINE_ERRORS where the latch goes from clear to set. -/
def checkTest (f : TestFrame) (s : State) : State :=
  let t := updQuality f.sender (checkedRow f) s
  t.raiseIf (!latchOf s f.sender && latchOf t f.sender) .lineErrors

/-- R158: CLEAR_QUALITY leaves the emission record. -/
def clearQuality (s : State) : State :=
  { s with
    lck := { s.lck with rows := Vector.replicate 32 .reset, totals := .reset } }

/-- R154: an accepted linecheck starts its emission and fills the TEST slot. -/
def startEmission (count : Nat) (seed : Word16) (s : State) : State :=
  { s with
    lck := { s.lck with emission := ⟨true, count, seed, 0, 0, 0⟩ },
    lif := { s.lif with testSlot := .pending () } }

/-- R154: entry to RETIRED ends an emission; its record keeps its counts. -/
def stopEmission (s : State) : State :=
  { s with
    lck := { s.lck with emission := { s.lck.emission with running := false } },
    lif := { s.lif with testSlot := .empty } }

/-- R154: the contents of the TEST frame that wins the line. -/
def emittedTest (s : State) : TestFrame :=
  let m := s.lck.emission
  ⟨s.own, m.seed, byteOf m.nextIndex, testPayload m.seed (byteOf m.nextIndex).toNat⟩

/-- R154: the emission record after an own-frame check. -/
def emissionAfter (equal : Bool) (m : Emission) : Emission :=
  { m with
    passed := if equal then satAdd 255 m.passed 1 else m.passed,
    failed := if equal then m.failed else satAdd 255 m.failed 1,
    nextIndex := satAdd 255 m.nextIndex 1, running := decide (satAdd 255 m.nextIndex 1 ≠ m.count) }

end Sys2Proof.Machine
end

