-- ==== Sys2Proof/Machine/Roster.lean ====
section
/-! DEFINITION. The Roster (spec/02): the bid buffers (R28, R32), acceptance of bids (R30, R31, R33),
the peer table (R34 to R38), the silent-round count (R39), the completeness test (R40 to R43), the
digest conditions (R44), the line state (R45), and the swap that runs them in order (R29). -/

namespace Sys2Proof.Machine

/-- The buffer that collects the current round's bids (R28). -/
def Rst.collecting (r : Rst) : BidBuffer := if r.settled = 1 then r.buf0 else r.buf1

/-- The buffer of the round just closed (R28). -/
def Rst.settledBuf (r : Rst) : BidBuffer := if r.settled = 1 then r.buf1 else r.buf0

/-- Put a bid into the collecting buffer under its sender. -/
def Rst.collect (r : Rst) (b : BidFrame) : Rst :=
  match place b.sender with
  | some i =>
    if r.settled = 1 then { r with buf0 := r.buf0.set i (some b) }
    else { r with buf1 := r.buf1.set i (some b) }
  | none => r

/-- Stage 1 of a swap: the collecting buffer becomes the settled one, and the other is emptied (R29). -/
def Rst.swapBuffers (r : Rst) : Rst :=
  if r.settled = 1 then { r with settled := 0, buf1 := .reset }
  else { r with settled := 1, buf0 := .reset }

/-- The addresses whose bids a buffer holds. -/
def heldAddresses (b : BidBuffer) : List Nat :=
  stationAddresses.filter fun a => (bidOf b a).isSome

/-- The set of addresses whose bids a buffer holds (R4, R28). -/
def heldSet (b : BidBuffer) : AddrSet := addrSetOf (heldAddresses b)

/-- An address lies in 1…N. -/
def State.configuredAddr (s : State) (a : Nat) : Bool := decide (1 ≤ a ∧ a ≤ s.img.stations)

/-- A digest differs from the station's own (R33, R35, R44). -/
def State.foreign (s : State) (d : Word16) : Bool := decide (some d ≠ s.sul.digest)

/-! ### Acceptance (R30, R31, R33) -/

/-- R33: acceptance sets the return mark of a RETIRED sender's row. -/
def markReturn (a : Nat) (rows : Vector PeerRow 32) : Vector PeerRow 32 :=
  match place a with
  | some i =>
    updAt rows i fun r => if r.status = .retired then { r with returnMark := true } else r
  | none => rows

/-- R30, R33: the bid enters the collecting buffer. -/
def acceptBid (b : BidFrame) (s : State) : State :=
  let s := { s with rst := { s.rst.collect b with rows := markReturn b.sender s.rst.rows } }
  s.raiseIf (s.foreign b.digest) .mismatch

/-- R30: a bid is offered for the collecting buffer; the first reason for discard that holds decides. -/
def offerBid (b : BidFrame) (s : State) : State :=
  if !s.rct.membership.follows then s
  else if !s.configuredAddr b.sender || !s.configuredAddr b.opener then countOutOfRange s
  else if b.sender = s.own then s.raise .duplicateBid
  else if s.rct.round ≠ some b.round || s.rct.opener ≠ some b.opener then s
  else if (bidOf s.rst.collecting b.sender).isSome then s.raise .duplicateBid
  else acceptBid b s

/-! ### The peer table (R35 to R38) -/

/-- The status a settled bid gives (R35). -/
def statusFrom (foreign : Bool) (b : BidFrame) : PeerStatus :=
  if foreign then .mismatched else if b.member then .present else .joining

/-- R35, R38: a row whose address has a settled bid. -/
def heardRow (foreign : Bool) (b : BidFrame) (r : PeerRow) : PeerRow :=
  if r.status = .retired && !r.returnMark then
    { r with lastBid := some b, lastRound := some b.round, returnMark := false }
  else ⟨statusFrom foreign b, 0, some b, some b.round, false⟩

/-- R36: a row whose address has no settled bid. -/
def missedRow (stale : Nat) (r : PeerRow) : PeerRow :=
  let miss := satAdd 7 r.missCount 1
  match r.status with
  | .unknown => { r with returnMark := false }
  | .retired => { r with returnMark := false }
  | .absent => { r with missCount := miss, returnMark := false }
  | .present | .joining | .stale | .mismatched =>
    { r with
      missCount := miss, status := if miss < stale then .stale else .absent, returnMark := false }

/-- R34: the own row takes its last bid from the settled buffer and nothing else. -/
def ownRow (b : Option BidFrame) (r : PeerRow) : PeerRow :=
  match b with
  | some b => { r with lastBid := some b, lastRound := some b.round, returnMark := false }
  | none => { r with returnMark := false }

/-- R35 to R38: the update of the peer table at a swap. -/
def updatedRows (s : State) (settled : BidBuffer) : Vector PeerRow 32 :=
  mapRows s.rst.rows fun i r =>
    if i.val + 1 = s.own then ownRow settled[i] r
    else
      match settled[i] with
      | some b => heardRow (s.foreign b.digest) b r
      | none => missedRow s.img.stale r

/-- Some row other than the station's own has a status, among addresses up to `n`. -/
def someRow (s : State) (rows : Vector PeerRow 32) (n : Nat) (st : PeerStatus) : Bool :=
  stationAddresses.any fun a =>
    decide (a ≤ n) && decide (a ≠ s.own) && decide (statusOf rows a = some st)

/-- A settled bid from some other address (R39, R183). -/
def peerBids (s : State) (settled : BidBuffer) : List BidFrame :=
  (stationAddresses.filter fun a => decide (a ≠ s.own)).filterMap (bidOf settled)

/-- R39: the silent-round count after a swap. -/
def silentAfter (s : State) (settled : BidBuffer) : Nat :=
  if (peerBids s settled).isEmpty then satAdd 7 s.rst.silent 1 else 0

/-- R39: ISOLATED is raised at this swap. -/
def isolated (s : State) (silent : Nat) : Bool :=
  decide (s.img.stale ≤ silent) && decide (1 < s.img.stations) && s.rct.membership.bids

/-! ### The swap (R29) -/

/-- What an adoption is of (R6). -/
inductive AdoptKind where
  | received (f : OpenFrame)
  | own (f : OpenFrame)
  | late
  deriving DecidableEq, Repr

/-- The OPEN of an adoption, received or own. -/
def AdoptKind.frame : AdoptKind → Option OpenFrame
  | .received f => some f
  | .own f => some f
  | .late => none

/-- R41: every address of the heard set has its bid settled, with the station's own digest. -/
def heardSettled (s : State) (settled : BidBuffer) (h : AddrSet) : Bool :=
  stationAddresses.all fun a =>
    !inSet h a ||
      match bidOf settled a with
      | some b => !s.foreign b.digest
      | none => false

/-- R40 to R42: the completeness test, where no verdict has been given already. -/
def roundComplete (s : State) (kind : AdoptKind) (settled : BidBuffer) (degraded : Bool) : Bool :=
  !degraded && decide (s.rct.membership = .member) &&
    match kind with
    | .received f => !s.foreign f.digest && heardSettled s settled f.heard
    | .own _ => heardSettled s settled (heldSet settled)
    | .late => false

/-- R43, R152: the addresses that miss a bid the opener heard. That an OPEN newer by more than one counts
none, whichever group it comes from (R194), is the model's reading (log entry 38). -/
def missedBids (s : State) (kind : AdoptKind) (settled : BidBuffer) (degraded : Bool) : List Nat :=
  match kind with
  | .received f =>
    if degraded then []
    else
      stationAddresses.filter fun a =>
        inSet f.heard a && decide (a ≠ s.own) && (bidOf settled a).isNone
  | .own _ => []
  | .late => []

/-- R44: MISMATCH is raised at this swap. -/
def mismatchAt (s : State) (kind : AdoptKind) (rows : Vector PeerRow 32) : Bool :=
  (kind.frame.any fun f => s.foreign f.digest) || someRow s rows 32 .mismatched

/-- The station's own FLOW input as a report (R24, R45, R117). -/
def flowReport (level : Option Bool) : FlowReport :=
  match level with
  | some true => .flow
  | some false => .stop
  | none => .noReport

/-- R45: the line state that a list of reports gives. -/
def lineFrom (reports : List FlowReport) : LineState :=
  if .stop ∈ reports then .standstill else if .flow ∈ reports then .flowing else .standstill

/-- R45: the bids whose flow reports are used. -/
def flowBids (kind : AdoptKind) (settled : BidBuffer) (complete : Bool) : List BidFrame :=
  (stationAddresses.filter fun a =>
    match complete, kind.frame with
    | true, some f => inSet f.heard a
    | _, _ => true).filterMap (bidOf settled)

/-- R45: the line state derived at a swap. -/
def lineAfter (s : State) (kind : AdoptKind) (settled : BidBuffer) (complete : Bool) : LineState :=
  lineFrom (flowReport s.plant.ogd.flow.level :: (flowBids kind settled complete).map BidFrame.flow)

/-- R49: the computation a swap asks for. -/
def swapComputation (s : State) (kind : AdoptKind) (settled : BidBuffer)
    (rows : Vector PeerRow 32) (complete : Bool) : Computation :=
  if s.rct.membership = .member then
    match complete, kind.frame with
    | true, some f => .complete ⟨settled, rows, f.heard, s.sul.digest⟩
    | _, some f => .degraded (inSet f.heard s.own && (bidOf settled s.own).isNone)
    | _, none => .degraded false
  else .capped

/-- The Roster's part of a swap: buffers, peer table, silent-round count, line state (R29). -/
def rstAfterSwap (s : State) (kind : AdoptKind) (complete : Bool) : Rst :=
  let r := s.rst.swapBuffers
  { r with
    rows := updatedRows s r.settledBuf, silent := silentAfter s r.settledBuf,
    line := lineAfter s kind r.settledBuf complete }

/-- The factors a swap raises before the computation (R36, R39, R44). -/
def swapRaises (s : State) (kind : AdoptKind) (rows : Vector PeerRow 32) (silent : Nat) (p : Plant) :
    Plant :=
  ((p.raiseIf (someRow s rows s.img.stations .absent) .peerLost).raiseIf
    (isolated s silent) .isolated).raiseIf (mismatchAt s kind rows) .mismatch

/-- The verdict of a swap: the round is COMPLETE (R7, R29). -/
def swapVerdict (s : State) (kind : AdoptKind) (degraded : Bool) : Bool :=
  roundComplete s kind s.rst.swapBuffers.settledBuf degraded

/-- R29: a swap. `degraded` says that the verdict is DEGRADED already (R7). -/
def swap (kind : AdoptKind) (round : RoundNo) (degraded : Bool) (s : State) : State :=
  let complete := swapVerdict s kind degraded
  let settled := s.rst.swapBuffers.settledBuf
  let rst := rstAfterSwap s kind complete
  let t := (missedBids s kind settled degraded).foldl (fun q a => countMissedBid a q) s
  let t := { t with rst := rst, plant := swapRaises s kind rst.rows rst.silent t.plant }
  let x := swapComputation s kind settled rst.rows complete
  let p := compute t.env (some round) true x t.plant
  { t with plant := p.raiseIf ((peerBids s settled).any BidFrame.alarm) .peerAlarm }

/-- R37: a RETIRE handed to the Roster; the own row shows the membership (log entry 25). -/
def retireRow (a : Nat) (s : State) : State :=
  match place a with
  | some i =>
    if a = s.own then s
    else
      { s with
        rst :=
          { s.rst with
            rows := updAt s.rst.rows i fun r => { r with status := .retired, returnMark := false } } }
  | none => s

end Sys2Proof.Machine
end

