-- ==== Sys2Proof/Machine/Rounds.lean ====
section
/-! DEFINITION. The Round Controller (spec/01): adoption (R6, R7), received OPENs and BIDs (R9 to R12),
conflicts (R14, R15), the timers (R3, R18, R19), the bid (R24, R25) and entry to RETIRED (R21).
Commands ROUND_TIMER_EXPIRY and LISTEN_TIMER_EXPIRY. -/

namespace Sys2Proof.Machine

/-- Rewrite the Round Controller's items. -/
def updRct (f : Rct → Rct) (s : State) : State := { s with rct := f s.rct }

/-- Rewrite the Line Interface's items. -/
def updLif (f : Lif → Lif) (s : State) : State := { s with lif := f s.lif }

/-- R3: the round timer measures P + rank × 40 ms. -/
def State.roundTimerMs (s : State) : Nat := s.img.period * 1000 + s.sul.rank.val * 40

/-- R18: the listen timer measures 2 × P + 32 × 40 ms. -/
def State.listenTimerMs (s : State) : Nat := 2 * (s.img.period * 1000) + 32 * 40

/-- R4: the station's own OPEN is placed; one already in the slot stays (log entry 19). -/
def placeOpen (s : State) : State :=
  match s.lif.openSlot with
  | .empty => updLif (fun l => { l with openSlot := .pending (), openFailures := 0 }) s
  | .pending _ => s
  | .sending _ => s

/-! ### Adoption (R6, R7) -/

/-- R7: the verdict is DEGRADED without a test: no current round, a BID, or an OPEN newer by more than
one. -/
def degradedAlready (s : State) (kind : AdoptKind) (round : RoundNo) : Bool :=
  match s.rct.round, kind with
  | none, _ => true
  | some _, .late => true
  | some _, .own _ => false
  | some c, .received _ => decide (roundOrder round c ≠ .newerByOne)

/-- R6, step 1: the membership transitions of an adoption (R18, R20). -/
def adoptMembership (kind : AdoptKind) (s : State) : State :=
  match s.rct.membership with
  | .listen =>
    let n := satAdd 2 s.rct.listenAdoptions 1
    if n = 2 then
      updRct (fun r => { r with listenAdoptions := n, membership := .joining, listenTimer := none }) s
    else updRct (fun r => { r with listenAdoptions := n }) s
  | .joining =>
    if kind.frame.any fun f => inSet f.heard s.own then
      updRct (fun r => { r with membership := .member }) s
    else s
  | .start | .blocked | .member | .retired => s

/-- R6, step 2: the declared need moves to the closed round. -/
def moveDeclared (s : State) : State :=
  updRct (fun r => { r with declaredClosed := r.declaredCurrent, declaredCurrent := none }) s

/-- R6, steps 4 and 5: round, opener, verdict, timers; DEGRADED is reported in MEMBER alone (R7). -/
def enterRound (round : RoundNo) (opener : Nat) (degraded : Bool) (s : State) : State :=
  let s :=
    updRct (fun r =>
      { r with
        round := some round, opener := some opener, degraded := degraded,
        roundTimer := some s.roundTimerMs,
        listenTimer := if r.membership = .listen then some s.listenTimerMs else r.listenTimer }) s
  s.raiseIf (degraded && decide (s.rct.membership = .member)) .degraded

/-- R6, steps 6 and 7: the waiting bid and the waiting own OPEN are discarded, and the new bid is
placed in JOINING and MEMBER (R5, R23, R27). -/
def refillSlots (round : RoundNo) (opener : Nat) (s : State) : State :=
  let s :=
    updLif (fun l =>
      { l with
        openSlot := l.openSlot.discard, bidSlot := l.bidSlot.discard,
        openFailures := if l.openSlot.isPending then 0 else l.openFailures }) s
  if s.rct.membership.bids then
    updLif (fun l => { l with bidSlot := .pending (round, opener) }) s
  else s

/-- R6: an adoption, its seven steps in order. -/
def adopt (kind : AdoptKind) (round : RoundNo) (opener : Nat) (s : State) : State :=
  let already := degradedAlready s kind round
  let t := moveDeclared (adoptMembership kind s)
  let complete := swapVerdict t kind already
  refillSlots round opener (enterRound round opener (!complete) (swap kind round already t))

/-! ### Conflicts (R14, R15) -/

/-- R15: the round becomes DEGRADED mid-round; the allotment is computed again in MEMBER (R49, R62). -/
def degradeMidRound (s : State) : State :=
  let s := updRct (fun r => { r with degraded := true }) s
  if s.rct.membership = .member then
    let s := s.raise .degraded
    { s with plant := compute s.env s.plant.alu.round false (.degraded false) s.plant }
  else s

/-- R14: an OPEN or BID of the current round with another opener. -/
def conflict (s : State) : State :=
  let s := s.raise .openConflict
  if s.rct.degraded then s else degradeMidRound s

/-! ### Received frames (R9 to R12) -/

/-- R1: how a frame's round stands; with no current round every round is newer by one. -/
def State.orderOf (s : State) (round : RoundNo) : RoundOrder :=
  match s.rct.round with
  | none => .newerByOne
  | some c => roundOrder round c

/-- R9, R10: an OPEN handed to the Round Controller. -/
def openReceived (f : OpenFrame) (s : State) : State :=
  if !s.rct.membership.follows || !s.configuredAddr f.opener || decide (f.opener = s.own) then s
  else
    match s.orderOf f.round with
    | .newerByOne => adopt (.received f) f.round f.opener s
    | .newerByMore => adopt (.received f) f.round f.opener s
    | .current => if s.rct.opener = some f.opener then s else conflict s
    | .older => s

/-- R11, R12: a BID handed to the Round Controller, which hands it on to the Roster. -/
def bidReceived (b : BidFrame) (s : State) : State :=
  if !s.rct.membership.follows || !s.configuredAddr b.sender || !s.configuredAddr b.opener then
    offerBid b s
  else
    match s.orderOf b.round with
    | .newerByOne => offerBid b (adopt .late b.round b.opener s)
    | .newerByMore => offerBid b (adopt .late b.round b.opener s)
    | .current => if s.rct.opener = some b.opener then offerBid b s else conflict s
    | .older => s

/-! ### The station's own frames (R4, R24, R25) -/

/-- R4: the contents of the station's own OPEN when it wins the line. -/
def ownOpen (s : State) : OpenFrame :=
  { opener := s.own,
    round :=
      match s.rct.round with
      | some c => c + 1
      | none => 1,
    heard := heldSet s.rst.collecting, digest := s.sul.digest.getD 0 }

/-- R24, R25: the contents of the station's own bid when it wins the line. -/
def ownBid (round : RoundNo) (opener : Nat) (s : State) : BidFrame :=
  { sender := s.own, round := round, opener := opener,
    member := decide (s.rct.membership = .member), flow := flowReport s.plant.ogd.flow.level,
    alarm := s.plant.fct.summary, digest := s.sul.digest.getD 0,
    load := appliedLoad s.env s.plant, records := demandRecords s.plant }

/-- R26, R32: the own bid has passed its check: the declared need is kept and the bid is collected. -/
def bidSent (b : BidFrame) (s : State) : State :=
  { s with rct := { s.rct with declaredCurrent := some (bidNeed b) }, rst := s.rst.collect b }

/-! ### RETIRED (R21) -/

/-- R21: entry to RETIRED. The circuits enter DISABLED before the NONE computation (log entry 15). -/
def enterRetired (s : State) : State :=
  let s :=
    updRct (fun r =>
      { r with
        membership := .retired, roundTimer := none, listenTimer := none, declaredCurrent := none,
        declaredClosed := none }) s
  let s := updLif (fun l => { l with openSlot := .empty, bidSlot := .empty, openFailures := 0 }) s
  let s := stopEmission (s.raise .retired)
  { s with plant := compute s.env none false .noAllot (disableAll s.plant) }

/-! ### Timers (R3, R19) -/

/-- R3: expiry of the round timer. -/
def roundTimerExpiry (s : State) : State :=
  if s.rct.roundTimer.isSome then
    let s := updRct (fun r => { r with roundTimer := none }) s
    if s.rct.membership.bids then placeOpen s else s
  else s

/-- R19: expiry of the listen timer in LISTEN. -/
def listenTimerExpiry (s : State) : State :=
  if s.rct.listenTimer.isSome && decide (s.rct.membership = .listen) then
    placeOpen (updRct (fun r => { r with listenTimer := none, membership := .joining }) s)
  else s

/-- ROUND_TIMER_EXPIRY (R3). -/
def execRoundTimerExpiry (s : State) : Answer := .next (roundTimerExpiry s)

/-- LISTEN_TIMER_EXPIRY (R19). -/
def execListenTimerExpiry (s : State) : Answer := .next (listenTimerExpiry s)

end Sys2Proof.Machine
end

