-- ==== Sys2Proof/Machine/Sensors.lean ====
section
/-! DEFINITION. The Sensor Scanner (spec/05): judging a conversion (R96, R100 to R104), the scan (R97,
R98), and the settle timers that count its ends (R74). Commands CONVERSION_END and
SETTLE_TIMER_EXPIRY. -/

namespace Sys2Proof.Machine

/-- R96: a temperature rounded to the nearer 0.1 °C step, midway to the higher. -/
def roundTenth (milli : Int) : Int := (milli + 50) / 100

/-- A conversion's in-range result, or `none` with the quality an out-of-range one gives (R96, R100). A
temperature outside −60.0…+250.0 °C is out of range (log entry 13). -/
def outcomeOf : Conversion → Option Int × Quality
  | .aboveRange => (none, .isOpen)
  | .belowRange => (none, .short)
  | .inRange m =>
    if 250000 < m then (none, .isOpen)
    else if m < -60000 then (none, .short)
    else (some (roundTenth m), .good)

/-- Two temperatures lie within the rate limit (R101); `none` is within no limit. -/
def within (rate : Nat) (v : Int) : Option Int → Bool
  | some r => decide ((v - r).natAbs ≤ rate)
  | none => false

/-- A row whose result is accepted as GOOD (R101 to R104). -/
def goodRow (v : Int) (now : Nat) : Channel := ⟨.good, some v, some v, none, some now⟩

/-- A row whose result awaits confirmation (R101, R103, R104). -/
def suspectRow (v : Int) (now : Nat) (r : Channel) : Channel :=
  ⟨.suspect, some v, r.lastGood, some v, some now⟩

/-- R100 to R104: the row after a conversion. -/
def judgedRow (rate now : Nat) (m : Conversion) (r : Channel) : Channel :=
  match outcomeOf m with
  | (none, q) => ⟨q, none, r.lastGood, none, some now⟩
  | (some v, _) =>
    if r.lastGood = none then goodRow v now
    else if within rate v r.lastGood then goodRow v now
    else if r.quality = .suspect && within rate v r.suspect then goodRow v now
    else suspectRow v now r

/-- The lowest enabled channel (R97, R98). -/
def firstChannel (m : Image) : Option (Fin 8) := eightIds.find? (isEnabled m)

/-- The next enabled channel of the scan after `t`; `none` where `t` ends the scan (R97). -/
def nextChannel (m : Image) (t : Fin 8) : Option (Fin 8) :=
  eightIds.find? fun u => decide (t < u) && isEnabled m u

/-- A settle timer at a scan end (R74): the third makes its expiry due (log entry 24). -/
def countScan (r : CircuitRow) : CircuitRow :=
  { r with
    settle :=
      match r.settle with
      | .stopped => .stopped
      | .running n => if n < 2 then .running (n + 1) else .due
      | .due => .due }

/-- The scan end reaches every settle timer (R74, R97). -/
def scanEnd (p : Plant) : Plant := { p with cct := mapRows p.cct fun _ r => countScan r }

/-- The scan starts at the lowest enabled channel (R98). -/
def startScan (s : State) : State :=
  { s with
    ssc := { s.ssc with conv := (firstChannel s.img).map fun t => (t, Config.conversionMs) } }

/-- The conversion in progress ends: its row is written, the next conversion begins, and a scan end is
reported after the last enabled channel (R96, R97). That it ends when the command comes, before or after
its 80 ms, is the model's choice (log entry 3). -/
def conversionEnd (m : Conversion) (s : State) : State :=
  match s.ssc.conv with
  | none => s
  | some (t, _) =>
    let rows := updAt s.ssc.rows t (judgedRow s.img.rate s.now m)
    match nextChannel s.img t with
    | some u => { s with ssc := ⟨rows, some (u, Config.conversionMs)⟩ }
    | none =>
      { s with
        ssc := ⟨rows, (firstChannel s.img).map fun u => (u, Config.conversionMs)⟩,
        plant := scanEnd s.plant }

/-- The settle timer of a circuit expires (R74): a SETTLING circuit whose temperature cannot be formed
enters SENSOR-LOST. -/
def settleExpiry (e : Env) (c : Fin 6) (p : Plant) : Plant :=
  if p.cct[c].settle = .stopped then p
  else
    let lost := decide (p.cct[c].state = .settling) && (formTemperature e c).1.isNone
    (p.updCct c fun r =>
      { r with settle := .stopped, state := if lost then .sensorLost else r.state }).raiseIf lost
        .sensorLost

/-- CONVERSION_END (R96). -/
def execConversionEnd (m : Conversion) (s : State) : Answer := .next (conversionEnd m s)

/-- SETTLE_TIMER_EXPIRY (R74). -/
def execSettleTimerExpiry (c : Fin 6) (s : State) : Answer :=
  .next { s with plant := settleExpiry s.env c s.plant }

end Sys2Proof.Machine
end

