-- ==== Sys2Proof/Machine/Startup.lean ====
section
/-! DEFINITION. The Start-up Loader (spec/11): pin reset (R185), the straps (R186), the image read
(R187), its judgement (R189, R190), entry to LISTEN (R191), entry to BLOCKED (R192) and RESTART (R193).
Commands PIN_RESET, RESETN_RELEASE, TRANSFER_ATTEMPT_END, CLOCK_HOLD_TIMEOUT and
ATTEMPT_RETRY_DELAY_EXPIRY. -/

namespace Sys2Proof.Machine

/-- Rewrite the Start-up Loader's items. -/
def updSul (f : Sul → Sul) (s : State) : State := { s with sul := f s.sul }

/-- R186: entry to START: the straps are read and the first transfer begins. -/
def enterStart (s : State) : State :=
  updSul (fun _ => ⟨s.pins.straps.toFin, .reading 1 1 none, [], false, none, none⟩) s

/-- R185: every item of every block takes its pin-reset value. The levels outside the part, the queue
and the counter of free values are not items of a block. -/
def pinReset (s : State) : State :=
  { State.reset with
    pins := { s.pins with resetnHeld := true }, pending := s.pending,
    plant := { Plant.reset with free := s.plant.free } }

/-- R186: release of RESETN with the straps at the levels named; without a held RESETN there is nothing
to release. -/
def resetnRelease (straps : BitVec 5) (s : State) : State :=
  if s.pins.resetnHeld then
    enterStart { s with pins := { s.pins with resetnHeld := false, straps := straps } }
  else s

/-- What RESTART leaves of an output row: the BAD set and the health record (R111, R113, R193). -/
def restartRow (r : OutputRow) : OutputRow :=
  { OutputRow.reset with
    role := if r.role = .bad then .bad else .unused, health := r.health }

/-- Every output goes off (R118, R193); a period that ends so leaves its mean in the health record. -/
def allOff (p : Plant) : Plant := sixIds.foldl (fun q o => switchOff o q) p

/-- R193: a RESTART is taken: every block takes its RESTART value and START is entered. -/
def restartTaken (s : State) : State :=
  let p := allOff s.plant
  enterStart
    { State.reset with
      pins := s.pins, now := s.now, pending := s.pending,
      plant :=
        { Plant.reset with
          free := p.free,
          ogd := { Ogd.reset with outputs := mapRows p.ogd.outputs fun _ r => restartRow r } } }

/-! ### The judgement (R189 to R192) -/

/-- The receiver is turned on, hunting, with the idle time counting from 0 (R138); what the end of a
character in progress does to the count is log entry 39. -/
def receiverOn (s : State) : State :=
  updLif (fun l => { l with receiver := .hunting, buffer := [], idle := some 0 }) s

/-- R192: the image is BAD and the station enters BLOCKED. -/
def enterBlocked (s : State) : State :=
  let s := updSul (fun u => { u with progress := .done, judgement := some .bad }) s
  let s := (updRct (fun r => { r with membership := .blocked }) s).raise .configBad
  receiverOn { s with plant := compute s.env none false .noAllot s.plant }

/-- R191, step 5 for the circuits: every configured circuit leaves DISABLED and the windows start. -/
def circuitsIntoService (e : Env) (p : Plant) : Plant :=
  startWindows e (sixIds.foldl (fun q c => leaveDisabled e c q) p)

/-- R191: the image is GOOD and the station enters LISTEN. -/
def enterListen (s : State) : State :=
  let s := updSul (fun u => { u with progress := .done, judgement := some .good }) s
  let masked := { s.plant with fct := s.plant.fct.setMask s.img.mask }
  let s := receiverOn { s with plant := loadRoles s.env masked }
  let s := updRct (fun r => { r with membership := .listen, listenTimer := some s.listenTimerMs }) s
  let s := startScan { s with plant := circuitsIntoService s.env s.plant }
  { s with plant := compute s.env none false .capped s.plant }

/-- R189, R190: the judgement after transfer 5. -/
def judgeImage (s : State) : State :=
  let shared := sharedPasses s.sul.copy
  let s :=
    updSul (fun u =>
      { u with
        sharedGood := shared, digest := if shared then some (sharedDigest u.copy) else none }) s
  if imagePasses s.sul.copy s.sul.rank then enterListen s else enterBlocked s

/-! ### The read (R187) -/

/-- A failed attempt: the next attempt of the same transfer after 5 ms, or BAD at the third. -/
def attemptFailed (transfer attempt : Nat) (s : State) : State :=
  if attempt < Config.maxAttempts then
    updSul (fun u =>
      { u with progress := .reading transfer (attempt + 1) (some Config.retryDelay) }) s
  else enterBlocked s

/-- A transfer has succeeded: its bytes are stored; the header is checked after transfer 1 and the
image judged after transfer 5. -/
def transferDone (transfer : Nat) (bytes : List Byte) (s : State) : State :=
  let s := updSul (fun u => { u with copy := u.copy ++ bytes }) s
  if transfer = 1 && !(formatOk s.img && lengthOk s.img) then enterBlocked s
  else if transfer < 5 then
    updSul (fun u => { u with progress := .reading (transfer + 1) 1 none }) s
  else judgeImage s

/-- R187: an attempt in progress ends. A success with another number of bytes than the transfer's is no
end of it (log entry 14). -/
def transferAttemptEnd (outcome : TransferOutcome) (s : State) : State :=
  match s.sul.progress with
  | .reading t a none =>
    match outcome with
    | .success bytes => if bytes.length = transferSize t then transferDone t bytes s else s
    | .busHeld => attemptFailed t a s
    | .noAcknowledge => attemptFailed t a s
  | .reading _ _ (some _) => s
  | .idle => s
  | .done => s

/-- R187: the memory holds the clock low for more than 10 ms. -/
def clockHoldTimeout (s : State) : State :=
  match s.sul.progress with
  | .reading t a none => attemptFailed t a s
  | .reading _ _ (some _) => s
  | .idle => s
  | .done => s

/-- R187: the wait after a failed attempt ends and the next attempt begins. -/
def attemptRetryDelayExpiry (s : State) : State :=
  match s.sul.progress with
  | .reading t a (some _) => updSul (fun u => { u with progress := .reading t a none }) s
  | .reading _ _ none => s
  | .idle => s
  | .done => s

/-- PIN_RESET (R185). -/
def execPinReset (s : State) : Answer := .next (pinReset s)

/-- RESETN_RELEASE (R186). -/
def execResetnRelease (straps : BitVec 5) (s : State) : Answer := .next (resetnRelease straps s)

/-- TRANSFER_ATTEMPT_END (R187). -/
def execTransferAttemptEnd (outcome : TransferOutcome) (s : State) : Answer :=
  .next (transferAttemptEnd outcome s)

/-- CLOCK_HOLD_TIMEOUT (R187). -/
def execClockHoldTimeout (s : State) : Answer := .next (clockHoldTimeout s)

/-- ATTEMPT_RETRY_DELAY_EXPIRY (R187). -/
def execAttemptRetryDelayExpiry (s : State) : Answer := .next (attemptRetryDelayExpiry s)

end Sys2Proof.Machine
end

