-- ==== Sys2Proof/Machine/Pages.lean ====
section
/-! DEFINITION. What a query reads: the page counts (R165) and the body of every page (R166 to R169),
first byte at the top. Codes follow the order of the table that defines the item; an item that holds
nothing is sent as 255 (R165, log entry 17), save where the model sends 0 (log entry 36). That an item whose
values are "set or clear" is sent as a yes/no item, 1 for set, is the model's choice (log entry 40). -/

namespace Sys2Proof.Machine

/-- A yes/no item, 1 for yes (R165); an item that is set or clear goes out as one (log entry 40). -/
def yesNo (b : Bool) : Byte := if b then 1 else 0

/-- A number as one byte. -/
def oneByte (n : Nat) : List Byte := [byteOf n]

/-- A temperature in 0.1 °C; none is −32,768 (R165). -/
def tempBytes : Option Int → List Byte
  | some t => signedTwo t
  | none => signedTwo (-32768)

/-- An amount of LU that may be absent: 65,535 (R165). -/
def amountBytes (x : Option Nat) : List Byte := twoBytes (x.getD 65535)

/-- An output, or a circuit, as a number from 1; no output is 0 (R165), and 0 for no circuit is the model's
choice (log entry 36). -/
def idByte : Option (Fin 6) → Byte
  | some i => byteOf (i.val + 1)
  | none => 0

/-- Membership, in R2 order. -/
def membershipCode : Membership → Nat
  | .start => 0
  | .blocked => 1
  | .listen => 2
  | .joining => 3
  | .member => 4
  | .retired => 5

/-- Line state (R166). -/
def lineCode : LineState → Nat
  | .flowing => 0
  | .standstill => 1

/-- Circuit state, in R69 order. -/
def stateCode : CState → Nat
  | .disabled => 0
  | .settling => 1
  | .regulating => 2
  | .sensorLost => 3
  | .inhibited => 4
  | .tripped => 5
  | .failed => 6
  | .testing => 7

/-- Settle timer count, 255 stopped (R167); an expiry still to be taken shows the last count. -/
def settleCode : Settle → Nat
  | .stopped => 255
  | .running n => n
  | .due => 2

/-- Temperature source, in R69 order. -/
def sourceCode : TempSource → Nat
  | .primary => 0
  | .backup => 1
  | .noSource => 2

/-- Quality, in R99 order. -/
def qualityCode : Quality → Nat
  | .noReading => 0
  | .good => 1
  | .suspect => 2
  | .isOpen => 3
  | .short => 4

/-- Role, in R111 order. -/
def roleCode : Role → Nat
  | .primary _ => 0
  | .spareFree => 1
  | .spareBound _ => 2
  | .unused => 3
  | .bad => 4

/-- Fault kind, in R127 order. -/
def faultCode : FaultKind → Nat
  | .leakage => 0
  | .overload => 1
  | .openElement => 2

/-- Cause of an aborted test (R167). -/
def causeCode : AbortCause → Nat
  | .allotment => 0
  | .limit => 1
  | .binding => 2

/-- A filtered level: 1 asserted or open, 0 otherwise, 255 none (R167). -/
def levelByte : Option Bool → Byte
  | some b => yesNo b
  | none => 255

/-- Peer status, in R34 order. -/
def peerCode : PeerStatus → Nat
  | .unknown => 0
  | .present => 1
  | .joining => 2
  | .stale => 3
  | .absent => 4
  | .retired => 5
  | .mismatched => 6

/-- Kind of a computation, in R67 order. -/
def kindCode : AllotKind → Nat
  | .complete => 0
  | .degraded => 1
  | .capped => 2
  | .noAllot => 3

/-- Classification (R169). -/
def classificationCode : Classification → Nat
  | .participant => 0
  | .charged => 1
  | .released => 2

/-- Cap source (R169). -/
def capCode : Option CapSource → Nat
  | some .share => 0
  | some (.declared _) => 1
  | some .unsettled => 2
  | none => 255

/-! ### STATION and FACTORS (R166) -/

/-- The station page, 24 bytes. Its DEGRADED flag and its pending restart, set or clear in R2 and R160, go
out as 1 for set, the model's choice (log entry 40). -/
def stationPage (s : State) : List Byte :=
  oneByte s.own ++ oneByte (membershipCode s.rct.membership) ++
    [yesNo s.rct.round.isSome, s.rct.round.getD 0] ++ oneByte (s.rct.opener.getD 0) ++
    [yesNo s.rct.degraded] ++ oneByte s.rct.listenAdoptions ++ amountBytes s.rct.declaredCurrent ++
    amountBytes s.rct.declaredClosed ++ oneByte (lineCode s.rst.line) ++
    [yesNo s.srv.restartPending] ++ oneByte (if s.sul.sharedGood then s.img.stations else 0) ++
    twoBytes (if s.sul.sharedGood then s.img.budget else 0) ++ twoBytes (s.env.share s.own) ++
    twoBytes s.plant.alu.own ++ twoBytes (s.sul.digest.getD 0).toNat ++
    [yesNo s.plant.ogd.test.isSome, yesNo s.lck.emission.running]

/-- The factors page, 8 bytes. -/
def factorsPage (s : State) : List Byte :=
  factorSetBytes s.plant.fct.status ++ factorSetBytes s.plant.fct.mask ++
    [yesNo s.plant.fct.alarm, yesNo s.plant.fct.summary]

/-! ### CIRCUITS, OUTPUTS, SENSORS (R167) -/

/-- The page of a circuit, 24 bytes; the duty in thousandths is on-time over W (R69). -/
def circuitPage (s : State) (c : Fin 6) : List Byte :=
  let r := s.plant.cct[c]
  let t := s.plant.ogd.trips[c]
  [byteOf (c.val + 1), byteOf (stateCode r.state), idByte (s.plant.ogd.boundTo c),
    byteOf (s.plant.ogd.ratedOf c), byteOf (settleCode r.settle)] ++ tempBytes r.temp ++
    oneByte (sourceCode r.source) ++ tempBytes r.setpoint ++
    [byteOf r.need, signedOne (r.margin.getD (-128)), byteOf ((r.cls.map classRank).getD 255),
      byteOf r.grant] ++ twoBytes r.onTime ++
    twoBytes (freeQuot (r.onTime * 1000) s.env.windowMs) ++
    [byteOf r.starved, byteOf t.count] ++ fourBytes t.seconds

/-- The last test result of a health record (R167): outcome, energized time, mean, peak, fault kind,
cause. The three numbers of a result of NONE are 0, the model's choice (log entry 36). -/
def testResultBytes : Option TestResult → List Byte
  | none => [3] ++ twoBytes 0 ++ twoBytes 0 ++ twoBytes 0 ++ [255, 255]
  | some t =>
    let (code, fault, cause) :=
      match t.outcome with
      | .done => (0, 255, 255)
      | .tripped k => (1, faultCode k, 255)
      | .aborted a => (2, 255, causeCode a)
    oneByte code ++ twoBytes t.energizedMs ++ twoBytes t.mean ++ twoBytes t.peak ++
      [byteOf fault, byteOf cause]

/-- The page of an output, 32 bytes. -/
def outputPage (s : State) (o : Fin 6) : List Byte :=
  let r := s.plant.ogd.outputs[o]
  [byteOf (o.val + 1), byteOf (roleCode r.role), idByte r.role.circuit, byteOf r.rated,
    yesNo r.energized, levelByte r.leakage.level, levelByte r.limit.level] ++ twoBytes r.measured ++
    oneByte r.openCount ++
    twoBytes (match r.holdOff with
      | some ms => freeQuot ms 1000
      | none => 65535) ++
    fourBytes r.health.seconds ++ twoBytes r.health.tripTotal ++ twoBytes r.health.peak ++
    twoBytes r.health.lastLoad ++ oneByte ((r.health.lastFault.map faultCode).getD 3) ++
    testResultBytes r.health.lastTest

/-- The BAD set as a byte, O1 in the least significant bit (R165, R167). -/
def badSetByte (g : Ogd) : Byte :=
  byteOf ((sixIds.map fun o => if g.isBad o then 2 ^ o.val else 0).sum)

/-- The station-wide page of OUTPUTS, 42 bytes. -/
def stationOutputsPage (s : State) : List Byte :=
  let g := s.plant.ogd
  [badSetByte g] ++
    (match g.test with
      | some t =>
        [1, byteOf (t.output.val + 1), idByte t.circuit, byteOf t.duration] ++
          twoBytes t.energizedMs ++ twoBytes (testMean t) ++ twoBytes t.peak
      | none => List.replicate 10 0) ++
    (sixIds.map fun c => oneByte g.trips[c].count ++ fourBytes g.trips[c].seconds).flatten ++
    [levelByte g.flow.level]

/-- Age of a channel's last conversion in ms (R107). -/
def ageOf (s : State) (r : Channel) : Nat :=
  match r.lastAt with
  | some t => min 65535 (s.now - t)
  | none => 65535

/-- One channel of a SENSORS page, 11 bytes. -/
def channelBytes (s : State) (t : Fin 8) : List Byte :=
  let r := s.ssc.rows[t]
  [byteOf (t.val + 1), yesNo (isEnabled s.img t), byteOf (qualityCode r.quality)] ++
    tempBytes r.value ++ tempBytes r.lastGood ++ tempBytes r.suspect ++ twoBytes (ageOf s r)

/-- A SENSORS page: the rate limit and four channels, 46 bytes. -/
def sensorsPage (s : State) (page : Nat) : List Byte :=
  twoBytes s.img.rate ++
    ((eightIds.filter fun t => decide (t.val / 4 = page)).map (channelBytes s)).flatten

/-! ### ROSTER (R168) -/

/-- Status byte of a peer row; the own row shows 16 and the membership code (R34, R168). -/
def statusByte (s : State) (i : Fin 32) : Byte :=
  if i.val + 1 = s.own then byteOf (16 + membershipCode s.rct.membership)
  else byteOf (peerCode s.rst.rows[i].status)

/-- ROSTER page 0, 43 bytes. -/
def rosterSummary (s : State) : List Byte :=
  oneByte s.rst.settled.val ++ addrSetBytes (heldSet s.rst.collecting) ++
    addrSetBytes (heldSet s.rst.settledBuf) ++ oneByte s.rst.silent ++
    oneByte (lineCode s.rst.line) ++ (Vector.ofFn fun i => statusByte s i).toList

/-- The last bid of a peer row (R168). -/
def lastBidBytes (b : BidFrame) : List Byte :=
  [yesNo b.member, byteOf (flowCode b.flow), yesNo b.alarm, b.round, byteOf b.opener] ++
    twoBytes b.digest.toNat ++ twoBytes b.load ++ oneByte b.records.length ++
    (b.records.map recordBytes).flatten

/-- The page of a peer row: 7 bytes, or 17 and four for each record. Its return mark, set or clear in R34,
goes out as 1 for set, the model's choice (log entry 40). -/
def rosterRow (s : State) (i : Fin 32) : List Byte :=
  let r := s.rst.rows[i]
  [byteOf (i.val + 1), statusByte s i, byteOf r.missCount, r.lastRound.getD 0,
    yesNo r.lastRound.isSome, yesNo r.returnMark, yesNo r.lastBid.isSome] ++
    match r.lastBid with
    | some b => lastBidBytes b
    | none => []

/-! ### ALLOTMENT and QUALITY (R169) -/

/-- The declared value a cap used. -/
def declaredOf : Option CapSource → Option Nat
  | some (.declared n) => some n
  | _ => none

/-- ALLOTMENT page 0, 25 bytes. Without a round its byte is 0, and so is the rated load without a test
deduction: the model's choice (log entry 36). -/
def allotmentSummary (s : State) : List Byte :=
  let u := s.plant.alu
  [byteOf (kindCode u.kind), yesNo u.round.isSome, u.round.getD 0, byteOf (capCode u.cap)] ++
    amountBytes (declaredOf u.cap) ++ twoBytes u.own ++
    (sixIds.map fun c => byteOf s.plant.cct[c].grant) ++
    [idByte (u.deduction.map Prod.fst), byteOf ((u.deduction.map Prod.snd).getD 0)] ++
    match u.division with
    | some d =>
      addrSetBytes d.heard ++ twoBytes d.poolTotal ++ twoBytes d.poolLeft ++
        oneByte d.records.length
    | none => List.replicate 9 0

/-- One address of an ALLOTMENT page, 8 bytes; 255 above N, where the three amounts are 0, the model's
choice (log entry 36). -/
def addressBytes (d : Division) (a : Nat) : List Byte :=
  match d.entries.find? fun x => decide (x.addr = a) with
  | some x =>
    [byteOf a, byteOf (classificationCode x.cls)] ++ twoBytes x.charge ++ twoBytes x.base ++
      twoBytes x.poolPart
  | none => [byteOf a, 255] ++ List.replicate 6 0

/-- One record of an ALLOTMENT page, 8 bytes. -/
def entryBytes (r : RecEntry) : List Byte :=
  [byteOf r.addr, byteOf r.circuit, byteOf (classRank r.cls), signedOne r.margin, byteOf r.need,
    byteOf r.basePart, byteOf r.poolPart, byteOf r.grant]

/-- ALLOTMENT pages 1…6 (addresses) and 7 on (records), six to a page. -/
def divisionPage (d : Division) (page : Nat) : List Byte :=
  if page ≤ 6 then
    ((stationAddresses.drop (6 * (page - 1))).take 6).flatMap (addressBytes d)
  else ((d.records.drop (6 * (page - 7))).take 6).flatMap entryBytes

/-- A page of ALLOTMENT. -/
def allotmentPage (s : State) (page : Nat) : List Byte :=
  match page, s.plant.alu.division with
  | 0, _ => allotmentSummary s
  | _, some d => divisionPage d page
  | _, none => []

/-- QUALITY page 0: totals and emission record, 17 bytes. -/
def qualitySummary (s : State) : List Byte :=
  let t := s.lck.totals
  let m := s.lck.emission
  twoBytes t.good ++ twoBytes t.crcFailures ++ twoBytes t.rejected ++ twoBytes t.tool ++
    twoBytes t.outOfRange ++ oneByte (if m.running then 1 else 0) ++ oneByte m.count ++
    twoBytes m.seed.toNat ++ [byteOf m.nextIndex, byteOf m.passed, byteOf m.failed]

/-- A row of a QUALITY page, 15 bytes (R159, R169). Its last byte is the error latch, set or clear in R150:
1 for set and 0 for clear, the model's choice (log entry 40). -/
def qualityRow (s : State) (i : Fin 32) : List Byte :=
  let r := s.lck.rows[i]
  oneByte (i.val + 1) ++ twoBytes r.heard ++ twoBytes r.bids ++ twoBytes r.bidsMissed ++
    twoBytes r.testGood ++ twoBytes r.testBad ++ twoBytes r.testMissed ++
    oneByte (r.lastIndex.getD 255) ++ [yesNo r.latch]

/-- QUALITY page `p` in 1…11: addresses 3p − 2 to 3p. -/
def qualityPage (s : State) (page : Nat) : List Byte :=
  (((stationAddresses.drop (3 * (page - 1))).take 3).filterMap place).flatMap (qualityRow s)

/-! ### Page counts and bodies (R165) -/

/-- Pages of ALLOTMENT: 1 without a division part, else 7 and the record pages (R165, R169). -/
def allotmentPages (s : State) : Nat :=
  match s.plant.alu.division with
  | some d => 7 + ceilDiv d.records.length 6
  | none => 1

/-- Page count of a query kind (R165); 1 for a kind out of range (R162). -/
def pageCountOf (s : State) : Nat → Nat
  | 2 => 6
  | 3 => 7
  | 4 => 2
  | 5 => 33
  | 6 => allotmentPages s
  | 8 => 12
  | _ => 1

/-- Page `page` of query kind `kind`, for a page below the count (R166 to R169). -/
def pageBody (s : State) (kind page : Nat) : List Byte :=
  match kind with
  | 1 => stationPage s
  | 2 =>
    match outputOf (page + 1) with
    | some c => circuitPage s c
    | none => []
  | 3 =>
    match outputOf (page + 1) with
    | some o => outputPage s o
    | none => stationOutputsPage s
  | 4 => sensorsPage s page
  | 5 =>
    match place page with
    | some i => rosterRow s i
    | none => rosterSummary s
  | 6 => allotmentPage s page
  | 7 => factorsPage s
  | 8 => if page = 0 then qualitySummary s else qualityPage s page
  | _ => []

end Sys2Proof.Machine
end

