-- ==== Sys2Proof/Machine/Service.lean ====
section
/-! DEFINITION. The Service Responder (spec/09): judging a request in four stages (R161), replies
(R162), broadcasts (R163), service in each membership (R164), and what each command hands to its owner
(R170 to R175). -/

namespace Sys2Proof.Machine

/-- Kind byte of a request. -/
def requestKind : Request → Byte
  | .query q => q.kind
  | .command c => c.kind

/-- Destination of a request. -/
def requestDest : Request → Byte
  | .query q => q.dest
  | .command c => c.dest

/-- Tag of a request. -/
def requestTag : Request → Byte
  | .query q => q.tag
  | .command c => c.tag

/-- The request is addressed to this station (R162). -/
def addressedTo (s : State) (r : Request) : Bool := decide ((requestDest r).toNat = s.own)

/-- The request is a broadcast (R163). -/
def isBroadcast (r : Request) : Bool := decide (requestDest r = 255)

/-! ### Stage 1: form -/

/-- R161, stage 1: the length and the arguments of a command. -/
def commandFormOk (kind : Nat) (args : List Byte) : Bool :=
  match kind, args with
  | 1, [_, _, _] => decide (factorSetAt args 0 &&& unnamedCodes = 0)
  | 2, [_, _, _] => decide (factorSetAt args 0 &&& unnamedCodes = 0)
  | 3, [o, d] => decide (1 ≤ o.toNat ∧ o.toNat ≤ 6 ∧ 1 ≤ d.toNat ∧ d.toNat ≤ 60)
  | 4, [k, _, _] => decide (k ≠ 0)
  | 5, [a] => decide (1 ≤ a.toNat ∧ a.toNat ≤ 32)
  | 6, [] => true
  | 7, [] => true
  | _, _ => false

/-- R161, stage 1. -/
def formOk (s : State) : Request → Bool
  | .query q =>
    decide (1 ≤ q.kind.toNat ∧ q.kind.toNat ≤ 8 ∧ q.page.toNat < pageCountOf s q.kind.toNat)
  | .command c => commandFormOk c.kind.toNat c.args

/-! ### Stages 2 and 3: destination and membership -/

/-- A RETIRE addressed to one station is REFUSED (R161, stage 2; R173). -/
def addressedRetire : Request → Bool
  | .query _ => false
  | .command c => decide (c.kind = 5 ∧ c.dest ≠ 255)

/-- R164: in BLOCKED, QUERY STATION, QUERY FACTORS and RESTART alone are served. R150 says that the tool
can read the line-quality table of a BLOCKED station; that R164 is followed is the model's choice (log
entry 34). -/
def servedIn (m : Membership) : Request → Bool
  | .query q => decide (m ≠ .blocked) || decide (q.kind = 1) || decide (q.kind = 7)
  | .command c => decide (m ≠ .blocked) || decide (c.kind = 6)

/-! ### Stage 4: the owners -/

/-- R153: the Line Check Unit's answer to a LINECHECK. -/
def judgeLinecheck (s : State) : Result :=
  if !s.rct.membership.bids then .refused
  else if s.lck.emission.running then .busy
  else .accepted

/-- R171: a TEST_OUTPUT handed to the Output Guard. -/
def serveTest (o : Fin 6) (seconds : Nat) (s : State) : Result × State :=
  match judgeTest s.env s.plant o with
  | .accepted => (.accepted, { s with plant := startTest s.env o seconds s.plant })
  | r => (r, s)

/-- R172: a LINECHECK handed to the Line Check Unit. -/
def serveLinecheck (count : Nat) (seed : Word16) (s : State) : Result × State :=
  match judgeLinecheck s with
  | .accepted => (.accepted, startEmission count seed s)
  | r => (r, s)

/-- R173: a broadcast RETIRE: the Roster's row, and the station's own retirement where it is named. -/
def serveRetire (a : Nat) (s : State) : State :=
  let t := retireRow a s
  if a = s.own && s.rct.membership.follows then enterRetired t else t

/-- A command that has passed stages 1 to 3, by its kind (R170 to R175). -/
def serveCommand (kind : Nat) (args : List Byte) (s : State) : Result × State :=
  match kind with
  | 1 =>
    (.done, { s with plant := { s.plant with fct := s.plant.fct.clear (factorSetAt args 0) } })
  | 2 =>
    (.done, { s with plant := { s.plant with fct := s.plant.fct.setMask (factorSetAt args 0) } })
  | 3 =>
    match outputOf (byteAt args 0) with
    | some o => serveTest o (byteAt args 1) s
    | none => (.badRequest, s)
  | 4 => serveLinecheck (byteAt args 0) (BitVec.ofNat 16 (wordAt args 1)) s
  | 5 => (.done, serveRetire (byteAt args 0) s)
  | 6 => (.done, { s with srv := { s.srv with restartPending := true } })
  | 7 => (.done, clearQuality s)
  | _ => (.badRequest, s)

/-- R161: the four stages; the first that fails decides the result and changes nothing. -/
def judgeRequest (r : Request) (s : State) : Result × State :=
  if !formOk s r then (.badRequest, s)
  else if addressedRetire r then (.refused, s)
  else if !servedIn s.rct.membership r then (.refused, s)
  else
    match r with
    | .query _ => (.done, s)
    | .command c => serveCommand c.kind.toNat c.args s

/-! ### Replies (R162) -/

/-- Body of the reply: the page of a query answered DONE, else empty. -/
def replyBody (s : State) (result : Result) : Request → List Byte
  | .query q => if result = .done then pageBody s q.kind.toNat q.page.toNat else []
  | .command _ => []

/-- R162: the REPLY to a request served in state `s`. -/
def replyTo (s : State) (r : Request) (result : Result) : ReplyFrame :=
  { source := s.own, tag := requestTag r,
    reqType :=
      match r with
      | .query _ => 3
      | .command _ => 4,
    reqKind := requestKind r, result := result,
    page :=
      match r with
      | .query q => q.page
      | .command _ => 0,
    pageCount :=
      match r with
      | .query q => byteOf (pageCountOf s q.kind.toNat)
      | .command _ => 1,
    body := replyBody s result r }

/-- R162: the reply takes the REPLY slot, in place of one still waiting. -/
def placeReply (f : ReplyFrame) (s : State) : State :=
  updLif (fun l => { l with replySlot := .pending f }) s

/-- R174: a pending restart is taken at the first moment at which the REPLY slot is EMPTY. -/
def takeRestart (s : State) : State :=
  if s.srv.restartPending && decide (s.lif.replySlot = .empty) then restartTaken s else s

/-- R162, R163, R174: a request handed to the Service Responder is served as one action. -/
def serve (r : Request) (s : State) : State :=
  let (result, t) := judgeRequest r s
  if isBroadcast r then takeRestart t else placeReply (replyTo s r result) t

end Sys2Proof.Machine
end

