-- ==== Sys2Proof/Machine/Line.lean ====
section
/-! DEFINITION. The Line Interface (spec/07): reception, judgement and routing of frames (R138 to R140),
deference and winning the line (R142, R143), the ends of the own-frame checks (R145, R146), and the line
character by character (R133, R145). Commands: every received frame and request, FRAME_GAP_TIMEOUT,
BROKEN_FRAME, DEFERENCE_EXPIRY and the four CHECK_ENDs. -/

namespace Sys2Proof.Machine

/-! ### Reception -/

/-- The receiver can take a frame: the station is not sending (R138), and the receiver is in a frame, or
hunts on a line that is idle. A character that began no frame keeps the line busy (R133). A command that
names a whole frame says that the idle time before it was long enough (log entry 6). -/
def canReceive (s : State) : Bool :=
  !s.lif.sending &&
    match s.lif.receiver with
    | .off => false
    | .hunting => s.lif.idle.isSome
    | .receiving => true

/-- A frame has ended on the line: the receiver hunts again and the idle time counts from `idle`
(R133). -/
def frameEnded (idle : Nat) (s : State) : State :=
  updLif (fun l => { l with receiver := .hunting, buffer := [], idle := some idle }) s

/-- R140: a GOOD frame goes to the block that owns its kind. -/
def route (f : Frame) (s : State) : State :=
  match f with
  | .openFrame o => openReceived o s
  | .bid b => bidReceived b s
  | .request r => if addressedTo s r || isBroadcast r then serve r s else s
  | .reply _ => s
  | .test t => checkTest t s

/-- R139, R140, R151: a GOOD frame is counted and handed on (log entry 23). -/
def goodFrame (f : Frame) (s : State) : State := route f (countFrame f s)

/-- A frame whose bytes pass the CRC and the length checks is judged by its fields (R139). -/
def receive (f : Frame) (s : State) : State :=
  if canReceive s then
    if f.wf then goodFrame f (frameEnded 0 s) else countRejected (frameEnded 0 s)
  else s

/-- The bytes of a frame are judged (R139); only BAD ones are counted in the totals alone (R151). -/
def receiveBytes (bytes : List Byte) (s : State) : State :=
  if canReceive s then
    match judgeBytes bytes with
    | .good f => goodFrame f (frameEnded 0 s)
    | .crcFailed => countCrcFailure (frameEnded 0 s)
    | .rejected => countRejected (frameEnded 0 s)
  else s

/-- A broken frame is judged BAD and counted as a CRC failure (R133, R139, R151). -/
def brokenFrame (idle : Nat) (s : State) : State :=
  if canReceive s then countCrcFailure (frameEnded idle s) else s

/-- OPEN_RECEIVED (R9). -/
def execOpenReceived (f : OpenFrame) (s : State) : Answer := .next (receive (.openFrame f) s)

/-- BID_RECEIVED (R11). -/
def execBidReceived (f : BidFrame) (s : State) : Answer := .next (receive (.bid f) s)

/-- TEST_FRAME_RECEIVED (R156). -/
def execTestFrameReceived (f : TestFrame) (s : State) : Answer := .next (receive (.test f) s)

/-- REPLY_FRAME_RECEIVED (R140). -/
def execReplyFrameReceived (f : ReplyFrame) (s : State) : Answer := .next (receive (.reply f) s)

/-- BAD_FRAME_RECEIVED (R139). -/
def execBadFrameReceived (bytes : List Byte) (s : State) : Answer := .next (receiveBytes bytes s)

/-- Idle time at a frame gap: the gap that broke the frame counts, 2 ms at the least (R133). -/
def gapIdle (l : Lif) : Nat :=
  match l.receiver, l.idle with
  | .receiving, some t => max Config.frameGap t
  | _, _ => Config.frameGap

/-- FRAME_GAP_TIMEOUT (R133). -/
def execFrameGapTimeout (s : State) : Answer := .next (brokenFrame (gapIdle s.lif) s)

/-- BROKEN_FRAME (R133). -/
def execBrokenFrame (s : State) : Answer := .next (brokenFrame 0 s)

/-- A QUERY of the service tool. -/
def queryFrame (dest tag kind page : Byte) : Frame := .request (.query ⟨dest, tag, kind, page⟩)

/-- A COMMAND of the service tool. -/
def commandFrame (dest tag kind : Byte) (args : List Byte) : Frame :=
  .request (.command ⟨dest, tag, kind, args⟩)

/-- QUERY_STATION (R166). -/
def execQueryStation (dest tag page : Byte) (s : State) : Answer :=
  .next (receive (queryFrame dest tag 1 page) s)

/-- QUERY_CIRCUITS (R167). -/
def execQueryCircuits (dest tag page : Byte) (s : State) : Answer :=
  .next (receive (queryFrame dest tag 2 page) s)

/-- QUERY_OUTPUTS (R167). -/
def execQueryOutputs (dest tag page : Byte) (s : State) : Answer :=
  .next (receive (queryFrame dest tag 3 page) s)

/-- QUERY_SENSORS (R167). -/
def execQuerySensors (dest tag page : Byte) (s : State) : Answer :=
  .next (receive (queryFrame dest tag 4 page) s)

/-- QUERY_ROSTER (R168). -/
def execQueryRoster (dest tag page : Byte) (s : State) : Answer :=
  .next (receive (queryFrame dest tag 5 page) s)

/-- QUERY_ALLOTMENT (R169). -/
def execQueryAllotment (dest tag page : Byte) (s : State) : Answer :=
  .next (receive (queryFrame dest tag 6 page) s)

/-- QUERY_FACTORS (R166). -/
def execQueryFactors (dest tag page : Byte) (s : State) : Answer :=
  .next (receive (queryFrame dest tag 7 page) s)

/-- QUERY_QUALITY (R169). -/
def execQueryQuality (dest tag page : Byte) (s : State) : Answer :=
  .next (receive (queryFrame dest tag 8 page) s)

/-- CLEAR_FACTORS (R170, R179). -/
def execClearFactors (dest tag : Byte) (args : List Byte) (s : State) : Answer :=
  .next (receive (commandFrame dest tag 1 args) s)

/-- SET_MASK (R170, R180). -/
def execSetMask (dest tag : Byte) (args : List Byte) (s : State) : Answer :=
  .next (receive (commandFrame dest tag 2 args) s)

/-- TEST_OUTPUT (R171, R128). -/
def execTestOutput (dest tag : Byte) (args : List Byte) (s : State) : Answer :=
  .next (receive (commandFrame dest tag 3 args) s)

/-- LINECHECK (R172, R153). -/
def execLinecheck (dest tag : Byte) (args : List Byte) (s : State) : Answer :=
  .next (receive (commandFrame dest tag 4 args) s)

/-- RETIRE (R173). -/
def execRetire (dest tag : Byte) (args : List Byte) (s : State) : Answer :=
  .next (receive (commandFrame dest tag 5 args) s)

/-- RESTART (R174). -/
def execRestart (dest tag : Byte) (args : List Byte) (s : State) : Answer :=
  .next (receive (commandFrame dest tag 6 args) s)

/-- CLEAR_QUALITY (R175). -/
def execClearQuality (dest tag : Byte) (args : List Byte) (s : State) : Answer :=
  .next (receive (commandFrame dest tag 7 args) s)

/-- UNKNOWN_REQUEST (R161). -/
def execUnknownRequest (r : Request) (s : State) : Answer := .next (receive (.request r) s)

/-! ### Deference (R142, R143) -/

/-- The slot whose frame contends for the line. -/
inductive SlotName where
  | openSlot | replySlot | bidSlot | testSlot
  deriving DecidableEq, Repr

/-- The PENDING slot of shortest deference (R142, R143). -/
def contender (l : Lif) : Option SlotName :=
  if l.openSlot.isPending then some .openSlot
  else if l.replySlot.isPending then some .replySlot
  else if l.bidSlot.isPending then some .bidSlot
  else if l.testSlot.isPending then some .testSlot
  else none

/-- Deference in ms of a class, by rank (R142). -/
def deference (rank : Nat) : SlotName → Nat
  | .openSlot => 4 + rank
  | .replySlot => 40
  | .bidSlot => 42 + rank
  | .testSlot => 80 + rank

/-- The contending frame wins the line, with its contents as they stand (R4, R24, R143, R154). -/
def winLine (n : SlotName) (s : State) : State :=
  let s := updLif (fun l => { l with idle := none, checked := 0 }) s
  match n with
  | .openSlot => updLif (fun l => { l with openSlot := .sending (ownOpen s) }) s
  | .replySlot =>
    match s.lif.replySlot with
    | .pending f => updLif (fun l => { l with replySlot := .sending f }) s
    | .empty => s
    | .sending _ => s
  | .bidSlot =>
    match s.lif.bidSlot with
    | .pending p => updLif (fun l => { l with bidSlot := .sending (ownBid p.1 p.2 s) }) s
    | .empty => s
    | .sending _ => s
  | .testSlot => updLif (fun l => { l with testSlot := .sending (emittedTest s) }) s

/-- The line is free for the station's own frames: it is idle, no frame of another talker is in progress,
and none of the station's own is (R133, R143). -/
def lineFree (l : Lif) : Bool :=
  !l.sending && l.idle.isSome && decide (l.receiver ≠ .receiving)

/-- R143: the idle time reaches the deference of the shortest PENDING slot. While a frame is SENDING, and
while another talker has the line, no slot contends. -/
def deferenceExpiry (s : State) : State :=
  if lineFree s.lif then
    match contender s.lif with
    | some n => winLine n s
    | none => s
  else s

/-- DEFERENCE_EXPIRY (R143). -/
def execDeferenceExpiry (s : State) : Answer := .next (deferenceExpiry s)

/-- The bytes of the frame the station is sending (R134, R135). -/
def State.lineBytes (s : State) : Option (List Byte) :=
  match s.lif.openSlot, s.lif.bidSlot, s.lif.replySlot, s.lif.testSlot with
  | .sending f, _, _, _ => some (frameBytes (.openFrame f))
  | _, .sending f, _, _ => some (frameBytes (.bid f))
  | _, _, .sending f, _ => some (frameBytes (.reply f))
  | _, _, _, .sending f => some (frameBytes (.test f))
  | _, _, _, _ => none

/-! ### The ends of the own-frame checks (R145, R146) -/

/-- The line falls idle after a sent frame; a failed check raises TX_FAIL (R145). -/
def checkEnded (equal : Bool) (s : State) : State :=
  (updLif (fun l => { l with idle := some 0 }) s).raiseIf (!equal) .txFail

/-- R5, R146: the own OPEN's check ends. -/
def openCheckEnd (equal : Bool) (s : State) : State :=
  match s.lif.openSlot with
  | .sending f =>
    let s := checkEnded equal s
    if equal then
      adopt (.own f) f.round s.own
        (updLif (fun l => { l with openSlot := .empty, openFailures := 0 }) s)
    else if s.lif.openFailures + 1 < Config.openAttempts then
      updLif (fun l =>
        { l with openSlot := .pending (), openFailures := l.openFailures + 1 }) s
    else
      updRct (fun r => { r with roundTimer := some s.roundTimerMs })
        (updLif (fun l => { l with openSlot := .empty, openFailures := 0 }) s)
  | .empty => s
  | .pending _ => s

/-- R26, R146: the own bid's check ends. -/
def bidCheckEnd (equal : Bool) (s : State) : State :=
  match s.lif.bidSlot with
  | .sending b =>
    let s := updLif (fun l => { l with bidSlot := .empty }) (checkEnded equal s)
    if equal then bidSent b s else s
  | .empty => s
  | .pending _ => s

/-- R146, R174: the REPLY's check ends, and a pending restart is taken. -/
def replyCheckEnd (equal : Bool) (s : State) : State :=
  match s.lif.replySlot with
  | .sending _ =>
    takeRestart (updLif (fun l => { l with replySlot := .empty }) (checkEnded equal s))
  | .empty => s
  | .pending _ => s

/-- R146, R154: a TEST frame's check ends; the slot is refilled or the emission ends. -/
def testCheckEnd (equal : Bool) (s : State) : State :=
  match s.lif.testSlot with
  | .sending _ =>
    let s := updEmission (emissionAfter equal) (checkEnded equal s)
    updLif (fun l =>
      { l with testSlot := if s.lck.emission.running then .pending () else .empty }) s
  | .empty => s
  | .pending _ => s

/-! ### The line character by character (R133, R145) -/

/-- A gap of more than 2 ms has come in a frame in progress (R133). -/
def gapDue (l : Lif) : Bool :=
  decide (l.receiver = .receiving) && l.idle.any fun t => decide (Config.frameGap < t)

/-- A frame in progress in which a gap of more than 2 ms has come is broken (R133). -/
def breakAtGap (s : State) : State :=
  if gapDue s.lif then brokenFrame (gapIdle s.lif) s else s

/-- The idle count stops at a start bit of another talker, so the station has lost the contention (R143);
in the hunting state it begins a frame where the line had been idle for 2 ms (R133). While the station
sends, the start bits on the line are read back with its own characters (R138). -/
def startBit (s : State) : State :=
  if s.lif.sending then s
  else
    match s.lif.receiver, s.lif.idle with
    | .off, _ => s
    | _, none => s
    | .receiving, some _ => updLif (fun l => { l with idle := none }) s
    | .hunting, some t =>
      updLif (fun l =>
        { l with idle := none, receiver := if Config.frameGap ≤ t then .receiving else .hunting }) s

/-- A start bit of another talker: after a gap of more than 2 ms in a frame that frame is broken, and the
character begins the next one (R133). -/
def lineStart (s : State) : State := startBit (breakAtGap s)

/-- The bytes received so far, with one more, break the frame: the second is its length, 8…64 (R133). -/
def lengthBroken (bytes : List Byte) : Bool :=
  decide (bytes.length = 2) && !(decide (8 ≤ byteAt bytes 1 ∧ byteAt bytes 1 ≤ 64))

/-- The bytes received so far are the whole frame: as many as its length byte says (R133). -/
def frameComplete (bytes : List Byte) : Bool :=
  decide (2 ≤ bytes.length ∧ byteAt bytes 1 = bytes.length)

/-- A character of a frame in progress has ended (R133): it breaks the frame, completes it, or is kept. -/
def frameCharacter (c : LineChar) (s : State) : State :=
  let bytes := s.lif.buffer ++ [c.data]
  if !c.stop || lengthBroken bytes then brokenFrame 0 s
  else if frameComplete bytes then receiveBytes bytes s
  else updLif (fun l => { l with buffer := bytes, idle := some 0 }) s

/-- A character of another talker has ended: the idle time counts from here. In the hunting state it is
not taken (R133). That the count runs on at the end of a character whose start bit was not taken, such as
one in progress when the receiver is turned on (R138), is the model's choice (log entry 39). -/
def otherCharacter (c : LineChar) (s : State) : State :=
  match s.lif.receiver, s.lif.idle with
  | .off, _ => s
  | _, some _ => s
  | .hunting, none => updLif (fun l => { l with idle := some 0 }) s
  | .receiving, none => frameCharacter c s

/-- The own-frame check of the frame in SENDING ends (R146). -/
def checkEnd (equal : Bool) (s : State) : State :=
  if s.lif.openSlot.isSending then openCheckEnd equal s
  else if s.lif.bidSlot.isSending then bidCheckEnd equal s
  else if s.lif.replySlot.isSending then replyCheckEnd equal s
  else testCheckEnd equal s

/-- What one character read back says of the check of a frame of `bytes`, of which `checked` have been
read back equal: it fails, it passes, or it goes on with the next character (R145). -/
def checkCharacter (bytes : List Byte) (checked : Nat) (c : LineChar) : Option Bool :=
  if c.stop && decide (bytes[checked]? = some c.data) then
    if bytes.length ≤ checked + 1 then some true else none
  else some false

/-- A character of the station's own frame is read back (R145): one that differs ends the frame at once,
and no further character of it is sent. -/
def ownCharacter (bytes : List Byte) (c : LineChar) (s : State) : State :=
  match checkCharacter bytes s.lif.checked c with
  | some equal => checkEnd equal s
  | none => updLif (fun l => { l with checked := l.checked + 1 }) s

/-- A character on the line has ended: one of the station's own frame is read back, and any other is
received (R133, R138, R145). -/
def lineCharacter (c : LineChar) (s : State) : State :=
  match s.lineBytes with
  | some bytes => ownCharacter bytes c s
  | none => otherCharacter c s

/-- OPEN_CHECK_END (R5). -/
def execOpenCheckEnd (equal : Bool) (s : State) : Answer := .next (openCheckEnd equal s)

/-- BID_CHECK_END (R26). -/
def execBidCheckEnd (equal : Bool) (s : State) : Answer := .next (bidCheckEnd equal s)

/-- REPLY_CHECK_END (R146). -/
def execReplyCheckEnd (equal : Bool) (s : State) : Answer := .next (replyCheckEnd equal s)

/-- TEST_CHECK_END (R154). -/
def execTestCheckEnd (equal : Bool) (s : State) : Answer := .next (testCheckEnd equal s)

end Sys2Proof.Machine
end

