-- ==== Sys2Proof/Machine/Outputs.lean ====
section
/-! DEFINITION. The commands of the circuits, outputs and pins: WINDOW_START, ON_TIME_ELAPSED (spec/04),
RAW_INPUT_CHANGE, the filtered changes, OVERLOAD_DETECTED, HOLD_OFF_EXPIRY, TRIP_CLEAR_TIME_REACHED and
TEST_DURATION_EXPIRY (spec/06). -/

namespace Sys2Proof.Machine

/-- Run an operation of the plant in the station as it stands. -/
def onPlant (f : Env → Plant → Plant) (s : State) : State := { s with plant := f s.env s.plant }

/-! ### Windows -/

/-- WINDOW_START (R88). -/
def execWindowStart (c : Fin 6) (s : State) : Answer :=
  .next (onPlant (fun e p => windowStart e c p) s)

/-- ON_TIME_ELAPSED (R89, R122). -/
def execOnTimeElapsed (c : Fin 6) (s : State) : Answer :=
  .next (onPlant (fun e p => endPeriod e c p) s)

/-! ### Pins and filters (R115) -/

/-- A raw level has changed: its filter counts from 0 while the raw level differs from the filtered
one; a change that is reversed stops the count (R115). -/
def rawChange (raw : Bool) (f : Filter) : Filter :=
  { f with
    held :=
      match f.level with
      | some l => if raw = l then none else some 0
      | none => none }

/-- A filter's new state where the raw level goes from `old` to `new`. -/
def rawStep (old new : Bool) (f : Filter) : Filter := if new = old then f else rawChange new f

/-- Rewrite the pin levels. -/
def updPins (f : Pins → Pins) (s : State) : State := { s with pins := f s.pins }

/-- R115, R119, R133, R186: a new level on a pin. -/
def rawInputChange (i : RawInput) (s : State) : State :=
  match i with
  | .leakage o mA =>
    let t := updPins (fun n => { n with leakage := n.leakage.set o mA }) s
    onPlant (fun e p =>
      notePeak e o
        (p.updOut o fun r =>
          { r with leakage := rawStep (s.env.rawLeakage o) (e.rawLeakage o) r.leakage })) t
  | .limit o isOpen =>
    let t := updPins (fun n => { n with limitOpen := n.limitOpen.set o isOpen }) s
    onPlant (fun _ p =>
      p.updOut o fun r => { r with limit := rawStep s.pins.limitOpen[o] isOpen r.limit }) t
  | .flow asserted =>
    let t := updPins (fun n => { n with flow := asserted }) s
    onPlant (fun _ p =>
      { p with ogd := { p.ogd with flow := rawStep s.pins.flow asserted p.ogd.flow } }) t
  | .load o tenths => updPins (fun n => { n with load := n.load.set o tenths }) s
  | .strap bit isOpen =>
    let mask : BitVec 5 := BitVec.ofNat 5 (2 ^ bit.val)
    updPins (fun n =>
      { n with straps := if isOpen then n.straps ||| mask else n.straps &&& ~~~mask }) s
  | .lineStart => lineStart s
  | .lineCharacter c => lineCharacter c s

/-- A filtered level changes: a running filter takes the new level and its count stops (R115). That the
count stops also where the level is the one held already, or is not the raw one, is the model's choice (log
entry 37). -/
def filterTo (new : Bool) (f : Filter) : Filter :=
  match f.level with
  | some _ => ⟨some new, none⟩
  | none => f

/-- The level is a change of a running filter. -/
def isChange (new : Bool) (f : Filter) : Bool := decide (f.level = some (!new))

/-- R116: a filtered limit opens on an output. -/
def limitOpened (e : Env) (o : Fin 6) (p : Plant) : Plant :=
  match p.ogd.outputs[o].role.circuit with
  | some c =>
    let p := p.raiseIf (decide (p.cct[c].state ≠ .disabled)) .limitOpen
    if p.ogd.underTest o then abortTest e .limit p
    else
      let p := switchOff o p
      if p.cct[c].state.energizable then p.updCct c inhibitedRow else p
  | none => if p.ogd.underTest o then abortTest e .limit p else p

/-- R116, R77: a filtered limit closes on an output. -/
def limitClosed (e : Env) (o : Fin 6) (p : Plant) : Plant :=
  match p.ogd.outputs[o].role.circuit with
  | some c => if p.cct[c].state = .inhibited then enterSettling e c p else p
  | none => p

/-- R116: the filtered limit of an output changes. -/
def limitChange (o : Fin 6) (isOpen : Bool) (e : Env) (p : Plant) : Plant :=
  let change := isChange isOpen p.ogd.outputs[o].limit
  let p := p.updOut o fun r => { r with limit := filterTo isOpen r.limit }
  if change then if isOpen then limitOpened e o p else limitClosed e o p else p

/-- R120: the filtered leakage of an output changes; on an energized output a change to asserted is a
trip. -/
def leakageChange (o : Fin 6) (asserted : Bool) (e : Env) (p : Plant) : Plant :=
  let change := isChange asserted p.ogd.outputs[o].leakage
  let p := p.updOut o fun r => { r with leakage := filterTo asserted r.leakage }
  if change && asserted then tripOutput e o .leakage p else p

/-- R117: the filtered FLOW level changes. -/
def flowChange (asserted : Bool) (p : Plant) : Plant :=
  { p with ogd := { p.ogd with flow := filterTo asserted p.ogd.flow } }

/-- RAW_INPUT_CHANGE (R115). -/
def execRawInputChange (i : RawInput) (s : State) : Answer := .next (rawInputChange i s)

/-- LIMIT_FILTERED_CHANGE (R116). -/
def execLimitFilteredChange (o : Fin 6) (isOpen : Bool) (s : State) : Answer :=
  .next (onPlant (limitChange o isOpen) s)

/-- LEAKAGE_FILTERED_CHANGE (R120). -/
def execLeakageFilteredChange (o : Fin 6) (asserted : Bool) (s : State) : Answer :=
  .next (onPlant (leakageChange o asserted) s)

/-- FLOW_FILTERED_CHANGE (R117). -/
def execFlowFilteredChange (asserted : Bool) (s : State) : Answer :=
  .next (onPlant (fun _ p => flowChange asserted p) s)

/-! ### Overload, hold-off, trip-clear, test duration -/

/-- R121: a measured load above 125 % of the rated load, in 0.1 LU steps. -/
def overloaded (rated load : Nat) : Bool := decide (100 * load > 125 * (rated * 10))

/-- R121: an output energized for 100 ms of its period whose measured load is `load` is judged. -/
def overloadDetected (o : Fin 6) (load : Nat) (e : Env) (p : Plant) : Plant :=
  if p.ogd.outputs[o].energized && decide (100 ≤ p.ogd.outputs[o].periodMs) &&
      overloaded p.ogd.outputs[o].rated load then
    tripOutput e o .overload p
  else p

/-- R79, R124: the hold-off of an output expires. -/
def holdOffExpiry (o : Fin 6) (e : Env) (p : Plant) : Plant :=
  if p.ogd.outputs[o].holdOff.isSome then
    let p := p.updOut o fun r => { r with holdOff := none }
    match p.ogd.outputs[o].role.circuit with
    | some c =>
      if p.cct[c].state = .tripped then
        if p.ogd.outputs[o].limit.level = some true then p.updCct c inhibitedRow
        else enterSettling e c p
      else p
    | none => p
  else p

/-- R125: the energized time since the last trip has reached the trip-clear time. -/
def tripClear (c : Fin 6) (e : Env) (p : Plant) : Plant :=
  if e.img.tripClear * 60 ≤ p.ogd.trips[c].seconds then p.updTrip c fun r => { r with count := 0 }
  else p

/-- OVERLOAD_DETECTED (R121). -/
def execOverloadDetected (o : Fin 6) (load : Nat) (s : State) : Answer :=
  .next (onPlant (overloadDetected o load) s)

/-- HOLD_OFF_EXPIRY (R79, R124). -/
def execHoldOffExpiry (o : Fin 6) (s : State) : Answer := .next (onPlant (holdOffExpiry o) s)

/-- TRIP_CLEAR_TIME_REACHED (R125). -/
def execTripClearTimeReached (c : Fin 6) (s : State) : Answer := .next (onPlant (tripClear c) s)

/-- TEST_DURATION_EXPIRY (R130). -/
def execTestDurationExpiry (s : State) : Answer := .next (onPlant finishTest s)

end Sys2Proof.Machine
end

