-- ==== Sys2Proof/Machine/Dispatch.lean ====
section
/-! DEFINITION. One arm per command: its meaning. -/

namespace Sys2Proof.Machine

def exec (i : Instr) (s : State) : Host.Outcome State Fault Refusal :=
  match i with
  | .pinReset => Sys2Proof.Machine.execPinReset s
  | .resetnRelease straps => Sys2Proof.Machine.execResetnRelease straps s
  | .transferAttemptEnd outcome => Sys2Proof.Machine.execTransferAttemptEnd outcome s
  | .clockHoldTimeout => Sys2Proof.Machine.execClockHoldTimeout s
  | .attemptRetryDelayExpiry => Sys2Proof.Machine.execAttemptRetryDelayExpiry s
  | .openReceived f => Sys2Proof.Machine.execOpenReceived f s
  | .bidReceived f => Sys2Proof.Machine.execBidReceived f s
  | .testFrameReceived f => Sys2Proof.Machine.execTestFrameReceived f s
  | .replyFrameReceived f => Sys2Proof.Machine.execReplyFrameReceived f s
  | .badFrameReceived bytes => Sys2Proof.Machine.execBadFrameReceived bytes s
  | .frameGapTimeout => Sys2Proof.Machine.execFrameGapTimeout s
  | .queryStation dest tag page => Sys2Proof.Machine.execQueryStation dest tag page s
  | .queryCircuits dest tag page => Sys2Proof.Machine.execQueryCircuits dest tag page s
  | .queryOutputs dest tag page => Sys2Proof.Machine.execQueryOutputs dest tag page s
  | .querySensors dest tag page => Sys2Proof.Machine.execQuerySensors dest tag page s
  | .queryRoster dest tag page => Sys2Proof.Machine.execQueryRoster dest tag page s
  | .queryAllotment dest tag page => Sys2Proof.Machine.execQueryAllotment dest tag page s
  | .queryFactors dest tag page => Sys2Proof.Machine.execQueryFactors dest tag page s
  | .queryQuality dest tag page => Sys2Proof.Machine.execQueryQuality dest tag page s
  | .clearFactors dest tag args => Sys2Proof.Machine.execClearFactors dest tag args s
  | .setMask dest tag args => Sys2Proof.Machine.execSetMask dest tag args s
  | .testOutput dest tag args => Sys2Proof.Machine.execTestOutput dest tag args s
  | .linecheck dest tag args => Sys2Proof.Machine.execLinecheck dest tag args s
  | .retire dest tag args => Sys2Proof.Machine.execRetire dest tag args s
  | .restart dest tag args => Sys2Proof.Machine.execRestart dest tag args s
  | .clearQuality dest tag args => Sys2Proof.Machine.execClearQuality dest tag args s
  | .unknownRequest r => Sys2Proof.Machine.execUnknownRequest r s
  | .deferenceExpiry => Sys2Proof.Machine.execDeferenceExpiry s
  | .openCheckEnd equal => Sys2Proof.Machine.execOpenCheckEnd equal s
  | .bidCheckEnd equal => Sys2Proof.Machine.execBidCheckEnd equal s
  | .replyCheckEnd equal => Sys2Proof.Machine.execReplyCheckEnd equal s
  | .testCheckEnd equal => Sys2Proof.Machine.execTestCheckEnd equal s
  | .roundTimerExpiry => Sys2Proof.Machine.execRoundTimerExpiry s
  | .listenTimerExpiry => Sys2Proof.Machine.execListenTimerExpiry s
  | .windowStart c => Sys2Proof.Machine.execWindowStart c s
  | .onTimeElapsed c => Sys2Proof.Machine.execOnTimeElapsed c s
  | .conversionEnd m => Sys2Proof.Machine.execConversionEnd m s
  | .settleTimerExpiry c => Sys2Proof.Machine.execSettleTimerExpiry c s
  | .rawInputChange input => Sys2Proof.Machine.execRawInputChange input s
  | .limitFilteredChange o isOpen => Sys2Proof.Machine.execLimitFilteredChange o isOpen s
  | .leakageFilteredChange o asserted => Sys2Proof.Machine.execLeakageFilteredChange o asserted s
  | .flowFilteredChange asserted => Sys2Proof.Machine.execFlowFilteredChange asserted s
  | .overloadDetected o load => Sys2Proof.Machine.execOverloadDetected o load s
  | .holdOffExpiry o => Sys2Proof.Machine.execHoldOffExpiry o s
  | .tripClearTimeReached c => Sys2Proof.Machine.execTripClearTimeReached c s
  | .testDurationExpiry => Sys2Proof.Machine.execTestDurationExpiry s
  | .brokenFrame => Sys2Proof.Machine.execBrokenFrame s

end Sys2Proof.Machine
end

