-- ==== Sys2Proof/Machine/Time.lean ====
section
/-! DEFINITION. The part's own timebase (spec/00 section 5, Time; log entry 2): one millisecond of every
timer and count, and the first event that is due. The step takes these on an empty queue. -/

namespace Sys2Proof.Machine

/-! ### One millisecond -/

/-- A glitch filter's count (R115). -/
def tickFilter (f : Filter) : Filter := { f with held := f.held.map (· + 1) }

/-- A count of whole seconds with its milliseconds, one millisecond on (R119). -/
def tickSeconds (seconds remainder : Nat) : Nat × Nat :=
  if 1000 ≤ remainder + 1 then (satAdd 4294967295 seconds 1, 0) else (seconds, remainder + 1)

/-- The energized period of an output, one millisecond on: its load is sampled, the measured load is
the mean over the last 100 ms, and the energized time counts (R119). -/
def tickEnergized (sample : Nat) (r : OutputRow) : OutputRow :=
  let recent := (sample :: r.recent).take 100
  let t := tickSeconds r.health.seconds r.health.remainder
  { r with
    periodMs := r.periodMs + 1, loadSum := r.loadSum + sample, recent := recent,
    measured := meanLoad 0 recent.sum recent.length,
    health := { r.health with seconds := t.1, remainder := t.2 } }

/-- An output row, one millisecond on (R115, R119, R124). -/
def tickOutput (e : Env) (o : Fin 6) (r : OutputRow) : OutputRow :=
  let r :=
    { r with
      leakage := tickFilter r.leakage, limit := tickFilter r.limit, holdOff := countDown r.holdOff }
  if r.energized then tickEnergized (e.loadNow o) r else r

/-- The output bound to a circuit is energized. -/
def circuitEnergized (g : Ogd) (c : Fin 6) : Bool :=
  match g.boundTo c with
  | some o => g.outputs[o].energized
  | none => false

/-- A trip record, one millisecond on (R119, R125). -/
def tickTrip (g : Ogd) (c : Fin 6) (t : TripRec) : TripRec :=
  if circuitEnergized g c then
    let u := tickSeconds t.seconds t.remainder
    { t with seconds := u.1, remainder := u.2 }
  else t

/-- The test record, one millisecond on (R129). -/
def tickTest (e : Env) (g : Ogd) (t : TestRecord) : TestRecord :=
  if g.outputs[t.output].energized then
    { t with energizedMs := t.energizedMs + 1, loadSum := t.loadSum + e.loadNow t.output }
  else t

/-- The plant, one millisecond on. -/
def tickPlant (e : Env) (p : Plant) : Plant :=
  { p with
    cct := mapRows p.cct fun _ r => { r with toNext := countDown r.toNext },
    ogd :=
      { outputs := mapRows p.ogd.outputs (tickOutput e), trips := mapRows p.ogd.trips (tickTrip p.ogd),
        flow := tickFilter p.ogd.flow, test := p.ogd.test.map (tickTest e p.ogd) } }

/-- Read progress, one millisecond on (R187). -/
def tickProgress : Progress → Progress
  | .reading t a w => .reading t a (countDown w)
  | .idle => .idle
  | .done => .done

/-- The whole station, one millisecond on. -/
def tick (s : State) : State :=
  { s with
    sul := { s.sul with progress := tickProgress s.sul.progress },
    rct :=
      { s.rct with
        roundTimer := countDown s.rct.roundTimer, listenTimer := countDown s.rct.listenTimer },
    plant := tickPlant s.env s.plant,
    ssc := { s.ssc with conv := s.ssc.conv.map fun x => (x.1, x.2 - 1) },
    lif := { s.lif with idle := s.lif.idle.map (· + 1) }, now := s.now + 1 }

/-! ### Events that are due -/

/-- A running filter has held a new level for its glitch width (R115). -/
def filterDue (width : Nat) (f : Filter) : Bool :=
  f.level.isSome && f.held.any fun k => decide (width ≤ k)

/-- The on-time of a circuit's window has elapsed with its output still on (R89). -/
def onTimeDue (s : State) (c : Fin 6) : Bool :=
  let r := s.plant.cct[c]
  match s.plant.ogd.boundTo c with
  | some o =>
    s.plant.ogd.outputs[o].energized && !s.plant.ogd.underTest o &&
      decide (r.onTime ≤ elapsedOf s.env r)
  | none => false

/-- The events due at each circuit: on-time, window start, settle timer, trip-clear time (R74, R87, R89,
R125). -/
def circuitDue (s : State) (c : Fin 6) : List Instr :=
  let r := s.plant.cct[c]
  let t := s.plant.ogd.trips[c]
  (if onTimeDue s c then [.onTimeElapsed c] else []) ++
    (if r.toNext = some 0 then [.windowStart c] else []) ++
    (if r.settle = .due then [.settleTimerExpiry c] else []) ++
    if decide (0 < t.count) && decide (s.img.tripClear * 60 ≤ t.seconds) then
      [.tripClearTimeReached c]
    else []

/-- The events due at each output: filtered changes, overload, hold-off (R115, R121, R124). -/
def outputDue (s : State) (o : Fin 6) : List Instr :=
  let r := s.plant.ogd.outputs[o]
  (if filterDue s.img.glitchLeakage r.leakage then
    [.leakageFilteredChange o (s.env.rawLeakage o)] else []) ++
    (if filterDue s.img.glitchLimit r.limit then
      [.limitFilteredChange o s.pins.limitOpen[o]] else []) ++
    (if r.energized && decide (100 ≤ r.periodMs) && overloaded r.rated r.measured then
      [.overloadDetected o r.measured] else []) ++
    if r.holdOff = some 0 then [.holdOffExpiry o] else []

/-- The test duration has passed since the start of the test (R129, R130). -/
def testDue (s : State) : Bool :=
  s.plant.ogd.test.any fun t => decide (t.startedAt + t.duration * 1000 ≤ s.now)

/-- The line has been idle for the deference of the contending slot (R143). -/
def deferenceDue (s : State) : Bool :=
  lineFree s.lif &&
    match contender s.lif, s.lif.idle with
    | some n, some t => decide (deference s.sul.rank.val n ≤ t)
    | _, _ => false

/-- The wait before an attempt has passed (R187). -/
def retryDue (s : State) : Bool :=
  match s.sul.progress with
  | .reading _ _ (some 0) => true
  | _ => false

/-- The station-wide events that are due (R3, R19, R115, R130, R133, R143, R187). -/
def stationDue (s : State) : List Instr :=
  (if testDue s then [.testDurationExpiry] else []) ++
    (if filterDue s.img.glitchFlow s.plant.ogd.flow then [.flowFilteredChange s.pins.flow] else []) ++
    (if s.rct.roundTimer = some 0 then [.roundTimerExpiry] else []) ++
    (if s.rct.listenTimer = some 0 && decide (s.rct.membership = .listen) then
      [.listenTimerExpiry] else []) ++
    (if retryDue s then [.attemptRetryDelayExpiry] else []) ++
    (if gapDue s.lif then [.frameGapTimeout] else []) ++
    if deferenceDue s then [.deferenceExpiry] else []

/-- Every event that the part's own timebase has made due, in the order in which they are taken. -/
def dueEvents (s : State) : List Instr :=
  sixIds.flatMap (circuitDue s) ++ sixIds.flatMap (outputDue s) ++ stationDue s

/-- What the station does when no command waits: the first due event is put into the queue, or one
millisecond passes (log entry 2). -/
def idleStep (s : State) : State :=
  match dueEvents s with
  | c :: _ => { s with pending := [c] }
  | [] => tick s

end Sys2Proof.Machine
end

