-- ==== Sys2Proof/Machine/Step.lean ====
section
/-! DEFINITION. One step: the command at the front of the queue, or the part's own time (log entries 1
and 2). -/

namespace Sys2Proof.Machine

/-- Take the command at the front of the queue and run it on the station with the queue's rest; with no
command waiting the part's own time goes on. -/
def step (s : State) : Host.Outcome State Fault Refusal :=
  match s.pending with
  | [] => .next (idleStep s)
  | c :: rest => exec c { s with pending := rest }

/-- The station with the command a word spells at the front of its queue; no word spells one. -/
def State.withFetchWord (s : State) (nbits w : Nat) : State :=
  match decodeTableWord nbits w with
  | some c => { s with pending := c :: s.pending }
  | none => s

end Sys2Proof.Machine
end

