-- ==== Sys2Proof/Safety.lean ====
section
/-! DEFINITION. The terms the claims use: what counts as a safe station, and names for situations the
spec's rules speak of. -/

namespace Sys2Proof.Machine

/-! ### Safety -/

/-- R118: output `o` is one that may be driven: its filtered limit is closed, and it is bound to a circuit
in SETTLING, REGULATING, SENSOR-LOST or TESTING or is a free spare under test. -/
def drivable (p : Plant) (o : Fin 6) : Bool :=
  let r := p.ogd.outputs[o]
  decide (r.limit.level = some false) &&
    match r.role with
    | .primary c => p.cct[c].state.energizable || decide (p.cct[c].state = .testing)
    | .spareBound c => p.cct[c].state.energizable || decide (p.cct[c].state = .testing)
    | .spareFree => p.ogd.underTest o
    | .unused => false
    | .bad => false

/-- R118: output `o` may be on: the membership follows rounds, and the output is one that may be driven. -/
def mayBeOn (m : Membership) (p : Plant) (o : Fin 6) : Bool := m.follows && drivable p o

/-- The state is one of a held RESETN: every item of every block has its pin-reset value; only the pins,
the queue, the time and the counter of the free values are their own (R185). -/
def AtPinReset (s : State) : Prop := s = { pinReset s with now := s.now }

/-- R185: while RESETN is held, every item of every block has its pin-reset value. -/
def HeldInReset (s : State) : Prop := s.pins.resetnHeld = true → AtPinReset s

/-- R118, R112, R129, R114: every output that is on is one that may be driven; no circuit has two outputs
bound to it; the test in progress is of the output its record names, a free spare or the output of a
circuit in TESTING; every output in service has a rated load. -/
structure OutputsInOrder (p : Plant) : Prop where
  driven : ∀ o : Fin 6, p.ogd.outputs[o].energized = true → drivable p o = true
  single : ∀ (o j c : Fin 6), p.ogd.outputs[o].role.circuit = some c →
    p.ogd.outputs[j].role.circuit = some c → o = j
  spareTest : ∀ t, p.ogd.test = some t → t.circuit = none →
    p.ogd.outputs[t.output].role = .spareFree
  circuitTest : ∀ t c, p.ogd.test = some t → t.circuit = some c →
    p.ogd.outputs[t.output].role.circuit = some c ∧ p.cct[c].state = .testing
  rated : ∀ o : Fin 6, p.ogd.outputs[o].role ≠ .unused → p.ogd.outputs[o].role ≠ .bad →
    0 < p.ogd.outputs[o].rated

/-- The outputs of a station that follows rounds are in order, and its image has been read; those of any
other are off, with no test in progress (R118, R131, R185). -/
structure OutputsSafe (s : State) : Prop where
  reset : HeldInReset s
  following : s.rct.membership.follows = true → s.sul.progress = .done ∧ OutputsInOrder s.plant
  other : s.rct.membership.follows = false →
    (∀ o : Fin 6, s.plant.ogd.outputs[o].energized = false) ∧ s.plant.ogd.test = none

/-- R50, R58: the grants in force sum to at most the own allotment, and so do the grants of the own
records of a division in which the station is a participant. -/
structure GrantsHeld (s : State) : Prop where
  reset : HeldInReset s
  sum : grantSum (grantsInForce s.plant) ≤ s.plant.alu.own
  records : ∀ d, s.plant.alu.division = some d → isParticipant s.own d = true →
    grantSum (recordGrants s.own d) ≤ s.plant.alu.own

/-- R113, R114: until the image is read no output is bound to a circuit and no trip is counted. -/
def UnboundUntilRead (s : State) : Prop := s.sul.progress ≠ .done →
  (∀ o : Fin 6, s.plant.ogd.outputs[o].role.circuit = none) ∧
    ∀ c : Fin 6, s.plant.ogd.trips[c].count = 0

/-- R66, R89: no circuit's duty-weighted rated load, its rated load × its on-time over W, exceeds its grant,
and while a test is in progress the grants leave room in the own allotment for the full rated load of the
output under test. The firing window of a station that follows rounds is not 0 (R189). -/
structure LoadsHeld (s : State) : Prop where
  outputs : OutputsSafe s
  grants : GrantsHeld s
  unread : UnboundUntilRead s
  window : s.rct.membership.follows = true → 0 < s.img.window
  duty : ∀ c : Fin 6, s.plant.ogd.ratedOf c * s.plant.cct[c].onTime ≤
    s.plant.cct[c].grant * (s.img.window * 1000)
  tested : ∀ t, s.plant.ogd.test = some t →
    grantSum (grantsInForce s.plant) + s.plant.ogd.outputs[t.output].rated ≤ s.plant.alu.own

/-- R113, R123, R126: no trip count exceeds the trip limit of the image in force. While rounds are followed
that limit is 1 or more (R189), and a circuit that has an output counts fewer trips than it. -/
structure TripCountsHeld (s : State) : Prop where
  outputs : OutputsSafe s
  unread : UnboundUntilRead s
  within : ∀ c : Fin 6, s.plant.ogd.trips[c].count ≤ s.img.tripLimit
  limit : s.rct.membership.follows = true → 1 ≤ s.img.tripLimit
  below : s.rct.membership.follows = true → ∀ o c : Fin 6,
    s.plant.ogd.outputs[o].role.circuit = some c → s.plant.ogd.trips[c].count < s.img.tripLimit

/-- All that a division charges and grants (R53, R57). -/
def Division.total (d : Division) : Nat :=
  (d.entries.map AddrEntry.charge).sum + (d.records.map RecEntry.grant).sum

/-- R57: a division in the allotment table charges and grants at most the feeder budget of the image in
force, whose shared section is good in every membership that follows rounds (R189). -/
structure BudgetHeld (s : State) : Prop where
  reset : HeldInReset s
  image : s.rct.membership.follows = true → s.sul.progress = .done ∧ sharedOk s.img = true
  division : ∀ d, s.plant.alu.division = some d →
    s.sul.progress = .done ∧ d.total ≤ s.img.budget

/-- R176: neither factor set holds a code that names no factor. -/
def FactorsNamed (s : State) : Prop :=
  s.plant.fct.status &&& unnamedCodes = 0 ∧ s.plant.fct.mask &&& unnamedCodes = 0

/-- R113: every output of the BAD set of `s` is in the BAD set of `t`. -/
def BadKept (s t : State) : Prop :=
  ∀ o : Fin 6, s.plant.ogd.outputs[o].role = .bad → t.plant.ogd.outputs[o].role = .bad

/-! ### The terms of the model that the claims name -/

/-- What the claims read of a station as it stands: its address (R186), its image and what the plant knows of
it, the memberships that follow rounds and those that bid (01, section 1.8), the collecting and the settled
buffer (R28), and a reply placed in its slot (R162). -/
structure StationTerms : Prop where
  own : ∀ s : State, s.own = s.sul.rank.val + 1
  image : ∀ s : State, s.img = readImage s.sul.copy
  env : ∀ s : State, s.env.img = s.img ∧ s.env.own = s.own ∧
    s.env.good = decide (s.sul.judgement = some .good)
  follows : ∀ m : Membership, m.follows = true ↔ m ∈ [Membership.listen, .joining, .member]
  bids : ∀ m : Membership, m.bids = true ↔ m ∈ [Membership.joining, .member]
  buffers : ∀ r : Rst, (r.settled = 1 → r.collecting = r.buf0 ∧ r.settledBuf = r.buf1) ∧
    (r.settled = 0 → r.collecting = r.buf1 ∧ r.settledBuf = r.buf0)
  reply : ∀ (f : ReplyFrame) (s : State),
    placeReply f s = { s with lif := { s.lif with replySlot := .pending f } }

/-- What the claims read of the plant: the states that may be energized (04, section 4.2), the circuit that a
role names (R112), the output bound to a circuit and the circuit's rated load, 0 without one (R70; log
entry 26), the output under test (R129), and the rewriting of one row. -/
structure PlantTerms : Prop where
  energizable : ∀ x : CState, x.energizable = true ↔ x ∈ [CState.settling, .regulating, .sensorLost]
  roles : ∀ c : Fin 6, [Role.primary c, .spareBound c, .spareFree, .unused, .bad].map Role.circuit =
    [some c, some c, none, none, none]
  bound : ∀ (g : Ogd) (c o : Fin 6), g.boundTo c = some o →
    g.outputs[o].role.circuit = some c ∧ g.ratedOf c = g.outputs[o].rated
  unbound : ∀ (g : Ogd) (c : Fin 6), g.boundTo c = none →
    g.ratedOf c = 0 ∧ ∀ o : Fin 6, g.outputs[o].role.circuit ≠ some c
  tested : ∀ (g : Ogd) (o : Fin 6), g.underTest o = true ↔ ∃ r, g.test = some r ∧ r.output = o
  outputRow : ∀ (p : Plant) (o j : Fin 6) (f : OutputRow → OutputRow),
    (p.updOut o f).ogd.outputs[j] = (if j = o then f p.ogd.outputs[o] else p.ogd.outputs[j]) ∧
    p.updOut o f = { p with ogd := { p.ogd with outputs := (p.updOut o f).ogd.outputs } }
  circuitRow : ∀ (p : Plant) (c j : Fin 6) (f : CircuitRow → CircuitRow),
    (p.updCct c f).cct[j] = (if j = c then f p.cct[c] else p.cct[j]) ∧
    p.updCct c f = { p with cct := (p.updCct c f).cct }
  tripRecord : ∀ (p : Plant) (c j : Fin 6) (f : TripRec → TripRec),
    (p.updTrip c f).ogd.trips[j] = (if j = c then f p.ogd.trips[c] else p.ogd.trips[j]) ∧
    p.updTrip c f = { p with ogd := { p.ogd with trips := (p.updTrip c f).ogd.trips } }

/-- The factors and their codes, the form of a set of them (R134), and a factor held (R176). -/
structure FactorTerms : Prop where
  codes : [Factor.configBad, .mismatch, .isolated, .peerLost, .degraded, .openConflict, .txFail,
    .duplicateBid, .circuitTrip, .circuitFailed, .spareExhausted, .sensorLost, .belowPour, .starved,
    .limitOpen, .peerAlarm, .lineErrors, .retired].map Factor.code = List.range' 1 18
  held : ∀ (u : Fct) (x : Factor), u.held x = u.status.getLsbD (x.code - 1)
  unnamed : ∀ i : Fin 24, unnamedCodes.getLsbD i.val = decide (18 ≤ i.val)
  set : ∀ (l : List Byte) (i : Fin 24),
    (factorSetAt l 0).getLsbD i.val = (l.getD (i.val / 8) 0).getLsbD (i.val % 8)
  raised : ∀ (u : Fct) (x : Factor),
    u.raiseIf true x = u.raise x ∧ u.raiseIf false x = u

/-- The frame of the slot `n` waits for the line (R141). -/
def Waits (l : Lif) : SlotName → Prop
  | .openSlot => l.openSlot = .pending ()
  | .replySlot => ∃ f, l.replySlot = .pending f
  | .bidSlot => ∃ p, l.bidSlot = .pending p
  | .testSlot => l.testSlot = .pending ()

/-! ### Situations -/

/-- A factor's status is set (R176). -/
def Held (s : State) (f : Factor) : Prop := s.plant.fct.held f = true

/-- The circuits are as pin reset and RESTART leave them, and no test is in progress, as in START (R69,
R111, R132). -/
def AtStart (s : State) : Prop :=
  s.plant.cct = Vector.replicate 6 .reset ∧ s.plant.ogd.test = none

/-- R1: a round named in a frame counts as newer. -/
def Newer (s : State) (r : RoundNo) : Prop :=
  ∀ c, s.rct.round = some c → 1 ≤ (r - c).toNat ∧ (r - c).toNat ≤ 127

/-- R18, R20: the membership after step 1 of an adoption; `heard` says that the adoption is of an OPEN
whose heard set contains the station. -/
def memberAfter (m : Membership) (adoptions : Nat) (heard : Bool) : Membership :=
  match m with
  | .listen => if 1 ≤ adoptions then .joining else .listen
  | .joining => if heard then .member else .joining
  | .start => .start
  | .blocked => .blocked
  | .member => .member
  | .retired => .retired

/-! #### The swap of an adoption

`heard` is the heard set of the adopted OPEN, received or own; a late adoption holds none (R12). -/

/-- The allotment after the swap of an adoption of `round`, computed from the settled bids and the peer rows
`rows` (R49). COMPLETE in MEMBER: the division of R51 to R57, with the sum of the own records' grants, or
the share of a station that is no participant (R58). DEGRADED in MEMBER: the degraded cap of R61, with
the need declared for the round just closed. CAPPED in every other membership: the share (R60, R63). -/
structure SwapAllots (heard : Option AddrSet) (round : RoundNo) (rows : Vector PeerRow 32)
    (s t : State) : Prop where
  computed : t.plant.alu.round = some round
  complete : t.rct.membership = .member → t.rct.degraded = false →
    ∃ h, heard = some h ∧
      let d := divide t.env ⟨s.rst.collecting, rows, h, s.sul.digest⟩
      t.plant.alu.kind = .complete ∧ t.plant.alu.cap = none ∧ t.plant.alu.division = some d ∧
        t.plant.alu.own =
          if isParticipant s.own d then grantSum (recordGrants s.own d) else s.env.share s.own
  unsettled : t.rct.membership = .member → t.rct.degraded = true →
    ∀ h, heard = some h → inSet h s.own = true → s.rst.collecting[s.sul.rank] = none →
    t.plant.alu.kind = .degraded ∧ t.plant.alu.cap = some .unsettled ∧
      t.plant.alu.division = none ∧ t.plant.alu.own = 0
  capped : t.rct.membership = .member → t.rct.degraded = true →
    (∀ h, heard = some h → inSet h s.own = true → s.rst.collecting[s.sul.rank] ≠ none) →
    t.plant.alu.kind = .degraded ∧ t.plant.alu.division = none ∧
      match s.rct.declaredCurrent with
      | none => t.plant.alu.cap = some .share ∧ t.plant.alu.own = s.env.share s.own
      | some n =>
        t.plant.alu.cap = some (.declared n) ∧ t.plant.alu.own = min (s.env.share s.own) n
  share : t.rct.membership ≠ .member → t.plant.alu.kind = .capped ∧ t.plant.alu.cap = none ∧
    t.plant.alu.division = none ∧ t.plant.alu.own = s.env.share s.own

/-- The grants after a computation with no test in progress: each circuit holds its grant of the allotment in
force, by its own records or by the local spread with the needs it had (R50, R58, R60, R62). -/
structure GrantsFound (s t : State) : Prop where
  deduction : t.plant.alu.deduction = none
  grant : ∀ c : Fin 6, t.plant.cct[c].grant =
    (grantsByKind t.env { s.plant with alu := t.plant.alu })[c]

/-- R66: the grants in force are those found by kind for the circuits as they stand, without a deduction. -/
def GrantsByKind (t : State) : Prop :=
  t.plant.alu.deduction = none ∧ grantsInForce t.plant = grantsByKind t.env t.plant

/-- The circuits after a swap with no test in progress: each holds its grant of the allotment in force (R50),
and its starved count follows (R92). -/
structure SwapGrants (s t : State) : Prop where
  found : GrantsFound s t
  starved : ∀ c : Fin 6, t.plant.cct[c].starved =
    if t.plant.cct[c].cls = some .p0 ∧ t.plant.cct[c].grant < t.plant.cct[c].need then
      min 255 (s.plant.cct[c].starved + 1)
    else 0
  raised : Held t .starved ↔ Held s .starved ∨ ∃ c : Fin 6, 3 ≤ t.plant.cct[c].starved

/-- The factors that an adoption raises from the bids, the peer rows and the digests of the frames it
takes, and no other of them (R33, R36, R39, R44, R183), and DEGRADED (R7). -/
structure SwapRaises (digests : List Word16) (rows : Vector PeerRow 32) (s t : State) : Prop where
  peerLost : Held t .peerLost ↔ Held s .peerLost ∨
    ∃ a : Fin 32, a.val + 1 ≤ s.img.stations ∧ a.val + 1 ≠ s.own ∧ rows[a].status = .absent
  isolated : Held t .isolated ↔ Held s .isolated ∨
    s.img.stale ≤ t.rst.silent ∧ 1 < s.img.stations ∧ t.rct.membership.bids = true
  mismatch : Held t .mismatch ↔ Held s .mismatch ∨ (∃ d ∈ digests, s.sul.digest ≠ some d) ∨
    ∃ a : Fin 32, a.val + 1 ≠ s.own ∧ rows[a].status = .mismatched
  peerAlarm : Held t .peerAlarm ↔ Held s .peerAlarm ∨
    ∃ (a : Fin 32) (b : BidFrame), a.val + 1 ≠ s.own ∧ s.rst.collecting[a] = some b ∧
      b.alarm = true
  degraded : Held t .degraded ↔ Held s .degraded ∨
    t.rct.degraded = true ∧ t.rct.membership = .member

/-- R45: a flow report used at a swap: that of the station's own FLOW input, or of a settled bid, which in
a COMPLETE round is one of the heard set. -/
def FlowUsed (heard : Option AddrSet) (s t : State) (r : FlowReport) : Prop :=
  (s.plant.ogd.flow.level = some true ∧ r = .flow) ∨
  (s.plant.ogd.flow.level = some false ∧ r = .stop) ∨
  ∃ (a : Fin 32) (b : BidFrame), s.rst.collecting[a] = some b ∧ r = b.flow ∧
    (t.rct.degraded = true ∨ ∃ h, heard = some h ∧ inSet h (a.val + 1) = true)

/-- R34 to R38: the peer rows after a swap. Each peer's row follows its settled bid or the absence of one,
and the own row takes its last bid alone. -/
structure SwapRows (s : State) (rows : Vector PeerRow 32) : Prop where
  own : rows[s.sul.rank] =
    match s.rst.collecting[s.sul.rank] with
    | some b =>
      { s.rst.rows[s.sul.rank] with
        lastBid := some b, lastRound := some b.round, returnMark := false }
    | none => { s.rst.rows[s.sul.rank] with returnMark := false }
  heard : ∀ (a : Fin 32) (b : BidFrame), a.val + 1 ≠ s.own → s.rst.collecting[a] = some b →
    ¬(s.rst.rows[a].status = .retired ∧ s.rst.rows[a].returnMark = false) →
    rows[a] =
      ⟨if s.sul.digest ≠ some b.digest then .mismatched
        else if b.member then .present else .joining, 0, some b, some b.round, false⟩
  retired : ∀ (a : Fin 32) (b : BidFrame), a.val + 1 ≠ s.own → s.rst.collecting[a] = some b →
    s.rst.rows[a].status = .retired → s.rst.rows[a].returnMark = false →
    rows[a] = { s.rst.rows[a] with lastBid := some b, lastRound := some b.round }
  missed : ∀ a : Fin 32, a.val + 1 ≠ s.own → s.rst.collecting[a] = none →
    (s.rst.rows[a].status ∈ [PeerStatus.unknown, .retired] →
      rows[a] = { s.rst.rows[a] with returnMark := false }) ∧
    (s.rst.rows[a].status = .absent →
      rows[a] =
        { s.rst.rows[a] with
          missCount := min 7 (s.rst.rows[a].missCount + 1), returnMark := false }) ∧
    (s.rst.rows[a].status ∈ [PeerStatus.present, .joining, .stale, .mismatched] →
      rows[a] =
        { s.rst.rows[a] with
          missCount := min 7 (s.rst.rows[a].missCount + 1),
          status :=
            if min 7 (s.rst.rows[a].missCount + 1) < s.img.stale then .stale else .absent,
          returnMark := false })

/-- What the swap of an adoption of `round` settles, with `rows` the peer rows it leaves and `digests` the
digests of the frames that the adoption takes (R28, R29, R34 to R39, R44, R45, R49, R92, R183). -/
structure SwapSettles (heard : Option AddrSet) (digests : List Word16) (round : RoundNo)
    (rows : Vector PeerRow 32) (s t : State) : Prop where
  settled : t.rst.settledBuf = s.rst.collecting
  peers : SwapRows s rows
  silent : t.rst.silent = if ∀ a : Fin 32, a.val + 1 ≠ s.own → s.rst.collecting[a] = none
    then min 7 (s.rst.silent + 1) else 0
  line : t.rst.line = .flowing ↔ FlowUsed heard s t .flow ∧ ¬FlowUsed heard s t .stop
  raises : SwapRaises digests rows s t
  allots : SwapAllots heard round rows s t
  grants : s.plant.ogd.test = none → SwapGrants s t

/-- What every adoption leaves in the Round Controller and the slots (R6, R18, R20, R23, R27): the declared
need moves, the membership follows, both timers restart as the membership asks, a waiting own OPEN is
discarded, and a bid for the new round waits in JOINING and MEMBER. -/
structure Adopted (heard : Option AddrSet) (round : RoundNo) (opener : Nat) (s t : State) : Prop where
  current : t.rct.round = some round ∧ t.rct.opener = some opener
  declared : t.rct.declaredClosed = s.rct.declaredCurrent ∧ t.rct.declaredCurrent = none
  membership : t.rct.membership =
    memberAfter s.rct.membership s.rct.listenAdoptions (heard.any fun h => inSet h s.own)
  adoptions : t.rct.listenAdoptions =
    if s.rct.membership = .listen then min 2 (s.rct.listenAdoptions + 1)
    else s.rct.listenAdoptions
  roundTimer : t.rct.roundTimer = some (s.img.period * 1000 + s.sul.rank.val * 40)
  listenTimer : t.rct.listenTimer =
    if t.rct.membership = .listen then some (2 * (s.img.period * 1000) + 1280)
    else if s.rct.membership = .listen then none else s.rct.listenTimer
  openSlot : t.lif.openSlot = .empty
  bidSlot : t.lif.bidSlot = if t.rct.membership.bids then .pending (round, opener) else .empty
  otherSlots : t.lif.replySlot = s.lif.replySlot ∧ t.lif.testSlot = s.lif.testSlot

/-- R174: no restart is to be taken as things stand: none is pending, or a reply still is. -/
def NoRestartDue (s : State) : Prop := s.srv.restartPending = false ∨ s.lif.replySlot ≠ .empty

/-- The station after a GOOD request is taken from the line and counted, before it is served: the
receiver hunts again and the idle time starts (R133), and the totals rise (R151). -/
def afterRequest (s : State) : State :=
  { s with
    lif := { s.lif with receiver := .hunting, buffer := [], idle := some 0 },
    lck :=
      { s.lck with
        totals :=
          { s.lck.totals with
            good := min 65535 (s.lck.totals.good + 1), tool := min 65535 (s.lck.totals.tool + 1) } } }

/-- The station after a GOOD frame of the station at place `i` is taken from the line and counted, before
it is handed on (R133, R140, R151). -/
def afterStation (i : Fin 32) (isBid : Bool) (s : State) : State :=
  { s with
    lif := { s.lif with receiver := .hunting, buffer := [], idle := some 0 },
    lck :=
      { s.lck with
        totals := { s.lck.totals with good := min 65535 (s.lck.totals.good + 1) },
        rows :=
          s.lck.rows.set i
            { s.lck.rows[i] with
              heard := min 65535 (s.lck.rows[i].heard + 1),
              bids :=
                if isBid then min 65535 (s.lck.rows[i].bids + 1) else s.lck.rows[i].bids } } }

/-- The blocks that a round never touches: pins, Start-up Loader, Sensor Scanner, Service Responder, time
and queue. -/
def SamePeriphery (s t : State) : Prop :=
  t.pins = s.pins ∧ t.sul = s.sul ∧ t.ssc = s.ssc ∧ t.srv = s.srv ∧ t.now = s.now ∧
    t.pending = s.pending

/-- A trip of output `o` by the command `i`, of fault kind `k` (R120, R121, R122): a change of filtered
leakage to asserted, an overload after the first 100 ms, or the third window below half the rated load. -/
inductive Trips (s : State) (o : Fin 6) : Instr → FaultKind → Prop where
  | leakage (h : s.plant.ogd.outputs[o].leakage.level = some false) :
    Trips s o (.leakageFilteredChange o true) .leakage
  | overload (load : Nat) (hp : 100 ≤ s.plant.ogd.outputs[o].periodMs)
    (hl : 125 * (s.plant.ogd.outputs[o].rated * 10) < 100 * load) :
    Trips s o (.overloadDetected o load) .overload
  | openElement (c : Fin 6) (hb : s.plant.ogd.boundTo c = some o)
    (hp : 1000 ≤ s.plant.ogd.outputs[o].periodMs)
    (hl : 2 * s.plant.ogd.outputs[o].loadSum <
      10 * s.plant.ogd.outputs[o].rated * s.plant.ogd.outputs[o].periodMs)
    (hc : 2 ≤ s.plant.ogd.outputs[o].openCount) :
    Trips s o (.onTimeElapsed c) .openElement

/-- R84, R86: the need that a window start gives circuit `c` in a state that may be energized, with output
`o` bound to it. -/
def needAtStart (s : State) (c o : Fin 6) : Nat :=
  let k := s.img.circuits[c]
  let rated := s.plant.ogd.outputs[o].rated
  match (formTemperature s.env c).1 with
  | none => min k.fallback rated
  | some x =>
    let sp := if s.rst.line = .flowing then k.spFlowing else k.spStandstill
    if sp ≤ x then 0 else min rated (ceilDiv (rated * (sp - x).toNat) k.band.toNat)

/-- R88, R118, R120: the window start of circuit `c` asks for its output `o`, which is off, in a way that
meets the conditions of R118, and the filtered leakage of that output is asserted. -/
structure LeaksAtStart (s : State) (c o : Fin 6) : Prop where
  window : s.plant.cct[c].toNext.isSome = true
  configured : isConfigured s.img c = true
  state : s.plant.cct[c].state.energizable = true
  follows : s.rct.membership.follows = true
  bound : s.plant.ogd.boundTo c = some o
  off : s.plant.ogd.outputs[o].energized = false
  limit : s.plant.ogd.outputs[o].limit.level = some false
  leakage : s.plant.ogd.outputs[o].leakage.level = some true
  heats : 0 < s.img.window * 1000 * min s.plant.cct[c].grant (needAtStart s c o) /
    s.plant.ogd.outputs[o].rated

/-- The command `i` trips output `o` of circuit `c` with the fault kind `k`: the output is on and the command
is one of `Trips`, or the command is the window start that energizes it while its filtered leakage is
asserted (R118, R120). -/
def TripDue (s : State) (o c : Fin 6) (i : Instr) (k : FaultKind) : Prop :=
  (Trips s o i k ∧ s.plant.ogd.outputs[o].energized = true) ∨
  (LeaksAtStart s c o ∧ i = .windowStart c ∧ k = .leakage)

/-- R123, steps 1 to 3: what every trip of output `o` leaves. -/
structure TripTaken (k : FaultKind) (o : Fin 6) (s t : State) : Prop where
  off : t.plant.ogd.outputs[o].energized = false
  openCount : t.plant.ogd.outputs[o].openCount = 0
  total : t.plant.ogd.outputs[o].health.tripTotal =
    min 65535 (s.plant.ogd.outputs[o].health.tripTotal + 1)
  fault : t.plant.ogd.outputs[o].health.lastFault = some k
  raised : Held t .circuitTrip

/-- R123, R78: a trip of output `o` below the trip limit: the trip is counted, the hold-off runs and circuit
`c` is TRIPPED. -/
structure TripHeldOff (o c : Fin 6) (s t : State) : Prop where
  role : t.plant.ogd.outputs[o].role = s.plant.ogd.outputs[o].role
  holdOff : t.plant.ogd.outputs[o].holdOff = some (s.img.holdOff * 1000)
  count : t.plant.ogd.trips[c] = ⟨s.plant.ogd.trips[c].count + 1, 0, 0⟩
  tripped : t.plant.cct[c].state = .tripped
  idle : t.plant.cct[c].onTime = 0 ∧ t.plant.cct[c].need = 0 ∧ t.plant.cct[c].settle = .stopped

/-- R123, R126, R80: a trip of output `o` at the trip limit: the output is BAD, and the lowest free spare
takes circuit `c` over, which enters SETTLING, or INHIBITED where that limit is open; with no free spare it
is FAILED. No further output is touched. -/
structure TripFails (o c : Fin 6) (s t : State) : Prop where
  bad : t.plant.ogd.outputs[o].role = .bad
  raised : Held t .circuitFailed
  spare : ∀ q : Fin 6, s.plant.ogd.outputs[q].role = .spareFree →
    (∀ j : Fin 6, j < q → s.plant.ogd.outputs[j].role ≠ .spareFree) →
    t.plant.ogd.outputs[q] =
      { s.plant.ogd.outputs[q] with role := .spareBound c, openCount := 0 } ∧
    t.plant.ogd.trips[c] = ⟨0, 0, 0⟩ ∧
    t.plant.cct[c].state =
      (if s.plant.ogd.outputs[q].limit.level = some true then .inhibited else .settling) ∧
    ∀ j : Fin 6, j ≠ o → j ≠ q → t.plant.ogd.outputs[j] = s.plant.ogd.outputs[j]
  exhausted : (∀ q : Fin 6, s.plant.ogd.outputs[q].role ≠ .spareFree) →
    Held t .spareExhausted ∧ t.plant.cct[c].state = .failed ∧
    t.plant.ogd.trips[c] = ⟨s.img.tripLimit, 0, 0⟩ ∧
    ∀ j : Fin 6, j ≠ o → t.plant.ogd.outputs[j] = s.plant.ogd.outputs[j]

/-- The reply to a command (R162). -/
def commandReply (s : State) (tag kind : Byte) (r : Result) : ReplyFrame :=
  ⟨s.own, tag, 4, kind, r, 0, 1, []⟩

/-- The reply to a query answered with an empty body (R162). -/
def refusedQuery (s : State) (tag kind page : Byte) (r : Result) (count : Nat) : ReplyFrame :=
  ⟨s.own, tag, 3, kind, r, page, byteOf count, []⟩

/-- `m` is the mean of loads that sum to `sum` over `ms` milliseconds, in 0.1 LU steps up to 400.0 LU
(R119); a mean between two steps is one of the two (log entry 10). -/
def IsMean (sum ms m : Nat) : Prop := ∃ k, m = min 4000 k ∧ sum / ms ≤ k ∧ k * ms < sum + ms

/-- R115: a glitch filter after its raw level has changed to `raw`: the filtered level stays, and the time
held counts from 0 where the two differ; a filter that does not run has none. -/
def rawMoved (raw : Bool) (f : Filter) : Filter :=
  match f.level with
  | some l => ⟨some l, if raw = l then none else some 0⟩
  | none => ⟨none, none⟩

/-- The samples kept of the energized period in progress are those of its last 100 ms, and all of it while
it is shorter (R119; log entry 12). -/
def WindowKept (r : OutputRow) : Prop :=
  r.recent.length = min 100 r.periodMs ∧ (r.periodMs ≤ 100 → r.recent.sum = r.loadSum)

/-- The samples kept of every output are in order (R119; log entry 12). -/
structure PeriodsKept (s : State) : Prop where
  reset : HeldInReset s
  samples : ∀ o : Fin 6, WindowKept s.plant.ogd.outputs[o]

/-- R119: the period of an output in state `r`, one millisecond on with the load `load`: the measured load
is the mean over the last 100 ms, or over the whole period while that is shorter (log entries 10 and 12). -/
structure LoadMeasured (load : Nat) (r u : OutputRow) : Prop where
  period : u.periodMs = r.periodMs + 1 ∧ u.loadSum = r.loadSum + min 4000 load
  samples : u.recent = (min 4000 load :: r.recent).take 100
  last : IsMean u.recent.sum u.recent.length u.measured
  kept : WindowKept r → WindowKept u
  whole : WindowKept r → u.periodMs ≤ 100 → IsMean u.loadSum u.periodMs u.measured

/-- A new energized period of an output in state `u`: nothing of it has passed yet (R119). -/
def PeriodBegun (u : OutputRow) : Prop := u.periodMs = 0 ∧ u.loadSum = 0 ∧ u.recent = []

/-- The energized period of an output in state `r` has ended by its on-time or by a cut, without a trip: the
output is off and the period is judged for an open element where it lasted 1 s or more (R89, R90, R122). -/
def PeriodEnded (r u : OutputRow) : Prop :=
  u.energized = false ∧ u.role = r.role ∧ u.measured = u.health.lastLoad ∧
    (0 < r.periodMs → IsMean r.loadSum r.periodMs u.measured) ∧
    u.openCount =
      if r.periodMs < 1000 then r.openCount
      else if 2 * r.loadSum < 10 * r.rated * r.periodMs then r.openCount + 1
      else 0

/-- R122: the period of an output in state `r`, ended by its on-time or by a cut, is the third in a row of 1 s
or more with a mean below half the rated load: an open-element trip is due. -/
def OpenElementDue (r : OutputRow) : Prop :=
  1000 ≤ r.periodMs ∧ 2 ≤ r.openCount ∧ 2 * r.loadSum < 10 * r.rated * r.periodMs

/-- R66, R90: circuit `c` has taken the grant it has in `t`. A fall shortens the on-time to what the new grant
allows, a rise or an equal grant leaves it. Where a shorter on-time has passed already, the period of the
output that is on ends at once (R122); any other output goes on as it was. -/
structure GrantTaken (c : Fin 6) (s t : State) : Prop where
  row : t.plant.cct[c] =
    { s.plant.cct[c] with grant := t.plant.cct[c].grant, onTime := t.plant.cct[c].onTime }
  kept : s.plant.cct[c].grant ≤ t.plant.cct[c].grant → t.plant.cct[c].onTime = s.plant.cct[c].onTime
  fallen : t.plant.cct[c].grant < s.plant.cct[c].grant → t.plant.cct[c].onTime =
    min s.plant.cct[c].onTime (s.img.window * 1000 * min t.plant.cct[c].grant s.plant.cct[c].need /
      s.plant.ogd.ratedOf c)
  ended : ∀ o, s.plant.ogd.boundTo c = some o → s.plant.ogd.outputs[o].energized = true →
    t.plant.cct[c].onTime < s.plant.cct[c].onTime →
    t.plant.cct[c].onTime ≤
      s.img.window * 1000 - s.plant.cct[c].toNext.getD (s.img.window * 1000) →
    PeriodEnded s.plant.ogd.outputs[o] t.plant.ogd.outputs[o]
  runs : ∀ o, s.plant.ogd.boundTo c = some o →
    (t.plant.cct[c].onTime = s.plant.cct[c].onTime ∨
      s.img.window * 1000 - s.plant.cct[c].toNext.getD (s.img.window * 1000) <
        t.plant.cct[c].onTime) →
    t.plant.ogd.outputs[o] = s.plant.ogd.outputs[o]

/-- The test of the record `r` has ended: it is removed and its output is off, its result stands in the
health record, and the deduction has ended (R66, R127, R130, R131). -/
def TestEnded (outcome : TestOutcome) (r : TestRecord) (t : State) : Prop :=
  t.plant.ogd.test = none ∧ t.plant.ogd.outputs[r.output].energized = false ∧
    t.plant.alu.deduction = none ∧
    ∃ u, t.plant.ogd.outputs[r.output].health.lastTest = some u ∧ u.outcome = outcome ∧
      u.energizedMs = r.energizedMs ∧ u.peak = r.peak ∧
      (0 < r.energizedMs → IsMean r.loadSum r.energizedMs u.mean)

/-- R128: a TEST_OUTPUT of output `o` for `n` seconds, addressed to the station, is accepted as things stand.
-/
structure TestAccepted (d : Byte) (o : Fin 6) (n : Byte) (s : State) : Prop where
  received : canReceive s = true ∧ d.toNat = s.own
  duration : 1 ≤ n.toNat ∧ n.toNat ≤ 60
  bids : s.rct.membership.bids = true
  idle : s.plant.ogd.test = none
  role : s.plant.ogd.outputs[o].role = .spareFree ∨
    ∃ c, s.plant.ogd.outputs[o].role.circuit = some c ∧ s.plant.cct[c].state.energizable = true
  limit : s.plant.ogd.outputs[o].limit.level = some false
  room : s.plant.ogd.outputs[o].rated * (s.img.window * 1000) +
      ((sixIds.filter fun c => decide (s.plant.ogd.outputs[o].role.circuit ≠ some c)).map
        fun c => s.plant.ogd.ratedOf c * s.plant.cct[c].onTime).sum ≤
    s.plant.alu.own * (s.img.window * 1000)

/-! ### Readings -/

/-- R82: the reading of the channel that the sensor byte `b` names counts, with the value `v`: its quality
is GOOD. -/
def Counts (s : State) (b : Nat) (v : Int) : Prop :=
  ∃ t : Fin 8, b = t.val + 1 ∧ s.ssc.rows[t].quality = .good ∧ s.ssc.rows[t].value = some v

/-- R82: `r` is the temperature of circuit `c` with its source: the lower of two readings that count, the
one that counts, or none. -/
structure TemperatureFormed (s : State) (c : Fin 6) (r : Option Int × TempSource) : Prop where
  both : ∀ a b, Counts s s.img.circuits[c].primarySensor a →
    Counts s s.img.circuits[c].backupSensor b →
    r = if a ≤ b then (some a, .primary) else (some b, .backup)
  primary : ∀ a, Counts s s.img.circuits[c].primarySensor a →
    (∀ b, ¬Counts s s.img.circuits[c].backupSensor b) → r = (some a, .primary)
  backup : ∀ b, (∀ a, ¬Counts s s.img.circuits[c].primarySensor a) →
    Counts s s.img.circuits[c].backupSensor b → r = (some b, .backup)
  neither : (∀ a, ¬Counts s s.img.circuits[c].primarySensor a) →
    (∀ b, ¬Counts s s.img.circuits[c].backupSensor b) → r = (none, .noSource)

/-! ### The configuration image -/

/-- R188: `m` holds what the bytes `l` of the working copy say: each field at its offset, two-byte numbers
high byte first, temperatures in two's complement, and sets with their first member in the least
significant bit. -/
structure ImageFields (l : List Byte) (m : Image) : Prop where
  bytes : ∀ (i : Nat) (b : Byte), l[i]? = some b → byteAt l i = b.toNat
  header : m.format = byteAt l 0 ∧ m.length = byteAt l 1 * 256 + byteAt l 2
  feeder : m.budget = byteAt l 3 * 256 + byteAt l 4 ∧ m.stations = byteAt l 5
  reserves : m.reserveCount = byteAt l 6 ∧
    m.reserve1 = (byteAt l 7, byteAt l 8 * 256 + byteAt l 9) ∧
    m.reserve2 = (byteAt l 10, byteAt l 11 * 256 + byteAt l 12)
  heat : m.pourPoint = (BitVec.ofNat 16 (byteAt l 13 * 256 + byteAt l 14)).toInt ∧
    m.lowMargin = byteAt l 15 ∧ m.period = byteAt l 16 ∧ m.stale = byteAt l 17
  outputs : ∀ o : Fin 6,
    m.outputs[o] = (byteAt l (18 + 2 * o.val), byteAt l (18 + 2 * o.val + 1))
  knownBad : m.knownBad.toNat = byteAt l 30
  circuits : ∀ c : Fin 6, m.circuits[c] =
    (let b := fun i => byteAt l (31 + 11 * c.val + i)
     let temp := fun i => (BitVec.ofNat 16 (b i * 256 + b (i + 1))).toInt
     ⟨b 0, b 1, b 2, b 3, temp 4, temp 6, temp 8, b 10⟩)
  channels : m.channels.toNat = byteAt l 97 ∧ m.rate = byteAt l 98
  leakage : m.leakThreshold = byteAt l 99 * 256 + byteAt l 100
  glitch : m.glitchLeakage = byteAt l 101 ∧ m.glitchLimit = byteAt l 102 ∧
    m.glitchFlow = byteAt l 103
  trips : m.holdOff = byteAt l 104 * 256 + byteAt l 105 ∧ m.tripLimit = byteAt l 106 ∧
    m.tripClear = byteAt l 107 * 256 + byteAt l 108
  window : m.window = byteAt l 109 ∧ m.flowWired = byteAt l 110
  mask : m.mask.toNat = byteAt l 111 + byteAt l 112 * 256 + byteAt l 113 * 65536
  checksum : m.checksum = byteAt l 114 * 256 + byteAt l 115

/-- R188: the reserve entry `r` is in use with an address in 1…N and 1…65,535 LU, or is zero. -/
def ReserveEntry (m : Image) (used : Prop) (r : Nat × Nat) : Prop :=
  (used → (1 ≤ r.1 ∧ r.1 ≤ m.stations) ∧ 1 ≤ r.2 ∧ r.2 ≤ 65535) ∧ (¬used → r = (0, 0))

/-- R189, stages 1 to 4: format, length, checksum and the shared section. -/
structure SharedStages (l : List Byte) (m : Image) : Prop where
  format : m.format = 1
  length : m.length = 116
  checksum : (crc16 (l.take 114)).toNat = m.checksum
  budget : 1 ≤ m.budget ∧ m.budget ≤ 65535
  stations : 1 ≤ m.stations ∧ m.stations ≤ 32
  reserveCount : m.reserveCount ≤ 2
  reserve1 : ReserveEntry m (1 ≤ m.reserveCount) m.reserve1
  reserve2 : ReserveEntry m (2 ≤ m.reserveCount) m.reserve2
  differ : 2 ≤ m.reserveCount → m.reserve1.1 ≠ m.reserve2.1
  sum : m.reserve1.2 + m.reserve2.2 < m.budget
  pourPoint : -200 ≤ m.pourPoint ∧ m.pourPoint ≤ 800
  lowMargin : 1 ≤ m.lowMargin ∧ m.lowMargin ≤ 30
  period : 5 ≤ m.period ∧ m.period ≤ 120
  stale : 1 ≤ m.stale ∧ m.stale ≤ 7

/-- R189, stage 5, the fields of one configured circuit and what they must agree with. -/
structure CircuitStage (m : Image) (k : CircuitCfg) : Prop where
  setpoints : (-600 ≤ k.spFlowing ∧ k.spFlowing ≤ 2500) ∧
    -600 ≤ k.spStandstill ∧ k.spStandstill ≤ 2500
  band : 10 ≤ k.band ∧ k.band ≤ 500
  /-- The primary output has role PRIMARY, and the fallback need is at most its rated load. -/
  output : k.fallback ≤ 200 ∧ ∃ o : Fin 6, k.primary = o.val + 1 ∧ m.outputs[o].1 = 1 ∧
    k.fallback ≤ m.outputs[o].2
  /-- The sensors lie in the enabled channels, and the backup differs from the primary. -/
  primarySensor : ∃ t : Fin 8, k.primarySensor = t.val + 1 ∧ m.channels.getLsbD t.val = true
  backupSensor : k.backupSensor = 0 ∨ k.backupSensor ≠ k.primarySensor ∧
    ∃ t : Fin 8, k.backupSensor = t.val + 1 ∧ m.channels.getLsbD t.val = true

/-- R189, stage 5: the local section; the fields of an unconfigured circuit are not judged. -/
structure LocalStage (m : Image) : Prop where
  outputs : ∀ o : Fin 6, m.outputs[o].1 ≤ 2 ∧ 1 ≤ m.outputs[o].2 ∧ m.outputs[o].2 ≤ 200
  knownBad : m.knownBad.getLsbD 6 = false ∧ m.knownBad.getLsbD 7 = false
  configured : ∀ c : Fin 6, m.circuits[c].configured ≤ 1
  circuits : ∀ c : Fin 6, m.circuits[c].configured = 1 → CircuitStage m m.circuits[c]
  /-- Each output of role PRIMARY is the primary output of exactly one configured circuit. -/
  primaries : ∀ o : Fin 6, m.outputs[o].1 = 1 →
    ∃ c : Fin 6, ∀ j : Fin 6,
      m.circuits[j].configured = 1 ∧ m.circuits[j].primary = o.val + 1 ↔ j = c
  rate : 5 ≤ m.rate ∧ m.rate ≤ 200
  leakage : 10 ≤ m.leakThreshold ∧ m.leakThreshold ≤ 300
  glitchLeakage : 1 ≤ m.glitchLeakage ∧ m.glitchLeakage ≤ 15
  glitchLimit : 1 ≤ m.glitchLimit ∧ m.glitchLimit ≤ 15
  glitchFlow : 1 ≤ m.glitchFlow ∧ m.glitchFlow ≤ 15
  holdOff : 10 ≤ m.holdOff ∧ m.holdOff ≤ 3600
  tripLimit : 1 ≤ m.tripLimit ∧ m.tripLimit ≤ 7
  tripClear : 10 ≤ m.tripClear ∧ m.tripClear ≤ 1440
  window : 2 ≤ m.window ∧ m.window ≤ 30
  flowWired : m.flowWired ≤ 1
  mask : ∀ i, 18 ≤ i → m.mask.getLsbD i = false

/-! ### Frames -/

/-- The bytes of a frame before its CRC, closed by the CRC, high byte first (R134, R135). -/
def closedByCrc (body : List Byte) : List Byte :=
  body ++ [byteOf ((crc16 body).toNat / 256), byteOf (crc16 body).toNat]

/-- R135: the register starts at all ones; each byte is taken most significant bit first; for each bit the
register is shifted one place toward its most significant end, and the generator is added where the bit
shifted out differs from the data bit. -/
structure CrcRule : Prop where
  start : crc16 [] = 0xFFFF
  byte : ∀ (l : List Byte) (b : Byte), crc16 (l ++ [b]) =
    [7, 6, 5, 4, 3, 2, 1, 0].foldl
      (fun (c : Word16) i => (c <<< 1) ^^^ (if c.msb = b.getLsbD i then 0 else 0x1021)) (crc16 l)
  check : crc16 [0x31, 0x32, 0x33, 0x34, 0x35, 0x36, 0x37, 0x38, 0x39] = 0x29B1

/-- R134: the bytes of each kind of frame, first on the line first. Numbers of two bytes go high byte
first; a set has its first member in the least significant bit of its first byte. -/
structure FrameLayouts : Prop where
  numbers : ∀ n, twoBytes n = [byteOf (n / 256), byteOf n]
  addresses : ∀ h : AddrSet, (addrSetBytes h).length = 4 ∧ ∀ i : Fin 32,
    ((addrSetBytes h).getD (i.val / 8) 0).getLsbD (i.val % 8) = inSet h (i.val + 1)
  openFrame : ∀ f : OpenFrame, frameBytes (.openFrame f) = closedByCrc (
    [1, 12, byteOf f.opener, f.round] ++ addrSetBytes f.heard ++ twoBytes f.digest.toNat)
  bid : ∀ f : BidFrame, f.records.length ≤ 6 → ∃ flags : Byte,
    flags.getLsbD 0 = f.member ∧
    (flags.extractLsb' 1 2).toNat =
      (match f.flow with
        | .noReport => 0
        | .flow => 1
        | .stop => 2) ∧
    flags.getLsbD 3 = f.alarm ∧ flags.extractLsb' 4 4 = 0 ∧
    frameBytes (.bid f) = closedByCrc (
      [2, byteOf (13 + 4 * f.records.length), byteOf f.sender, f.round, byteOf f.opener, flags] ++
      twoBytes f.digest.toNat ++ twoBytes f.load ++ [byteOf f.records.length] ++
      f.records.flatMap fun r =>
        [byteOf r.circuit,
          match r.cls with
          | .p0 => 0
          | .p1 => 1
          | .p2 => 2
          | .p3 => 3,
          BitVec.ofInt 8 r.margin, byteOf r.need])
  query : ∀ q : QueryFrame, frameBytes (.request (.query q)) =
    closedByCrc [3, 9, 0, q.dest, q.tag, q.kind, q.page]
  command : ∀ c : CommandFrame, frameBytes (.request (.command c)) = closedByCrc (
    [4, byteOf (8 + c.args.length), 0, c.dest, c.tag, c.kind] ++ c.args)
  reply : ∀ f : ReplyFrame, frameBytes (.reply f) = closedByCrc (
    [5, byteOf (12 + f.body.length), byteOf f.source, 0, f.tag, f.reqType, f.reqKind,
      match f.result with
      | .done => 1
      | .accepted => 2
      | .busy => 3
      | .refused => 4
      | .badRequest => 5,
      f.page, f.pageCount] ++ f.body)
  test : ∀ f : TestFrame, f.payload.length = 32 → frameBytes (.test f) = closedByCrc (
    [6, 40, byteOf f.sender] ++ twoBytes f.seed.toNat ++ [f.index] ++ f.payload)

/-- R133, R135: as many bytes as the length byte says, 8…64, closed by their CRC. -/
def BytesSound (l : List Byte) : Prop :=
  8 ≤ l.length ∧ l.length ≤ 64 ∧ byteAt l 1 = l.length ∧
    (crc16 (l.take (l.length - 2))).toNat =
      byteAt l (l.length - 2) * 256 + byteAt l (l.length - 1)

/-- R139: the kind, the length of the kind and the field conditions of the kind hold. -/
def FieldsHold (l : List Byte) : Prop :=
  let b := byteAt l
  let station := fun i => 1 ≤ b i ∧ b i ≤ 32
  let records := ∀ k < b 10,
    (1 ≤ b (11 + 4 * k) ∧ b (11 + 4 * k) ≤ 6) ∧ b (12 + 4 * k) ≤ 2 ∧
      (1 ≤ b (14 + 4 * k) ∧ b (14 + 4 * k) ≤ 200) ∧
      (k + 1 < b 10 → b (11 + 4 * k) < b (15 + 4 * k))
  (b 0 = 1 ∧ l.length = 12 ∧ station 2) ∨
  (b 0 = 2 ∧ l.length = 13 + 4 * b 10 ∧ b 10 ≤ 6 ∧ station 2 ∧ station 4 ∧ b 5 / 2 % 4 ≤ 2 ∧
    b 8 * 256 + b 9 ≤ 1200 ∧ records) ∨
  (b 0 = 3 ∧ l.length = 9 ∧ b 2 = 0 ∧ (station 3 ∨ b 3 = 255)) ∨
  (b 0 = 4 ∧ b 2 = 0 ∧ (station 3 ∨ b 3 = 255)) ∨
  (b 0 = 5 ∧ 12 ≤ l.length ∧ station 2 ∧ b 3 = 0 ∧ 1 ≤ b 7 ∧ b 7 ≤ 5) ∨
  (b 0 = 6 ∧ l.length = 40 ∧ station 2)

/-- R140, R161: the command that a GOOD request of the service tool is, by its type and its kind. -/
def requestCommand : Request → Instr
  | .query q =>
    match q.kind.toNat with
    | 1 => .queryStation q.dest q.tag q.page
    | 2 => .queryCircuits q.dest q.tag q.page
    | 3 => .queryOutputs q.dest q.tag q.page
    | 4 => .querySensors q.dest q.tag q.page
    | 5 => .queryRoster q.dest q.tag q.page
    | 6 => .queryAllotment q.dest q.tag q.page
    | 7 => .queryFactors q.dest q.tag q.page
    | 8 => .queryQuality q.dest q.tag q.page
    | _ => .unknownRequest (.query q)
  | .command c =>
    match c.kind.toNat with
    | 1 => .clearFactors c.dest c.tag c.args
    | 2 => .setMask c.dest c.tag c.args
    | 3 => .testOutput c.dest c.tag c.args
    | 4 => .linecheck c.dest c.tag c.args
    | 5 => .retire c.dest c.tag c.args
    | 6 => .restart c.dest c.tag c.args
    | 7 => .clearQuality c.dest c.tag c.args
    | _ => .unknownRequest (.command c)

/-- R140: the command that a GOOD frame is, by its kind. -/
def frameCommand : Frame → Instr
  | .openFrame f => .openReceived f
  | .bid f => .bidReceived f
  | .request r => requestCommand r
  | .reply f => .replyFrameReceived f
  | .test f => .testFrameReceived f

/-- R155: `payload` is that of a TEST frame with this seed and index: the register is loaded with the seed
combined with index × 257, 1 in place of 0, and each byte is its low byte after eight further steps. -/
def PayloadOf (seed : Word16) (index : Nat) (payload : List Byte) : Prop :=
  payload.length = 32 ∧ ∃ r : Nat → Word16,
    r 0 = (let v := seed ^^^ BitVec.ofNat 16 (index * 257); if v = 0 then 1 else v) ∧
    (∀ n, r (n + 1) = ((r n) >>> 1) |||
      (if ((r n).getLsbD 0 ^^ (r n).getLsbD 2) ^^ ((r n).getLsbD 3 ^^ (r n).getLsbD 5) then 0x8000
        else 0)) ∧
    ∀ k < 32, payload[k]? = some ((r (8 * (k + 1))).setWidth 8)

/-! ### Events that are due -/

/-- The events that the part's own timebase has made due (log entry 2): a window start when the time to it
has run out (R87), an on-time that has passed with its output on (R89), a settle timer whose third scan end
has come (R74), the trip-clear time (R125), an input that has held a new level for its glitch width (R115), a
measured overload (R121), a hold-off, a round timer, a listen timer or a retry wait that has run out (R3, R19,
R124, R187), the duration of a test (R130), a gap in a frame (R133) and a deference (R143). -/
inductive Due (s : State) : Instr → Prop where
  | windowStart (c : Fin 6) (h : s.plant.cct[c].toNext = some 0) : Due s (.windowStart c)
  | onTime (c o : Fin 6) (hb : s.plant.ogd.boundTo c = some o)
    (he : s.plant.ogd.outputs[o].energized = true) (ht : ∀ t, s.plant.ogd.test = some t → t.output ≠ o)
    (hp : s.plant.cct[c].onTime ≤
      s.img.window * 1000 - s.plant.cct[c].toNext.getD (s.img.window * 1000)) :
    Due s (.onTimeElapsed c)
  | settleTimer (c : Fin 6) (h : s.plant.cct[c].settle = .due) : Due s (.settleTimerExpiry c)
  | tripClear (c : Fin 6) (h0 : 0 < s.plant.ogd.trips[c].count)
    (h : s.img.tripClear * 60 ≤ s.plant.ogd.trips[c].seconds) : Due s (.tripClearTimeReached c)
  | leakage (o : Fin 6) (l : Bool) (k : Nat) (hl : s.plant.ogd.outputs[o].leakage.level = some l)
    (hk : s.plant.ogd.outputs[o].leakage.held = some k) (h : s.img.glitchLeakage ≤ k) :
    Due s (.leakageFilteredChange o (decide (s.img.leakThreshold ≤ s.pins.leakage[o])))
  | limit (o : Fin 6) (l : Bool) (k : Nat) (hl : s.plant.ogd.outputs[o].limit.level = some l)
    (hk : s.plant.ogd.outputs[o].limit.held = some k) (h : s.img.glitchLimit ≤ k) :
    Due s (.limitFilteredChange o s.pins.limitOpen[o])
  | flow (l : Bool) (k : Nat) (hl : s.plant.ogd.flow.level = some l)
    (hk : s.plant.ogd.flow.held = some k) (h : s.img.glitchFlow ≤ k) :
    Due s (.flowFilteredChange s.pins.flow)
  | overload (o : Fin 6) (he : s.plant.ogd.outputs[o].energized = true)
    (hp : 100 ≤ s.plant.ogd.outputs[o].periodMs)
    (h : 125 * (s.plant.ogd.outputs[o].rated * 10) < 100 * s.plant.ogd.outputs[o].measured) :
    Due s (.overloadDetected o s.plant.ogd.outputs[o].measured)
  | holdOff (o : Fin 6) (h : s.plant.ogd.outputs[o].holdOff = some 0) : Due s (.holdOffExpiry o)
  | testDuration (t : TestRecord) (ht : s.plant.ogd.test = some t)
    (h : t.startedAt + t.duration * 1000 ≤ s.now) : Due s .testDurationExpiry
  | roundTimer (h : s.rct.roundTimer = some 0) : Due s .roundTimerExpiry
  | listenTimer (h : s.rct.listenTimer = some 0) (hm : s.rct.membership = .listen) :
    Due s .listenTimerExpiry
  | retry (k a : Nat) (h : s.sul.progress = .reading k a (some 0)) : Due s .attemptRetryDelayExpiry
  | frameGap (t : Nat) (hr : s.lif.receiver = .receiving) (hi : s.lif.idle = some t) (h : 2 < t) :
    Due s .frameGapTimeout
  | deference (n : SlotName) (t : Nat) (hn : contender s.lif = some n) (hs : s.lif.sending = false)
    (hr : s.lif.receiver ≠ .receiving) (hi : s.lif.idle = some t)
    (h : deference s.sul.rank.val n ≤ t) : Due s .deferenceExpiry

/-! ### The division and the spread -/

/-- R52: the bid `b` makes the address at place `i` a participant: the address is heard, and its settled bid
is marked MEMBER and carries the station's digest. -/
def Participates (l : Ledger) (i : Fin 32) (b : BidFrame) : Prop :=
  inSet l.heard (i.val + 1) = true ∧ l.settled[i] = some b ∧ b.member = true ∧
    l.digest = some b.digest

/-- R56: a record that does not come after another: by class, then margin, then station address, then
circuit id. -/
def RecordOrder (x y : RecEntry) : Prop :=
  classRank x.cls < classRank y.cls ∨ classRank x.cls = classRank y.cls ∧
    (x.margin < y.margin ∨ x.margin = y.margin ∧
      (x.addr < y.addr ∨ x.addr = y.addr ∧ x.circuit ≤ y.circuit))

/-- `d` is the division that R51 to R57 make of the settled bids, the peer rows and the heard set of `l`. -/
structure DividedBy (e : Env) (l : Ledger) (d : Division) : Prop where
  heard : d.heard = l.heard
  addresses : d.entries.map AddrEntry.addr = List.range' 1 e.img.stations
  /-- R52. -/
  classified : ∀ (i : Fin 32) (x : AddrEntry), x ∈ d.entries → x.addr = i.val + 1 →
    (x.cls = .participant ↔ ∃ b, Participates l i b) ∧
    (x.cls = .released ↔
      inSet l.heard x.addr = false ∧ x.addr ≠ e.own ∧ l.rows[i].status = .retired)
  /-- R53, and the pool part of an address (R56). -/
  amounts : ∀ (i : Fin 32) (x : AddrEntry), x ∈ d.entries → x.addr = i.val + 1 →
    x.charge = (if x.cls = .charged then e.share x.addr else 0) ∧
    (∀ b, Participates l i b →
      x.base = min (e.share x.addr) (b.records.map DemandRecord.need).sum) ∧
    (x.cls ≠ .participant → x.base = 0) ∧
    x.poolPart = ((d.records.filter fun r => decide (r.addr = x.addr)).map RecEntry.poolPart).sum
  /-- R54. -/
  pool : d.poolTotal = (d.entries.map fun x =>
    match x.cls with
    | .participant => e.share x.addr - x.base
    | .released => e.share x.addr
    | .charged => 0).sum
  poolLeft : d.poolLeft = d.poolTotal - (d.records.map RecEntry.poolPart).sum
  /-- R51, R56: every record of every participant, and no other. -/
  recorded : ∀ (i : Fin 32) (b : BidFrame), Participates l i b → i.val + 1 ≤ e.img.stations →
    ((d.records.filter fun r => decide (r.addr = i.val + 1)).map fun r =>
      (⟨r.circuit, r.cls, r.margin, r.need⟩ : DemandRecord)).Perm b.records
  ofParticipant : ∀ r ∈ d.records, ∃ (i : Fin 32) (b : BidFrame),
    r.addr = i.val + 1 ∧ r.addr ≤ e.img.stations ∧ Participates l i b
  ordered : d.records.Pairwise RecordOrder
  /-- R55: the lesser of its need and the base of its address not yet spread. -/
  basePart : ∀ (i : Fin 32) (b : BidFrame) (before after : List RecEntry) (r : RecEntry),
    Participates l i b → d.records = before ++ r :: after → r.addr = i.val + 1 →
    r.basePart = min r.need (min (e.share r.addr) (b.records.map DemandRecord.need).sum -
      ((before.filter fun q => decide (q.addr = r.addr)).map RecEntry.basePart).sum)
  /-- R56: the lesser of its residual need and the pool not yet given. -/
  poolPart : ∀ (before after : List RecEntry) (r : RecEntry), d.records = before ++ r :: after →
    r.poolPart = min (r.need - r.basePart) (d.poolTotal - (before.map RecEntry.poolPart).sum)

/-- R59: a circuit that a local spread takes. -/
def spreadTakes (p : Plant) (c : Fin 6) : Bool :=
  decide (p.cct[c].state ∈ [CState.settling, .regulating, .sensorLost] ∧ 0 < p.cct[c].need)

/-- R59: circuit `d` comes before circuit `c` in local order: by class, then margin, then circuit id. A
circuit without a margin counts as one at −128 (R85). -/
def spreadBefore (p : Plant) (d c : Fin 6) : Bool :=
  let rank := fun x : Fin 6 => (p.cct[x].cls.map classRank).getD 4
  let margin := fun x : Fin 6 => p.cct[x].margin.getD (-128)
  decide (rank d < rank c ∨ rank d = rank c ∧
    (margin d < margin c ∨ margin d = margin c ∧ d < c))

/-- `g` is the local spread of an amount (R59): each circuit taken is granted the lesser of its need and the
amount not yet spread, every other one 0; the grants sum to the lesser of the amount and the total need. -/
structure SpreadOf (p : Plant) (amount : Nat) (g : Vector Nat 6) : Prop where
  taken : ∀ c : Fin 6, spreadTakes p c = true → g[c] = min p.cct[c].need (amount -
    ((sixIds.filter fun d => spreadTakes p d && spreadBefore p d c).map fun d => g[d]).sum)
  others : ∀ c : Fin 6, spreadTakes p c = false → g[c] = 0
  total : grantSum g =
    min amount ((sixIds.filter fun c => spreadTakes p c).map fun c => p.cct[c].need).sum

/-- R65: circuit `d` comes before circuit `c` in the local order of R59. One that the order does not take
comes after every one it takes, and these come in circuit id (log entry 16). -/
def localBefore (p : Plant) (d c : Fin 6) : Prop :=
  (spreadTakes p d = true ∧ (spreadTakes p c = true → spreadBefore p d c = true)) ∨
  (spreadTakes p d = false ∧ spreadTakes p c = false ∧ d < c)

/-- R65: circuit `d` comes before circuit `c` in the order of the station's own records of the division
`v`. One without a record comes after every one with one, and these come in circuit id (log entry 16). -/
def recordBefore (own : Nat) (v : Division) (d c : Fin 6) : Prop :=
  let names := fun (x : Fin 6) (r : RecEntry) =>
    r ∈ v.records ∧ r.addr = own ∧ r.circuit = x.val + 1
  ((∃ x, names d x) ∧ ∀ x y, names d x → names c y → d ≠ c ∧ RecordOrder x y) ∨
  ((∀ x, ¬names d x) ∧ (∀ y, ¬names c y) ∧ d < c)

/-- R65: the order of a test deduction: that of the own records where the station is a participant, and
the local order elsewhere. -/
def deductBefore (own : Nat) (p : Plant) (d c : Fin 6) : Prop :=
  match p.alu.division with
  | some v => if isParticipant own v = true then recordBefore own v d c else localBefore p d c
  | none => localBefore p d c

/-- R65: `h` is what a test deduction leaves of the grants `g`: the circuit of the tested output is granted
0, and the other grants are lowered from the last of the order backward, each only after all that come
later are at 0, until they sum to at most `room`. Grants that fit already stay. -/
structure Deducted (before : Fin 6 → Fin 6 → Prop) (circuit : Option (Fin 6)) (room : Nat)
    (g h : Vector Nat 6) : Prop where
  tested : ∀ c : Fin 6, circuit = some c → h[c] = 0
  lowered : ∀ c : Fin 6, h[c] ≤ g[c]
  fitting : ((sixIds.filter fun c => decide (circuit ≠ some c)).map fun c => g[c]).sum ≤ room →
    ∀ c : Fin 6, circuit ≠ some c → h[c] = g[c]
  total : grantSum h =
    min room ((sixIds.filter fun c => decide (circuit ≠ some c)).map fun c => g[c]).sum
  order : ∀ c d : Fin 6, before d c → circuit ≠ some d → h[d] < g[d] → h[c] = 0

/-! ### Reply pages -/

/-- A quotient `a / b` in whole units; one between two is either (log entry 10). -/
def IsQuotient (a b q : Nat) : Prop := 0 < b → a / b ≤ q ∧ q * b < a + b

/-- R165, R167: the encodings of the reply bodies. An enumerated item is numbered from 0 in the order of
the table that defines it, also where that order lists NONE (log entry 17), and an item that is absent is
255; the zeros for absent items are log entry 36, and set or clear as a yes/no item is log entry 40. -/
structure Encodings : Prop where
  numbers : ∀ n, twoBytes n = [byteOf (n / 256), byteOf n] ∧
    fourBytes n = [byteOf (n / 16777216), byteOf (n / 65536), byteOf (n / 256), byteOf n]
  temperatures : tempBytes none = [0x80, 0] ∧
    ∀ t, tempBytes (some t) = twoBytes (BitVec.ofInt 16 t).toNat
  amounts : amountBytes none = [255, 255] ∧ ∀ n, amountBytes (some n) = twoBytes n
  outputs : idByte none = 0 ∧ ∀ o : Fin 6, idByte (some o) = byteOf (o.val + 1)
  flags : yesNo true = 1 ∧ yesNo false = 0 ∧ levelByte none = 255 ∧ ∀ b, levelByte (some b) = yesNo b
  memberships : [Membership.start, .blocked, .listen, .joining, .member, .retired].map
    membershipCode = [0, 1, 2, 3, 4, 5]
  lines : [LineState.flowing, .standstill].map lineCode = [0, 1]
  ranks : [Cls.p0, .p1, .p2, .p3].map classRank = [0, 1, 2, 3]
  states : [CState.disabled, .settling, .regulating, .sensorLost, .inhibited, .tripped, .failed,
    .testing].map stateCode = [0, 1, 2, 3, 4, 5, 6, 7]
  settles : settleCode .stopped = 255 ∧ settleCode .due = 2 ∧ ∀ n, settleCode (.running n) = n
  sources : [TempSource.primary, .backup, .noSource].map sourceCode = [0, 1, 2]
  qualities : [Quality.noReading, .good, .suspect, .isOpen, .short].map qualityCode =
    [0, 1, 2, 3, 4]
  roles : ∀ c, [Role.primary c, .spareFree, .spareBound c, .unused, .bad].map roleCode =
    [0, 1, 2, 3, 4]
  faults : [FaultKind.leakage, .overload, .openElement].map faultCode = [0, 1, 2]
  peers : [PeerStatus.unknown, .present, .joining, .stale, .absent, .retired, .mismatched].map
    peerCode = [0, 1, 2, 3, 4, 5, 6]
  kinds : [AllotKind.complete, .degraded, .capped, .noAllot].map kindCode = [0, 1, 2, 3]
  classes : [Classification.participant, .charged, .released].map classificationCode = [0, 1, 2]
  caps : ∀ n, [some CapSource.share, some (.declared n), some .unsettled, none].map capCode =
    [0, 1, 2, 255]
  tests : testResultBytes none = [3, 0, 0, 0, 0, 0, 0, 255, 255] ∧
    ∀ ms mean peak,
      testResultBytes (some ⟨.done, ms, mean, peak⟩) =
        [0] ++ twoBytes ms ++ twoBytes mean ++ twoBytes peak ++ [255, 255] ∧
      (∀ k, testResultBytes (some ⟨.tripped k, ms, mean, peak⟩) =
        [1] ++ twoBytes ms ++ twoBytes mean ++ twoBytes peak ++ [byteOf (faultCode k), 255]) ∧
      [AbortCause.allotment, .limit, .binding].map
        (fun a => testResultBytes (some ⟨.aborted a, ms, mean, peak⟩)) =
          [0, 1, 2].map fun n =>
            [2] ++ twoBytes ms ++ twoBytes mean ++ twoBytes peak ++ [255, byteOf n]

/-- R166 to R169: what the pages carry, first byte at the top. The DEGRADED flag, a pending restart, a return
mark and an error latch, each set or clear, go out as 1 for set (log entry 40). -/
structure PagesCarry (s : State) : Prop where
  station : pageBody s 1 0 =
    [byteOf s.own, byteOf (membershipCode s.rct.membership), yesNo s.rct.round.isSome,
      s.rct.round.getD 0, byteOf (s.rct.opener.getD 0), yesNo s.rct.degraded,
      byteOf s.rct.listenAdoptions] ++
    amountBytes s.rct.declaredCurrent ++ amountBytes s.rct.declaredClosed ++
    [byteOf (lineCode s.rst.line), yesNo s.srv.restartPending,
      if s.sul.sharedGood then byteOf s.img.stations else 0] ++
    (if s.sul.sharedGood then twoBytes s.img.budget else [0, 0]) ++
    (if s.sul.judgement = some .good then twoBytes (shareOf s.img s.own) else [0, 0]) ++
    twoBytes s.plant.alu.own ++ twoBytes (s.sul.digest.getD 0).toNat ++
    [yesNo s.plant.ogd.test.isSome, yesNo s.lck.emission.running]
  factors : pageBody s 7 0 =
    [s.plant.fct.status.extractLsb' 0 8, s.plant.fct.status.extractLsb' 8 8,
      s.plant.fct.status.extractLsb' 16 8, s.plant.fct.mask.extractLsb' 0 8,
      s.plant.fct.mask.extractLsb' 8 8, s.plant.fct.mask.extractLsb' 16 8, yesNo s.alarm,
      yesNo s.plant.fct.summary]
  circuit : ∀ c : Fin 6, ∃ duty, IsQuotient (s.plant.cct[c].onTime * 1000) (s.img.window * 1000) duty ∧
    pageBody s 2 c.val =
      [byteOf (c.val + 1), byteOf (stateCode s.plant.cct[c].state),
        idByte (s.plant.ogd.boundTo c), byteOf (s.plant.ogd.ratedOf c),
        byteOf (settleCode s.plant.cct[c].settle)] ++
      tempBytes s.plant.cct[c].temp ++ [byteOf (sourceCode s.plant.cct[c].source)] ++
      tempBytes s.plant.cct[c].setpoint ++
      [byteOf s.plant.cct[c].need, BitVec.ofInt 8 (s.plant.cct[c].margin.getD (-128)),
        byteOf ((s.plant.cct[c].cls.map classRank).getD 255), byteOf s.plant.cct[c].grant] ++
      twoBytes s.plant.cct[c].onTime ++ twoBytes duty ++
      [byteOf s.plant.cct[c].starved, byteOf s.plant.ogd.trips[c].count] ++
      fourBytes s.plant.ogd.trips[c].seconds
  output : ∀ o : Fin 6, ∃ holdOff,
    (s.plant.ogd.outputs[o].holdOff = none → holdOff = 65535) ∧
    (∀ ms, s.plant.ogd.outputs[o].holdOff = some ms → IsQuotient ms 1000 holdOff) ∧
    pageBody s 3 o.val =
      [byteOf (o.val + 1), byteOf (roleCode s.plant.ogd.outputs[o].role),
        idByte s.plant.ogd.outputs[o].role.circuit, byteOf s.plant.ogd.outputs[o].rated,
        yesNo s.plant.ogd.outputs[o].energized, levelByte s.plant.ogd.outputs[o].leakage.level,
        levelByte s.plant.ogd.outputs[o].limit.level] ++
      twoBytes s.plant.ogd.outputs[o].measured ++ [byteOf s.plant.ogd.outputs[o].openCount] ++
      twoBytes holdOff ++ fourBytes s.plant.ogd.outputs[o].health.seconds ++
      twoBytes s.plant.ogd.outputs[o].health.tripTotal ++
      twoBytes s.plant.ogd.outputs[o].health.peak ++
      twoBytes s.plant.ogd.outputs[o].health.lastLoad ++
      [byteOf ((s.plant.ogd.outputs[o].health.lastFault.map faultCode).getD 3)] ++
      testResultBytes s.plant.ogd.outputs[o].health.lastTest
  stationOutputs : ∃ bad : Byte, (∀ o : Fin 6, bad.getLsbD o.val =
      decide (s.plant.ogd.outputs[o].role = .bad)) ∧ (pageBody s 3 6).take 1 = [bad] ∧
    (∀ t, s.plant.ogd.test = some t → 0 < t.energizedMs →
      ∃ mean, IsMean t.loadSum t.energizedMs mean ∧ ((pageBody s 3 6).drop 1).take 10 =
        [1, byteOf (t.output.val + 1), idByte t.circuit, byteOf t.duration] ++
          twoBytes t.energizedMs ++ twoBytes mean ++ twoBytes t.peak) ∧
    (s.plant.ogd.test = none → ((pageBody s 3 6).drop 1).take 10 = List.replicate 10 0) ∧
    (∀ c : Fin 6, ((pageBody s 3 6).drop (11 + 5 * c.val)).take 5 =
      byteOf s.plant.ogd.trips[c].count :: fourBytes s.plant.ogd.trips[c].seconds) ∧
    (pageBody s 3 6).drop 41 = [levelByte s.plant.ogd.flow.level]
  channel : ∀ t : Fin 8, (pageBody s 4 (t.val / 4)).take 2 = twoBytes s.img.rate ∧
    ((pageBody s 4 (t.val / 4)).drop (2 + 11 * (t.val % 4))).take 11 =
      [byteOf (t.val + 1), yesNo (isEnabled s.img t), byteOf (qualityCode s.ssc.rows[t].quality)] ++
      tempBytes s.ssc.rows[t].value ++ tempBytes s.ssc.rows[t].lastGood ++
      tempBytes s.ssc.rows[t].suspect ++
      match s.ssc.rows[t].lastAt with
      | some time => twoBytes (min 65535 (s.now - time))
      | none => [255, 255]
  roster : (pageBody s 5 0).take 11 =
      [byteOf s.rst.settled.val] ++ addrSetBytes (heldSet s.rst.collecting) ++
      addrSetBytes (heldSet s.rst.settledBuf) ++
      [byteOf s.rst.silent, byteOf (lineCode s.rst.line)] ∧
    ∀ i : Fin 32, (pageBody s 5 0)[11 + i.val]? = some (
      if i.val + 1 = s.own then byteOf (16 + membershipCode s.rct.membership)
      else byteOf (peerCode s.rst.rows[i].status))
  peer : ∀ i : Fin 32, pageBody s 5 (i.val + 1) =
    [byteOf (i.val + 1),
      if i.val + 1 = s.own then byteOf (16 + membershipCode s.rct.membership)
      else byteOf (peerCode s.rst.rows[i].status),
      byteOf s.rst.rows[i].missCount, s.rst.rows[i].lastRound.getD 0,
      yesNo s.rst.rows[i].lastRound.isSome, yesNo s.rst.rows[i].returnMark,
      yesNo s.rst.rows[i].lastBid.isSome] ++
    match s.rst.rows[i].lastBid with
    | none => []
    | some b =>
      [yesNo b.member,
        match b.flow with
        | .noReport => 0
        | .flow => 1
        | .stop => 2,
        yesNo b.alarm, b.round, byteOf b.opener] ++
      twoBytes b.digest.toNat ++ twoBytes b.load ++ [byteOf b.records.length] ++
      b.records.flatMap fun r =>
        [byteOf r.circuit, byteOf (classRank r.cls), BitVec.ofInt 8 r.margin, byteOf r.need]
  allotment : pageBody s 6 0 =
    [byteOf (kindCode s.plant.alu.kind), yesNo s.plant.alu.round.isSome,
      s.plant.alu.round.getD 0, byteOf (capCode s.plant.alu.cap)] ++
    (match s.plant.alu.cap with
      | some (.declared n) => twoBytes n
      | _ => [255, 255]) ++
    twoBytes s.plant.alu.own ++ (sixIds.map fun c => byteOf s.plant.cct[c].grant) ++
    (match s.plant.alu.deduction with
      | some (o, load) => [byteOf (o.val + 1), byteOf load]
      | none => [0, 0]) ++
    match s.plant.alu.division with
    | some d =>
      addrSetBytes d.heard ++ twoBytes d.poolTotal ++ twoBytes d.poolLeft ++
        [byteOf d.records.length]
    | none => List.replicate 9 0
  address : ∀ (d : Division) (i : Fin 32), s.plant.alu.division = some d →
    ((pageBody s 6 (1 + i.val / 6)).drop (8 * (i.val % 6))).take 8 =
      match d.entries.find? fun x => decide (x.addr = i.val + 1) with
      | some x =>
        [byteOf (i.val + 1), byteOf (classificationCode x.cls)] ++ twoBytes x.charge ++
          twoBytes x.base ++ twoBytes x.poolPart
      | none => [byteOf (i.val + 1), 255, 0, 0, 0, 0, 0, 0]
  record : ∀ (d : Division) (k : Nat) (r : RecEntry), s.plant.alu.division = some d →
    d.records[k]? = some r →
    ((pageBody s 6 (7 + k / 6)).drop (8 * (k % 6))).take 8 =
      [byteOf r.addr, byteOf r.circuit, byteOf (classRank r.cls), BitVec.ofInt 8 r.margin,
        byteOf r.need, byteOf r.basePart, byteOf r.poolPart, byteOf (r.basePart + r.poolPart)]
  totals : pageBody s 8 0 =
    twoBytes s.lck.totals.good ++ twoBytes s.lck.totals.crcFailures ++
    twoBytes s.lck.totals.rejected ++ twoBytes s.lck.totals.tool ++
    twoBytes s.lck.totals.outOfRange ++
    [yesNo s.lck.emission.running, byteOf s.lck.emission.count] ++
    twoBytes s.lck.emission.seed.toNat ++
    [byteOf s.lck.emission.nextIndex, byteOf s.lck.emission.passed, byteOf s.lck.emission.failed]
  quality : ∀ i : Fin 32,
    ((pageBody s 8 (1 + i.val / 3)).drop (15 * (i.val % 3))).take 15 =
      [byteOf (i.val + 1)] ++ twoBytes s.lck.rows[i].heard ++ twoBytes s.lck.rows[i].bids ++
      twoBytes s.lck.rows[i].bidsMissed ++ twoBytes s.lck.rows[i].testGood ++
      twoBytes s.lck.rows[i].testBad ++ twoBytes s.lck.rows[i].testMissed ++
      [byteOf (s.lck.rows[i].lastIndex.getD 255), yesNo s.lck.rows[i].latch]

/-- R49: the commands that bring a new allotment while rounds are followed: the adoption of a received OPEN,
of the round of a received BID or of the station's own OPEN, and an OPEN or BID of another opener that
degrades a COMPLETE round in MEMBER. -/
inductive Reallots (s : State) : Instr → Prop where
  | openNewer (f : OpenFrame) (i : Fin 32) (hr : canReceive s = true)
    (hf : s.rct.membership.follows = true) (ha : f.opener = i.val + 1)
    (hn : f.opener ≤ s.img.stations) (ho : f.opener ≠ s.own) (h : Newer s f.round) :
    Reallots s (.openReceived f)
  | bidNewer (b : BidFrame) (i : Fin 32) (hr : canReceive s = true)
    (hf : s.rct.membership.follows = true) (hw : b.wf = true) (ha : b.sender = i.val + 1)
    (hn : b.sender ≤ s.img.stations) (hb : b.opener ≤ s.img.stations) (ho : b.sender ≠ s.own)
    (h : Newer s b.round) : Reallots s (.bidReceived b)
  | ownOpen (f : OpenFrame) (hf : s.rct.membership.bids = true) (h : s.lif.openSlot = .sending f) :
    Reallots s (.openCheckEnd true)
  | openConflict (f : OpenFrame) (i : Fin 32) (hr : canReceive s = true)
    (hm : s.rct.membership = .member) (hd : s.rct.degraded = false) (ha : f.opener = i.val + 1)
    (hn : f.opener ≤ s.img.stations) (ho : f.opener ≠ s.own) (h : s.rct.round = some f.round)
    (hc : s.rct.opener ≠ some f.opener) : Reallots s (.openReceived f)
  | bidConflict (b : BidFrame) (i : Fin 32) (hr : canReceive s = true)
    (hm : s.rct.membership = .member) (hd : s.rct.degraded = false) (hw : b.wf = true)
    (ha : b.sender = i.val + 1) (hn : b.sender ≤ s.img.stations) (hb : b.opener ≤ s.img.stations)
    (h : s.rct.round = some b.round) (hc : s.rct.opener ≠ some b.opener) :
    Reallots s (.bidReceived b)

/-- The command that ends the own-frame check of the frame in SENDING (R146). -/
def ownCheckEnd (l : Lif) (equal : Bool) : Instr :=
  if l.openSlot.isSending then .openCheckEnd equal
  else if l.bidSlot.isSending then .bidCheckEnd equal
  else if l.replySlot.isSending then .replyCheckEnd equal
  else .testCheckEnd equal

end Sys2Proof.Machine
end

