-- ==== Sys2Proof/Certificates/Slice0/Obligations.lean ====
section
/-! DEFINITION. The claims about the station, each a rule of the spec or what follows from its rules.
Claims that rest on a choice of the model name its log entry. -/

section
open Sys2Proof Sys2Proof.Machine

/-! ### The step, reset, start-up -/

/-- A step takes the command at the front of the queue and runs it with the queue's rest (log entry 1).
-/
def Obligations.StepTakesFrontCommand : Prop :=
  ∀ (c : Instr) (rest : List Instr) (s : State),
    s.pending = c :: rest → step s = exec c { s with pending := rest }

/-- With no command waiting, the first event that the part's own timebase has made due is put into the
queue, and the events that are due are those of `Due`, no more and no fewer; or one millisecond passes
and every running timer counts it: the wait of the start-up read, the round and listen timers, the
windows, the conversion, the hold-offs, the glitch filters and the idle time of the line (log entry 2).
R119: the measured load of an output that is on is the mean over the last 100 ms of its energized
period, or over the whole period while it has lasted less (log entries 10 and 12); the samples kept are
those of that time right after reset and after every step. R119, R129: energized time is added up in
milliseconds in the health record, the trip record of the circuit and the test record, and the load of
the test is summed; an output that is off keeps its health record and its measured load. -/
def Obligations.IdleStepsLetTimePass : Prop :=
  (∀ (s : State) (x : Instr), x ∈ dueEvents s ↔ Due s x) ∧
  (∀ s : State, s.pending = [] →
     (∀ c l, dueEvents s = c :: l → step s = .next { s with pending := [c] }) ∧
     (dueEvents s = [] → ∃ t, step s = .next t ∧
       t.now = s.now + 1 ∧ t.pending = [] ∧ t.pins = s.pins ∧
       t.sul = { s.sul with progress :=
         match s.sul.progress with
         | .reading k a w => .reading k a (w.map (· - 1))
         | .idle => .idle
         | .done => .done } ∧
       t.rct = { s.rct with
         roundTimer := s.rct.roundTimer.map (· - 1), listenTimer := s.rct.listenTimer.map (· - 1) } ∧
       t.lif = { s.lif with idle := s.lif.idle.map (· + 1) } ∧
       t.ssc = { s.ssc with conv := s.ssc.conv.map fun x => (x.1, x.2 - 1) } ∧
       t.rst = s.rst ∧ t.lck = s.lck ∧ t.srv = s.srv ∧
       t.plant.alu = s.plant.alu ∧ t.plant.fct = s.plant.fct ∧ t.plant.free = s.plant.free ∧
       (∀ c : Fin 6, t.plant.cct[c] =
         { s.plant.cct[c] with toNext := s.plant.cct[c].toNext.map (· - 1) }) ∧
       t.plant.ogd.flow = { s.plant.ogd.flow with held := s.plant.ogd.flow.held.map (· + 1) } ∧
       t.plant.ogd.test = (s.plant.ogd.test.map fun r =>
         if s.plant.ogd.outputs[r.output].energized then
           { r with
             energizedMs := r.energizedMs + 1, loadSum := r.loadSum + min 4000 s.pins.load[r.output] }
         else r) ∧
       ∀ o : Fin 6, t.plant.ogd.outputs[o].role = s.plant.ogd.outputs[o].role ∧
         t.plant.ogd.outputs[o].rated = s.plant.ogd.outputs[o].rated ∧
         t.plant.ogd.outputs[o].energized = s.plant.ogd.outputs[o].energized ∧
         t.plant.ogd.outputs[o].openCount = s.plant.ogd.outputs[o].openCount ∧
         t.plant.ogd.outputs[o].leakage = { s.plant.ogd.outputs[o].leakage with
           held := s.plant.ogd.outputs[o].leakage.held.map (· + 1) } ∧
         t.plant.ogd.outputs[o].limit = { s.plant.ogd.outputs[o].limit with
           held := s.plant.ogd.outputs[o].limit.held.map (· + 1) } ∧
         t.plant.ogd.outputs[o].holdOff = s.plant.ogd.outputs[o].holdOff.map (· - 1))) ∧
  (∀ (s : State) (o : Fin 6), s.pending = [] → dueEvents s = [] →
     s.plant.ogd.outputs[o].health.remainder < 1000 →
     s.plant.ogd.outputs[o].health.seconds < 4294967295 →
     ∃ t, step s = .next t ∧
       (s.plant.ogd.outputs[o].energized = true →
         LoadMeasured s.pins.load[o] s.plant.ogd.outputs[o] t.plant.ogd.outputs[o] ∧
         t.plant.ogd.outputs[o].health.remainder < 1000 ∧
         t.plant.ogd.outputs[o].health.seconds * 1000 + t.plant.ogd.outputs[o].health.remainder =
           s.plant.ogd.outputs[o].health.seconds * 1000 + s.plant.ogd.outputs[o].health.remainder +
             1) ∧
       (s.plant.ogd.outputs[o].energized = false →
         t.plant.ogd.outputs[o].health = s.plant.ogd.outputs[o].health ∧
         t.plant.ogd.outputs[o].measured = s.plant.ogd.outputs[o].measured)) ∧
  (PeriodsKept State.reset ∧ ∀ s t : State, PeriodsKept s → step s = .next t → PeriodsKept t) ∧
  ∀ (s : State) (c : Fin 6), s.pending = [] → dueEvents s = [] →
    s.plant.ogd.trips[c].remainder < 1000 → s.plant.ogd.trips[c].seconds < 4294967295 →
    ∃ t, step s = .next t ∧
      (∀ o, s.plant.ogd.boundTo c = some o → s.plant.ogd.outputs[o].energized = true →
        t.plant.ogd.trips[c].count = s.plant.ogd.trips[c].count ∧
        t.plant.ogd.trips[c].remainder < 1000 ∧
        t.plant.ogd.trips[c].seconds * 1000 + t.plant.ogd.trips[c].remainder =
          s.plant.ogd.trips[c].seconds * 1000 + s.plant.ogd.trips[c].remainder + 1) ∧
      ((∀ o, s.plant.ogd.boundTo c = some o → s.plant.ogd.outputs[o].energized = false) →
        t.plant.ogd.trips[c] = s.plant.ogd.trips[c])

/-- Right after reset every item of every block has the value its table gives (R2, R28, R34, R39, R46,
R68, R69, R99, R111, R147, R150, R154, R160, R176, R185, R187). The levels on the pins, the rank before
the straps are read and the time are the model's (log entries 8 and 9). -/
def Obligations.ResetLeavesTableValues : Prop :=
  State.reset.sul = ⟨0, .idle, [], false, none, none⟩ ∧
  State.reset.rct = ⟨.start, none, none, false, none, none, 0, none, none⟩ ∧
  (∀ i : Fin 32, State.reset.rst.rows[i] = ⟨.unknown, 0, none, none, false⟩) ∧
  (∀ i : Fin 32, State.reset.rst.buf0[i] = none ∧ State.reset.rst.buf1[i] = none) ∧
  State.reset.rst.settled = 1 ∧ State.reset.rst.silent = 0 ∧ State.reset.rst.line = .standstill ∧
  State.reset.plant.alu = ⟨.noAllot, none, none, 0, none, none⟩ ∧
  (∀ c : Fin 6, State.reset.plant.cct[c] =
    ⟨.disabled, .stopped, none, .noSource, none, 0, none, none, 0, 0, 0, none⟩) ∧
  (∀ t : Fin 8, State.reset.ssc.rows[t] = ⟨.noReading, none, none, none, none⟩) ∧
  State.reset.ssc.conv = none ∧
  (∀ o : Fin 6, State.reset.plant.ogd.outputs[o] =
    ⟨.unused, 0, false, ⟨none, none⟩, ⟨none, none⟩, 0, 0, none, ⟨0, 0, 0, 0, none, none, 0⟩, 0, 0,
      []⟩) ∧
  (∀ c : Fin 6, State.reset.plant.ogd.trips[c] = ⟨0, 0, 0⟩) ∧
  State.reset.plant.ogd.flow.level = none ∧ State.reset.plant.ogd.test = none ∧
  State.reset.lif = ⟨.off, [], none, .empty, .empty, .empty, .empty, 0, 0⟩ ∧
  (∀ i : Fin 32, State.reset.lck.rows[i] = ⟨0, 0, 0, 0, 0, 0, none, false⟩) ∧
  State.reset.lck.totals = ⟨0, 0, 0, 0, 0⟩ ∧ State.reset.lck.emission = ⟨false, 0, 0, 0, 0, 0⟩ ∧
  State.reset.srv.restartPending = false ∧ State.reset.plant.fct = ⟨0, 0⟩ ∧
  State.reset.pending = []

/-- R185: pin reset turns every output off, releases ALARM and the line, empties the BAD set, and gives
every item of every block its pin-reset value, whatever the station was doing. R186: the release of a
held RESETN reads the straps, the address is the strap value plus one, and the first attempt of transfer
1 begins. Without a held RESETN a release changes nothing (log entry 5). -/
def Obligations.ResetPinResetsAndReleases : Prop :=
  (∀ s : State, ∃ t, exec .pinReset s = .next t ∧
     (∀ o : Fin 6, t.plant.ogd.outputs[o] = .reset) ∧ t.alarm = false ∧ t.lif = .reset ∧
     t.sul.progress = .idle ∧ t.sul.digest = none ∧ t.sul.copy = [] ∧ t.sul.sharedGood = false ∧
     t.sul.judgement = none ∧ t.rct = .reset ∧ t.rst = .reset ∧
     t.plant.cct = Vector.replicate 6 .reset ∧ t.plant.ogd = .reset ∧ t.plant.alu = .reset ∧
     t.plant.fct = ⟨0, 0⟩ ∧ t.ssc = .reset ∧ t.lck = .reset ∧ t.srv.restartPending = false ∧
     t.pins.resetnHeld = true ∧ t.pending = s.pending) ∧
  ∀ (straps : BitVec 5) (s : State),
    (s.pins.resetnHeld = true → ∃ t, exec (.resetnRelease straps) s = .next t ∧
      t.own = straps.toNat + 1 ∧ t.sul.progress = .reading 1 1 none ∧ t.sul.copy = [] ∧
      t.sul.judgement = none ∧ t.sul.digest = none ∧ t.sul.sharedGood = false ∧
      t = { s with
        pins := { s.pins with resetnHeld := false, straps := straps }, sul := t.sul }) ∧
    (s.pins.resetnHeld = false → exec (.resetnRelease straps) s = .next s)

/-- R187: a successful attempt of transfer 1, with the format byte 1 and the length 116, and of
transfers 2 to 4 stores its bytes and begins the next transfer. A failed attempt below the third waits 5
ms for the next attempt of the same transfer, which the end of a wait begins, however much of it is left
when its expiry is taken (log entry 3). -/
def Obligations.TransferAttemptsProceed : Prop :=
  (∀ (k a : Nat) (bytes : List Byte) (s : State), s.sul.progress = .reading k a none →
     (k = 1 ∧ s.sul.copy = [] ∧ bytes = [1, 0, 116] ∨
       2 ≤ k ∧ k ≤ 4 ∧ bytes.length = 32) →
     exec (.transferAttemptEnd (.success bytes)) s =
       .next { s with
         sul := { s.sul with copy := s.sul.copy ++ bytes, progress := .reading (k + 1) 1 none } }) ∧
  (∀ (k a : Nat) (s : State), s.sul.progress = .reading k a none → a < 3 →
     ∀ i ∈ [Instr.transferAttemptEnd .busHeld, .transferAttemptEnd .noAcknowledge, .clockHoldTimeout],
       exec i s = .next { s with sul := { s.sul with progress := .reading k (a + 1) (some 5) } }) ∧
  ∀ (k a w : Nat) (s : State), s.sul.progress = .reading k a (some w) →
    exec .attemptRetryDelayExpiry s =
      .next { s with sul := { s.sul with progress := .reading k a none } }

/-- R187, R192: a third failed attempt, and a header of another format or length, end the read with the
image BAD: the station enters BLOCKED, raises CONFIG_BAD, grants nothing and listens to the line. -/
def Obligations.UnreadableImageBlocks : Prop :=
  ∀ (i : Instr) (k : Nat) (s : State), AtStart s →
    ((s.sul.progress = .reading k 3 none ∧
        i ∈ [Instr.transferAttemptEnd .busHeld, .transferAttemptEnd .noAcknowledge,
          .clockHoldTimeout]) ∨
      (∃ a x y z, s.sul.progress = .reading 1 a none ∧ s.sul.copy = [] ∧
        [x, y, z] ≠ ([1, 0, 116] : List Byte) ∧ i = .transferAttemptEnd (.success [x, y, z]))) →
    ∃ t, exec i s = .next t ∧
      t = { s with sul := t.sul, rct := t.rct, plant := t.plant, lif := t.lif } ∧
      t.sul.judgement = some .bad ∧ t.sul.progress = .done ∧
      t.rct = { s.rct with membership := .blocked } ∧ Held t .configBad ∧
      t.plant.alu = ⟨.noAllot, none, none, 0, none, none⟩ ∧
      (∀ c : Fin 6, t.plant.cct[c].grant = 0 ∧ t.plant.cct[c].state = .disabled) ∧
      t.lif = { s.lif with receiver := .hunting, buffer := [], idle := some 0 }

/-- R188, R189: the fields are read from their offsets, and an image passes exactly where the format,
the length and the checksum are right, the shared section with its reserves lies in its ranges, the
local section lies in its ranges and its cross checks hold, and the strap address is at most N; stages 1
to 4 alone make the shared section good. R189 to R191: after transfer 5 a GOOD image takes the station
into LISTEN with the image's mask, a CAPPED allotment of its share, the listen timer and the scan
started; a BAD one takes it into BLOCKED. The digest is held where the shared section is good. R113 to
R115: the load of a GOOD image takes its known-bad list into the BAD set, and no further output, gives
every output its rated load, its role and its filtered levels, and binds the spares in ascending order
to the configured circuits whose primary is BAD, in ascending order; a circuit left without one raises
CIRCUIT_FAILED and SPARE_EXHAUSTED. R71, R80, R87: every configured circuit then enters SETTLING,
INHIBITED where the limit of its output is open, or FAILED where it has no output; the others stay
DISABLED, and the windows start at their offsets. R59, R63: the grants are the local spread of the share
over the needs that the circuits then have. -/
def Obligations.ImageIsJudgedAndLoaded : Prop :=
  (∀ (l : List Byte) (rank : Fin 32), ImageFields l (readImage l) ∧
     (sharedPasses l = true ↔ SharedStages l (readImage l)) ∧
     (sharedPasses l = true → sharedOk (readImage l) = true) ∧
     (imagePasses l rank = true ↔ SharedStages l (readImage l) ∧ LocalStage (readImage l) ∧
       rank.val + 1 ≤ (readImage l).stations)) ∧
  (∀ (m : Image) (c : Fin 6) (t : Fin 8),
     (isConfigured m c = true ↔ m.circuits[c].configured = 1) ∧
     isEnabled m t = m.channels.getLsbD t.val) ∧
  (∀ (a : Nat) (bytes : List Byte) (s : State), AtStart s → s.sul.progress = .reading 5 a none →
     bytes.length = 17 →
     ∃ t, exec (.transferAttemptEnd (.success bytes)) s = .next t ∧
       t = { s with sul := t.sul, rct := t.rct, plant := t.plant, ssc := t.ssc, lif := t.lif } ∧
       t.sul.copy = s.sul.copy ++ bytes ∧ t.sul.progress = .done ∧
       t.sul.sharedGood = sharedPasses t.sul.copy ∧
       (sharedPasses t.sul.copy = true →
         t.sul.digest = some (crc16 ((t.sul.copy.drop 3).take 15))) ∧
       (sharedPasses t.sul.copy = false → t.sul.digest = none) ∧
       t.lif = { s.lif with receiver := .hunting, buffer := [], idle := some 0 } ∧
       (imagePasses t.sul.copy s.sul.rank = true →
         t.sul.judgement = some .good ∧ t.rct.membership = .listen ∧
         t.rct.listenTimer = some (2 * (t.img.period * 1000) + 1280) ∧
         t.plant.fct.mask = t.img.mask ∧ t.plant.alu.kind = .capped ∧
         t.plant.alu.own = shareOf t.img t.own ∧
         t.ssc.conv = (firstChannel t.img).map fun ch => (ch, 80)) ∧
       (imagePasses t.sul.copy s.sul.rank = false →
         t.sul.judgement = some .bad ∧ t.rct.membership = .blocked ∧ Held t .configBad ∧
         t.plant.alu.kind = .noAllot ∧ t.plant.alu.own = 0)) ∧
  ∀ (a : Nat) (bytes : List Byte) (s : State), AtStart s → s.sul.progress = .reading 5 a none →
    bytes.length = 17 → imagePasses (s.sul.copy ++ bytes) s.sul.rank = true →
    ∃ t, exec (.transferAttemptEnd (.success bytes)) s = .next t ∧
      (∀ o : Fin 6, t.plant.ogd.outputs[o].rated = t.img.outputs[o].2 ∧
        (t.plant.ogd.outputs[o].role = .bad ↔
          s.plant.ogd.outputs[o].role = .bad ∨ t.img.knownBad.getLsbD o.val = true) ∧
        (t.plant.ogd.outputs[o].role ≠ .bad →
          (t.img.outputs[o].1 = 0 → t.plant.ogd.outputs[o].role = .unused) ∧
          ∀ c : Fin 6, t.plant.ogd.outputs[o].role = .primary c ↔
            isConfigured t.img c = true ∧ t.img.circuits[c].primary = o.val + 1) ∧
        t.plant.ogd.outputs[o].leakage =
          ⟨some (decide (t.img.leakThreshold ≤ s.pins.leakage[o])), none⟩ ∧
        t.plant.ogd.outputs[o].limit = ⟨some s.pins.limitOpen[o], none⟩) ∧
      t.plant.ogd.flow = ⟨if t.img.flowWired = 1 then some s.pins.flow else none, none⟩ ∧
      (let spares := sixIds.filter fun o =>
         decide (t.img.outputs[o].1 = 2 ∧ t.plant.ogd.outputs[o].role ≠ .bad)
       let lost := sixIds.filter fun c => isConfigured t.img c &&
         sixIds.any fun o =>
           decide (t.img.circuits[c].primary = o.val + 1 ∧ t.plant.ogd.outputs[o].role = .bad)
       (∀ (n : Nat) (o : Fin 6), spares[n]? = some o → t.plant.ogd.outputs[o].role =
         match lost[n]? with
         | some c => .spareBound c
         | none => .spareFree) ∧
       (spares.length < lost.length → Held t .circuitFailed ∧ Held t .spareExhausted)) ∧
      SpreadOf t.plant (shareOf t.img t.own) (grantsInForce t.plant) ∧
      ∀ c : Fin 6, t.plant.cct[c].onTime = 0 ∧
        t.plant.cct[c].toNext = some (c.val * (t.img.window * 1000) / 6) ∧
        (isConfigured t.img c = false → t.plant.cct[c].state = .disabled) ∧
        (isConfigured t.img c = true →
          (∀ o, t.plant.ogd.boundTo c = some o → s.pins.limitOpen[o] = false →
            t.plant.cct[c].state = .settling ∧ t.plant.cct[c].settle = .running 0 ∧
            t.plant.cct[c].cls = some .p1 ∧
            t.plant.cct[c].need = min t.img.circuits[c].fallback t.img.outputs[o].2) ∧
          (∀ o, t.plant.ogd.boundTo c = some o → s.pins.limitOpen[o] = true →
            t.plant.cct[c].state = .inhibited ∧ t.plant.cct[c].settle = .stopped ∧
            t.plant.cct[c].need = 0) ∧
          (t.plant.ogd.boundTo c = none →
            t.plant.cct[c].state = .failed ∧ t.plant.cct[c].need = 0))

/-! ### Rounds -/

/-- R3, R19: the round timer's expiry in JOINING and MEMBER, and the listen timer's in LISTEN, place the
station's own OPEN; a round timer that expires in LISTEN only stops. What the claims read of a station
as it stands is that of `StationTerms`. -/
def Obligations.TimersPlaceOwnOpen : Prop :=
  StationTerms ∧
  ∀ s : State,
    (s.rct.roundTimer.isSome → s.rct.membership.bids = true → s.lif.openSlot = .empty →
      exec .roundTimerExpiry s = .next { s with
        rct := { s.rct with roundTimer := none },
        lif := { s.lif with openSlot := .pending (), openFailures := 0 } }) ∧
    (s.rct.roundTimer.isSome → s.rct.membership = .listen →
      exec .roundTimerExpiry s = .next { s with rct := { s.rct with roundTimer := none } }) ∧
    (s.rct.listenTimer.isSome → s.rct.membership = .listen → s.lif.openSlot = .empty →
      exec .listenTimerExpiry s = .next { s with
        rct := { s.rct with listenTimer := none, membership := .joining },
        lif := { s.lif with openSlot := .pending (), openFailures := 0 } })

/-- R6, R9, R18, R20, R23: an OPEN of a newer round is adopted: its round and opener are taken, the
declared need moves, the timers restart, an adoption in LISTEN is counted, the membership follows, a bid
is placed in JOINING and MEMBER and a waiting own OPEN is discarded; DEGRADED without a test where no
round was held or one was skipped. -/
def Obligations.NewerOpenIsAdopted : Prop :=
  ∀ (f : OpenFrame) (i : Fin 32) (s : State), canReceive s = true →
    s.rct.membership.follows = true → f.opener = i.val + 1 → f.opener ≤ s.img.stations →
    f.opener ≠ s.own → Newer s f.round →
    ∃ t, exec (.openReceived f) s = .next t ∧ SamePeriphery s t ∧
      Adopted (some f.heard) f.round f.opener s t ∧
      (∀ c, s.rct.round = some c → 2 ≤ (f.round - c).toNat → t.rct.degraded = true) ∧
      (s.rct.round = none → t.rct.degraded = true)

/-- R41: an OPEN newer by one gives COMPLETE exactly where the station is MEMBER after step 1, the OPEN
carries its digest, and every address of the heard set has its bid in the new settled buffer with that
digest. -/
def Obligations.CompletenessTest : Prop :=
  ∀ (f : OpenFrame) (i : Fin 32) (c : RoundNo) (s : State), canReceive s = true →
    s.rct.membership.follows = true → f.opener = i.val + 1 → f.opener ≤ s.img.stations →
    f.opener ≠ s.own → s.rct.round = some c → f.round = c + 1 →
    ∃ t, exec (.openReceived f) s = .next t ∧
      (t.rct.degraded = false ↔
        t.rct.membership = .member ∧ s.sul.digest = some f.digest ∧
        ∀ a : Fin 32, inSet f.heard (a.val + 1) = true →
          ∃ b, s.rst.collecting[a] = some b ∧ s.sul.digest = some b.digest)

/-- R28, R29, R34 to R39: at the swap of an adopted OPEN the collecting buffer becomes the settled one
and a new one is empty; each peer's row follows the settled bid, or its absence, and the own row takes
its last bid; the silent-round count follows. R36, R39, R44, R183: PEER_LOST, ISOLATED, MISMATCH and
PEER_ALARM are raised exactly where their conditions hold. R43: a bid that the opener heard and the
station did not is counted as missed, where the round is newer by one; that an OPEN newer by more than
one counts none is the model's choice (log entry 38). R45: the line state follows from the reports used.
R49 to R64, R92: the allotment of the new round is computed, by the division and the spread that
ChargesBasesAndPoolSumToShares and GrantsStayWithinNeedAndAllotment state, and with no test in progress
every circuit holds its grant of it and its starved count follows. -/
def Obligations.SwapSettlesTheRound : Prop :=
  ∀ (f : OpenFrame) (i : Fin 32) (s : State), canReceive s = true →
    s.rct.membership.follows = true → f.opener = i.val + 1 → f.opener ≤ s.img.stations →
    f.opener ≠ s.own → Newer s f.round →
    ∃ t, exec (.openReceived f) s = .next t ∧
      SwapSettles (some f.heard) [f.digest] f.round t.rst.rows s t ∧
      (∀ a : Fin 32, t.rst.collecting[a] = none) ∧
      ∀ a : Fin 32, t.lck.rows[a] =
        { (afterStation i false s).lck.rows[a] with
          bidsMissed :=
            if s.rct.round.map (· + 1) = some f.round ∧ inSet f.heard (a.val + 1) = true ∧
              a.val + 1 ≠ s.own ∧ s.rst.collecting[a] = none then
              min 65535 (s.lck.rows[a].bidsMissed + 1)
            else s.lck.rows[a].bidsMissed }

/-- R9, R10: an OPEN of an older round, of the current round and opener, from outside 1…N, under the
station's own address, or met in a membership that follows no rounds, is only counted. -/
def Obligations.OtherOpensAreIgnored : Prop :=
  ∀ (f : OpenFrame) (i : Fin 32) (s : State), canReceive s = true → f.opener = i.val + 1 →
    (s.rct.membership.follows = false ∨ s.img.stations < f.opener ∨ f.opener = s.own ∨
      ∃ c, s.rct.round = some c ∧
        (128 ≤ (f.round - c).toNat ∨ f.round = c ∧ s.rct.opener = some f.opener)) →
    exec (.openReceived f) s = .next (afterStation i false s)

/-- R14, R15: an OPEN or BID of the current round with another opener raises OPEN_CONFLICT and makes the
round DEGRADED, keeping the round, the adopted opener and the bids. A MEMBER whose round was COMPLETE
raises DEGRADED and takes the degraded cap; a round DEGRADED before keeps its allotment. R62: the cap is
spread over the circuits: with no test in progress every circuit holds its grant of it, and its starved
count stays (R92). -/
def Obligations.ConflictDegradesTheRound : Prop :=
  ∀ (x : Instr) (i : Fin 32) (s : State), canReceive s = true →
    s.rct.membership.follows = true → i.val + 1 ≤ s.img.stations →
    ((∃ f : OpenFrame, x = .openReceived f ∧ f.opener = i.val + 1 ∧ f.opener ≠ s.own ∧
        s.rct.round = some f.round ∧ s.rct.opener ≠ some f.opener) ∨
      (∃ b : BidFrame, x = .bidReceived b ∧ b.wf = true ∧ b.sender = i.val + 1 ∧
        b.opener ≤ s.img.stations ∧ s.rct.round = some b.round ∧
        s.rct.opener ≠ some b.opener)) →
    ∃ t, exec x s = .next t ∧ SamePeriphery s t ∧ t.rst = s.rst ∧
      t.rct = { s.rct with degraded := true } ∧ Held t .openConflict ∧
      (s.rct.degraded = true →
        t.plant = s.plant.raise .openConflict) ∧
      (s.rct.degraded = false → s.rct.membership = .member →
        Held t .degraded ∧ t.plant.alu.kind = .degraded ∧ t.plant.alu.division = none ∧
        t.plant.alu.round = s.plant.alu.round ∧
        t.plant.alu.own =
          (match s.rct.declaredClosed with
            | none => s.env.share s.own
            | some n => min (s.env.share s.own) n) ∧
        (s.plant.ogd.test = none → GrantsFound s t ∧
          ∀ c : Fin 6, t.plant.cct[c].starved = s.plant.cct[c].starved))

/-- R11, R12: a BID of a newer round is late-adopted: every step of R6 is taken with the bid's round and
opener, the verdict is DEGRADED, and the swap settles the closed round as that of an OPEN does, with no
heard set: the bids' reports are all used, no missed bid is counted, and a MEMBER takes the degraded cap
of its declared need (R61). R30, R33: the bid is then offered to the Roster, where it is the first of
the new collecting buffer; a foreign digest raises MISMATCH, and the row of a RETIRED sender takes its
return mark. R31: a BID under the station's own address is late-adopted too; it is then discarded, with
DUPLICATE_BID raised. -/
def Obligations.NewerBidIsLateAdopted : Prop :=
  ∀ (b : BidFrame) (i : Fin 32) (s : State), canReceive s = true →
    s.rct.membership.follows = true → b.wf = true → b.sender = i.val + 1 →
    b.sender ≤ s.img.stations → b.opener ≤ s.img.stations → Newer s b.round →
    ∃ t rows, exec (.bidReceived b) s = .next t ∧ SamePeriphery s t ∧
      Adopted none b.round b.opener s t ∧ t.rct.degraded = true ∧
      SwapSettles none (if b.sender = s.own then [] else [b.digest]) b.round rows s t ∧
      t.lck = (afterStation i true s).lck ∧
      (b.sender ≠ s.own →
        (∀ a : Fin 32, t.rst.collecting[a] = if a = i then some b else none) ∧
        ∀ a : Fin 32, t.rst.rows[a] =
          if a = i ∧ rows[a].status = .retired then { rows[a] with returnMark := true }
          else rows[a]) ∧
      (b.sender = s.own →
        (∀ a : Fin 32, t.rst.collecting[a] = none) ∧ t.rst.rows = rows ∧ Held t .duplicateBid)

/-- R30, R33: the first bid of a sender for the current round and opener enters the collecting buffer; a
foreign digest raises MISMATCH and the row of a RETIRED sender takes its return mark. -/
def Obligations.FirstBidIsCollected : Prop :=
  ∀ (b : BidFrame) (i : Fin 32) (s : State), canReceive s = true →
    s.rct.membership.follows = true → b.wf = true → b.sender = i.val + 1 →
    b.sender ≤ s.img.stations → b.opener ≤ s.img.stations → b.sender ≠ s.own →
    s.rct.round = some b.round → s.rct.opener = some b.opener → s.rst.collecting[i] = none →
    ∃ t, exec (.bidReceived b) s = .next t ∧ SamePeriphery s t ∧ t.rct = s.rct ∧
      (∀ a : Fin 32, t.rst.collecting[a] = if a = i then some b else s.rst.collecting[a]) ∧
      t.rst.settledBuf = s.rst.settledBuf ∧ t.rst.silent = s.rst.silent ∧
      t.rst.line = s.rst.line ∧
      (∀ a : Fin 32, t.rst.rows[a] =
        if a = i ∧ s.rst.rows[a].status = .retired then { s.rst.rows[a] with returnMark := true }
        else s.rst.rows[a]) ∧
      t.plant = (if s.sul.digest = some b.digest then s.plant else s.plant.raise .mismatch) ∧
      t.lif = (afterStation i true s).lif ∧ t.lck = (afterStation i true s).lck

/-- R11, R30, R31, R152: an older bid is discarded; a second bid of a sender and a bid under the
station's own address raise DUPLICATE_BID; a bid from outside 1…N, or that names such an opener, is
counted as out of range; where no rounds are followed a bid is only counted. The buffers and the peer
table stay. -/
def Obligations.OtherBidsAreDiscarded : Prop :=
  ∀ (b : BidFrame) (i : Fin 32) (s : State), canReceive s = true → b.wf = true →
    b.sender = i.val + 1 →
    (s.rct.membership.follows = false →
      exec (.bidReceived b) s = .next (afterStation i true s)) ∧
    (s.rct.membership.follows = true → b.sender ≤ s.img.stations → b.opener ≤ s.img.stations →
      (∀ c, s.rct.round = some c → 128 ≤ (b.round - c).toNat →
        exec (.bidReceived b) s = .next (afterStation i true s)) ∧
      (s.rct.round = some b.round → s.rct.opener = some b.opener →
        (b.sender = s.own ∨ (s.rst.collecting[i]).isSome) →
        exec (.bidReceived b) s = .next ((afterStation i true s).raise .duplicateBid))) ∧
    (s.rct.membership.follows = true →
      (s.img.stations < b.sender ∨ s.img.stations < b.opener) →
      exec (.bidReceived b) s = .next { afterStation i true s with
        lck :=
          { (afterStation i true s).lck with
            totals :=
              { (afterStation i true s).lck.totals with
                outOfRange := min 65535 (s.lck.totals.outOfRange + 1) } } })

/-- R5, R42: the station's own OPEN that passes its check is adopted with itself as opener, every step
of R6 taken; the round is COMPLETE exactly where a round was held, the station is MEMBER after step 1
and no bid of the new settled buffer carries a foreign digest. The swap settles the closed round as that
of a received OPEN does: the peer rows, the silent count, the line state, the factors and the starved
counts follow, and the budget is divided over the heard set that it sent; a self-opened round counts no
missed bids (R43). R145, R146: one that fails its check raises TX_FAIL and waits again; at the third
failure it is given up and the round timer is started afresh. -/
def Obligations.OwnOpenCheckEnds : Prop :=
  (∀ (f : OpenFrame) (s : State), s.lif.openSlot = .sending f → s.rct.membership.bids = true →
     ∃ t, exec (.openCheckEnd true) s = .next t ∧ SamePeriphery s t ∧
       Adopted (some f.heard) f.round s.own s t ∧ t.lif.idle = some 0 ∧
       SwapSettles (some f.heard) [f.digest] f.round t.rst.rows s t ∧
       (∀ a : Fin 32, t.rst.collecting[a] = none) ∧ t.lck = s.lck ∧
       (t.rct.degraded = false ↔ s.rct.round.isSome ∧ t.rct.membership = .member ∧
         ∀ (a : Fin 32) (b : BidFrame), s.rst.collecting[a] = some b →
           s.sul.digest = some b.digest)) ∧
  ∀ (f : OpenFrame) (s : State), s.lif.openSlot = .sending f →
    (s.lif.openFailures < 2 → exec (.openCheckEnd false) s = .next { s with
      plant := s.plant.raise .txFail,
      lif :=
        { s.lif with
          openSlot := .pending (), openFailures := s.lif.openFailures + 1, idle := some 0 } }) ∧
    (2 ≤ s.lif.openFailures → exec (.openCheckEnd false) s = .next { s with
      plant := s.plant.raise .txFail,
      rct :=
        { s.rct with roundTimer := some (s.img.period * 1000 + s.sul.rank.val * 40) },
      lif := { s.lif with openSlot := .empty, openFailures := 0, idle := some 0 } })

/-- R26, R32, R146: the station's own bid that passes its check is collected under its own address and
its declared need is kept; one that fails raises TX_FAIL and nothing of it is kept. -/
def Obligations.OwnBidCheckEnds : Prop :=
  ∀ (b : BidFrame) (s : State), s.lif.bidSlot = .sending b → b.sender = s.own →
    (∃ t, exec (.bidCheckEnd true) s = .next t ∧
      t.rct = { s.rct with declaredCurrent := some (b.records.map DemandRecord.need).sum } ∧
      (∀ a : Fin 32,
        t.rst.collecting[a] = if a.val + 1 = s.own then some b else s.rst.collecting[a]) ∧
      t.rst.settledBuf = s.rst.settledBuf ∧ t.rst.rows = s.rst.rows ∧
      t = { s with
        rct := t.rct, rst := t.rst, lif := { s.lif with bidSlot := .empty, idle := some 0 } }) ∧
    exec (.bidCheckEnd false) s = .next { s with
      plant := s.plant.raise .txFail, lif := { s.lif with bidSlot := .empty, idle := some 0 } }

/-! ### The line -/

/-- R142: the deferences of the four classes, their order, and the 1 ms between ranks. R143: of the
waiting frames that of shortest deference contends; the deference of the contending slot is reached by
the idle time of a line on which no frame is in progress. -/
def Obligations.DeferenceClasses : Prop :=
  ∀ r : Fin 32,
    deference r.val .openSlot = 4 + r.val ∧ deference r.val .replySlot = 40 ∧
    deference r.val .bidSlot = 42 + r.val ∧ deference r.val .testSlot = 80 + r.val ∧
    (∀ q : Fin 32, deference r.val .openSlot < deference q.val .replySlot ∧
      deference r.val .replySlot < deference q.val .bidSlot ∧
      deference r.val .bidSlot < deference q.val .testSlot) ∧
    (∀ n ∈ [SlotName.openSlot, .bidSlot, .testSlot],
      deference (r.val + 1) n = deference r.val n + 1) ∧
    (∀ n : SlotName, 4 ≤ deference r.val n) ∧
    (∀ (l : Lif) (n : SlotName), contender l = some n ↔
      Waits l n ∧ ∀ m, Waits l m → deference r.val n ≤ deference r.val m) ∧
    ∀ (s : State) (n : SlotName), contender s.lif = some n →
      (deferenceDue s = true ↔ s.lif.sending = false ∧ s.lif.receiver ≠ .receiving ∧
        ∃ t, s.lif.idle = some t ∧ deference s.sul.rank.val n ≤ t)

/-- R143, R4, R24, R154: of the waiting frames the one of shortest deference takes the line, an OPEN
before a REPLY before a BID before a TEST, with its contents as they stand at that moment. R25: the
applied load of a BID is the least whole number of LU that covers the duty-weighted rated loads of the
circuits together with the rated load of an output under test. R4: the heard set of an OPEN is the
addresses whose bids are collected. While a frame of another talker or of the station itself is in
progress none takes it. -/
def Obligations.ShortestDeferenceTakesTheLine : Prop :=
  (∀ (b : BidBuffer) (a : Fin 32), inSet (heldSet b) (a.val + 1) = (b[a]).isSome) ∧
  (∀ s : State, (s.lif.sending = true ∨ s.lif.receiver = .receiving ∨ s.lif.idle = none) →
     exec .deferenceExpiry s = .next s) ∧
  ∀ s : State, s.lif.sending = false → s.lif.receiver ≠ .receiving → s.lif.idle.isSome →
    (s.lif.openSlot = .pending () → exec .deferenceExpiry s = .next { s with
      lif :=
        { s.lif with
          idle := none, checked := 0,
          openSlot := .sending ⟨s.own, (s.rct.round.map (· + 1)).getD 1,
            heldSet s.rst.collecting, s.sul.digest.getD 0⟩ } }) ∧
    (∀ f, s.lif.openSlot = .empty → s.lif.replySlot = .pending f →
      exec .deferenceExpiry s =
        .next { s with
          lif := { s.lif with idle := none, checked := 0, replySlot := .sending f } }) ∧
    (∀ p, s.lif.openSlot = .empty → s.lif.replySlot = .empty → s.lif.bidSlot = .pending p →
      ∃ b, exec .deferenceExpiry s =
          .next { s with
            lif := { s.lif with idle := none, checked := 0, bidSlot := .sending b } } ∧
        b.sender = s.own ∧ b.round = p.1 ∧ b.opener = p.2 ∧
        (b.member = true ↔ s.rct.membership = .member) ∧ b.alarm = s.plant.fct.summary ∧
        b.digest = s.sul.digest.getD 0 ∧
        (let w := s.img.window * 1000
         let drawn := (sixIds.map fun c => s.plant.ogd.ratedOf c * s.plant.cct[c].onTime).sum +
           (match s.plant.ogd.test with
            | some r => s.plant.ogd.outputs[r.output].rated
            | none => 0) * w
         0 < w → drawn ≤ b.load * w ∧ b.load * w < drawn + w) ∧
        b.records = demandRecords s.plant ∧
        b.flow =
          match s.plant.ogd.flow.level with
          | some true => .flow
          | some false => .stop
          | none => .noReport) ∧
    (s.lif.openSlot = .empty → s.lif.replySlot = .empty → s.lif.bidSlot = .empty →
      s.lif.testSlot = .pending () →
      exec .deferenceExpiry s = .next { s with
        lif :=
          { s.lif with
            idle := none, checked := 0,
            testSlot := .sending ⟨s.own, s.lck.emission.seed, byteOf s.lck.emission.nextIndex,
              testPayload s.lck.emission.seed (byteOf s.lck.emission.nextIndex).toNat⟩ } })

/-- R25: a demand record stands for every circuit in SETTLING, REGULATING or SENSOR-LOST with a need
above 0, and for no other; it carries the circuit's id, class, margin and need; records rise in circuit
id. -/
def Obligations.BidDeclaresEveryNeed : Prop :=
  ∀ p : Plant,
    (∀ (c : Fin 6) (r : DemandRecord), r ∈ demandRecords p ∧ r.circuit = c.val + 1 ↔
      ((p.cct[c].state = .settling ∨ p.cct[c].state = .regulating ∨
        p.cct[c].state = .sensorLost) ∧ 0 < p.cct[c].need) ∧
      r = ⟨c.val + 1, p.cct[c].cls.getD .p1, p.cct[c].margin.getD (-128), p.cct[c].need⟩) ∧
    (demandRecords p).Pairwise fun x y => x.circuit < y.circuit

/-- R134, R135, R139: the bytes of every well-formed frame are judged GOOD and give back that frame,
with every field at every value. R134, R135: the layout of each kind of frame, and the CRC that closes
it. R139: bytes are judged as a CRC failure exactly where their number, their length byte or their CRC
is wrong, and GOOD exactly where these and the kind, its length and its field conditions hold. -/
def Obligations.FrameBytesReadBack : Prop :=
  (∀ f : Frame, f.wf = true → judgeBytes (frameBytes f) = .good f) ∧
  CrcRule ∧ FrameLayouts ∧
  ∀ l : List Byte, (judgeBytes l = .crcFailed ↔ ¬BytesSound l) ∧
    ((∃ f, judgeBytes l = .good f) ↔ BytesSound l ∧ FieldsHold l)

/-- R133, R139, R151: a frame that fails its CRC, a broken frame and a frame gap are counted as CRC
failures, a frame that fails another check as rejected; nothing else of the station changes but its
receiver. R133, R143: the start bit of another talker stops the idle count, and begins a frame where a
hunting line had been idle for 2 ms; after a gap of more than 2 ms in a frame that frame is broken, and
the character begins the next. In a frame each character joins the ones before it; a bad stop bit, or a
length byte outside 8…64, breaks the frame, and the character that makes as many as the length byte says
ends it, to be judged from its bytes. A hunting receiver takes no character (log entry 6). R138: a
station that is sending, a receiver that is off and a hunting one on a line in use take no frame. R139,
R140: bytes that are judged GOOD are no bad frame; the frame they spell goes to the block that owns its
kind, as the command of that frame does (log entry 7). -/
def Obligations.BadFramesAreOnlyCounted : Prop :=
  (∀ s : State, (canReceive s = true ↔ s.lif.sending = false ∧
       (s.lif.receiver = .receiving ∨ s.lif.receiver = .hunting ∧ s.lif.idle.isSome)) ∧
     (canReceive s = false →
       ∀ (bytes : List Byte) (f : OpenFrame) (b : BidFrame) (t : TestFrame) (r : ReplyFrame)
         (d tag page : Byte) (args : List Byte) (q : Request),
       ∀ x ∈ [Instr.badFrameReceived bytes, .brokenFrame, .frameGapTimeout, .openReceived f,
         .bidReceived b, .testFrameReceived t, .replyFrameReceived r, .queryStation d tag page,
         .queryCircuits d tag page, .queryOutputs d tag page, .querySensors d tag page,
         .queryRoster d tag page, .queryAllotment d tag page, .queryFactors d tag page,
         .queryQuality d tag page, .clearFactors d tag args, .setMask d tag args,
         .testOutput d tag args, .linecheck d tag args, .retire d tag args, .restart d tag args,
         .clearQuality d tag args, .unknownRequest q], exec x s = .next s)) ∧
  (∀ (bytes : List Byte) (s : State), canReceive s = true →
     (judgeBytes bytes = .crcFailed → exec (.badFrameReceived bytes) s = .next { s with
       lif := { s.lif with receiver := .hunting, buffer := [], idle := some 0 },
       lck :=
         { s.lck with
           totals := { s.lck.totals with crcFailures := min 65535 (s.lck.totals.crcFailures + 1) } } }) ∧
     (judgeBytes bytes = .rejected → exec (.badFrameReceived bytes) s = .next { s with
       lif := { s.lif with receiver := .hunting, buffer := [], idle := some 0 },
       lck :=
         { s.lck with
           totals := { s.lck.totals with rejected := min 65535 (s.lck.totals.rejected + 1) } } }) ∧
     exec .brokenFrame s = .next { s with
       lif := { s.lif with receiver := .hunting, buffer := [], idle := some 0 },
       lck :=
         { s.lck with
           totals := { s.lck.totals with crcFailures := min 65535 (s.lck.totals.crcFailures + 1) } } } ∧
     exec .frameGapTimeout s = .next { s with
       lif :=
         { s.lif with
           receiver := .hunting, buffer := [],
           idle := some (
             match s.lif.receiver, s.lif.idle with
             | .receiving, some t => max 2 t
             | _, _ => 2) },
       lck :=
         { s.lck with
           totals := { s.lck.totals with crcFailures := min 65535 (s.lck.totals.crcFailures + 1) } } }) ∧
  (∀ (bytes : List Byte) (f : Frame) (s : State), canReceive s = true → judgeBytes bytes = .good f →
     exec (.badFrameReceived bytes) s = exec (frameCommand f) s) ∧
  (∀ (t : Nat) (s : State), s.lif.sending = false → s.lif.idle = some t →
     (s.lif.receiver = .hunting → exec (.rawInputChange .lineStart) s = .next { s with
       lif :=
         { s.lif with idle := none, receiver := if 2 ≤ t then .receiving else .hunting } }) ∧
     (s.lif.receiver = .receiving → t ≤ 2 → exec (.rawInputChange .lineStart) s =
       .next { s with lif := { s.lif with idle := none } }) ∧
     (s.lif.receiver = .receiving → 2 < t → exec (.rawInputChange .lineStart) s = .next { s with
       lif := { s.lif with receiver := .receiving, buffer := [], idle := none },
       lck :=
         { s.lck with
           totals :=
             { s.lck.totals with
               crcFailures := min 65535 (s.lck.totals.crcFailures + 1) } } })) ∧
  ∀ (c : LineChar) (s : State), s.lif.sending = false → s.lif.idle = none →
    (s.lif.receiver = .hunting → exec (.rawInputChange (.lineCharacter c)) s =
      .next { s with lif := { s.lif with idle := some 0 } }) ∧
    (s.lif.receiver = .receiving →
      let bytes := s.lif.buffer ++ [c.data]
      let length := byteAt bytes 1
      (c.stop = false ∨ bytes.length = 2 ∧ ¬(8 ≤ length ∧ length ≤ 64) →
        exec (.rawInputChange (.lineCharacter c)) s = exec .brokenFrame s) ∧
      (c.stop = true → (bytes.length = 1 ∨ 8 ≤ length ∧ length ≤ 64 ∧ bytes.length < length) →
        exec (.rawInputChange (.lineCharacter c)) s =
          .next { s with lif := { s.lif with buffer := bytes, idle := some 0 } }) ∧
      (c.stop = true → 8 ≤ length → length ≤ 64 → bytes.length = length →
        exec (.rawInputChange (.lineCharacter c)) s = exec (.badFrameReceived bytes) s))

/-- R140, R151, R156, R157: a REPLY of another station is only counted; a TEST frame is checked for the
indices missed before it and for its payload, and LINE_ERRORS is raised where its sender's error latch
goes from clear to set. An index of 255, which no station sends, is taken as any other (log entry 35).
R155: the payload of a seed and an index is made by the shift register. -/
def Obligations.TestFramesAreChecked : Prop :=
  (∀ (seed : Word16) (index : Nat), PayloadOf seed index (testPayload seed index)) ∧
  ∀ (i : Fin 32) (s : State), canReceive s = true →
    (∀ f : ReplyFrame, f.wf = true → f.source = i.val + 1 →
      exec (.replyFrameReceived f) s = .next (afterStation i false s)) ∧
    ∀ f : TestFrame, f.wf = true → f.sender = i.val + 1 →
      let r := s.lck.rows[i]
      let gap :=
        match r.lastIndex with
        | some l => if f.index.toNat = 0 then 0 else f.index.toNat - (l + 1)
        | none => 0
      let equal := decide (f.payload = testPayload f.seed f.index.toNat)
      let latch := r.latch || decide (0 < gap) || !equal
      exec (.testFrameReceived f) s = .next { afterStation i false s with
        lck :=
          { (afterStation i false s).lck with
            rows :=
              s.lck.rows.set i
                { r with
                  heard := min 65535 (r.heard + 1), testMissed := min 65535 (r.testMissed + gap),
                  testGood := if equal then min 65535 (r.testGood + 1) else r.testGood,
                  testBad := if equal then r.testBad else min 65535 (r.testBad + 1),
                  lastIndex := some f.index.toNat, latch := latch } },
        plant := if !r.latch && latch then s.plant.raise .lineErrors else s.plant }

/-- R146, R174: the REPLY slot empties at the end of its check, whatever its outcome; a pending restart is
then taken, which keeps the BAD set and the health records (R193): that of an output that is off as it
stands, and that of one that is on but for its last measured load, which is the mean of the period that
ends so (R119; log entry 28). R145: a character of the station's own frame that is read back otherwise
than it was sent, or without its stop bit, ends the check of that frame as failed; the last one read back
equal ends it as passed, and any other goes on to the next. The bytes are those of the frame in SENDING.
-/
def Obligations.ReplyCheckEnds : Prop :=
  (∀ s : State,
     (∀ f, s.lif.openSlot = .sending f → s.lineBytes = some (frameBytes (.openFrame f))) ∧
     (s.lif.openSlot.isSending = false →
       (∀ f, s.lif.bidSlot = .sending f → s.lineBytes = some (frameBytes (.bid f))) ∧
       (s.lif.bidSlot.isSending = false →
         (∀ f, s.lif.replySlot = .sending f → s.lineBytes = some (frameBytes (.reply f))) ∧
         (s.lif.replySlot.isSending = false →
           (∀ f, s.lif.testSlot = .sending f → s.lineBytes = some (frameBytes (.test f))) ∧
           (s.lif.testSlot.isSending = false → s.lineBytes = none))))) ∧
  (∀ (equal : Bool) (f : ReplyFrame) (s : State), s.lif.replySlot = .sending f →
     (s.srv.restartPending = false → exec (.replyCheckEnd equal) s = .next { s with
       plant := if equal then s.plant else s.plant.raise .txFail,
       lif := { s.lif with replySlot := .empty, idle := some 0 } }) ∧
     (s.srv.restartPending = true → ∃ t, exec (.replyCheckEnd equal) s = .next t ∧
       t.rct = .reset ∧ t.lif = .reset ∧ t.rst = .reset ∧ t.ssc = .reset ∧ t.lck = .reset ∧
       t.srv.restartPending = false ∧ t.plant.fct = ⟨0, 0⟩ ∧ t.plant.alu = .reset ∧
       t.plant.cct = Vector.replicate 6 .reset ∧ t.plant.ogd.trips = Vector.replicate 6 .reset ∧
       t.plant.ogd.flow = .reset ∧ t.plant.ogd.test = none ∧
       t.sul = ⟨s.pins.straps.toFin, .reading 1 1 none, [], false, none, none⟩ ∧
       t.pins = s.pins ∧ t.now = s.now ∧ t.pending = s.pending ∧
       ∀ o : Fin 6,
         t.plant.ogd.outputs[o] =
           { OutputRow.reset with
             role := if s.plant.ogd.outputs[o].role = .bad then .bad else .unused,
             health := t.plant.ogd.outputs[o].health } ∧
         (s.plant.ogd.outputs[o].energized = false →
           t.plant.ogd.outputs[o].health = s.plant.ogd.outputs[o].health) ∧
         (s.plant.ogd.outputs[o].energized = true → t.plant.ogd.outputs[o].health =
             { s.plant.ogd.outputs[o].health with
               lastLoad := t.plant.ogd.outputs[o].health.lastLoad } ∧
           (0 < s.plant.ogd.outputs[o].periodMs → IsMean s.plant.ogd.outputs[o].loadSum
             s.plant.ogd.outputs[o].periodMs t.plant.ogd.outputs[o].health.lastLoad)))) ∧
  ∀ (c : LineChar) (bytes : List Byte) (s : State), s.lineBytes = some bytes →
    (c.stop = false ∨ bytes[s.lif.checked]? ≠ some c.data →
      exec (.rawInputChange (.lineCharacter c)) s = exec (ownCheckEnd s.lif false) s) ∧
    (c.stop = true → bytes[s.lif.checked]? = some c.data → s.lif.checked + 1 = bytes.length →
      exec (.rawInputChange (.lineCharacter c)) s = exec (ownCheckEnd s.lif true) s) ∧
    (c.stop = true → bytes[s.lif.checked]? = some c.data → s.lif.checked + 1 < bytes.length →
      exec (.rawInputChange (.lineCharacter c)) s =
        .next { s with lif := { s.lif with checked := s.lif.checked + 1 } })

/-- R146, R154: the end of a TEST frame's check counts it as passed or failed and takes the next index;
the slot is refilled until the count of the linecheck is reached. -/
def Obligations.EmissionCountsItsFrames : Prop :=
  ∀ (equal : Bool) (f : TestFrame) (s : State), s.lif.testSlot = .sending f →
    s.lck.emission.nextIndex < 255 → s.lck.emission.passed < 255 → s.lck.emission.failed < 255 →
    exec (.testCheckEnd equal) s = .next { s with
      plant := if equal then s.plant else s.plant.raise .txFail,
      lif :=
        { s.lif with
          idle := some 0,
          testSlot :=
            if s.lck.emission.nextIndex + 1 = s.lck.emission.count then .empty else .pending () },
      lck :=
        { s.lck with
          emission :=
            { s.lck.emission with
              running := decide (s.lck.emission.nextIndex + 1 ≠ s.lck.emission.count),
              nextIndex := s.lck.emission.nextIndex + 1,
              passed := if equal then s.lck.emission.passed + 1 else s.lck.emission.passed,
              failed := if equal then s.lck.emission.failed else s.lck.emission.failed + 1 } } }

/-! ### Requests -/

/-- R162, R164, R165: a QUERY addressed to the station, of a page below its kind's count, is answered
DONE with that page as it stands, and serving it changes nothing else. In BLOCKED that holds of STATION
and FACTORS. The request is counted before it is served (log entry 23). R165: the page counts; ALLOTMENT
has 1 with an empty division part, and otherwise 7 and its record pages, of six records each (R169). -/
def Obligations.QueriesAreAnswered : Prop :=
  (∀ s : State, [1, 2, 3, 4, 5, 7, 8].map (pageCountOf s) = [1, 6, 7, 2, 33, 1, 12] ∧
     (s.plant.alu.division = none → pageCountOf s 6 = 1) ∧
     ∀ d, s.plant.alu.division = some d → pageCountOf s 6 = 7 + (d.records.length + 5) / 6) ∧
  ∀ (d tag page : Byte) (k : Nat) (x : Instr) (s : State), canReceive s = true → d.toNat = s.own →
    (k, x) ∈
      [(1, Instr.queryStation d tag page), (2, .queryCircuits d tag page),
        (3, .queryOutputs d tag page), (4, .querySensors d tag page), (5, .queryRoster d tag page),
        (6, .queryAllotment d tag page), (7, .queryFactors d tag page),
        (8, .queryQuality d tag page)] →
    (s.rct.membership ≠ .blocked ∨ k = 1 ∨ k = 7) → page.toNat < pageCountOf s k →
    exec x s = .next { afterRequest s with
      lif :=
        { (afterRequest s).lif with
          replySlot := .pending ⟨s.own, tag, 3, byteOf k, .done, page, byteOf (pageCountOf s k),
            pageBody (afterRequest s) k page.toNat⟩ } }

/-- R165 to R169: the bytes that the pages carry, each item in its place and encoding, and the lengths
of the pages: of ALLOTMENT, page 0 always, and pages 1 to 6 and the record pages from 7 on where the
table has a division part. The codes of NONE and the zeros of absent items are log entries 17 and 36;
that an error latch, and each other item that is set or clear, is sent as 1 for set is log entry 40; a
duty and a hold-off between two whole units are either (log entry 10). -/
def Obligations.PagesHaveTheirLengths : Prop :=
  Encodings ∧ (∀ s : State, PagesCarry s) ∧
  ∀ s : State,
    (pageBody s 1 0).length = 24 ∧ (∀ p < 6, (pageBody s 2 p).length = 24) ∧
    (∀ p < 6, (pageBody s 3 p).length = 32) ∧ (pageBody s 3 6).length = 42 ∧
    (∀ p < 2, (pageBody s 4 p).length = 46) ∧ (pageBody s 5 0).length = 43 ∧
    (∀ i : Fin 32, (pageBody s 5 (i.val + 1)).length =
      match s.rst.rows[i].lastBid with
      | some b => 17 + 4 * b.records.length
      | none => 7) ∧
    (pageBody s 6 0).length = 25 ∧
    (∀ d, s.plant.alu.division = some d →
      (∀ p, 1 ≤ p → p ≤ 5 → (pageBody s 6 p).length = 48) ∧ (pageBody s 6 6).length = 16 ∧
      ∀ k, (pageBody s 6 (7 + k)).length = 8 * min 6 (d.records.length - 6 * k)) ∧
    (pageBody s 7 0).length = 8 ∧ (pageBody s 8 0).length = 17 ∧
    (∀ p, 1 ≤ p → p ≤ 10 → (pageBody s 8 p).length = 45) ∧ (pageBody s 8 11).length = 30

/-- R161 to R163: a QUERY of a page at or above its kind's count, a request of an unknown kind, and a
command whose length or arguments are not the table's, are answered BAD_REQUEST, with the page count in
force, and change nothing else: CLEAR_FACTORS and SET_MASK with another number of bytes or a code that
names no factor, TEST_OUTPUT with an output outside 1…6 or a duration outside 1…60, LINECHECK with a
count of 0, RETIRE with an address outside 1…32, RESTART and CLEAR_QUALITY with any argument. A
broadcast that is so, and a broadcast QUERY, change nothing and are not answered; stated where no
restart is due to be taken. A request of any kind to another station is only counted. -/
def Obligations.BadAndOtherRequests : Prop :=
  (∀ (d tag page : Byte) (s : State), canReceive s = true → d.toNat = s.own →
     (∀ (k : Nat) (x : Instr),
       (k, x) ∈
         [(1, Instr.queryStation d tag page), (2, .queryCircuits d tag page),
           (3, .queryOutputs d tag page), (4, .querySensors d tag page),
           (5, .queryRoster d tag page), (6, .queryAllotment d tag page),
           (7, .queryFactors d tag page), (8, .queryQuality d tag page)] →
       pageCountOf s k ≤ page.toNat →
       exec x s =
         .next (placeReply (refusedQuery s tag (byteOf k) page .badRequest (pageCountOf s k))
           (afterRequest s))) ∧
     (∀ k : Byte, (k.toNat = 0 ∨ 8 < k.toNat) →
       exec (.unknownRequest (.query ⟨d, tag, k, page⟩)) s =
         .next (placeReply (refusedQuery s tag k page .badRequest 1) (afterRequest s))) ∧
     (∀ (k : Byte) (args : List Byte), args.length ≤ 56 → (k.toNat = 0 ∨ 7 < k.toNat) →
       exec (.unknownRequest (.command ⟨d, tag, k, args⟩)) s =
         .next (placeReply (commandReply s tag k .badRequest) (afterRequest s)))) ∧
  (∀ (d tag : Byte) (args : List Byte) (k : Nat) (x : Instr) (s : State), canReceive s = true →
     args.length ≤ 56 →
     (k = 1 ∧ x = .clearFactors d tag args ∧
         ¬(args.length = 3 ∧ factorSetAt args 0 &&& unnamedCodes = 0) ∨
       k = 2 ∧ x = .setMask d tag args ∧
         ¬(args.length = 3 ∧ factorSetAt args 0 &&& unnamedCodes = 0) ∨
       k = 3 ∧ x = .testOutput d tag args ∧
         ¬(args.length = 2 ∧ 1 ≤ byteAt args 0 ∧ byteAt args 0 ≤ 6 ∧ 1 ≤ byteAt args 1 ∧
           byteAt args 1 ≤ 60) ∨
       k = 4 ∧ x = .linecheck d tag args ∧ ¬(args.length = 3 ∧ byteAt args 0 ≠ 0) ∨
       k = 5 ∧ x = .retire d tag args ∧
         ¬(args.length = 1 ∧ 1 ≤ byteAt args 0 ∧ byteAt args 0 ≤ 32) ∨
       k = 6 ∧ x = .restart d tag args ∧ args ≠ [] ∨
       k = 7 ∧ x = .clearQuality d tag args ∧ args ≠ []) →
     (d.toNat = s.own → exec x s =
       .next (placeReply (commandReply s tag (byteOf k) .badRequest) (afterRequest s))) ∧
     (d = 255 → NoRestartDue s → exec x s = .next (afterRequest s))) ∧
  (∀ (d tag page : Byte) (args : List Byte) (s : State), canReceive s = true →
     isDestination d = true → d.toNat ≠ s.own → d ≠ 255 → args.length ≤ 56 →
     ∀ x ∈ [Instr.queryStation d tag page, .queryCircuits d tag page, .queryOutputs d tag page,
       .querySensors d tag page, .queryRoster d tag page, .queryAllotment d tag page,
       .queryFactors d tag page, .queryQuality d tag page, .clearFactors d tag args,
       .setMask d tag args, .testOutput d tag args, .linecheck d tag args, .retire d tag args,
       .restart d tag args, .clearQuality d tag args],
       exec x s = .next (afterRequest s)) ∧
  ∀ (r : Request) (s : State), canReceive s = true → r.wf = true → r.unknown = true →
    NoRestartDue s →
    ((requestDest r).toNat ≠ s.own →
      exec (.unknownRequest r) s = .next (afterRequest s)) ∧
    ∀ (tag page : Byte),
      ∀ x ∈ [Instr.queryStation 255 tag page, .queryCircuits 255 tag page,
        .queryOutputs 255 tag page, .querySensors 255 tag page, .queryRoster 255 tag page,
        .queryAllotment 255 tag page, .queryFactors 255 tag page, .queryQuality 255 tag page],
        exec x s = .next (afterRequest s)

/-- R164, R161: in BLOCKED every request of good form but QUERY STATION, QUERY FACTORS and RESTART is
REFUSED, and a RETIRE addressed to one station is REFUSED everywhere; none changes anything else. That
QUERY QUALITY is refused there too is log entry 34. -/
def Obligations.RefusedRequestsChangeNothing : Prop :=
  ∀ (d tag : Byte) (s : State), canReceive s = true → d.toNat = s.own →
    (s.rct.membership = .blocked →
      (∀ (page : Byte) (k : Nat) (x : Instr),
        (k, x) ∈
          [(2, Instr.queryCircuits d tag page), (3, .queryOutputs d tag page),
            (4, .querySensors d tag page), (5, .queryRoster d tag page),
            (6, .queryAllotment d tag page), (8, .queryQuality d tag page)] →
        page.toNat < pageCountOf s k →
        exec x s =
          .next (placeReply (refusedQuery s tag (byteOf k) page .refused (pageCountOf s k))
            (afterRequest s))) ∧
      (∀ a b c : Byte, factorSetAt [a, b, c] 0 &&& unnamedCodes = 0 →
        exec (.clearFactors d tag [a, b, c]) s =
          .next (placeReply (commandReply s tag 1 .refused) (afterRequest s)) ∧
        exec (.setMask d tag [a, b, c]) s =
          .next (placeReply (commandReply s tag 2 .refused) (afterRequest s))) ∧
      (∀ o n : Byte, 1 ≤ o.toNat ∧ o.toNat ≤ 6 ∧ 1 ≤ n.toNat ∧ n.toNat ≤ 60 →
        exec (.testOutput d tag [o, n]) s =
          .next (placeReply (commandReply s tag 3 .refused) (afterRequest s))) ∧
      (∀ k a b : Byte, k ≠ 0 →
        exec (.linecheck d tag [k, a, b]) s =
          .next (placeReply (commandReply s tag 4 .refused) (afterRequest s))) ∧
      exec (.clearQuality d tag []) s =
        .next (placeReply (commandReply s tag 7 .refused) (afterRequest s))) ∧
    ∀ a : Byte, 1 ≤ a.toNat → a.toNat ≤ 32 →
      exec (.retire d tag [a]) s =
        .next (placeReply (commandReply s tag 5 .refused) (afterRequest s))

/-- R162, R163: a command that acts the same way addressed and broadcast leaves the same station in both
forms, whatever its arguments and its answer, but for the REPLY slot: the broadcast one places no reply
and leaves a pending one as it is. Stated where no restart is due to be taken. -/
def Obligations.BroadcastsActWithoutReply : Prop :=
  ∀ (d tag : Byte) (args : List Byte) (s : State), canReceive s = true → d.toNat = s.own →
    args.length ≤ 56 → NoRestartDue s →
    ∀ x ∈ [Instr.clearFactors, .setMask, .testOutput, .linecheck, .clearQuality],
      ∃ t, exec (x d tag args) s = .next t ∧
        exec (x 255 tag args) s =
          .next { t with lif := { t.lif with replySlot := s.lif.replySlot } }

/-- R170, R179, R180: CLEAR_FACTORS removes each factor of its set from the status set, SET_MASK
replaces the whole mask set, and neither changes anything else; addressed they are answered DONE,
broadcast they are not answered. R134, R176: the factors, their codes and the form of a set of them. -/
def Obligations.FactorCommandsAct : Prop :=
  FactorTerms ∧
  (∀ (d tag a b c : Byte) (s : State), canReceive s = true → s.rct.membership ≠ .blocked →
     factorSetAt [a, b, c] 0 &&& unnamedCodes = 0 →
     (d.toNat = s.own → exec (.clearFactors d tag [a, b, c]) s =
       .next (placeReply (commandReply s tag 1 .done) { afterRequest s with
         plant := { s.plant with fct :=
           ⟨s.plant.fct.status &&& ~~~factorSetAt [a, b, c] 0, s.plant.fct.mask⟩ } })) ∧
     (d = 255 → NoRestartDue s → exec (.clearFactors d tag [a, b, c]) s =
       .next { afterRequest s with
         plant := { s.plant with fct :=
           ⟨s.plant.fct.status &&& ~~~factorSetAt [a, b, c] 0, s.plant.fct.mask⟩ } })) ∧
  ∀ (d tag a b c : Byte) (s : State), canReceive s = true → s.rct.membership ≠ .blocked →
    factorSetAt [a, b, c] 0 &&& unnamedCodes = 0 →
    (d.toNat = s.own → exec (.setMask d tag [a, b, c]) s =
      .next (placeReply (commandReply s tag 2 .done) { afterRequest s with
        plant := { s.plant with fct := ⟨s.plant.fct.status, factorSetAt [a, b, c] 0⟩ } })) ∧
    (d = 255 → NoRestartDue s → exec (.setMask d tag [a, b, c]) s =
      .next { afterRequest s with
        plant := { s.plant with fct := ⟨s.plant.fct.status, factorSetAt [a, b, c] 0⟩ } })

/-- R175, R158: CLEAR_QUALITY clears the line-quality table and leaves the emission record; addressed it
is answered DONE, broadcast it clears without an answer, and in BLOCKED it is refused. The command's own
frame is counted before the table is cleared, so the cleared table does not hold it (log entry 23). -/
def Obligations.ClearQualityClearsTheTable : Prop :=
  ∀ (d tag : Byte) (s : State), canReceive s = true →
    (s.rct.membership ≠ .blocked →
      (d.toNat = s.own → exec (.clearQuality d tag []) s =
        .next (placeReply (commandReply s tag 7 .done) { afterRequest s with
          lck := ⟨Vector.replicate 32 .reset, .reset, s.lck.emission⟩ })) ∧
      (d = 255 → NoRestartDue s → exec (.clearQuality d tag []) s =
        .next { afterRequest s with
          lck := ⟨Vector.replicate 32 .reset, .reset, s.lck.emission⟩ })) ∧
    (s.rct.membership = .blocked →
      (d.toNat = s.own → exec (.clearQuality d tag []) s =
        .next (placeReply (commandReply s tag 7 .refused) (afterRequest s))) ∧
      (d = 255 → NoRestartDue s →
        exec (.clearQuality d tag []) s = .next (afterRequest s)))

/-- R153, R154, R172: a LINECHECK starts an emission of its count and seed where the station bids and
none runs; a second one is BUSY, and where the station does not bid it is REFUSED. -/
def Obligations.LinecheckStartsEmission : Prop :=
  ∀ (d tag k a b : Byte) (s : State), canReceive s = true → d.toNat = s.own → k ≠ 0 →
    s.rct.membership ≠ .blocked →
    (s.rct.membership.bids = true → s.lck.emission.running = false →
      ∃ t, exec (.linecheck d tag [k, a, b]) s = .next t ∧
        t.lck.emission = ⟨true, k.toNat, BitVec.ofNat 16 (a.toNat * 256 + b.toNat), 0, 0, 0⟩ ∧
        t.lif =
          { (afterRequest s).lif with
            testSlot := .pending (), replySlot := .pending (commandReply s tag 4 .accepted) } ∧
        t.lck.rows = s.lck.rows ∧ t.rct = s.rct ∧ t.rst = s.rst ∧ t.plant = s.plant ∧
        SamePeriphery s t) ∧
    (s.rct.membership.bids = true → s.lck.emission.running = true →
      exec (.linecheck d tag [k, a, b]) s =
        .next (placeReply (commandReply s tag 4 .busy) (afterRequest s))) ∧
    (s.rct.membership.bids = false → exec (.linecheck d tag [k, a, b]) s =
      .next (placeReply (commandReply s tag 4 .refused) (afterRequest s)))

/-- R21, R37, R72, R173: a broadcast RETIRE of another address makes its peer row RETIRED and clears its
return mark. One of the station's own address, where it follows rounds, makes the station RETIRED: both
timers stop, the OPEN, BID and TEST slots and both declared needs empty, every circuit is DISABLED with
a grant of 0, no temperature, setpoint, margin or class, the source NONE, its settle timer and its
windows stopped and its starved count 0 (R87), and its output is off with its hold-off stopped (R124);
the stored row of its own address stays, since its status is shown by the membership (log entry 25). In
BLOCKED a broadcast RETIRE has no effect, and in RETIRED one of the station's own address has nothing
further. -/
def Obligations.RetireActsOnPeerAndSelf : Prop :=
  (∀ (tag a : Byte) (i : Fin 32) (s : State), canReceive s = true →
     s.rct.membership ≠ .blocked → NoRestartDue s → a.toNat = i.val + 1 →
     a.toNat ≠ s.own →
     exec (.retire 255 tag [a]) s = .next { afterRequest s with
       rst :=
         { s.rst with
           rows := s.rst.rows.set i { s.rst.rows[i] with status := .retired, returnMark := false } } }) ∧
  (∀ (tag a : Byte) (s : State), canReceive s = true → NoRestartDue s → 1 ≤ a.toNat →
     a.toNat ≤ 32 → (s.rct.membership = .blocked ∨ s.rct.membership = .retired ∧ a.toNat = s.own) →
     exec (.retire 255 tag [a]) s = .next (afterRequest s)) ∧
  ∀ (tag a : Byte) (s : State), canReceive s = true → s.rct.membership.follows = true →
    NoRestartDue s → a.toNat = s.own →
    ∃ t, exec (.retire 255 tag [a]) s = .next t ∧ SamePeriphery s t ∧
      t.rct = { s.rct with
        membership := .retired, roundTimer := none, listenTimer := none, declaredCurrent := none,
        declaredClosed := none } ∧
      t.lif.openSlot = .empty ∧ t.lif.bidSlot = .empty ∧ t.lif.testSlot = .empty ∧
      t.lif.replySlot = s.lif.replySlot ∧ t.lck.emission.running = false ∧ Held t .retired ∧
      t.rst = s.rst ∧ t.plant.alu.kind = .noAllot ∧ t.plant.alu.own = 0 ∧
      (∀ c : Fin 6, t.plant.cct[c].state = .disabled ∧ t.plant.cct[c].grant = 0 ∧
        t.plant.cct[c].need = 0 ∧ t.plant.cct[c].onTime = 0 ∧ t.plant.cct[c].margin = none ∧
        t.plant.cct[c].cls = none ∧ t.plant.cct[c].temp = none ∧
        t.plant.cct[c].source = .noSource ∧ t.plant.cct[c].setpoint = none ∧
        t.plant.cct[c].settle = .stopped ∧ t.plant.cct[c].starved = 0 ∧
        t.plant.cct[c].toNext = none) ∧
      ∀ (c o : Fin 6), s.plant.ogd.boundTo c = some o →
        t.plant.ogd.outputs[o].energized = false ∧ t.plant.ogd.outputs[o].holdOff = none

/-- R174: a RESTART addressed to the station is answered DONE and left pending while its reply is; a
broadcast one is taken at once where no reply waits, and stays pending where one does. -/
def Obligations.RestartWaitsForTheReply : Prop :=
  ∀ (d tag : Byte) (s : State), canReceive s = true →
    (d.toNat = s.own → exec (.restart d tag []) s =
      .next (placeReply (commandReply s tag 6 .done)
        { afterRequest s with srv := ⟨true⟩ })) ∧
    (s.lif.replySlot ≠ .empty →
      exec (.restart 255 tag []) s = .next { afterRequest s with srv := ⟨true⟩ }) ∧
    (s.lif.replySlot = .empty → ∃ t, exec (.restart 255 tag []) s = .next t ∧
      t.rct.membership = .start ∧ t.sul.progress = .reading 1 1 none ∧
      t.own = s.pins.straps.toNat + 1 ∧ t.lif = .reset ∧ t.srv.restartPending = false ∧
      ∀ o : Fin 6, t.plant.ogd.outputs[o].energized = false ∧
        (t.plant.ogd.outputs[o].role = .bad ↔ s.plant.ogd.outputs[o].role = .bad))

/-- R128, R129, R81: a TEST_OUTPUT of a free spare, or of the output of a circuit in an energizable
state, is ACCEPTED where no test runs, the limit is closed and the allotment has room: the output goes
on under a new test record, its circuit is TESTING with a need of 0, and the grants in force are reduced
by the test deduction (R65, R66). The leakage current is sampled as the output goes on, so the record's
peak begins with it (log entry 12). R118, R120, R130: where the filtered leakage of the output is
asserted, the test is ACCEPTED all the same and the leakage trip is taken at once: the test ends
TRIPPED, and the grants are found again (R66); a free spare becomes BAD, and a circuit is TRIPPED below
its trip limit, and at it the lowest free spare takes it over or it is FAILED (R123, R126); stated for a
moment at which no output is on.

The output tested, and others, may be on when a test starts. R129, step 2: a period that the tested output
is in for its circuit ends without an open-element judgement, so its window count stays, and its mean is
the health record's last measured load (R119, R127). R66, R90: every other circuit takes its lower grant;
one that draws more is cut at once, and one whose on-time has then passed already ends its period; stated
for cuts that take no open-element trip. -/
def Obligations.AcceptedTestRuns : Prop :=
  ∀ (d tag : Byte) (o : Fin 6) (n : Byte) (s : State), TestAccepted d o n s →
    (s.plant.ogd.outputs[o].leakage.level ≠ some true →
      (∀ c j : Fin 6, j ≠ o → s.plant.ogd.boundTo c = some j →
        s.plant.ogd.outputs[j].energized = true → ¬OpenElementDue s.plant.ogd.outputs[j]) →
      ∃ t, exec (.testOutput d tag [byteOf (o.val + 1), n]) s = .next t ∧ SamePeriphery s t ∧
        t.rct = s.rct ∧ t.rst = s.rst ∧ t.plant.fct = s.plant.fct ∧
        t.lif =
          { (afterRequest s).lif with
            replySlot := .pending (commandReply s tag 3 .accepted) } ∧
        t.plant.ogd.test = some ⟨o, s.plant.ogd.outputs[o].role.circuit, n.toNat, s.now, 0, 0,
          min 1000 s.pins.leakage[o]⟩ ∧
        t.plant.ogd.trips = s.plant.ogd.trips ∧
        t.plant.alu = { s.plant.alu with deduction := some (o, s.plant.ogd.outputs[o].rated) } ∧
        Deducted (deductBefore s.own s.plant) s.plant.ogd.outputs[o].role.circuit
          (s.plant.alu.own - s.plant.ogd.outputs[o].rated) (grantsInForce s.plant)
          (grantsInForce t.plant) ∧
        t.plant.ogd.outputs[o].energized = true ∧ PeriodBegun t.plant.ogd.outputs[o] ∧
        t.plant.ogd.outputs[o].openCount = s.plant.ogd.outputs[o].openCount ∧
        (s.plant.ogd.outputs[o].energized = false →
          t.plant.ogd.outputs[o].health.lastLoad = s.plant.ogd.outputs[o].health.lastLoad) ∧
        (∀ c : Fin 6, s.plant.ogd.outputs[o].role.circuit = some c →
          t.plant.cct[c].state = .testing ∧ t.plant.cct[c].need = 0 ∧ t.plant.cct[c].grant = 0 ∧
          t.plant.cct[c].onTime = 0 ∧
          (s.plant.ogd.outputs[o].energized = true → 0 < s.plant.ogd.outputs[o].periodMs →
            IsMean s.plant.ogd.outputs[o].loadSum s.plant.ogd.outputs[o].periodMs
              t.plant.ogd.outputs[o].health.lastLoad)) ∧
        (∀ c : Fin 6, s.plant.ogd.outputs[o].role.circuit ≠ some c → GrantTaken c s t) ∧
        ∀ j : Fin 6, j ≠ o → s.plant.ogd.outputs[j].energized = false →
          t.plant.ogd.outputs[j] = s.plant.ogd.outputs[j]) ∧
    (s.plant.ogd.outputs[o].leakage.level = some true →
      (∀ j : Fin 6, s.plant.ogd.outputs[j].energized = false) →
      ∃ t, exec (.testOutput d tag [byteOf (o.val + 1), n]) s = .next t ∧ SamePeriphery s t ∧
        t.rct = s.rct ∧ t.rst = s.rst ∧
        t.lif =
          { (afterRequest s).lif with
            replySlot := .pending (commandReply s tag 3 .accepted) } ∧
        t.plant.alu = { s.plant.alu with deduction := none } ∧ GrantsByKind t ∧
        TripTaken .leakage o s t ∧
        TestEnded (.tripped .leakage)
          ⟨o, s.plant.ogd.outputs[o].role.circuit, n.toNat, s.now, 0, 0, min 1000 s.pins.leakage[o]⟩ t ∧
        (∀ j : Fin 6, t.plant.ogd.outputs[j].energized = false) ∧
        (s.plant.ogd.outputs[o].role = .spareFree →
          t.plant.ogd.outputs[o].role = .bad ∧ t.plant.ogd.trips = s.plant.ogd.trips ∧
          ∀ j : Fin 6, j ≠ o → t.plant.ogd.outputs[j] = s.plant.ogd.outputs[j]) ∧
        ∀ c : Fin 6, s.plant.ogd.outputs[o].role.circuit = some c →
          (s.plant.ogd.trips[c].count + 1 < s.img.tripLimit → TripHeldOff o c s t ∧
            ∀ j : Fin 6, j ≠ o → t.plant.ogd.outputs[j] = s.plant.ogd.outputs[j]) ∧
          (s.img.tripLimit = s.plant.ogd.trips[c].count + 1 → TripFails o c s t))

/-- R128: a TEST_OUTPUT while a test runs is BUSY; one of an output that is UNUSED, BAD or of a circuit
in another state, whose limit is open, or met where the station does not bid, or for which the own
allotment has no room beside the duty-weighted loads of the other circuits, is REFUSED. Nothing else
changes. -/
def Obligations.OtherTestsAreTurnedAway : Prop :=
  ∀ (d tag : Byte) (o : Fin 6) (n : Byte) (s : State), canReceive s = true → d.toNat = s.own →
    1 ≤ n.toNat → n.toNat ≤ 60 → s.rct.membership ≠ .blocked →
    (s.plant.ogd.test ≠ none → exec (.testOutput d tag [byteOf (o.val + 1), n]) s =
      .next (placeReply (commandReply s tag 3 .busy) (afterRequest s))) ∧
    (s.plant.ogd.test = none →
      (s.plant.ogd.outputs[o].role = .unused ∨ s.plant.ogd.outputs[o].role = .bad ∨
        (∃ c, s.plant.ogd.outputs[o].role.circuit = some c ∧
          s.plant.cct[c].state.energizable = false) ∨
        s.plant.ogd.outputs[o].limit.level ≠ some false ∨ s.rct.membership.bids = false ∨
        s.plant.alu.own * (s.img.window * 1000) <
          s.plant.ogd.outputs[o].rated * (s.img.window * 1000) +
            ((sixIds.filter fun c =>
              decide (s.plant.ogd.outputs[o].role.circuit ≠ some c)).map
                fun c => s.plant.ogd.ratedOf c * s.plant.cct[c].onTime).sum) →
      exec (.testOutput d tag [byteOf (o.val + 1), n]) s =
        .next (placeReply (commandReply s tag 3 .refused) (afterRequest s)))

/-! ### Circuits -/

/-- R82: a reading counts only while its quality is GOOD; the circuit temperature is the lower of two
readings that count, with its sensor as the source (the primary where they are equal), the one reading
that counts where there is one, and none with source NONE where there is none. R70, R112: the output
bound to a circuit is one whose role names it, and the circuit's rated load is that output's, or 0
without one (log entry 26); the other terms of the plant are those of `PlantTerms`. R75, R83 to R89,
R118: a window start of an energizable circuit whose temperature can be formed takes it to REGULATING
with its setpoint, need, margin, class and on-time, and puts its output on, with a new energized period,
where the on-time is above 0.Stated where the filtered leakage of the output is not asserted;
TripBelowTheLimit and TripAtTheLimit state the other case. -/
def Obligations.WindowStartRegulates : Prop :=
  (∀ (c : Fin 6) (s : State), TemperatureFormed s c (formTemperature s.env c)) ∧
  PlantTerms ∧
  ∀ (c o : Fin 6) (x : Int) (src : TempSource) (s : State),
    s.plant.cct[c].toNext.isSome → isConfigured s.img c = true →
    s.plant.cct[c].state.energizable = true → s.rct.membership.follows = true →
    s.plant.ogd.boundTo c = some o → s.plant.ogd.outputs[o].energized = false →
    s.plant.ogd.outputs[o].limit.level = some false →
    s.plant.ogd.outputs[o].leakage.level ≠ some true →
    formTemperature s.env c = (some x, src) →
    ∃ t, exec (.windowStart c) s = .next t ∧ t = { s with plant := t.plant } ∧
      let k := s.img.circuits[c]
      let sp := if s.rst.line = .flowing then k.spFlowing else k.spStandstill
      let rated := s.plant.ogd.outputs[o].rated
      let need := if sp ≤ x then 0 else min rated (ceilDiv (rated * (sp - x).toNat) k.band.toNat)
      let m : Int := max (-128) (min 127 ((x - s.img.pourPoint) / 10))
      let w := s.img.window * 1000
      t.plant.cct[c] =
        { s.plant.cct[c] with
          state := .regulating, settle := .stopped, temp := some x, source := src,
          setpoint := some sp, need := need, margin := some m,
          cls := some (if m < 0 then .p0 else if m < s.img.lowMargin then .p1
            else if 0 < need then .p2 else .p3),
          onTime := w * min s.plant.cct[c].grant need / rated, toNext := some w } ∧
      t.plant.ogd.outputs[o].energized = decide (0 < w * min s.plant.cct[c].grant need / rated) ∧
      (t.plant.ogd.outputs[o].energized = true → PeriodBegun t.plant.ogd.outputs[o]) ∧
      (∀ j : Fin 6, j ≠ c → t.plant.cct[j] = s.plant.cct[j]) ∧
      (∀ j : Fin 6, j ≠ o → t.plant.ogd.outputs[j] = s.plant.ogd.outputs[j]) ∧
      t.plant.fct = s.plant.fct.raiseIf (decide (m < 0)) .belowPour ∧ t.plant.alu = s.plant.alu

/-- R75, R84 to R86: a window start of an energizable circuit whose temperature cannot be formed leaves
it in SETTLING while its settle timer runs and takes it to SENSOR-LOST, with SENSOR_LOST raised,
otherwise; it heats on its fallback need with class P1 and no margin. A settle timer whose third scan
end has come and whose expiry is still to be taken counts as running (log entry 24). Stated where the
filtered leakage of the output is not asserted; TripBelowTheLimit and TripAtTheLimit state the other
case. -/
def Obligations.WindowStartWithoutTemperature : Prop :=
  ∀ (c o : Fin 6) (src : TempSource) (s : State),
    s.plant.cct[c].toNext.isSome → isConfigured s.img c = true →
    s.plant.cct[c].state.energizable = true → s.rct.membership.follows = true →
    s.plant.ogd.boundTo c = some o → s.plant.ogd.outputs[o].energized = false →
    s.plant.ogd.outputs[o].limit.level = some false →
    s.plant.ogd.outputs[o].leakage.level ≠ some true →
    formTemperature s.env c = (none, src) →
    ∃ t, exec (.windowStart c) s = .next t ∧ t = { s with plant := t.plant } ∧
      let settling := s.plant.cct[c].state = .settling ∧ s.plant.cct[c].settle ≠ .stopped
      let rated := s.plant.ogd.outputs[o].rated
      let need := min s.img.circuits[c].fallback rated
      let w := s.img.window * 1000
      t.plant.cct[c] =
        { s.plant.cct[c] with
          state := if settling then .settling else .sensorLost,
          settle := if settling then s.plant.cct[c].settle else .stopped,
          temp := none, source := src, setpoint := none, need := need, margin := none,
          cls := some .p1, onTime := w * min s.plant.cct[c].grant need / rated, toNext := some w } ∧
      t.plant.ogd.outputs[o].energized = decide (0 < w * min s.plant.cct[c].grant need / rated) ∧
      (t.plant.ogd.outputs[o].energized = true → PeriodBegun t.plant.ogd.outputs[o]) ∧
      (¬settling → Held t .sensorLost) ∧ (settling → t.plant.fct = s.plant.fct) ∧
      (∀ j : Fin 6, j ≠ c → t.plant.cct[j] = s.plant.cct[j]) ∧
      (∀ j : Fin 6, j ≠ o → t.plant.ogd.outputs[j] = s.plant.ogd.outputs[j]) ∧
      t.plant.alu = s.plant.alu

/-- R87, R88, R118: a window start of a circuit whose windows are stopped changes nothing (log entry 5),
and one of a circuit that is DISABLED or not configured only starts its next window. A circuit in
INHIBITED, TRIPPED, FAILED or TESTING is evaluated, with a need and an on-time of 0, and no output is
switched; LIMIT_OPEN is raised where the limit of its output is open (R116), and CIRCUIT_FAILED and
SPARE_EXHAUSTED where it is FAILED with no output (R126). Whatever the state, an open limit keeps the
output off and raises LIMIT_OPEN. -/
def Obligations.WindowStartWithoutHeat : Prop :=
  ∀ (c : Fin 6) (s : State),
    (s.plant.cct[c].toNext = none → exec (.windowStart c) s = .next s) ∧
    (s.plant.cct[c].toNext.isSome →
      (isConfigured s.img c = false ∨ s.plant.cct[c].state = .disabled) →
      exec (.windowStart c) s = .next { s with
        plant := s.plant.updCct c fun r => { r with toNext := some (s.img.window * 1000) } }) ∧
    (s.plant.cct[c].toNext.isSome → isConfigured s.img c = true →
      s.plant.cct[c].state ∈ [CState.inhibited, .tripped, .failed, .testing] →
      (∀ o, s.plant.ogd.boundTo c = some o →
        s.plant.ogd.outputs[o].energized = false ∨ s.plant.ogd.underTest o = true) →
      let k := s.img.circuits[c]
      let temp := (formTemperature s.env c).1
      let margin := temp.map fun x => max (-128) (min 127 ((x - s.img.pourPoint) / 10))
      let unbound := decide (s.plant.cct[c].state = .failed ∧ s.plant.ogd.boundTo c = none)
      exec (.windowStart c) s = .next { s with
        plant :=
          { s.plant.updCct c (fun r =>
              { r with
                settle := .stopped, temp := temp, source := (formTemperature s.env c).2,
                setpoint := temp.map fun _ =>
                  if s.rst.line = .flowing then k.spFlowing else k.spStandstill,
                need := 0, margin := margin,
                cls := some (
                  match margin with
                  | none => .p1
                  | some m =>
                    if m < 0 then .p0 else if m < s.img.lowMargin then .p1 else .p3),
                onTime := 0, toNext := some (s.img.window * 1000) }) with
            fct := (((s.plant.fct.raiseIf ((s.plant.ogd.boundTo c).any fun o =>
                decide (s.plant.ogd.outputs[o].limit.level = some true)) .limitOpen).raiseIf
              unbound .circuitFailed).raiseIf unbound .spareExhausted).raiseIf
                (margin.any fun m => decide (m < 0)) .belowPour } }) ∧
    (∀ o : Fin 6, s.plant.cct[c].toNext.isSome → isConfigured s.img c = true →
      s.plant.cct[c].state ≠ .disabled → s.plant.ogd.boundTo c = some o →
      s.plant.ogd.outputs[o].energized = false → s.plant.ogd.outputs[o].limit.level = some true →
      ∃ t, exec (.windowStart c) s = .next t ∧ t = { s with plant := t.plant } ∧
        Held t .limitOpen ∧ t.plant.alu = s.plant.alu ∧
        (∀ j : Fin 6, j ≠ c → t.plant.cct[j] = s.plant.cct[j]) ∧
        ∀ j : Fin 6, t.plant.ogd.outputs[j] = s.plant.ogd.outputs[j])

/-- R84: below the setpoint the need is the least whole number of LU that covers the proportional part
of the rated load, and at most the rated load; at or above it the need is 0. -/
def Obligations.NeedIsProportional : Prop :=
  ∀ (rated : Nat) (sp x band : Int), 0 < band →
    regulatedNeed rated sp x band ≤ rated ∧
    (sp ≤ x → regulatedNeed rated sp x band = 0) ∧
    (band ≤ sp - x → regulatedNeed rated sp x band = rated) ∧
    (x < sp → sp - x ≤ band →
      (rated : Int) * (sp - x) ≤ (regulatedNeed rated sp x band : Int) * band ∧
      (regulatedNeed rated sp x band : Int) * band < (rated : Int) * (sp - x) + band)

/-- R89, R122: an on-time that elapses puts the output of the circuit off; a period of 1 s or more is
judged for an open element, and a shorter one is not; the exact mean is compared (log entry 33). R90:
where a new grant falls, the on-time in force shortens to the new grant's; a period whose on-time has
then passed already ends at once and is judged the same way, and any other goes on; a grant that does
not fall leaves the on-time. Shown for the grants of the degraded cap that a conflict brings (R15), with
one output on. Stated for an end that takes no open-element trip. -/
def Obligations.OnTimeEndsThePeriod : Prop :=
  (∀ (c o : Fin 6) (s : State), s.plant.ogd.boundTo c = some o →
     s.plant.ogd.outputs[o].energized = true → s.plant.ogd.underTest o = false →
     ¬(1000 ≤ s.plant.ogd.outputs[o].periodMs ∧ 2 ≤ s.plant.ogd.outputs[o].openCount ∧
       2 * s.plant.ogd.outputs[o].loadSum <
         10 * s.plant.ogd.outputs[o].rated * s.plant.ogd.outputs[o].periodMs) →
     ∃ t, exec (.onTimeElapsed c) s = .next t ∧ t = { s with plant := t.plant } ∧
       t.plant.cct = s.plant.cct ∧
       t.plant.alu = s.plant.alu ∧ t.plant.fct = s.plant.fct ∧
       (∀ j : Fin 6, j ≠ o → t.plant.ogd.outputs[j] = s.plant.ogd.outputs[j]) ∧
       PeriodEnded s.plant.ogd.outputs[o] t.plant.ogd.outputs[o]) ∧
  ∀ (f : OpenFrame) (i : Fin 32) (c o : Fin 6) (s : State), canReceive s = true →
    s.rct.membership = .member → s.rct.degraded = false → i.val + 1 ≤ s.img.stations →
    f.opener = i.val + 1 → f.opener ≠ s.own → s.rct.round = some f.round →
    s.rct.opener ≠ some f.opener → s.plant.ogd.test = none → s.plant.ogd.boundTo c = some o →
    s.plant.ogd.outputs[o].energized = true →
    (∀ j : Fin 6, j ≠ o → s.plant.ogd.outputs[j].energized = false) →
    ¬(1000 ≤ s.plant.ogd.outputs[o].periodMs ∧ 2 ≤ s.plant.ogd.outputs[o].openCount ∧
      2 * s.plant.ogd.outputs[o].loadSum <
        10 * s.plant.ogd.outputs[o].rated * s.plant.ogd.outputs[o].periodMs) →
    ∃ t, exec (.openReceived f) s = .next t ∧
      let w := s.img.window * 1000
      let cut := min s.plant.cct[c].onTime
        (w * min t.plant.cct[c].grant s.plant.cct[c].need / s.plant.ogd.outputs[o].rated)
      let elapsed := w - s.plant.cct[c].toNext.getD w
      (s.plant.cct[c].grant ≤ t.plant.cct[c].grant →
        t.plant.cct[c].onTime = s.plant.cct[c].onTime ∧
        t.plant.ogd.outputs[o] = s.plant.ogd.outputs[o]) ∧
      (t.plant.cct[c].grant < s.plant.cct[c].grant → t.plant.cct[c].onTime = cut ∧
        (cut < s.plant.cct[c].onTime → cut ≤ elapsed →
          PeriodEnded s.plant.ogd.outputs[o] t.plant.ogd.outputs[o]) ∧
        (s.plant.cct[c].onTime ≤ cut ∨ elapsed < cut →
          t.plant.ogd.outputs[o] = s.plant.ogd.outputs[o]))

/-- R74: the settle timer of a circuit expires and stops: a circuit still in SETTLING whose temperature
cannot be formed enters SENSOR-LOST and raises SENSOR_LOST; its row and everything else stay. -/
def Obligations.SettleTimerExpires : Prop :=
  ∀ (c : Fin 6) (s : State), s.plant.cct[c].settle ≠ .stopped →
    ((s.plant.cct[c].state = .settling ∧ (formTemperature s.env c).1 = none) →
      exec (.settleTimerExpiry c) s = .next { s with
        plant := (s.plant.updCct c fun r => { r with settle := .stopped, state := .sensorLost }).raise
          .sensorLost }) ∧
    (¬(s.plant.cct[c].state = .settling ∧ (formTemperature s.env c).1 = none) →
      exec (.settleTimerExpiry c) s = .next { s with
        plant := s.plant.updCct c fun r => { r with settle := .stopped } })

/-- R96, R97, R100 to R104: a conversion's result is judged GOOD, SUSPECT, OPEN or SHORT into the row of
its channel alone; the next enabled channel is converted, and after the last one a scan ends and every
running settle timer counts it (R74; log entries 13 and 24). -/
def Obligations.ConversionIsJudged : Prop :=
  (∀ (m : Image) (j : Fin 8), firstChannel m = some j ↔
     isEnabled m j = true ∧ ∀ k : Fin 8, k < j → isEnabled m k = false) ∧
  ∀ (ch : Fin 8) (ms : Nat) (m : Conversion) (s : State), s.ssc.conv = some (ch, ms) →
    m.wf = true →
    ∃ t, exec (.conversionEnd m) s = .next t ∧ t = { s with ssc := t.ssc, plant := t.plant } ∧
      t.plant.ogd = s.plant.ogd ∧ t.plant.alu = s.plant.alu ∧
      t.plant.fct = s.plant.fct ∧
      (∀ j : Fin 8, j ≠ ch → t.ssc.rows[j] = s.ssc.rows[j]) ∧
      (m = .aboveRange →
        t.ssc.rows[ch] = ⟨.isOpen, none, s.ssc.rows[ch].lastGood, none, some s.now⟩) ∧
      (m = .belowRange →
        t.ssc.rows[ch] = ⟨.short, none, s.ssc.rows[ch].lastGood, none, some s.now⟩) ∧
      (∀ y : Int, m = .inRange y →
        let r := s.ssc.rows[ch]
        let v := (y + 50) / 100
        let good := r.lastGood = none ∨ (∃ g, r.lastGood = some g ∧ (v - g).natAbs ≤ s.img.rate) ∨
          r.quality = .suspect ∧ ∃ w, r.suspect = some w ∧ (v - w).natAbs ≤ s.img.rate
        (good → t.ssc.rows[ch] = ⟨.good, some v, some v, none, some s.now⟩) ∧
        (¬good → t.ssc.rows[ch] = ⟨.suspect, some v, r.lastGood, some v, some s.now⟩)) ∧
      (∀ j : Fin 8, ch < j → isEnabled s.img j = true →
        (∀ k : Fin 8, ch < k → k < j → isEnabled s.img k = false) →
        t.ssc.conv = some (j, 80) ∧ t.plant = s.plant) ∧
      ((∀ j : Fin 8, ch < j → isEnabled s.img j = false) →
        t.ssc.conv = (firstChannel s.img).map (fun j => (j, 80)) ∧
        ∀ c : Fin 6, t.plant.cct[c] = { s.plant.cct[c] with
          settle :=
            match s.plant.cct[c].settle with
            | .stopped => .stopped
            | .running n => if n < 2 then .running (n + 1) else .due
            | .due => .due })

/-! ### Outputs -/

/-- R115, R119: a new level on a pin moves no filtered level; the filter counts from 0 where the raw
level has come to differ from the filtered one, and stops where it has come back to it. A level that
stays goes on as it was held, its count too: a limit or FLOW input set to the level it has, and a
leakage current that stays on its side of the threshold. R117, R120: a filtered leakage level that
changes on an output that is off, or to released, and a filtered FLOW level, are recorded and do nothing
else; the count then stops, whatever level was held and whatever the raw one is (log entry 37). R120,
R127, R129: on an output that is on, a new leakage current raises the peak leakage of its health record,
and of the record of a test on it, to that current where it is higher. -/
def Obligations.LevelsAreFilteredAndRecorded : Prop :=
  (∀ s : State,
     (∀ (o : Fin 6) (x : Bool),
       (x = s.pins.limitOpen[o] → exec (.rawInputChange (.limit o x)) s = .next s) ∧
       (x ≠ s.pins.limitOpen[o] → exec (.rawInputChange (.limit o x)) s = .next { s with
         pins := { s.pins with limitOpen := s.pins.limitOpen.set o x },
         plant := s.plant.updOut o fun r => { r with limit := rawMoved x r.limit } })) ∧
     (∀ x : Bool,
       (x = s.pins.flow → exec (.rawInputChange (.flow x)) s = .next s) ∧
       (x ≠ s.pins.flow → exec (.rawInputChange (.flow x)) s = .next { s with
         pins := { s.pins with flow := x },
         plant := { s.plant with ogd :=
           { s.plant.ogd with flow := rawMoved x s.plant.ogd.flow } } })) ∧
     (∀ (o : Fin 6) (mA : Nat),
       let old := decide (s.img.leakThreshold ≤ s.pins.leakage[o])
       let new := decide (s.img.leakThreshold ≤ mA)
       let f := s.plant.ogd.outputs[o].leakage
       ∃ u : Filter, (new = old → u = f) ∧ (new ≠ old → u = rawMoved new f) ∧
         (s.plant.ogd.outputs[o].energized = false →
           exec (.rawInputChange (.leakage o mA)) s = .next { s with
             pins := { s.pins with leakage := s.pins.leakage.set o mA },
             plant := s.plant.updOut o fun r => { r with leakage := u } }) ∧
         (s.plant.ogd.outputs[o].energized = true →
           exec (.rawInputChange (.leakage o mA)) s = .next { s with
             pins := { s.pins with leakage := s.pins.leakage.set o mA },
             plant := (s.plant.updOut o fun r =>
               { r with
                 leakage := u,
                 health := { r.health with peak := max r.health.peak (min 1000 mA) } }).setTest
                   (s.plant.ogd.test.map fun t =>
                     if t.output = o then { t with peak := max t.peak (min 1000 mA) } else t) })) ∧
     (∀ (b : Fin 5) (x : Bool), ∃ n : BitVec 5, exec (.rawInputChange (.strap b x)) s =
         .next { s with pins := { s.pins with straps := n } } ∧
       ∀ j : Fin 5, n.getLsbD j.val = if j = b then x else s.pins.straps.getLsbD j.val) ∧
     (∀ (o : Fin 6) (x : Nat), exec (.rawInputChange (.load o x)) s =
       .next { s with pins := { s.pins with load := s.pins.load.set o x } })) ∧
  ∀ s : State,
    (∀ (o : Fin 6) (l x : Bool), s.plant.ogd.outputs[o].leakage.level = some l →
      (s.plant.ogd.outputs[o].energized = false ∨ x = false) →
      exec (.leakageFilteredChange o x) s = .next { s with
        plant := s.plant.updOut o fun r => { r with leakage := ⟨some x, none⟩ } }) ∧
    (∀ l x : Bool, s.plant.ogd.flow.level = some l →
      exec (.flowFilteredChange x) s = .next { s with
        plant := { s.plant with ogd := { s.plant.ogd with flow := ⟨some x, none⟩ } } })

/-- R116, R76, R77: a filtered limit that opens puts a bound output off, takes its energizable circuit
to INHIBITED and raises LIMIT_OPEN; where it closes a circuit in INHIBITED enters SETTLING and one in
any other state is not changed. A change on an output that is bound to no circuit and not under test is
only recorded, and the filter's count stops, whatever level was held (log entry 37). -/
def Obligations.LimitChangesMoveTheCircuit : Prop :=
  (∀ (o : Fin 6) (l x : Bool) (s : State), s.plant.ogd.outputs[o].role.circuit = none →
    s.plant.ogd.underTest o = false → s.plant.ogd.outputs[o].limit.level = some l →
    exec (.limitFilteredChange o x) s = .next { s with
      plant := s.plant.updOut o fun r => { r with limit := ⟨some x, none⟩ } }) ∧
  ∀ (o c : Fin 6) (s : State), s.plant.ogd.outputs[o].role.circuit = some c →
    s.plant.ogd.underTest o = false →
    (s.plant.ogd.outputs[o].limit.level = some false → s.plant.cct[c].state ≠ .disabled →
      ∃ t, exec (.limitFilteredChange o true) s = .next t ∧ t = { s with plant := t.plant } ∧
        Held t .limitOpen ∧ t.plant.alu = s.plant.alu ∧
        t.plant.ogd.outputs[o].limit.level = some true ∧
        t.plant.ogd.outputs[o].energized = false ∧
        t.plant.cct[c] = (if s.plant.cct[c].state.energizable then
          { s.plant.cct[c] with state := .inhibited, onTime := 0, need := 0, settle := .stopped }
          else s.plant.cct[c]) ∧
        (∀ j : Fin 6, j ≠ o → t.plant.ogd.outputs[j] = s.plant.ogd.outputs[j]) ∧
        ∀ j : Fin 6, j ≠ c → t.plant.cct[j] = s.plant.cct[j]) ∧
    (s.plant.ogd.outputs[o].limit.level = some true →
      ∃ t, exec (.limitFilteredChange o false) s = .next t ∧ t = { s with plant := t.plant } ∧
        t.plant.alu = s.plant.alu ∧
        (∀ j : Fin 6, j ≠ o → t.plant.ogd.outputs[j] = s.plant.ogd.outputs[j]) ∧
        (∀ j : Fin 6, j ≠ c → t.plant.cct[j] = s.plant.cct[j]) ∧
        t.plant.ogd.outputs[o] = { s.plant.ogd.outputs[o] with limit := ⟨some false, none⟩ } ∧
        (s.plant.cct[c].state = .inhibited → t.plant.cct[c] =
          { s.plant.cct[c] with
            state := .settling, cls := some .p1, margin := none, temp := none, source := .noSource,
            setpoint := none, onTime := 0, settle := .running 0,
            need := min s.img.circuits[c].fallback (s.plant.ogd.ratedOf c) }) ∧
        (s.plant.cct[c].state ≠ .inhibited → t.plant.cct = s.plant.cct) ∧
        t.plant.fct = s.plant.fct)

/-- R121: an overload is exactly a load above 125 % of the rated load in 0.1 LU steps; an output that is
off, or on for less than 100 ms of its period, or at or below that load, is left as it is. -/
def Obligations.OverloadIsExact : Prop :=
  (∀ rated load : Nat, overloaded rated load = true ↔ 5 * (10 * rated) < 4 * load) ∧
  ∀ (o : Fin 6) (load : Nat) (s : State),
    (s.plant.ogd.outputs[o].energized = false ∨ s.plant.ogd.outputs[o].periodMs < 100 ∨
      overloaded s.plant.ogd.outputs[o].rated load = false) →
    exec (.overloadDetected o load) s = .next s

/-- R123, R78: a trip below the trip limit, whatever its kind (an open element by its exact mean, log
entry 33), puts the output off, counts the trip, starts the hold-off, makes the circuit TRIPPED with a
need of 0 and raises CIRCUIT_TRIP; no other output and no other circuit is touched. R118, R120: so does
the window start of a circuit whose output is energized while its filtered leakage is asserted: the
circuit is evaluated (R88) and the leakage trip is taken at once, its leakage current being kept as the
peak first. -/
def Obligations.TripBelowTheLimit : Prop :=
  ∀ (x : Instr) (k : FaultKind) (o c : Fin 6) (s : State), TripDue s o c x k →
    s.plant.ogd.outputs[o].role.circuit = some c → s.plant.ogd.underTest o = false →
    s.plant.ogd.trips[c].count + 1 < s.img.tripLimit →
    ∃ t, exec x s = .next t ∧ t = { s with plant := t.plant } ∧ t.plant.alu = s.plant.alu ∧
      t.plant.ogd.test = s.plant.ogd.test ∧ TripTaken k o s t ∧ TripHeldOff o c s t ∧
      (x ≠ .windowStart c →
        t.plant.cct[c] =
          { s.plant.cct[c] with state := .tripped, onTime := 0, need := 0, settle := .stopped } ∧
        t.plant.fct = s.plant.fct.raise .circuitTrip) ∧
      (x = .windowStart c →
        let cfg := s.img.circuits[c]
        let temp := (formTemperature s.env c).1
        let margin := temp.map fun y => max (-128) (min 127 ((y - s.img.pourPoint) / 10))
        let settling := s.plant.cct[c].state = .settling ∧ s.plant.cct[c].settle ≠ .stopped
        t.plant.cct[c] =
          { s.plant.cct[c] with
            state := .tripped, settle := .stopped, temp := temp,
            source := (formTemperature s.env c).2,
            setpoint := temp.map fun _ =>
              if s.rst.line = .flowing then cfg.spFlowing else cfg.spStandstill,
            need := 0, margin := margin,
            cls := some (
              match margin with
              | none => .p1
              | some m => if m < 0 then .p0 else if m < s.img.lowMargin then .p1 else .p2),
            onTime := 0, toNext := some (s.img.window * 1000) } ∧
        t.plant.fct = ((s.plant.fct.raiseIf (margin.any fun m => decide (m < 0)) .belowPour).raiseIf
          (decide (temp = none ∧ ¬settling)) .sensorLost).raise .circuitTrip ∧
        t.plant.ogd.outputs[o].health.peak =
          max s.plant.ogd.outputs[o].health.peak (min 1000 s.pins.leakage[o])) ∧
      (∀ j : Fin 6, j ≠ o → t.plant.ogd.outputs[j] = s.plant.ogd.outputs[j]) ∧
      ∀ j : Fin 6, j ≠ c →
        t.plant.cct[j] = s.plant.cct[j] ∧ t.plant.ogd.trips[j] = s.plant.ogd.trips[j]

/-- R123, R126, R80: a trip that reaches the trip limit, whatever its kind (an open element by its exact
mean, log entry 33), makes the output BAD and raises CIRCUIT_FAILED; the lowest free spare takes the
circuit over, which enters SETTLING, or INHIBITED where that limit is open, with its trips at 0; with no
free spare the circuit is FAILED and SPARE_EXHAUSTED is raised. R118, R120: so does the window start of
a circuit whose output is energized while its filtered leakage is asserted. -/
def Obligations.TripAtTheLimit : Prop :=
  ∀ (x : Instr) (k : FaultKind) (o c : Fin 6) (s : State), TripDue s o c x k →
    s.plant.ogd.outputs[o].role.circuit = some c → s.plant.ogd.test = none →
    s.img.tripLimit = s.plant.ogd.trips[c].count + 1 →
    ∃ t, exec x s = .next t ∧ t = { s with plant := t.plant } ∧ t.plant.alu = s.plant.alu ∧
      TripTaken k o s t ∧ TripFails o c s t ∧
      ∀ j : Fin 6, j ≠ c →
        t.plant.cct[j] = s.plant.cct[j] ∧ t.plant.ogd.trips[j] = s.plant.ogd.trips[j]

/-- R79, R124: at the end of its hold-off the TRIPPED circuit enters SETTLING, or INHIBITED where the
filtered limit is open, and the timer stops. R125: where the energized time since the last trip has
reached the trip-clear time, the trip count goes to 0 and nothing else changes; short of it nothing
changes (log entry 4). -/
def Obligations.HoldOffAndTripCountEnd : Prop :=
  (∀ (o c : Fin 6) (s : State), s.plant.ogd.outputs[o].holdOff.isSome →
     s.plant.ogd.outputs[o].role.circuit = some c → s.plant.cct[c].state = .tripped →
     ∃ t, exec (.holdOffExpiry o) s = .next t ∧ t = { s with plant := t.plant } ∧
       t.plant.ogd.outputs[o] = { s.plant.ogd.outputs[o] with holdOff := none } ∧
       (s.plant.ogd.outputs[o].limit.level = some true → t.plant.cct[c] =
         { s.plant.cct[c] with state := .inhibited, onTime := 0, need := 0, settle := .stopped }) ∧
       (s.plant.ogd.outputs[o].limit.level ≠ some true → t.plant.cct[c] =
         { s.plant.cct[c] with
           state := .settling, cls := some .p1, margin := none, temp := none, source := .noSource,
           setpoint := none, onTime := 0, settle := .running 0,
           need := min s.img.circuits[c].fallback (s.plant.ogd.ratedOf c) }) ∧
       t.plant.ogd.trips = s.plant.ogd.trips ∧ t.plant.fct = s.plant.fct ∧
       (∀ j : Fin 6, j ≠ o → t.plant.ogd.outputs[j] = s.plant.ogd.outputs[j]) ∧
       ∀ j : Fin 6, j ≠ c → t.plant.cct[j] = s.plant.cct[j]) ∧
  ∀ (c : Fin 6) (s : State),
    (s.img.tripClear * 60 ≤ s.plant.ogd.trips[c].seconds →
      exec (.tripClearTimeReached c) s = .next { s with
        plant := s.plant.updTrip c fun r => { r with count := 0 } }) ∧
    (s.plant.ogd.trips[c].seconds < s.img.tripClear * 60 →
      exec (.tripClearTimeReached c) s = .next s)

/-- R130, R66: at the end of its duration a test is removed, its output goes off, its result is DONE in
the health record, its circuit in TESTING enters SETTLING and the deduction ends. A trip of the output
under test ends it TRIPPED with the fault's kind: its circuit is TRIPPED below the trip limit, and a
free spare becomes BAD; at the trip limit the output is BAD, and the lowest free spare takes the circuit
over or it is FAILED (R126), stated with no further output on. R131: a test ends ABORTED for LIMIT where
the limit of its output opens, its circuit then being INHIBITED (R81); for ALLOTMENT where the own
allotment falls below its load, at the entry to RETIRED, and, stated with no further output on, at a
swap and at a conflict that degrades the round (R65), its circuit then being in SETTLING, where a test
that still fits goes on and the new grants are reduced by its deduction; and for BINDING where its spare
is taken for a circuit that has reached its trip limit (R126), the window start of an output whose
filtered leakage is asserted among the ways, stated with no further output on. R66: at each of these
ends the grants are found again by kind for the circuits as they then stand, without deduction, stated
with no further output on; before a binding the circuit that has failed takes none of a local spread. -/
def Obligations.TestEndsDone : Prop :=
  (∀ (t0 : TestRecord) (s : State), s.plant.ogd.test = some t0 →
     ∃ t, exec .testDurationExpiry s = .next t ∧ t = { s with plant := t.plant } ∧
       TestEnded .done t0 t ∧ t.plant.alu = { s.plant.alu with deduction := none } ∧
       ((∀ j : Fin 6, j ≠ t0.output → s.plant.ogd.outputs[j].energized = false) →
         GrantsByKind t) ∧
       ∀ c : Fin 6, t0.circuit = some c → s.plant.cct[c].state = .testing →
         t.plant.cct[c].state = .settling) ∧
  (∀ (x : Instr) (k : FaultKind) (t0 : TestRecord) (s : State), s.plant.ogd.test = some t0 →
     Trips s t0.output x k → (∀ c, x ≠ .onTimeElapsed c) →
     s.plant.ogd.outputs[t0.output].energized = true →
     (∀ c : Fin 6, s.plant.ogd.outputs[t0.output].role.circuit = some c →
       s.plant.ogd.trips[c].count + 1 < s.img.tripLimit →
       ∃ t, exec x s = .next t ∧ t = { s with plant := t.plant } ∧
         TestEnded (.tripped k) t0 t ∧ t.plant.cct[c].state = .tripped ∧ Held t .circuitTrip ∧
         ((∀ j : Fin 6, j ≠ t0.output → s.plant.ogd.outputs[j].energized = false) →
           GrantsByKind t ∧ TripTaken k t0.output s t ∧ TripHeldOff t0.output c s t)) ∧
     (s.plant.ogd.outputs[t0.output].role = .spareFree →
       ∃ t, exec x s = .next t ∧ t = { s with plant := t.plant } ∧
         TestEnded (.tripped k) t0 t ∧ t.plant.ogd.outputs[t0.output].role = .bad ∧
         Held t .circuitTrip ∧
         ((∀ j : Fin 6, j ≠ t0.output → s.plant.ogd.outputs[j].energized = false) →
           GrantsByKind t ∧ TripTaken k t0.output s t))) ∧
  (∀ (t0 : TestRecord) (s : State), s.plant.ogd.test = some t0 →
     s.plant.ogd.outputs[t0.output].limit.level = some false →
     t0.circuit = s.plant.ogd.outputs[t0.output].role.circuit →
     ∃ t, exec (.limitFilteredChange t0.output true) s = .next t ∧ t = { s with plant := t.plant } ∧
       TestEnded (.aborted .limit) t0 t ∧
       ((∀ j : Fin 6, j ≠ t0.output → s.plant.ogd.outputs[j].energized = false) →
         GrantsByKind t) ∧
       ∀ c : Fin 6, t0.circuit = some c → s.plant.cct[c].state = .testing →
         t.plant.cct[c].state = .inhibited ∧ Held t .limitOpen) ∧
  (∀ (tag a : Byte) (t0 : TestRecord) (s : State), canReceive s = true →
     s.rct.membership.follows = true → NoRestartDue s → a.toNat = s.own →
     s.plant.ogd.test = some t0 → 0 < s.plant.ogd.outputs[t0.output].rated →
     ∃ t, exec (.retire 255 tag [a]) s = .next t ∧ TestEnded (.aborted .allotment) t0 t ∧
       GrantsByKind t) ∧
  (∀ (x : Instr) (t0 : TestRecord) (s : State), Reallots s x → s.plant.ogd.test = some t0 →
     (∀ j : Fin 6, j ≠ t0.output → s.plant.ogd.outputs[j].energized = false) →
     ∃ t, exec x s = .next t ∧
       (t.plant.alu.own < s.plant.ogd.outputs[t0.output].rated →
         TestEnded (.aborted .allotment) t0 t ∧ GrantsByKind t ∧
         ∀ c : Fin 6, t0.circuit = some c → s.plant.cct[c].state = .testing →
           t.plant.cct[c].state = .settling) ∧
       (s.plant.ogd.outputs[t0.output].rated ≤ t.plant.alu.own →
         t.plant.ogd.test = some t0 ∧
         t.plant.ogd.outputs[t0.output] = s.plant.ogd.outputs[t0.output] ∧
         t.plant.alu.deduction = some (t0.output, s.plant.ogd.outputs[t0.output].rated) ∧
         Deducted (deductBefore s.own { s.plant with alu := t.plant.alu }) t0.circuit
           (t.plant.alu.own - s.plant.ogd.outputs[t0.output].rated)
           (grantsByKind t.env { s.plant with alu := t.plant.alu }) (grantsInForce t.plant))) ∧
  (∀ (x : Instr) (k : FaultKind) (t0 : TestRecord) (c : Fin 6) (s : State),
     s.plant.ogd.test = some t0 → Trips s t0.output x k → (∀ c, x ≠ .onTimeElapsed c) →
     s.plant.ogd.outputs[t0.output].energized = true →
     s.plant.ogd.outputs[t0.output].role.circuit = some c →
     s.img.tripLimit = s.plant.ogd.trips[c].count + 1 →
     (∀ j : Fin 6, j ≠ t0.output → s.plant.ogd.outputs[j].energized = false) →
     ∃ t, exec x s = .next t ∧ t = { s with plant := t.plant } ∧ TestEnded (.tripped k) t0 t ∧
       GrantsByKind t ∧ TripTaken k t0.output s t ∧ TripFails t0.output c s t) ∧
  ∀ (x : Instr) (k : FaultKind) (t0 : TestRecord) (o c : Fin 6) (s : State),
    s.plant.ogd.test = some t0 → t0.circuit = none → t0.output ≠ o → TripDue s o c x k →
    s.plant.ogd.outputs[o].role.circuit = some c →
    s.img.tripLimit = s.plant.ogd.trips[c].count + 1 →
    s.plant.ogd.outputs[t0.output].role = .spareFree →
    (∀ j : Fin 6, j < t0.output → s.plant.ogd.outputs[j].role ≠ .spareFree) →
    (∀ j : Fin 6, j ≠ o → j ≠ t0.output → s.plant.ogd.outputs[j].energized = false) →
    ∃ t, exec x s = .next t ∧ t = { s with plant := t.plant } ∧
      TestEnded (.aborted .binding) t0 t ∧ TripTaken k o s t ∧
      t.plant.ogd.outputs[o].role = .bad ∧ t.plant.ogd.outputs[t0.output].role = .spareBound c ∧
      grantsInForce t.plant =
        grantsByKind t.env (s.plant.updCct c fun r => { r with state := .failed, need := 0 })

/-! ### The division of the budget -/

/-- R48: the share of a configured address is the floor plus its reserve. R51 to R56: a COMPLETE
division classifies every configured address, gives it its charge and its base, gathers the pool, takes
every record of every participant in order, and gives each the lesser of its need and the base left,
then the lesser of its residual need and the pool left. R53, R54: the charges, the bases and the pool
sum to the shares of the configured addresses, each address adding its share once. -/
def Obligations.ChargesBasesAndPoolSumToShares : Prop :=
  (∀ (m : Image) (a : Nat), 1 ≤ a → a ≤ m.stations → shareOf m a =
    (m.budget - (m.reserve1.2 + m.reserve2.2)) / m.stations +
      (if m.reserve1.1 = a then m.reserve1.2 else 0) +
      if m.reserve2.1 = a then m.reserve2.2 else 0) ∧
  (∀ (e : Env) (a : Nat), e.share a = if e.good then shareOf e.img a else 0) ∧
  (∀ (e : Env) (l : Ledger), e.img.stations ≤ 32 → DividedBy e l (divide e l)) ∧
  ∀ (e : Env) (l : Ledger), e.img.stations ≤ 32 →
    ((divide e l).entries.map AddrEntry.charge).sum + ((divide e l).entries.map AddrEntry.base).sum +
        (divide e l).poolTotal =
      ((List.range' 1 e.img.stations).map e.share).sum ∧
    ∀ a, poolShare e l a =
      match classify e.own l a with
      | .participant => e.share a - baseOf e l a
      | .released => e.share a
      | .charged => 0

/-- R48, R57: in every COMPLETE division under a good shared section, all that is charged and granted
over the configured addresses is at most the feeder budget. So the division in the allotment table holds
that bound right after reset and after every step. -/
def Obligations.DivisionStaysWithinTheBudget : Prop :=
  (∀ (e : Env) (l : Ledger), sharedOk e.img = true → (divide e l).total ≤ e.img.budget) ∧
  BudgetHeld State.reset ∧ ∀ s t : State, BudgetHeld s → step s = .next t → BudgetHeld t

/-- R59: the local spread takes the heating circuits in local order and grants each the lesser of its
need and the rest. R50, R58: a participant in a COMPLETE division grants each circuit what its own
records are granted, and every other computation the local spread of the own allotment. R50, R57, R59,
R61, R63, R64: no record of a division is granted more than its need; the local spread grants no circuit
more than its need and no more than the amount in all; the six grants of a computation sum to at most
the own allotment; the own allotment of a DEGRADED, CAPPED or NONE computation is at most the share.
R65: the test deduction grants the tested circuit 0 and lowers the others from the last circuit of the
local order backward, each no further than the room of the test asks; grants that already fit stay. A
participant's order is that of its own records; that circuits outside the order stand last is log entry
16. R50: the six grants in force sum to at most the own allotment, right after reset and after every
step. R66, R89: right after reset and after every step, rated load × duty in force of each circuit is at
most its grant, and while a test is in progress the grants leave room for the full rated load of the output
under test; so the duty-weighted rated loads of the circuits, together with that load, are held within the
own allotment. -/
def Obligations.GrantsStayWithinNeedAndAllotment : Prop :=
  (∀ (p : Plant) (amount : Nat), SpreadOf p amount (localSpread p amount)) ∧
  ((∀ (e : Env) (l : Ledger), 1 ≤ e.own → e.own ≤ e.img.stations → e.img.stations ≤ 32 →
      (isParticipant e.own (divide e l) = true ↔
        ∃ (i : Fin 32) (b : BidFrame), i.val + 1 = e.own ∧ Participates l i b)) ∧
   (∀ (own : Nat) (d : Division) (c : Fin 6), (recordGrants own d)[c] =
     ((d.records.filter fun r => decide (r.addr = own ∧ r.circuit = c.val + 1)).map fun r =>
       r.basePart + r.poolPart).sum) ∧
   ∀ (e : Env) (p : Plant),
     (∀ d, p.alu.division = some d → isParticipant e.own d = true →
       grantsByKind e p = recordGrants e.own d) ∧
     ((∀ d, p.alu.division = some d → isParticipant e.own d = false) →
       grantsByKind e p = localSpread p p.alu.own)) ∧
  ((∀ (e : Env) (l : Ledger), ∀ r ∈ (divide e l).records, r.grant ≤ r.need) ∧
   ∀ (p : Plant) (amount : Nat),
     (∀ c : Fin 6, (localSpread p amount)[c] ≤ p.cct[c].need) ∧
     grantSum (localSpread p amount) ≤ amount) ∧
  (∀ (e : Env) (round : Option RoundNo) (x : Computation) (p : Plant),
     grantSum (grantsByKind e { p with alu := allotTable e round x }) ≤ (allotTable e round x).own ∧
     ((allotTable e round x).kind ≠ .complete → (allotTable e round x).own ≤ e.share e.own)) ∧
  (∀ (e : Env) (p : Plant) (circuit : Option (Fin 6)) (room : Nat) (g : Vector Nat 6),
     Deducted (deductBefore e.own p) circuit room g (deductGrants e p circuit room g)) ∧
  (GrantsHeld State.reset ∧ ∀ s t : State, GrantsHeld s → step s = .next t → GrantsHeld t) ∧
  (LoadsHeld State.reset ∧ ∀ s t : State, LoadsHeld s → step s = .next t → LoadsHeld t) ∧
  ∀ s : State, LoadsHeld s →
    (sixIds.map fun c => s.plant.ogd.ratedOf c * s.plant.cct[c].onTime).sum ≤
      s.plant.alu.own * (s.img.window * 1000) ∧
    ∀ t, s.plant.ogd.test = some t →
      (sixIds.map fun c => s.plant.ogd.ratedOf c * s.plant.cct[c].onTime).sum +
        s.plant.ogd.outputs[t.output].rated * (s.img.window * 1000) ≤
      s.plant.alu.own * (s.img.window * 1000)

/-! ### Factors and safety -/

/-- R181: ALARM is asserted exactly when some factor has status set and mask clear, in every state;
while the reset pin is held and on its release it is released. R177, R182: a raise sets its factor's
status whatever the mask, and no other; the alarm summary is the level ALARM would have without
PEER_ALARM. -/
def Obligations.AlarmFollowsTheFactorSets : Prop :=
  ((∀ s : State, s.alarm = true ↔
     ∃ i : Fin 24, s.plant.fct.status.getLsbD i.val = true ∧ s.plant.fct.mask.getLsbD i.val = false) ∧
   (∀ s t : State, exec .pinReset s = .next t → t.alarm = false ∧ t.plant.fct = ⟨0, 0⟩) ∧
   ∀ (straps : BitVec 5) (s t u : State), exec .pinReset s = .next t →
     exec (.resetnRelease straps) t = .next u → u.alarm = false ∧ u.plant.fct = ⟨0, 0⟩) ∧
  ∀ (u : Fct) (x y : Factor),
    (u.raise x).held y = (u.held y || decide (x = y)) ∧ (u.raise x).mask = u.mask ∧
    (u.summary = true ↔ ∃ i : Fin 24, i.val ≠ 15 ∧ u.status.getLsbD i.val = true ∧
      u.mask.getLsbD i.val = false)

/-- R176: the factor sets never come to hold a code that names no factor, whatever a step does. -/
def Obligations.FactorSetsStayNamed : Prop :=
  ∀ s t : State, FactorsNamed s → step s = .next t → FactorsNamed t

/-- The factor sets are empty right after reset (R176), so the invariant of the factor sets holds there.
-/
def Obligations.FactorSetsNamedAtReset : Prop := FactorsNamed State.reset

/-- R113: the BAD set does not shrink, whatever command is taken, except at pin reset. A circuit's trip count
never exceeds the trip limit: right after reset and after every step each of the six is at most the limit
of the image in force, and that of a circuit that has an output is below it, in a station whose outputs are
in order (R112, R118) and whose image, while rounds are followed, passed its judgement (R189). -/
def Obligations.BadSetNeverShrinks : Prop :=
  (∀ (x : Instr) (s t : State), x ≠ .pinReset → exec x s = .next t → BadKept s t) ∧
  TripCountsHeld State.reset ∧
  ∀ s t : State, TripCountsHeld s → step s = .next t → TripCountsHeld t

/-- R118: whatever command is taken in whatever state, an output that it puts on may be on: the
membership follows rounds, the output is bound to a circuit in SETTLING, REGULATING, SENSOR-LOST or
TESTING or is a free spare under test, and its filtered limit is closed. Every output that is on may be
on, so long as the outputs are in order, which they are right after reset and after every step (R112,
R129, R185). -/
def Obligations.OutputsTurnOnSafely : Prop :=
  (∀ (x : Instr) (s t : State) (o : Fin 6), exec x s = .next t →
     s.plant.ogd.outputs[o].energized = false → t.plant.ogd.outputs[o].energized = true →
     mayBeOn t.rct.membership t.plant o = true) ∧
  (∀ (s : State) (o : Fin 6), OutputsSafe s → s.plant.ogd.outputs[o].energized = true →
     mayBeOn s.rct.membership s.plant o = true) ∧
  OutputsSafe State.reset ∧ ∀ s t : State, OutputsSafe s → step s = .next t → OutputsSafe t

end
end

