-- ==== Sys2Proof/Laws/State.lean ====
section
/-! SUPPORT. One lemma per field of State and of Plant for each update, and what reading a row of a
rewritten table gives. -/

namespace Sys2Proof.Machine

@[simp] theorem updSul_pins (f : Sul → Sul) (s : State) : (updSul f s).pins = s.pins := rfl
@[simp] theorem updSul_sul (f : Sul → Sul) (s : State) : (updSul f s).sul = f s.sul := rfl
@[simp] theorem updSul_rct (f : Sul → Sul) (s : State) : (updSul f s).rct = s.rct := rfl
@[simp] theorem updSul_rst (f : Sul → Sul) (s : State) : (updSul f s).rst = s.rst := rfl
@[simp] theorem updSul_plant (f : Sul → Sul) (s : State) : (updSul f s).plant = s.plant := rfl
@[simp] theorem updSul_ssc (f : Sul → Sul) (s : State) : (updSul f s).ssc = s.ssc := rfl
@[simp] theorem updSul_lif (f : Sul → Sul) (s : State) : (updSul f s).lif = s.lif := rfl
@[simp] theorem updSul_lck (f : Sul → Sul) (s : State) : (updSul f s).lck = s.lck := rfl
@[simp] theorem updSul_srv (f : Sul → Sul) (s : State) : (updSul f s).srv = s.srv := rfl
@[simp] theorem updSul_now (f : Sul → Sul) (s : State) : (updSul f s).now = s.now := rfl
@[simp] theorem updSul_pending (f : Sul → Sul) (s : State) : (updSul f s).pending = s.pending := rfl

@[simp] theorem updRct_pins (f : Rct → Rct) (s : State) : (updRct f s).pins = s.pins := rfl
@[simp] theorem updRct_sul (f : Rct → Rct) (s : State) : (updRct f s).sul = s.sul := rfl
@[simp] theorem updRct_rct (f : Rct → Rct) (s : State) : (updRct f s).rct = f s.rct := rfl
@[simp] theorem updRct_rst (f : Rct → Rct) (s : State) : (updRct f s).rst = s.rst := rfl
@[simp] theorem updRct_plant (f : Rct → Rct) (s : State) : (updRct f s).plant = s.plant := rfl
@[simp] theorem updRct_ssc (f : Rct → Rct) (s : State) : (updRct f s).ssc = s.ssc := rfl
@[simp] theorem updRct_lif (f : Rct → Rct) (s : State) : (updRct f s).lif = s.lif := rfl
@[simp] theorem updRct_lck (f : Rct → Rct) (s : State) : (updRct f s).lck = s.lck := rfl
@[simp] theorem updRct_srv (f : Rct → Rct) (s : State) : (updRct f s).srv = s.srv := rfl
@[simp] theorem updRct_now (f : Rct → Rct) (s : State) : (updRct f s).now = s.now := rfl
@[simp] theorem updRct_pending (f : Rct → Rct) (s : State) : (updRct f s).pending = s.pending := rfl

@[simp] theorem updLif_pins (f : Lif → Lif) (s : State) : (updLif f s).pins = s.pins := rfl
@[simp] theorem updLif_sul (f : Lif → Lif) (s : State) : (updLif f s).sul = s.sul := rfl
@[simp] theorem updLif_rct (f : Lif → Lif) (s : State) : (updLif f s).rct = s.rct := rfl
@[simp] theorem updLif_rst (f : Lif → Lif) (s : State) : (updLif f s).rst = s.rst := rfl
@[simp] theorem updLif_plant (f : Lif → Lif) (s : State) : (updLif f s).plant = s.plant := rfl
@[simp] theorem updLif_ssc (f : Lif → Lif) (s : State) : (updLif f s).ssc = s.ssc := rfl
@[simp] theorem updLif_lif (f : Lif → Lif) (s : State) : (updLif f s).lif = f s.lif := rfl
@[simp] theorem updLif_lck (f : Lif → Lif) (s : State) : (updLif f s).lck = s.lck := rfl
@[simp] theorem updLif_srv (f : Lif → Lif) (s : State) : (updLif f s).srv = s.srv := rfl
@[simp] theorem updLif_now (f : Lif → Lif) (s : State) : (updLif f s).now = s.now := rfl
@[simp] theorem updLif_pending (f : Lif → Lif) (s : State) : (updLif f s).pending = s.pending := rfl

@[simp] theorem updPins_pins (f : Pins → Pins) (s : State) : (updPins f s).pins = f s.pins := rfl
@[simp] theorem updPins_sul (f : Pins → Pins) (s : State) : (updPins f s).sul = s.sul := rfl
@[simp] theorem updPins_rct (f : Pins → Pins) (s : State) : (updPins f s).rct = s.rct := rfl
@[simp] theorem updPins_rst (f : Pins → Pins) (s : State) : (updPins f s).rst = s.rst := rfl
@[simp] theorem updPins_plant (f : Pins → Pins) (s : State) : (updPins f s).plant = s.plant := rfl
@[simp] theorem updPins_ssc (f : Pins → Pins) (s : State) : (updPins f s).ssc = s.ssc := rfl
@[simp] theorem updPins_lif (f : Pins → Pins) (s : State) : (updPins f s).lif = s.lif := rfl
@[simp] theorem updPins_lck (f : Pins → Pins) (s : State) : (updPins f s).lck = s.lck := rfl
@[simp] theorem updPins_srv (f : Pins → Pins) (s : State) : (updPins f s).srv = s.srv := rfl
@[simp] theorem updPins_now (f : Pins → Pins) (s : State) : (updPins f s).now = s.now := rfl
@[simp] theorem updPins_pending (f : Pins → Pins) (s : State) : (updPins f s).pending = s.pending := rfl

@[simp] theorem updTotals_pins (f : Totals → Totals) (s : State) :
    (updTotals f s).pins = s.pins := rfl
@[simp] theorem updTotals_sul (f : Totals → Totals) (s : State) :
    (updTotals f s).sul = s.sul := rfl
@[simp] theorem updTotals_rct (f : Totals → Totals) (s : State) :
    (updTotals f s).rct = s.rct := rfl
@[simp] theorem updTotals_rst (f : Totals → Totals) (s : State) :
    (updTotals f s).rst = s.rst := rfl
@[simp] theorem updTotals_plant (f : Totals → Totals) (s : State) :
    (updTotals f s).plant = s.plant := rfl
@[simp] theorem updTotals_ssc (f : Totals → Totals) (s : State) :
    (updTotals f s).ssc = s.ssc := rfl
@[simp] theorem updTotals_lif (f : Totals → Totals) (s : State) :
    (updTotals f s).lif = s.lif := rfl
@[simp] theorem updTotals_lck (f : Totals → Totals) (s : State) :
    (updTotals f s).lck = { s.lck with totals := f s.lck.totals } := rfl
@[simp] theorem updTotals_srv (f : Totals → Totals) (s : State) :
    (updTotals f s).srv = s.srv := rfl
@[simp] theorem updTotals_now (f : Totals → Totals) (s : State) :
    (updTotals f s).now = s.now := rfl
@[simp] theorem updTotals_pending (f : Totals → Totals) (s : State) :
    (updTotals f s).pending = s.pending := rfl

@[simp] theorem updEmission_pins (f : Emission → Emission) (s : State) :
    (updEmission f s).pins = s.pins := rfl
@[simp] theorem updEmission_sul (f : Emission → Emission) (s : State) :
    (updEmission f s).sul = s.sul := rfl
@[simp] theorem updEmission_rct (f : Emission → Emission) (s : State) :
    (updEmission f s).rct = s.rct := rfl
@[simp] theorem updEmission_rst (f : Emission → Emission) (s : State) :
    (updEmission f s).rst = s.rst := rfl
@[simp] theorem updEmission_plant (f : Emission → Emission) (s : State) :
    (updEmission f s).plant = s.plant := rfl
@[simp] theorem updEmission_ssc (f : Emission → Emission) (s : State) :
    (updEmission f s).ssc = s.ssc := rfl
@[simp] theorem updEmission_lif (f : Emission → Emission) (s : State) :
    (updEmission f s).lif = s.lif := rfl
@[simp] theorem updEmission_lck (f : Emission → Emission) (s : State) :
    (updEmission f s).lck = { s.lck with emission := f s.lck.emission } := rfl
@[simp] theorem updEmission_srv (f : Emission → Emission) (s : State) :
    (updEmission f s).srv = s.srv := rfl
@[simp] theorem updEmission_now (f : Emission → Emission) (s : State) :
    (updEmission f s).now = s.now := rfl
@[simp] theorem updEmission_pending (f : Emission → Emission) (s : State) :
    (updEmission f s).pending = s.pending := rfl

@[simp] theorem State.raise_pins (s : State) (x : Factor) : (s.raise x).pins = s.pins := rfl
@[simp] theorem State.raise_sul (s : State) (x : Factor) : (s.raise x).sul = s.sul := rfl
@[simp] theorem State.raise_rct (s : State) (x : Factor) : (s.raise x).rct = s.rct := rfl
@[simp] theorem State.raise_rst (s : State) (x : Factor) : (s.raise x).rst = s.rst := rfl
@[simp] theorem State.raise_plant (s : State) (x : Factor) : (s.raise x).plant = s.plant.raise x := rfl
@[simp] theorem State.raise_ssc (s : State) (x : Factor) : (s.raise x).ssc = s.ssc := rfl
@[simp] theorem State.raise_lif (s : State) (x : Factor) : (s.raise x).lif = s.lif := rfl
@[simp] theorem State.raise_lck (s : State) (x : Factor) : (s.raise x).lck = s.lck := rfl
@[simp] theorem State.raise_srv (s : State) (x : Factor) : (s.raise x).srv = s.srv := rfl
@[simp] theorem State.raise_now (s : State) (x : Factor) : (s.raise x).now = s.now := rfl
@[simp] theorem State.raise_pending (s : State) (x : Factor) : (s.raise x).pending = s.pending := rfl
@[simp] theorem State.raiseIf_pins (s : State) (b : Bool) (x : Factor) :
    (s.raiseIf b x).pins = s.pins := rfl
@[simp] theorem State.raiseIf_sul (s : State) (b : Bool) (x : Factor) :
    (s.raiseIf b x).sul = s.sul := rfl
@[simp] theorem State.raiseIf_rct (s : State) (b : Bool) (x : Factor) :
    (s.raiseIf b x).rct = s.rct := rfl
@[simp] theorem State.raiseIf_rst (s : State) (b : Bool) (x : Factor) :
    (s.raiseIf b x).rst = s.rst := rfl
@[simp] theorem State.raiseIf_plant (s : State) (b : Bool) (x : Factor) :
    (s.raiseIf b x).plant = s.plant.raiseIf b x := rfl
@[simp] theorem State.raiseIf_ssc (s : State) (b : Bool) (x : Factor) :
    (s.raiseIf b x).ssc = s.ssc := rfl
@[simp] theorem State.raiseIf_lif (s : State) (b : Bool) (x : Factor) :
    (s.raiseIf b x).lif = s.lif := rfl
@[simp] theorem State.raiseIf_lck (s : State) (b : Bool) (x : Factor) :
    (s.raiseIf b x).lck = s.lck := rfl
@[simp] theorem State.raiseIf_srv (s : State) (b : Bool) (x : Factor) :
    (s.raiseIf b x).srv = s.srv := rfl
@[simp] theorem State.raiseIf_now (s : State) (b : Bool) (x : Factor) :
    (s.raiseIf b x).now = s.now := rfl
@[simp] theorem State.raiseIf_pending (s : State) (b : Bool) (x : Factor) :
    (s.raiseIf b x).pending = s.pending := rfl
@[simp] theorem onPlant_pins (f : Env → Plant → Plant) (s : State) :
    (onPlant f s).pins = s.pins := rfl
@[simp] theorem onPlant_sul (f : Env → Plant → Plant) (s : State) :
    (onPlant f s).sul = s.sul := rfl
@[simp] theorem onPlant_rct (f : Env → Plant → Plant) (s : State) :
    (onPlant f s).rct = s.rct := rfl
@[simp] theorem onPlant_rst (f : Env → Plant → Plant) (s : State) :
    (onPlant f s).rst = s.rst := rfl
@[simp] theorem onPlant_plant (f : Env → Plant → Plant) (s : State) :
    (onPlant f s).plant = f s.env s.plant := rfl
@[simp] theorem onPlant_ssc (f : Env → Plant → Plant) (s : State) :
    (onPlant f s).ssc = s.ssc := rfl
@[simp] theorem onPlant_lif (f : Env → Plant → Plant) (s : State) :
    (onPlant f s).lif = s.lif := rfl
@[simp] theorem onPlant_lck (f : Env → Plant → Plant) (s : State) :
    (onPlant f s).lck = s.lck := rfl
@[simp] theorem onPlant_srv (f : Env → Plant → Plant) (s : State) :
    (onPlant f s).srv = s.srv := rfl
@[simp] theorem onPlant_now (f : Env → Plant → Plant) (s : State) :
    (onPlant f s).now = s.now := rfl
@[simp] theorem onPlant_pending (f : Env → Plant → Plant) (s : State) :
    (onPlant f s).pending = s.pending := rfl

@[simp] theorem Plant.updOut_cct (p : Plant) (o : Fin 6) (f : OutputRow → OutputRow) :
    (p.updOut o f).cct = p.cct := rfl
@[simp] theorem Plant.updOut_alu (p : Plant) (o : Fin 6) (f : OutputRow → OutputRow) :
    (p.updOut o f).alu = p.alu := rfl
@[simp] theorem Plant.updOut_fct (p : Plant) (o : Fin 6) (f : OutputRow → OutputRow) :
    (p.updOut o f).fct = p.fct := rfl
@[simp] theorem Plant.updOut_free (p : Plant) (o : Fin 6) (f : OutputRow → OutputRow) :
    (p.updOut o f).free = p.free := rfl
@[simp] theorem Plant.updOut_outputs (p : Plant) (o : Fin 6) (f : OutputRow → OutputRow) :
    (p.updOut o f).ogd.outputs = updAt p.ogd.outputs o f := rfl
@[simp] theorem Plant.updOut_trips (p : Plant) (o : Fin 6) (f : OutputRow → OutputRow) :
    (p.updOut o f).ogd.trips = p.ogd.trips := rfl
@[simp] theorem Plant.updOut_flow (p : Plant) (o : Fin 6) (f : OutputRow → OutputRow) :
    (p.updOut o f).ogd.flow = p.ogd.flow := rfl
@[simp] theorem Plant.updOut_test (p : Plant) (o : Fin 6) (f : OutputRow → OutputRow) :
    (p.updOut o f).ogd.test = p.ogd.test := rfl

@[simp] theorem Plant.updCct_cct (p : Plant) (c : Fin 6) (f : CircuitRow → CircuitRow) :
    (p.updCct c f).cct = updAt p.cct c f := rfl
@[simp] theorem Plant.updCct_alu (p : Plant) (c : Fin 6) (f : CircuitRow → CircuitRow) :
    (p.updCct c f).alu = p.alu := rfl
@[simp] theorem Plant.updCct_fct (p : Plant) (c : Fin 6) (f : CircuitRow → CircuitRow) :
    (p.updCct c f).fct = p.fct := rfl
@[simp] theorem Plant.updCct_free (p : Plant) (c : Fin 6) (f : CircuitRow → CircuitRow) :
    (p.updCct c f).free = p.free := rfl
@[simp] theorem Plant.updCct_outputs (p : Plant) (c : Fin 6) (f : CircuitRow → CircuitRow) :
    (p.updCct c f).ogd.outputs = p.ogd.outputs := rfl
@[simp] theorem Plant.updCct_trips (p : Plant) (c : Fin 6) (f : CircuitRow → CircuitRow) :
    (p.updCct c f).ogd.trips = p.ogd.trips := rfl
@[simp] theorem Plant.updCct_flow (p : Plant) (c : Fin 6) (f : CircuitRow → CircuitRow) :
    (p.updCct c f).ogd.flow = p.ogd.flow := rfl
@[simp] theorem Plant.updCct_test (p : Plant) (c : Fin 6) (f : CircuitRow → CircuitRow) :
    (p.updCct c f).ogd.test = p.ogd.test := rfl

@[simp] theorem Plant.updTrip_cct (p : Plant) (c : Fin 6) (f : TripRec → TripRec) :
    (p.updTrip c f).cct = p.cct := rfl
@[simp] theorem Plant.updTrip_alu (p : Plant) (c : Fin 6) (f : TripRec → TripRec) :
    (p.updTrip c f).alu = p.alu := rfl
@[simp] theorem Plant.updTrip_fct (p : Plant) (c : Fin 6) (f : TripRec → TripRec) :
    (p.updTrip c f).fct = p.fct := rfl
@[simp] theorem Plant.updTrip_free (p : Plant) (c : Fin 6) (f : TripRec → TripRec) :
    (p.updTrip c f).free = p.free := rfl
@[simp] theorem Plant.updTrip_outputs (p : Plant) (c : Fin 6) (f : TripRec → TripRec) :
    (p.updTrip c f).ogd.outputs = p.ogd.outputs := rfl
@[simp] theorem Plant.updTrip_trips (p : Plant) (c : Fin 6) (f : TripRec → TripRec) :
    (p.updTrip c f).ogd.trips = updAt p.ogd.trips c f := rfl
@[simp] theorem Plant.updTrip_flow (p : Plant) (c : Fin 6) (f : TripRec → TripRec) :
    (p.updTrip c f).ogd.flow = p.ogd.flow := rfl
@[simp] theorem Plant.updTrip_test (p : Plant) (c : Fin 6) (f : TripRec → TripRec) :
    (p.updTrip c f).ogd.test = p.ogd.test := rfl

@[simp] theorem Plant.setTest_cct (p : Plant) (t : Option TestRecord) :
    (p.setTest t).cct = p.cct := rfl
@[simp] theorem Plant.setTest_alu (p : Plant) (t : Option TestRecord) :
    (p.setTest t).alu = p.alu := rfl
@[simp] theorem Plant.setTest_fct (p : Plant) (t : Option TestRecord) :
    (p.setTest t).fct = p.fct := rfl
@[simp] theorem Plant.setTest_free (p : Plant) (t : Option TestRecord) :
    (p.setTest t).free = p.free := rfl
@[simp] theorem Plant.setTest_outputs (p : Plant) (t : Option TestRecord) :
    (p.setTest t).ogd.outputs = p.ogd.outputs := rfl
@[simp] theorem Plant.setTest_trips (p : Plant) (t : Option TestRecord) :
    (p.setTest t).ogd.trips = p.ogd.trips := rfl
@[simp] theorem Plant.setTest_flow (p : Plant) (t : Option TestRecord) :
    (p.setTest t).ogd.flow = p.ogd.flow := rfl
@[simp] theorem Plant.setTest_test (p : Plant) (t : Option TestRecord) :
    (p.setTest t).ogd.test = t := rfl

@[simp] theorem Plant.raise_cct (p : Plant) (x : Factor) :
    (p.raise x).cct = p.cct := rfl
@[simp] theorem Plant.raise_alu (p : Plant) (x : Factor) :
    (p.raise x).alu = p.alu := rfl
@[simp] theorem Plant.raise_fct (p : Plant) (x : Factor) :
    (p.raise x).fct = p.fct.raise x := rfl
@[simp] theorem Plant.raise_free (p : Plant) (x : Factor) :
    (p.raise x).free = p.free := rfl
@[simp] theorem Plant.raise_outputs (p : Plant) (x : Factor) :
    (p.raise x).ogd.outputs = p.ogd.outputs := rfl
@[simp] theorem Plant.raise_trips (p : Plant) (x : Factor) :
    (p.raise x).ogd.trips = p.ogd.trips := rfl
@[simp] theorem Plant.raise_flow (p : Plant) (x : Factor) :
    (p.raise x).ogd.flow = p.ogd.flow := rfl
@[simp] theorem Plant.raise_test (p : Plant) (x : Factor) :
    (p.raise x).ogd.test = p.ogd.test := rfl

@[simp] theorem Plant.raiseIf_cct (p : Plant) (b : Bool) (x : Factor) :
    (p.raiseIf b x).cct = p.cct := rfl
@[simp] theorem Plant.raiseIf_alu (p : Plant) (b : Bool) (x : Factor) :
    (p.raiseIf b x).alu = p.alu := rfl
@[simp] theorem Plant.raiseIf_fct (p : Plant) (b : Bool) (x : Factor) :
    (p.raiseIf b x).fct = p.fct.raiseIf b x := rfl
@[simp] theorem Plant.raiseIf_free (p : Plant) (b : Bool) (x : Factor) :
    (p.raiseIf b x).free = p.free := rfl
@[simp] theorem Plant.raiseIf_outputs (p : Plant) (b : Bool) (x : Factor) :
    (p.raiseIf b x).ogd.outputs = p.ogd.outputs := rfl
@[simp] theorem Plant.raiseIf_trips (p : Plant) (b : Bool) (x : Factor) :
    (p.raiseIf b x).ogd.trips = p.ogd.trips := rfl
@[simp] theorem Plant.raiseIf_flow (p : Plant) (b : Bool) (x : Factor) :
    (p.raiseIf b x).ogd.flow = p.ogd.flow := rfl
@[simp] theorem Plant.raiseIf_test (p : Plant) (b : Bool) (x : Factor) :
    (p.raiseIf b x).ogd.test = p.ogd.test := rfl

@[simp] theorem Plant.updCct_ogd (p : Plant) (c : Fin 6) (f : CircuitRow → CircuitRow) :
    (p.updCct c f).ogd = p.ogd := rfl
@[simp] theorem Plant.raise_ogd (p : Plant) (x : Factor) : (p.raise x).ogd = p.ogd := rfl
@[simp] theorem Plant.raiseIf_ogd (p : Plant) (b : Bool) (x : Factor) :
    (p.raiseIf b x).ogd = p.ogd := rfl

/-! ### Rows of rewritten tables -/

theorem updAt_get {α : Type} {n : Nat} (v : Vector α n) (i j : Fin n) (f : α → α) :
    (updAt v i f)[j] = if i = j then f v[i] else v[j] := by
  simp [updAt, Vector.getElem_set, Fin.ext_iff]

@[simp] theorem updAt_getElem {α : Type} {n : Nat} (v : Vector α n) (i : Fin n) (f : α → α) (k : Nat)
    (h : k < n) : (updAt v i f)[k] = if i.val = k then f v[i] else v[k] := by
  simp [updAt, Vector.getElem_set]

theorem mapRows_get {α : Type} {n : Nat} (v : Vector α n) (f : Fin n → α → α) (j : Fin n) :
    (mapRows v f)[j] = f j v[j] := by
  simp [mapRows]

@[simp] theorem mapRows_getElem {α : Type} {n : Nat} (v : Vector α n) (f : Fin n → α → α) (k : Nat)
    (h : k < n) : (mapRows v f)[k] = f ⟨k, h⟩ v[k] := by
  simp [mapRows]

theorem mem_sixIds (c : Fin 6) : c ∈ sixIds := by
  revert c; decide

theorem mem_eightIds (t : Fin 8) : t ∈ eightIds := by
  revert t; decide

/-- The place of a station's address. -/
theorem place_eq (a : Nat) (h : 1 ≤ a ∧ a ≤ 32) : place a = some ⟨a - 1, by omega⟩ := by
  simp [place, h]

/-- An address has a place exactly where it lies in 1…32. -/
theorem place_some {a : Nat} {i : Fin 32} (h : place a = some i) : a = i.val + 1 := by
  unfold place at h
  split at h
  · simp at h; subst h; simp; omega
  · simp at h

/-- The address of a place. -/
@[simp] theorem place_succ (i : Fin 32) : place (i.val + 1) = some i := by
  have := i.isLt
  rw [place, dif_pos (by omega)]
  simp

/-- The update of the factor sets by a raise leaves the masks. -/
@[simp] theorem Fct.raise_mask (u : Fct) (x : Factor) : (u.raise x).mask = u.mask := rfl
@[simp] theorem Fct.raise_status (u : Fct) (x : Factor) : (u.raise x).status = u.status ||| x.mark := rfl
@[simp] theorem Fct.raiseIf_mask (u : Fct) (b : Bool) (x : Factor) : (u.raiseIf b x).mask = u.mask := by
  cases b <;> rfl
@[simp] theorem Fct.raiseIf_status (u : Fct) (b : Bool) (x : Factor) :
    (u.raiseIf b x).status = if b then u.status ||| x.mark else u.status := by
  cases b <;> rfl
@[simp] theorem Fct.raiseIf_true (u : Fct) (x : Factor) : u.raiseIf true x = u.raise x := rfl
@[simp] theorem Fct.raiseIf_false (u : Fct) (x : Factor) : u.raiseIf false x = u := rfl

/-! ### One row of a table of the plant -/

theorem updOut_row (p : Plant) (o : Fin 6) (f : OutputRow → OutputRow) :
    (p.updOut o f).ogd.outputs[o] = f p.ogd.outputs[o] := by
  show (updAt _ _ _)[o] = _
  rw [updAt_get, if_pos rfl]

theorem updOut_other (p : Plant) (o j : Fin 6) (f : OutputRow → OutputRow) (h : j ≠ o) :
    (p.updOut o f).ogd.outputs[j] = p.ogd.outputs[j] := by
  show (updAt _ _ _)[j] = _
  rw [updAt_get, if_neg h.symm]

theorem updOut_congr (p : Plant) (o : Fin 6) (f g : OutputRow → OutputRow)
    (h : f p.ogd.outputs[o] = g p.ogd.outputs[o]) : p.updOut o f = p.updOut o g := by
  unfold Plant.updOut updAt
  rw [h]

theorem updCct_row (p : Plant) (c : Fin 6) (f : CircuitRow → CircuitRow) :
    (p.updCct c f).cct[c] = f p.cct[c] := by
  show (updAt _ _ _)[c] = _
  rw [updAt_get, if_pos rfl]

theorem updCct_other (p : Plant) (c j : Fin 6) (f : CircuitRow → CircuitRow) (h : j ≠ c) :
    (p.updCct c f).cct[j] = p.cct[j] := by
  show (updAt _ _ _)[j] = _
  rw [updAt_get, if_neg h.symm]

/-- A rewriting that keeps the grant of the row keeps every grant. -/
theorem updCct_grant (p : Plant) (c : Fin 6) (f : CircuitRow → CircuitRow)
    (hf : ∀ r, (f r).grant = r.grant) (j : Fin 6) : (p.updCct c f).cct[j].grant = p.cct[j].grant := by
  by_cases h : j = c
  · rw [h, updCct_row, hf]
  · rw [updCct_other _ _ _ _ h]

theorem updCct_congr (p : Plant) (c : Fin 6) (f g : CircuitRow → CircuitRow)
    (h : f p.cct[c] = g p.cct[c]) : p.updCct c f = p.updCct c g := by
  unfold Plant.updCct updAt
  rw [h]

theorem updTrip_row (p : Plant) (c : Fin 6) (f : TripRec → TripRec) :
    (p.updTrip c f).ogd.trips[c] = f p.ogd.trips[c] := by
  show (updAt _ _ _)[c] = _
  rw [updAt_get, if_pos rfl]

theorem updTrip_other (p : Plant) (c j : Fin 6) (f : TripRec → TripRec) (h : j ≠ c) :
    (p.updTrip c f).ogd.trips[j] = p.ogd.trips[j] := by
  show (updAt _ _ _)[j] = _
  rw [updAt_get, if_neg h.symm]

end Sys2Proof.Machine
end

