-- ==== Sys2Proof/Laws/Plant.lean ====
section
/-! SUPPORT. What every shared operation of the plant can do, said once: a relation that each of them
keeps, and one lemma per operation that cites it. -/

namespace Sys2Proof.Machine

/-- The codes of the factors that the Circuit Controller and the Output Guard raise (R176): 9 to 15. -/
def plantCodes : FactorSet := 0x007F00

/-- What cuts, trips, failures, ended tests and handed grants leave as it was: no BAD output is healed
(R113), none is switched on (R118), the mask stays, no factor leaves the status set and none but the
plant's own enters it (R176, R177); the rated loads, the filters, the windows, the order of the allotment
table but its deduction, and a test in progress is kept or removed; the samples of a period that were in
order stay so (R119). -/
structure Reach (p q : Plant) : Prop where
  bad : ∀ o : Fin 6, p.ogd.outputs[o].role = .bad → q.ogd.outputs[o].role = .bad
  off : ∀ o : Fin 6, q.ogd.outputs[o].energized = true → p.ogd.outputs[o].energized = true
  rated : ∀ o : Fin 6, q.ogd.outputs[o].rated = p.ogd.outputs[o].rated
  limit : ∀ o : Fin 6, q.ogd.outputs[o].limit = p.ogd.outputs[o].limit
  leakage : ∀ o : Fin 6, q.ogd.outputs[o].leakage = p.ogd.outputs[o].leakage
  flow : q.ogd.flow = p.ogd.flow
  toNext : ∀ c : Fin 6, q.cct[c].toNext = p.cct[c].toNext
  mask : q.fct.mask = p.fct.mask
  raised : ∀ i : Nat, p.fct.status.getLsbD i = true → q.fct.status.getLsbD i = true
  others : q.fct.status &&& ~~~plantCodes = p.fct.status &&& ~~~plantCodes
  table : { q.alu with deduction := none } = { p.alu with deduction := none }
  test : q.ogd.test = p.ogd.test ∨ q.ogd.test = none
  samples : ∀ o : Fin 6, WindowKept p.ogd.outputs[o] → WindowKept q.ogd.outputs[o]

theorem Reach.refl (p : Plant) : Reach p p where
  bad _ h := h
  off _ h := h
  rated _ := rfl
  limit _ := rfl
  leakage _ := rfl
  flow := rfl
  toNext _ := rfl
  mask := rfl
  raised _ h := h
  others := rfl
  table := rfl
  test := .inl rfl
  samples _ h := h

theorem Reach.trans {p q r : Plant} (h : Reach p q) (k : Reach q r) : Reach p r where
  bad o x := k.bad o (h.bad o x)
  off o x := h.off o (k.off o x)
  rated o := (k.rated o).trans (h.rated o)
  limit o := (k.limit o).trans (h.limit o)
  leakage o := (k.leakage o).trans (h.leakage o)
  flow := k.flow.trans h.flow
  toNext c := (k.toNext c).trans (h.toNext c)
  mask := k.mask.trans h.mask
  raised i x := k.raised i (h.raised i x)
  others := k.others.trans h.others
  table := k.table.trans h.table
  test := by
    rcases k.test with e | e
    · rcases h.test with f | f
      · exact .inl (e.trans f)
      · exact .inr (e.trans f)
    · exact .inr e
  samples o x := k.samples o (h.samples o x)

/-- The code of a factor names a factor (R176). -/
theorem Factor.mark_named (x : Factor) : x.mark &&& unnamedCodes = 0 := by
  cases x <;> decide

/-- Of two status sets that agree outside some codes, a code outside them is in both or in neither. -/
theorem status_agree {s t m : FactorSet} (h : t &&& ~~~m = s &&& ~~~m) {i : Nat} (hi : i < 24)
    (hm : m.getLsbD i = false) : t.getLsbD i = s.getLsbD i := by
  have := congrArg (fun x : FactorSet => x.getLsbD i) h
  simpa only [BitVec.getLsbD_and, BitVec.getLsbD_not, hm, hi, decide_true, Bool.not_false, Bool.and_true]
    using this

/-- A factor that the plant does not raise is held after as before. -/
theorem Reach.held {p q : Plant} (h : Reach p q) (x : Factor)
    (hx : plantCodes.getLsbD (x.code - 1) = false) : q.fct.held x = p.fct.held x :=
  status_agree h.others (by cases x <;> decide) hx

/-- Codes that name no factor stay out (R176). -/
theorem Reach.named {p q : Plant} (h : Reach p q) :
    q.fct.status &&& unnamedCodes = p.fct.status &&& unnamedCodes := by
  have e : unnamedCodes = ~~~plantCodes &&& unnamedCodes := by decide
  rw [e, ← BitVec.and_assoc, ← BitVec.and_assoc, h.others]

/-- A period of which nothing has passed has its samples in order (R119). -/
theorem PeriodBegun.kept {u : OutputRow} (h : PeriodBegun u) : WindowKept u := by
  obtain ⟨h1, h2, h3⟩ := h
  unfold WindowKept
  rw [h1, h2, h3]
  exact ⟨rfl, fun _ => rfl⟩

/-! ### Updates of one row -/

/-- An output row is rewritten so: BAD stays, nothing is switched on, ratings and filters stay. -/
theorem Reach.updOut (p : Plant) (o : Fin 6) (f : OutputRow → OutputRow)
    (hb : p.ogd.outputs[o].role = .bad → (f p.ogd.outputs[o]).role = .bad)
    (ho : (f p.ogd.outputs[o]).energized = true → p.ogd.outputs[o].energized = true)
    (hr : (f p.ogd.outputs[o]).rated = p.ogd.outputs[o].rated)
    (hl : (f p.ogd.outputs[o]).limit = p.ogd.outputs[o].limit)
    (hk : (f p.ogd.outputs[o]).leakage = p.ogd.outputs[o].leakage)
    (hw : WindowKept p.ogd.outputs[o] → WindowKept (f p.ogd.outputs[o]) := by exact id) :
    Reach p (p.updOut o f) where
  bad j x := by
    rw [Plant.updOut_outputs, updAt_get]
    split
    · rename_i e; subst e; exact hb x
    · exact x
  off j x := by
    rw [Plant.updOut_outputs, updAt_get] at x
    split at x
    · rename_i e; subst e; exact ho x
    · exact x
  rated j := by
    rw [Plant.updOut_outputs, updAt_get]
    split
    · rename_i e; subst e; exact hr
    · rfl
  limit j := by
    rw [Plant.updOut_outputs, updAt_get]
    split
    · rename_i e; subst e; exact hl
    · rfl
  leakage j := by
    rw [Plant.updOut_outputs, updAt_get]
    split
    · rename_i e; subst e; exact hk
    · rfl
  flow := rfl
  toNext _ := rfl
  mask := rfl
  raised _ h := h
  others := rfl
  table := rfl
  test := .inl rfl
  samples j x := by
    rw [Plant.updOut_outputs, updAt_get]
    split
    · rename_i e; subst e; exact hw x
    · exact x

/-- A circuit row is rewritten with its window kept. -/
theorem Reach.updCct (p : Plant) (c : Fin 6) (f : CircuitRow → CircuitRow)
    (hw : (f p.cct[c]).toNext = p.cct[c].toNext) : Reach p (p.updCct c f) where
  bad _ h := h
  off _ h := h
  rated _ := rfl
  limit _ := rfl
  leakage _ := rfl
  flow := rfl
  toNext j := by
    rw [Plant.updCct_cct, updAt_get]
    split
    · rename_i e; subst e; exact hw
    · rfl
  mask := rfl
  raised _ h := h
  others := rfl
  table := rfl
  test := .inl rfl
  samples _ h := h

/-- Every circuit row is rewritten with its window kept. -/
theorem Reach.mapCct (p : Plant) (f : Fin 6 → CircuitRow → CircuitRow)
    (hw : ∀ c r, (f c r).toNext = r.toNext) : Reach p { p with cct := mapRows p.cct f } where
  bad _ h := h
  off _ h := h
  rated _ := rfl
  limit _ := rfl
  leakage _ := rfl
  flow := rfl
  toNext j := by
    show (mapRows p.cct f)[j].toNext = _
    rw [mapRows_get, hw]
  mask := rfl
  raised _ h := h
  others := rfl
  table := rfl
  test := .inl rfl
  samples _ h := h

theorem Reach.updTrip (p : Plant) (c : Fin 6) (f : TripRec → TripRec) : Reach p (p.updTrip c f) :=
  { Reach.refl p with }

theorem Reach.endedTest (p : Plant) : Reach p (p.setTest none) :=
  { Reach.refl p with test := .inr rfl }

theorem Reach.free (p : Plant) (n : Nat) : Reach p { p with free := n } :=
  { Reach.refl p with }

theorem Reach.deduction (p : Plant) (d : Option (Fin 6 × Nat)) :
    Reach p { p with alu := { p.alu with deduction := d } } :=
  { Reach.refl p with table := rfl }

/-- One of the plant's own factors is raised (R177). -/
theorem Reach.raiseFactor (p : Plant) (x : Factor) (hx : x.mark &&& ~~~plantCodes = 0 := by decide) :
    Reach p (p.raise x) :=
  { Reach.refl p with
    raised := fun i h => by
      show (p.fct.status ||| x.mark).getLsbD i = true
      simp [h]
    others := by
      show (p.fct.status ||| x.mark) &&& ~~~plantCodes = _
      rw [BitVec.and_or_distrib_right, hx]
      simp }

theorem Reach.raiseFactorIf (p : Plant) (b : Bool) (x : Factor)
    (hx : x.mark &&& ~~~plantCodes = 0 := by decide) : Reach p (p.raiseIf b x) := by
  cases b
  · exact Reach.refl p
  · exact Reach.raiseFactor p x hx

/-! ### Named operations -/

theorem switchOff_reach (o : Fin 6) (p : Plant) : Reach p (switchOff o p) := by
  unfold switchOff
  split
  · exact (Reach.updOut p o (offRow p.free) (fun h => h) (by simp [offRow]) rfl rfl rfl
      fun _ => PeriodBegun.kept ⟨rfl, rfl, rfl⟩).trans (Reach.free _ _)
  · exact Reach.refl p

theorem endTest_reach (x : TestOutcome) (p : Plant) : Reach p (endTest x p) := by
  unfold endTest
  split
  · exact Reach.refl p
  · exact (Reach.updOut p _ _ (fun h => h) (fun h => h) rfl rfl rfl).trans (Reach.endedTest _)

theorem enterSettling_reach (e : Env) (c : Fin 6) (p : Plant) : Reach p (enterSettling e c p) :=
  Reach.updCct p c _ rfl

theorem afterAbort_reach (e : Env) (cause : AbortCause) (c : Fin 6) (p : Plant) :
    Reach p (afterAbort e cause c p) := by
  unfold afterAbort
  split
  · split
    · exact Reach.updCct p c _ rfl
    · exact enterSettling_reach e c p
  · exact Reach.refl p

theorem settleBound_reach (e : Env) (c q : Fin 6) (p : Plant) : Reach p (settleBound e c q p) := by
  unfold settleBound
  refine (enterSettling_reach e c p).trans ?_
  dsimp only
  split
  · exact Reach.updCct _ c _ rfl
  · exact Reach.refl _

/-- The lowest free spare is a free spare. -/
theorem lowestSpare_role {g : Ogd} {q : Fin 6} (h : g.lowestSpare = some q) :
    g.outputs[q].role = .spareFree := by
  simpa using List.find?_some h

theorem bindSpare_reach (c q : Fin 6) (p : Plant) (h : p.ogd.outputs[q].role = .spareFree) :
    Reach p (bindSpare c q p) :=
  (Reach.updOut p q (fun r => { r with role := .spareBound c, openCount := 0 })
    (fun x => by rw [h] at x; cases x) (fun x => x) rfl rfl rfl).trans (Reach.updTrip _ _ _)

/-- A re-spread that stays within `Reach`. -/
abbrev Tame (respread : Env → Plant → Plant) : Prop := ∀ e p, Reach p (respread e p)

theorem abortWith_reach {respread : Env → Plant → Plant} (hr : Tame respread) (e : Env)
    (cause : AbortCause) (p : Plant) : Reach p (abortWith respread e cause p) := by
  unfold abortWith
  split
  · exact Reach.refl p
  · rename_i t _
    refine ((switchOff_reach t.output p).trans (endTest_reach (.aborted cause) _)).trans ?_
    refine Reach.trans ?_ (hr _ _)
    split
    · exact afterAbort_reach e cause _ _
    · exact Reach.refl _

theorem clearSpare_reach {respread : Env → Plant → Plant} (hr : Tame respread) (e : Env) (p : Plant) :
    Reach p (clearSpare respread e p) := by
  unfold clearSpare
  split
  · split
    · exact abortWith_reach hr e .binding p
    · exact Reach.refl p
  · exact Reach.refl p

theorem takeSpare_reach (e : Env) (c : Fin 6) (p : Plant) : Reach p (takeSpare e c p) := by
  unfold takeSpare
  split
  · rename_i q hq
    exact (bindSpare_reach c q p (lowestSpare_role hq)).trans (settleBound_reach e c q _)
  · exact Reach.raiseFactor _ .spareExhausted

theorem failWith_reach {respread : Env → Plant → Plant} (hr : Tame respread) (e : Env) (c o : Fin 6)
    (p : Plant) : Reach p (failWith respread e c o p) :=
  (((Reach.updOut p o (fun r => { r with role := .bad }) (fun _ => rfl) (fun h => h) rfl rfl
    rfl).trans (Reach.raiseFactor _ .circuitFailed)).trans (clearSpare_reach hr e _)).trans
    (takeSpare_reach e c _)

theorem tripRecorded_reach (o : Fin 6) (k : FaultKind) (p : Plant) : Reach p (tripRecorded o k p) :=
  ((switchOff_reach o p).trans (Reach.updOut _ o _ (fun h => h) (fun h => h) rfl rfl rfl)).trans
    (Reach.raiseFactor _ .circuitTrip)

theorem tripBelow_reach {respread : Env → Plant → Plant} (hr : Tame respread) (e : Env) (tested : Bool)
    (c o : Fin 6) (k : FaultKind) (p : Plant) : Reach p (tripBelow respread e tested c o k p) := by
  unfold tripBelow
  refine ((Reach.updOut p o (fun r => { r with holdOff := some (e.img.holdOff * 1000) })
    (fun h => h) (fun h => h) rfl rfl rfl).trans (Reach.updCct _ c (idleRow .tripped) rfl)).trans ?_
  dsimp only
  split
  · exact (endTest_reach _ _).trans (hr _ _)
  · exact Reach.refl _

theorem tripLast_reach {respread : Env → Plant → Plant} (hr : Tame respread) (e : Env) (tested : Bool)
    (c o : Fin 6) (k : FaultKind) (p : Plant) : Reach p (tripLast respread e tested c o k p) := by
  unfold tripLast
  refine (Reach.updCct p c (idleRow .failed) rfl).trans ?_
  dsimp only
  split
  · exact ((endTest_reach _ _).trans (failWith_reach hr e c o _)).trans (hr _ _)
  · exact failWith_reach hr e c o _

theorem tripSpare_reach {respread : Env → Plant → Plant} (hr : Tame respread) (e : Env) (tested : Bool)
    (o : Fin 6) (k : FaultKind) (p : Plant) : Reach p (tripSpare respread e tested o k p) := by
  unfold tripSpare
  split
  · exact ((Reach.updOut p o (fun r => { r with role := .bad }) (fun _ => rfl) (fun h => h) rfl
      rfl rfl).trans (endTest_reach _ _)).trans (hr _ _)
  · exact Reach.refl p

theorem tripWith_reach {respread : Env → Plant → Plant} (hr : Tame respread) (e : Env) (o : Fin 6)
    (k : FaultKind) (p : Plant) : Reach p (tripWith respread e o k p) := by
  unfold tripWith
  split
  · refine (tripRecorded_reach o k p).trans ?_
    dsimp only
    split
    · rename_i c _
      refine (Reach.updTrip _ c fun _ => ⟨(tripRecorded o k p).ogd.trips[c].count + 1, 0, 0⟩).trans ?_
      split
      · exact tripBelow_reach hr e _ c o k _
      · exact tripLast_reach hr e _ c o k _
    · exact tripSpare_reach hr e _ o k _
  · exact Reach.refl p

/-- A way to trip outputs that stays within `Reach`. -/
abbrev TameTrip (trip : Env → Fin 6 → FaultKind → Plant → Plant) : Prop :=
  ∀ e o k p, Reach p (trip e o k p)

theorem endPeriodWith_reach {trip : Env → Fin 6 → FaultKind → Plant → Plant} (ht : TameTrip trip)
    (e : Env) (c : Fin 6) (p : Plant) : Reach p (endPeriodWith trip e c p) := by
  unfold endPeriodWith
  split
  · exact Reach.refl p
  · rename_i o _
    dsimp only
    split
    · split
      · exact switchOff_reach _ _
      · split
        · refine (Reach.updOut p o (fun r => { r with openCount := r.openCount + 1 }) (fun h => h)
            (fun h => h) rfl rfl rfl).trans ?_
          split
          · exact ht _ _ _ _
          · exact switchOff_reach _ _
        · exact (Reach.updOut p o (fun r => { r with openCount := 0 }) (fun h => h) (fun h => h) rfl
            rfl rfl).trans (switchOff_reach _ _)
    · exact Reach.refl p

/-- A fold of steps that each stay within `Reach`. -/
theorem foldl_reach {α : Type} (f : Plant → α → Plant) (hf : ∀ p a, Reach p (f p a)) (l : List α)
    (p : Plant) : Reach p (l.foldl f p) := by
  induction l generalizing p with
  | nil => exact Reach.refl p
  | cons a l ih => exact (hf p a).trans (ih _)

theorem handGrantsWith_reach {trip : Env → Fin 6 → FaultKind → Plant → Plant} (ht : TameTrip trip)
    (e : Env) (g : Vector Nat 6) (p : Plant) : Reach p (handGrantsWith trip e g p) := by
  unfold handGrantsWith
  refine (Reach.mapCct p (fun c r => grantedRow e p c g[c] r) fun _ _ => rfl).trans ?_
  refine foldl_reach _ (fun q c => ?_) _ _
  split
  · exact endPeriodWith_reach ht e c q
  · exact Reach.refl q

theorem respreadWith_reach {hand : Env → Vector Nat 6 → Plant → Plant}
    (hh : ∀ e g p, Reach p (hand e g p)) (e : Env) (p : Plant) : Reach p (respreadWith hand e p) :=
  (Reach.deduction p none).trans (hh _ _ _)

/-! ### The operations the commands call -/

theorem tripUntested_reach : TameTrip tripUntested := fun e o k p =>
  tripWith_reach (fun _ q => Reach.refl q) e o k p

theorem handUntested_reach (e : Env) (g : Vector Nat 6) (p : Plant) :
    Reach p (handUntested e g p) := handGrantsWith_reach tripUntested_reach e g p

theorem respread_reach : Tame respread := fun e p => respreadWith_reach handUntested_reach e p

theorem tripOutput_reach : TameTrip tripOutput := fun e o k p => tripWith_reach respread_reach e o k p

theorem handGrants_reach (e : Env) (g : Vector Nat 6) (p : Plant) : Reach p (handGrants e g p) :=
  handGrantsWith_reach tripOutput_reach e g p

theorem abortTest_reach (e : Env) (cause : AbortCause) (p : Plant) :
    Reach p (abortTest e cause p) := abortWith_reach respread_reach e cause p

theorem endPeriod_reach (e : Env) (c : Fin 6) (p : Plant) : Reach p (endPeriod e c p) :=
  endPeriodWith_reach tripOutput_reach e c p

theorem starvedUpdate_reach (p : Plant) : Reach p (starvedUpdate p) :=
  (Reach.mapCct p (fun _ r => starvedRow r) fun _ _ => rfl).trans (Reach.raiseFactorIf _ _ .starved)

theorem finishTest_reach (e : Env) (p : Plant) : Reach p (finishTest e p) := by
  unfold finishTest
  split
  · exact Reach.refl p
  · rename_i t _
    refine ((switchOff_reach t.output p).trans (endTest_reach .done _)).trans ?_
    refine Reach.trans ?_ (respread_reach _ _)
    split
    · split
      · exact enterSettling_reach e _ _
      · exact Reach.refl _
    · exact Reach.refl _

/-- A computation writes its table (R67) and stays within `Reach` from there. -/
theorem compute_reach (e : Env) (round : Option RoundNo) (swap : Bool) (x : Computation) (p : Plant) :
    Reach { p with alu := allotTable e round x } (compute e round swap x p) := by
  have hs : ∀ q : Plant, Reach q (if swap then starvedUpdate q else q) := fun q => by
    split
    · exact starvedUpdate_reach q
    · exact Reach.refl q
  unfold compute
  dsimp only
  split
  · exact (handGrants_reach _ _ _).trans (hs _)
  · split
    · exact ((Reach.deduction _ _).trans (handGrants_reach _ _ _)).trans (hs _)
    · exact ((handGrants_reach _ _ _).trans (hs _)).trans (abortTest_reach _ _ _)

theorem settleExpiry_reach (e : Env) (c : Fin 6) (p : Plant) : Reach p (settleExpiry e c p) := by
  unfold settleExpiry
  split
  · exact Reach.refl p
  · exact (Reach.updCct p c _ rfl).trans (Reach.raiseFactorIf _ _ .sensorLost)

theorem windowRaises_reach (c : Fin 6) (p : Plant) : Reach p (windowRaises c p) := by
  unfold windowRaises
  split
  · exact Reach.raiseFactorIf _ _ .limitOpen
  · exact (Reach.raiseFactorIf _ _ .circuitFailed).trans (Reach.raiseFactorIf _ _ .spareExhausted)

theorem evaluate_reach (e : Env) (c : Fin 6) (p : Plant) : Reach p (evaluate e c p) :=
  ((Reach.updCct p c (evaluatedRow e p c) rfl).trans (Reach.raiseFactorIf _ _ .belowPour)).trans
    (Reach.raiseFactorIf _ _ .sensorLost)

theorem loadSpare_reach (e : Env) (c : Fin 6) (p : Plant) : Reach p (loadSpare e c p) := by
  unfold loadSpare
  split
  · split
    · rename_i q hq
      exact bindSpare_reach c q p (lowestSpare_role hq)
    · exact (Reach.raiseFactor _ .circuitFailed).trans (Reach.raiseFactor _ .spareExhausted)
  · exact Reach.refl p

theorem leaveDisabled_reach (e : Env) (c : Fin 6) (p : Plant) : Reach p (leaveDisabled e c p) := by
  unfold leaveDisabled
  split
  · split
    · exact settleBound_reach e c _ p
    · exact Reach.updCct p c _ rfl
  · exact Reach.refl p

theorem disableCircuit_reach (c : Fin 6) (p : Plant) : Reach p (disableCircuit c p) := by
  unfold disableCircuit
  refine Reach.trans ?_ (Reach.updCct _ c disabledRow rfl)
  split
  · rename_i o _
    exact (switchOff_reach o p).trans
      (Reach.updOut _ o (fun r => { r with holdOff := none }) (fun h => h) (fun h => h) rfl rfl rfl)
  · exact Reach.refl p

/-! ### Where nothing is cut -/

/-- A fold of steps that each leave the plant. -/
theorem foldl_still {α : Type} (f : Plant → α → Plant) (p : Plant) (hf : ∀ a, f p a = p) (l : List α) :
    l.foldl f p = p := by
  induction l with
  | nil => rfl
  | cons a l ih => rw [List.foldl_cons, hf, ih]

/-- Grants handed over where no row's on-time is cut below the time already past (R90). -/
theorem handGrantsWith_uncut (trip : Env → Fin 6 → FaultKind → Plant → Plant) (e : Env)
    (g : Vector Nat 6) (p : Plant)
    (h : ∀ c : Fin 6, cutNow e p.cct[c] (grantedRow e p c g[c] p.cct[c]) = false) :
    handGrantsWith trip e g p =
      { p with cct := mapRows p.cct fun c r => grantedRow e p c g[c] r } := by
  unfold handGrantsWith
  refine foldl_still _ _ (fun c => ?_) _
  have hc := h c
  simp only [mapRows_get, hc]
  rfl

/-- Grants handed over where no output is on: nothing is left to cut. -/
theorem handGrantsWith_off (trip : Env → Fin 6 → FaultKind → Plant → Plant) (e : Env)
    (g : Vector Nat 6) (p : Plant) (h : ∀ o : Fin 6, p.ogd.outputs[o].energized = false) :
    handGrantsWith trip e g p =
      { p with cct := mapRows p.cct fun c r => grantedRow e p c g[c] r } := by
  unfold handGrantsWith
  refine foldl_still _ _ (fun c => ?_) _
  split
  · unfold endPeriodWith
    split
    · rfl
    · rename_i o _
      have ho : p.ogd.outputs[o].energized = false := h o
      simp only [ho, Bool.false_and, Bool.false_eq_true, if_false]
  · rfl

/-- A row with no on-time is not cut. -/
theorem cutNow_zero (e : Env) (old new : CircuitRow) (h : old.onTime = 0) :
    cutNow e old new = false := by
  simp [cutNow, h]

end Sys2Proof.Machine
end

