-- ==== Sys2Proof/Laws/Rounds.lean ====
section
/-! SUPPORT. What a swap, an adoption and a conflict leave, said once: the blocks they do not touch, and
the items each of them gives. -/

namespace Sys2Proof.Machine

/-! ### Counting -/

theorem updQuality_eq (a : Nat) (f : QualityRow → QualityRow) (s : State) :
    ∃ rows, updQuality a f s = { s with lck := { s.lck with rows := rows } } := by
  unfold updQuality
  split
  · exact ⟨_, rfl⟩
  · exact ⟨s.lck.rows, rfl⟩

/-- Missed bids are counted in the line-quality rows alone (R152). -/
theorem countMissedBids_eq (l : List Nat) (s : State) :
    ∃ rows, l.foldl (fun q a => countMissedBid a q) s =
      { s with lck := { s.lck with rows := rows } } := by
  induction l generalizing s with
  | nil => exact ⟨s.lck.rows, rfl⟩
  | cons a l ih =>
    obtain ⟨r, hr⟩ := updQuality_eq a (fun r => { r with bidsMissed := bump16 r.bidsMissed }) s
    obtain ⟨r', hr'⟩ := ih { s with lck := { s.lck with rows := r } }
    refine ⟨r', ?_⟩
    rw [List.foldl_cons]
    show List.foldl _ (updQuality a _ s) l = _
    rw [hr, hr']

/-! ### The swap (R29) -/

/-- A swap writes the Roster, the missed bids and the plant. -/
theorem swap_eq (kind : AdoptKind) (round : RoundNo) (degraded : Bool) (s : State) :
    ∃ rows plant, swap kind round degraded s =
      { s with
        rst := rstAfterSwap s kind (swapVerdict s kind degraded),
        lck := { s.lck with rows := rows }, plant := plant } := by
  obtain ⟨r, hr⟩ := countMissedBids_eq (missedBids s kind s.rst.swapBuffers.settledBuf degraded) s
  refine ⟨r, (swap kind round degraded s).plant, ?_⟩
  unfold swap
  simp only [hr]

/-! ### The adoption (R6) -/

theorem adoptMembership_eq (kind : AdoptKind) (s : State) :
    ∃ m n t, adoptMembership kind s =
      { s with rct := { s.rct with membership := m, listenAdoptions := n, listenTimer := t } } := by
  unfold adoptMembership
  split
  · dsimp only
    split
    · exact ⟨_, _, _, rfl⟩
    · exact ⟨s.rct.membership, _, s.rct.listenTimer, rfl⟩
  · split
    · exact ⟨_, s.rct.listenAdoptions, s.rct.listenTimer, rfl⟩
    · exact ⟨s.rct.membership, s.rct.listenAdoptions, s.rct.listenTimer, rfl⟩
  all_goals exact ⟨s.rct.membership, s.rct.listenAdoptions, s.rct.listenTimer, rfl⟩

/-- The station at step 3 of an adoption, when it asks for the swap (R6). -/
def atSwap (kind : AdoptKind) (s : State) : State := moveDeclared (adoptMembership kind s)

/-- An adoption leaves pins, Start-up Loader, Sensor Scanner, Service Responder, time, queue, the REPLY and
TEST slots and the receiver. -/
theorem adopt_periphery (kind : AdoptKind) (round : RoundNo) (opener : Nat) (s : State) :
    let t := adopt kind round opener s
    t.pins = s.pins ∧ t.sul = s.sul ∧ t.ssc = s.ssc ∧ t.srv = s.srv ∧ t.now = s.now ∧
      t.pending = s.pending ∧ t.lif.replySlot = s.lif.replySlot ∧ t.lif.testSlot = s.lif.testSlot ∧
      t.lif.receiver = s.lif.receiver ∧ t.lif.idle = s.lif.idle := by
  obtain ⟨m, n, l, h1⟩ := adoptMembership_eq kind s
  obtain ⟨r, p, h2⟩ := swap_eq kind round (degradedAlready s kind round) (atSwap kind s)
  simp only [adopt]
  rw [show moveDeclared (adoptMembership kind s) = atSwap kind s from rfl, h2]
  unfold atSwap
  rw [h1]
  simp only [refillSlots]
  split <;> exact ⟨rfl, rfl, rfl, rfl, rfl, rfl, rfl, rfl, rfl, rfl⟩

/-- The items of the Round Controller after an adoption (R6, steps 2, 4 and 5). -/
theorem adopt_rct (kind : AdoptKind) (round : RoundNo) (opener : Nat) (s : State) :
    (adopt kind round opener s).rct =
      { (atSwap kind s).rct with
        round := some round, opener := some opener,
        degraded := !swapVerdict (atSwap kind s) kind (degradedAlready s kind round),
        roundTimer := some s.roundTimerMs,
        listenTimer :=
          if (atSwap kind s).rct.membership = .listen then some s.listenTimerMs
          else (atSwap kind s).rct.listenTimer } := by
  obtain ⟨m, n, l, h1⟩ := adoptMembership_eq kind s
  obtain ⟨r, p, h2⟩ := swap_eq kind round (degradedAlready s kind round) (atSwap kind s)
  have hs : (atSwap kind s).sul = s.sul := by simp only [atSwap, h1]; rfl
  simp only [adopt]
  rw [show moveDeclared (adoptMembership kind s) = atSwap kind s from rfl, h2]
  simp only [refillSlots]
  split <;>
    simp only [enterRound, updLif_rct, updRct_rct, State.raiseIf_rct, State.roundTimerMs,
      State.listenTimerMs, State.img, hs]

/-- The Roster after an adoption is the one its swap gives (R29). -/
theorem adopt_rst (kind : AdoptKind) (round : RoundNo) (opener : Nat) (s : State) :
    (adopt kind round opener s).rst =
      rstAfterSwap (atSwap kind s) kind
        (swapVerdict (atSwap kind s) kind (degradedAlready s kind round)) := by
  obtain ⟨r, p, h2⟩ := swap_eq kind round (degradedAlready s kind round) (atSwap kind s)
  simp only [adopt]
  rw [show moveDeclared (adoptMembership kind s) = atSwap kind s from rfl, h2]
  simp only [refillSlots]
  split <;> rfl

/-- The OPEN and BID slots after an adoption (R6, steps 6 and 7). -/
theorem adopt_slots (kind : AdoptKind) (round : RoundNo) (opener : Nat) (s : State) :
    (adopt kind round opener s).lif.openSlot = s.lif.openSlot.discard ∧
      (adopt kind round opener s).lif.bidSlot =
        if (atSwap kind s).rct.membership.bids then .pending (round, opener)
        else s.lif.bidSlot.discard := by
  obtain ⟨m, n, l, h1⟩ := adoptMembership_eq kind s
  obtain ⟨r, p, h2⟩ := swap_eq kind round (degradedAlready s kind round) (atSwap kind s)
  have hl : (atSwap kind s).lif = s.lif := by simp only [atSwap, h1]; rfl
  simp only [adopt]
  rw [show moveDeclared (adoptMembership kind s) = atSwap kind s from rfl, h2]
  simp only [refillSlots]
  simp only [enterRound, updLif_rct, updRct_rct, State.raiseIf_rct]
  split
  · simp [hl]
  · simp [hl]

/-! ### The buffers (R28) -/

theorem swapBuffers_settledBuf (r : Rst) : r.swapBuffers.settledBuf = r.collecting := by
  unfold Rst.swapBuffers Rst.settledBuf Rst.collecting
  split <;> simp

theorem swapBuffers_collecting (r : Rst) : r.swapBuffers.collecting = .reset := by
  unfold Rst.swapBuffers Rst.collecting
  split <;> simp

/-- A bid put into the collecting buffer under its sender's address (R28). -/
theorem collect_collecting (r : Rst) (b : BidFrame) (i : Fin 32) (h : b.sender = i.val + 1) :
    (r.collect b).collecting = r.collecting.set i (some b) ∧
      (r.collect b).settledBuf = r.settledBuf ∧ (r.collect b).rows = r.rows ∧
      (r.collect b).silent = r.silent ∧ (r.collect b).line = r.line := by
  unfold Rst.collect Rst.collecting Rst.settledBuf
  rw [h, place_succ]
  dsimp only
  split <;> simp [*]

/-- The bid of an address in a buffer. -/
theorem bidOf_succ (b : BidBuffer) (i : Fin 32) : bidOf b (i.val + 1) = b[i] := by
  simp [bidOf]

/-- The buffers do not depend on the Roster's other items. -/
theorem buffers_with (r : Rst) (rows : Vector PeerRow 32) (n : Nat) (l : LineState) :
    ({ r with rows := rows, silent := n, line := l } : Rst).settledBuf = r.settledBuf ∧
      ({ r with rows := rows, silent := n, line := l } : Rst).collecting = r.collecting :=
  ⟨rfl, rfl⟩

/-- The Roster after a swap, item by item (R28, R29, R35 to R39). -/
theorem rstAfterSwap_items (s : State) (kind : AdoptKind) (complete : Bool) :
    (rstAfterSwap s kind complete).settledBuf = s.rst.collecting ∧
      (rstAfterSwap s kind complete).collecting = .reset ∧
      (rstAfterSwap s kind complete).rows = updatedRows s s.rst.collecting ∧
      (rstAfterSwap s kind complete).silent = silentAfter s s.rst.collecting ∧
      (rstAfterSwap s kind complete).line = lineAfter s kind s.rst.collecting complete := by
  have h1 := swapBuffers_settledBuf s.rst
  have h2 := swapBuffers_collecting s.rst
  unfold rstAfterSwap
  dsimp only
  generalize s.rst.swapBuffers = r at *
  obtain ⟨g1, g2⟩ := buffers_with r (updatedRows s r.settledBuf) (silentAfter s r.settledBuf)
    (lineAfter s kind r.settledBuf complete)
  refine ⟨g1.trans h1, g2.trans h2, ?_, ?_, ?_⟩ <;> rw [h1]

/-- The row of another address after a swap (R35, R36). -/
theorem updatedRows_other (s : State) (settled : BidBuffer) (i : Fin 32) (h : i.val + 1 ≠ s.own) :
    (updatedRows s settled)[i] =
      match settled[i] with
      | some b => heardRow (s.foreign b.digest) b s.rst.rows[i]
      | none => missedRow s.img.stale s.rst.rows[i] := by
  unfold updatedRows
  exact (mapRows_get _ _ _).trans (if_neg h)

theorem mem_stationAddresses (a : Nat) : a ∈ stationAddresses ↔ 1 ≤ a ∧ a ≤ 32 := by
  simp only [stationAddresses, List.mem_range'_1]
  omega

/-- An address of the table is one more than its place. -/
theorem exists_place (a : Nat) (h : 1 ≤ a ∧ a ≤ 32) : ∃ i : Fin 32, a = i.val + 1 :=
  ⟨⟨a - 1, by omega⟩, by dsimp only; omega⟩

/-- No other address has a settled bid (R39). -/
theorem peerBids_nil (s : State) (b : BidBuffer) :
    (peerBids s b).isEmpty = true ↔ ∀ a : Fin 32, a.val + 1 ≠ s.own → b[a] = none := by
  simp only [peerBids, List.isEmpty_iff, List.filterMap_eq_nil_iff, List.mem_filter,
    mem_stationAddresses, decide_eq_true_eq]
  constructor
  · intro h a ha
    rw [← bidOf_succ]
    exact h (a.val + 1) ⟨⟨by omega, by omega⟩, ha⟩
  · rintro h a ⟨h1, h2⟩
    obtain ⟨i, rfl⟩ := exists_place a h1
    rw [bidOf_succ]
    exact h i h2

/-- The silent-round count after a swap (R39). -/
theorem silentAfter_eq (s : State) (b : BidBuffer) :
    silentAfter s b =
      if ∀ a : Fin 32, a.val + 1 ≠ s.own → b[a] = none then min 7 (s.rst.silent + 1) else 0 := by
  unfold silentAfter
  by_cases h : ∀ a : Fin 32, a.val + 1 ≠ s.own → b[a] = none
  · rw [if_pos h, if_pos ((peerBids_nil s b).2 h)]
    rfl
  · rw [if_neg h, if_neg fun k => h ((peerBids_nil s b).1 k)]

/-- Every bid of the heard set is settled with the station's own digest (R41). -/
theorem heardSettled_iff (s : State) (b : BidBuffer) (h : AddrSet) :
    heardSettled s b h = true ↔
      ∀ a : Fin 32, inSet h (a.val + 1) = true →
        ∃ x, b[a] = some x ∧ s.sul.digest = some x.digest := by
  simp only [heardSettled, List.all_eq_true, mem_stationAddresses]
  constructor
  · intro hh a ha
    have hx := hh (a.val + 1) ⟨by omega, by omega⟩
    rw [bidOf_succ] at hx
    simp only [ha, Bool.not_true, Bool.false_or] at hx
    split at hx
    · rename_i x hb
      refine ⟨x, hb, ?_⟩
      simp only [State.foreign, Bool.not_eq_true', decide_eq_false_iff_not, not_not] at hx
      exact hx.symm
    · simp at hx
  · intro hh a h1
    obtain ⟨i, rfl⟩ := exists_place a h1
    rw [bidOf_succ]
    by_cases ha : inSet h (i.val + 1)
    · obtain ⟨x, hb, hd⟩ := hh i ha
      rw [hb]
      simp [State.foreign, hd]
    · simp [ha]

/-- The members of a set made from a list of addresses (R134). -/
theorem inSet_fold (i : Fin 32) (l : List Nat) (h : AddrSet) (hl : ∀ x ∈ l, 1 ≤ x ∧ x ≤ 32) :
    inSet (l.foldl (fun h a => if 1 ≤ a then h ||| BitVec.ofNat 32 (2 ^ (a - 1)) else h) h)
        (i.val + 1) = (inSet h (i.val + 1) || decide (i.val + 1 ∈ l)) := by
  induction l generalizing h with
  | nil => simp
  | cons x l ih =>
    have hx := hl x (by simp)
    rw [List.foldl_cons, ih _ fun y hy => hl y (by simp [hy]), if_pos hx.1]
    have hb : (BitVec.ofNat 32 (2 ^ (x - 1))).getLsbD (i.val + 1 - 1) =
        decide (i.val + 1 = x) := by
      have hi : decide (i.val + 1 - 1 < 32) = true := by simp
      rw [BitVec.getLsbD_ofNat, Nat.testBit_two_pow, hi, Bool.true_and]
      congr 1
      apply propext
      omega
    simp only [inSet, BitVec.getLsbD_or, List.mem_cons, hb]
    simp [Bool.or_assoc]

/-- An address is in the set of a buffer exactly where the buffer holds its bid (R4, R28). -/
theorem inSet_heldSet (b : BidBuffer) (i : Fin 32) : inSet (heldSet b) (i.val + 1) = (b[i]).isSome := by
  rw [← bidOf_succ]
  unfold heldSet addrSetOf
  rw [inSet_fold]
  · have h0 : inSet 0 (i.val + 1) = false := by simp [inSet]
    rw [h0, Bool.false_or]
    simp only [heldAddresses, List.mem_filter, mem_stationAddresses]
    have hi : 1 ≤ i.val + 1 ∧ i.val + 1 ≤ 32 := by omega
    simp [hi]
  · intro x hx
    simp only [heldAddresses, List.mem_filter, mem_stationAddresses] at hx
    exact hx.1

end Sys2Proof.Machine
end

