-- ==== Sys2Proof/Laws/Line.lean ====
section
/-! SUPPORT. What the reception of a frame comes to: the count and the line's end, said once, and then
the block that owns the frame's kind. -/

namespace Sys2Proof.Machine

/-! ### Addresses -/

theorem isStation_succ (i : Fin 32) : isStation (i.val + 1) = true := by
  have := i.isLt
  simp only [isStation, decide_eq_true_eq]
  omega

theorem isDestination_own (d : Byte) (s : State) (h : d.toNat = s.own) : isDestination d = true := by
  have := s.sul.rank.isLt
  simp only [State.own] at h
  simp only [isDestination, isStation, h, Bool.or_eq_true, decide_eq_true_eq]
  omega

theorem not_broadcast_own (d : Byte) (s : State) (h : d.toNat = s.own) : d ≠ 255 := by
  have := s.sul.rank.isLt
  rintro rfl
  simp [State.own] at h
  omega

/-! ### Counting (R133, R151) -/

theorem countFrame_request (r : Request) (s : State) :
    countFrame (.request r) (frameEnded 0 s) = afterRequest s := rfl

theorem countHeard_ended (i : Fin 32) (s : State) :
    countHeard (i.val + 1) (countGood (frameEnded 0 s)) = afterStation i false s := by
  simp [countHeard, updQuality, countGood, updTotals, frameEnded, updLif, afterStation, bump16, satAdd,
    updAt]

theorem countBid_ended (i : Fin 32) (s : State) :
    updQuality (i.val + 1) (fun r => { r with bids := bump16 r.bids })
        (countHeard (i.val + 1) (countGood (frameEnded 0 s))) = afterStation i true s := by
  simp [countHeard, updQuality, countGood, updTotals, frameEnded, updLif, afterStation, bump16, satAdd,
    updAt]

/-! ### Reception (R138 to R140) -/

/-- A station that can receive is sending none of its frames. -/
theorem not_sending (s : State) (h : canReceive s = true) :
    s.lif.openSlot.isSending = false ∧ s.lif.bidSlot.isSending = false ∧
      s.lif.replySlot.isSending = false ∧ s.lif.testSlot.isSending = false := by
  simp [canReceive, Lif.sending] at h
  exact ⟨h.1.1.1.1, h.1.1.1.2, h.1.1.2, h.1.2⟩

theorem discard_empty {π σ : Type} (x : Slot π σ) (h : x.isSending = false) : x.discard = .empty := by
  cases x <;> simp_all [Slot.discard, Slot.isSending]

/-- A well-formed request is counted and, where it concerns the station, served. -/
theorem receive_request (r : Request) (s : State) (hr : canReceive s = true) (hw : r.wf = true) :
    receive (.request r) s =
      if addressedTo s r || isBroadcast r then serve r (afterRequest s) else afterRequest s := by
  simp only [receive, hr, if_true, Frame.wf, hw, goodFrame, route, countFrame_request]
  rfl

/-- An OPEN is counted and handed to the Round Controller. -/
theorem receive_open (f : OpenFrame) (i : Fin 32) (s : State) (hr : canReceive s = true)
    (h : f.opener = i.val + 1) :
    receive (.openFrame f) s = openReceived f (afterStation i false s) := by
  have hw : f.wf = true := by rw [OpenFrame.wf, h]; exact isStation_succ i
  simp only [receive, hr, if_true, Frame.wf, hw, goodFrame, route, countFrame, h, countHeard_ended]

/-- A BID is counted and handed to the Round Controller. -/
theorem receive_bid (b : BidFrame) (i : Fin 32) (s : State) (hr : canReceive s = true)
    (hw : b.wf = true) (h : b.sender = i.val + 1) :
    receive (.bid b) s = bidReceived b (afterStation i true s) := by
  simp only [receive, hr, if_true, Frame.wf, hw, goodFrame, route, countFrame, h, countBid_ended]

/-- A REPLY is counted. -/
theorem receive_reply (f : ReplyFrame) (i : Fin 32) (s : State) (hr : canReceive s = true)
    (hw : f.wf = true) (h : f.source = i.val + 1) :
    receive (.reply f) s = afterStation i false s := by
  simp only [receive, hr, if_true, Frame.wf, hw, goodFrame, route, countFrame, h, countHeard_ended]

/-- A TEST frame is counted and checked. -/
theorem receive_test (f : TestFrame) (i : Fin 32) (s : State) (hr : canReceive s = true)
    (hw : f.wf = true) (h : f.sender = i.val + 1) :
    receive (.test f) s = checkTest f (afterStation i false s) := by
  simp only [receive, hr, if_true, Frame.wf, hw, goodFrame, route, countFrame, h, countHeard_ended]

/-- Bytes that are judged GOOD spell a well-formed frame (R139). -/
theorem judgeBytes_wf {bytes : List Byte} {f : Frame} (h : judgeBytes bytes = .good f) : f.wf = true := by
  unfold judgeBytes at h
  split at h
  · cases h
  split at h
  · cases h
  split at h
  · split at h
    · rename_i hw
      cases h
      exact hw
    · cases h
  · cases h

/-- Bytes that are judged GOOD are received as the frame they spell (R139, R140; log entry 7). -/
theorem receiveBytes_good {bytes : List Byte} {f : Frame} (h : judgeBytes bytes = .good f) (s : State) :
    receiveBytes bytes s = receive f s := by
  simp only [receiveBytes, receive, h, judgeBytes_wf h, if_true]

/-- The command of a frame receives that frame (R140). -/
theorem exec_frameCommand (f : Frame) (s : State) : exec (frameCommand f) s = .next (receive f s) := by
  have byte : ∀ (x : Byte) (n : Nat), x.toNat = n → x = BitVec.ofNat 8 n := fun x n h => by
    rw [← h, BitVec.ofNat_toNat, BitVec.setWidth_eq]
  cases f with
  | openFrame f => rfl
  | bid f => rfl
  | reply f => rfl
  | test f => rfl
  | request r =>
    cases r with
    | query q =>
      obtain ⟨d, t, k, g⟩ := q
      unfold frameCommand requestCommand
      dsimp only
      split
      all_goals first
        | rename_i h
          have h := byte k _ h
          subst h
          rfl
        | rfl
    | command c =>
      obtain ⟨d, t, k, a⟩ := c
      unfold frameCommand requestCommand
      dsimp only
      split
      all_goals first
        | rename_i h
          have h := byte k _ h
          subst h
          rfl
        | rfl

/-! ### Service (R161 to R163) -/

/-- A command of an unknown kind has no form (R161). -/
theorem commandFormOk_unknown (k : Nat) (args : List Byte) (h : k = 0 ∨ 7 < k) :
    commandFormOk k args = false := by
  match k, h with
  | 0, _ => rfl
  | n + 8, _ => rfl

/-- A request of an unknown kind has no form (R161). -/
theorem formOk_unknown (s : State) (r : Request) (h : r.unknown = true) : formOk s r = false := by
  cases r with
  | query q =>
    simp only [Request.unknown, decide_eq_true_eq] at h
    simp only [formOk, decide_eq_false_iff_not]
    omega
  | command c =>
    simp only [Request.unknown, decide_eq_true_eq] at h
    exact commandFormOk_unknown _ _ (by omega)

/-- A well-formed request addressed to the station is judged and answered. -/
theorem receive_addressed (r : Request) (s : State) (hr : canReceive s = true) (hw : r.wf = true)
    (hd : (requestDest r).toNat = s.own) :
    receive (.request r) s =
      placeReply (replyTo (afterRequest s) r (judgeRequest r (afterRequest s)).1)
        (judgeRequest r (afterRequest s)).2 := by
  have hb : isBroadcast r = false := by
    simpa [isBroadcast] using not_broadcast_own _ s hd
  rw [receive_request r s hr hw]
  simp [addressedTo, hd, serve, hb]

/-- A well-formed broadcast request is judged, and a pending restart may be taken. -/
theorem receive_broadcast (r : Request) (s : State) (hr : canReceive s = true) (hw : r.wf = true)
    (hd : requestDest r = 255) :
    receive (.request r) s = takeRestart (judgeRequest r (afterRequest s)).2 := by
  have hb : isBroadcast r = true := by simp [isBroadcast, hd]
  rw [receive_request r s hr hw]
  simp [serve, hb]

theorem takeRestart_none (s : State) (h : s.srv.restartPending = false) : takeRestart s = s := by
  simp [takeRestart, h]

theorem takeRestart_notDue (s : State) (h : NoRestartDue s) : takeRestart s = s := by
  rcases h with h | h <;> simp [takeRestart, h]

end Sys2Proof.Machine
end

