-- ==== Sys2Proof/Laws/Adoption.lean ====
section
/-! SUPPORT. When a received OPEN or BID is adopted, and the state of the Round Controller at the swap of
an adoption. -/

namespace Sys2Proof.Machine

/-- A round that counts as newer is newer by one or by more (R1). -/
theorem orderOf_newer (s : State) (r : RoundNo) (h : Newer s r) :
    s.orderOf r = .newerByOne ∨ s.orderOf r = .newerByMore := by
  unfold State.orderOf
  split
  · exact .inl rfl
  · rename_i c hc
    have := h c hc
    unfold roundOrder
    dsimp only
    split
    · omega
    · split
      · exact .inl rfl
      · split
        · exact .inr rfl
        · omega

theorem roundOrder_self (c : RoundNo) : roundOrder c c = .current := by
  simp [roundOrder]

theorem orderOf_current (s : State) (r : RoundNo) (h : s.rct.round = some r) :
    s.orderOf r = .current := by
  simp [State.orderOf, h, roundOrder_self]

/-- The Round Controller at the swap of an adoption (R6, steps 1 and 2). -/
theorem atSwap_rct (kind : AdoptKind) (s : State) :
    (atSwap kind s).rct.membership =
        memberAfter s.rct.membership s.rct.listenAdoptions
          (kind.frame.any fun f => inSet f.heard s.own) ∧
      (atSwap kind s).rct.declaredClosed = s.rct.declaredCurrent ∧
      (atSwap kind s).rct.declaredCurrent = none ∧
      (s.rct.membership = .listen → (atSwap kind s).rct.membership = .joining →
        (atSwap kind s).rct.listenTimer = none) := by
  unfold atSwap moveDeclared adoptMembership memberAfter
  cases hm : s.rct.membership
  case listen =>
    dsimp only
    by_cases h : 1 ≤ s.rct.listenAdoptions
    · have : satAdd 2 s.rct.listenAdoptions 1 = 2 := by unfold satAdd; omega
      simp [this, h, updRct]
    · have : ¬satAdd 2 s.rct.listenAdoptions 1 = 2 := by unfold satAdd; omega
      simp [this, h, updRct, hm]
  case joining =>
    dsimp only
    split <;> simp [updRct, *]
  all_goals simp [updRct, hm]

/-- Each adoption in LISTEN is counted, up to two (R6 step 1, R18). -/
theorem atSwap_adoptions (kind : AdoptKind) (s : State) :
    (atSwap kind s).rct.listenAdoptions =
      if s.rct.membership = .listen then min 2 (s.rct.listenAdoptions + 1)
      else s.rct.listenAdoptions := by
  unfold atSwap moveDeclared adoptMembership
  cases hm : s.rct.membership <;> dsimp only [updRct]
  case listen =>
    split <;> rfl
  case joining =>
    split <;> rfl
  all_goals rfl

/-- Steps 1 and 2 of an adoption touch nothing but the Round Controller (R6). -/
theorem atSwap_eq (kind : AdoptKind) (s : State) :
    ∃ rct, atSwap kind s = { s with rct := rct } := by
  obtain ⟨m, n, t, h⟩ := adoptMembership_eq kind s
  unfold atSwap
  rw [h]
  exact ⟨_, rfl⟩

/-- An adoption after a verdict given already is DEGRADED (R7). -/
theorem swapVerdict_degraded (s : State) (kind : AdoptKind) : swapVerdict s kind true = false := by
  simp [swapVerdict, roundComplete]

/-- An OPEN of a newer round, from another configured address, is adopted (R9). -/
theorem openReceived_newer (f : OpenFrame) (s : State) (hf : s.rct.membership.follows = true)
    (ha : 1 ≤ f.opener ∧ f.opener ≤ s.img.stations) (ho : f.opener ≠ s.own) (hn : Newer s f.round) :
    openReceived f s = adopt (.received f) f.round f.opener s := by
  unfold openReceived
  have h2 : s.configuredAddr f.opener = true := by simp [State.configuredAddr, ha]
  simp only [hf, h2, ho, Bool.not_true, Bool.or_false, decide_false, Bool.false_eq_true, if_false]
  rcases orderOf_newer _ _ hn with e | e <;> rw [e]

/-- A BID of a newer round, with both its addresses configured, is adopted late and then offered (R12). -/
theorem bidReceived_newer (b : BidFrame) (s : State) (hf : s.rct.membership.follows = true)
    (ha : 1 ≤ b.sender ∧ b.sender ≤ s.img.stations) (ho : 1 ≤ b.opener ∧ b.opener ≤ s.img.stations)
    (hn : Newer s b.round) :
    bidReceived b s = offerBid b (adopt .late b.round b.opener s) := by
  unfold bidReceived
  have h1 : s.configuredAddr b.sender = true := by simp [State.configuredAddr, ha]
  have h2 : s.configuredAddr b.opener = true := by simp [State.configuredAddr, ho]
  simp only [hf, h1, h2, Bool.not_true, Bool.or_false, Bool.false_eq_true, if_false]
  rcases orderOf_newer _ _ hn with e | e <;> rw [e]

/-- The addresses of a well-formed BID (R139). -/
theorem bid_addresses (b : BidFrame) (h : b.wf = true) :
    1 ≤ b.sender ∧ b.sender ≤ 32 ∧ 1 ≤ b.opener ∧ b.opener ≤ 32 := by
  simp only [BidFrame.wf, isStation, Bool.and_eq_true, decide_eq_true_eq] at h
  omega

end Sys2Proof.Machine
end

