-- ==== Sys2Proof/Laws/Allotment.lean ====
section
/-! SUPPORT. The arithmetic of the division: ordering keeps the records, a spread gives no more than it is
asked to, a deduction lowers grants as far as it must. -/

namespace Sys2Proof.Machine

/-! ### Ordering -/

theorem insertBy_perm {α : Type} (lt : α → α → Bool) (x : α) (l : List α) :
    (insertBy lt x l).Perm (x :: l) := by
  induction l with
  | nil => exact List.Perm.refl _
  | cons y l ih =>
    unfold insertBy
    split
    · exact (List.Perm.cons y ih).trans (List.Perm.swap x y l)
    · exact List.Perm.refl _

/-- Ordering a list keeps its elements. -/
theorem sortBy_perm {α : Type} (lt : α → α → Bool) (l : List α) : (sortBy lt l).Perm l := by
  induction l with
  | nil => exact List.Perm.refl _
  | cons x l ih => exact (insertBy_perm lt x _).trans (List.Perm.cons x ih)

/-! ### Sums of the six grants -/

/-- One grant replaced by another. -/
theorem grantSum_set (g : Vector Nat 6) (c : Fin 6) (x : Nat) :
    grantSum (g.set c x) + g[c] = grantSum g + x := by
  fin_cases c <;> simp [grantSum, sixIds, Vector.getElem_set] <;> omega

theorem grantSum_zero (g : Vector Nat 6) (h : ∀ c : Fin 6, g[c] = 0) : grantSum g = 0 := by
  simp only [grantSum, sixIds, List.map_cons, List.map_nil, h]
  rfl

theorem grantSum_noGrants : grantSum noGrants = 0 :=
  grantSum_zero _ fun c => by simp [noGrants]

/-! ### The local spread (R59) -/

/-- A spread gives at most the amount beyond what stood there, and no circuit more than its need. -/
theorem spreadOver_bounds (p : Plant) (l : List (Fin 6)) (amount : Nat) (g : Vector Nat 6)
    (h : ∀ c : Fin 6, g[c] ≤ p.cct[c].need) :
    grantSum (spreadOver p amount g l) ≤ grantSum g + amount ∧
      ∀ c : Fin 6, (spreadOver p amount g l)[c] ≤ p.cct[c].need := by
  induction l generalizing amount g with
  | nil => exact ⟨Nat.le_add_right _ _, h⟩
  | cons d l ih =>
    have hs := grantSum_set g d (min p.cct[d].need amount)
    have hg : ∀ c : Fin 6, (g.set d (min p.cct[d].need amount))[c] ≤ p.cct[c].need := by
      intro c
      have hc : (g.set d (min p.cct[d].need amount))[c] =
          if d.val = c.val then min p.cct[d].need amount else g[c] := Vector.getElem_set ..
      rw [hc]
      split
      · rename_i hdc
        have : d = c := Fin.ext hdc
        subst this
        exact Nat.min_le_left _ _
      · exact h c
    obtain ⟨h1, h2⟩ := ih (amount - min p.cct[d].need amount) _ hg
    refine ⟨?_, h2⟩
    show grantSum (spreadOver p _ _ l) ≤ _
    omega

/-- The local spread gives at most the amount, and no circuit more than its need (R59). -/
theorem localSpread_bounds (p : Plant) (amount : Nat) :
    grantSum (localSpread p amount) ≤ amount ∧
      ∀ c : Fin 6, (localSpread p amount)[c] ≤ p.cct[c].need := by
  have h := spreadOver_bounds p (localOrder p) amount noGrants fun c => by simp [noGrants]
  rw [grantSum_noGrants, Nat.zero_add] at h
  exact h

/-! ### The test deduction (R65) -/

theorem lowerGrants_le (l : List (Fin 6)) (excess : Nat) (g : Vector Nat 6) (c : Fin 6) :
    (lowerGrants excess g l)[c] ≤ g[c] := by
  induction l generalizing excess g with
  | nil => exact Nat.le_refl _
  | cons d l ih =>
    refine (ih _ _).trans ?_
    have hc : (g.set d (g[d] - min g[d] excess))[c] =
        if d.val = c.val then g[d] - min g[d] excess else g[c] := Vector.getElem_set ..
    rw [hc]
    split
    · rename_i hdc
      have : d = c := Fin.ext hdc
      subst this
      exact Nat.sub_le _ _
    · exact Nat.le_refl _

/-- The whole excess is removed, or every grant of the list is gone. -/
theorem lowerGrants_sum (l : List (Fin 6)) (excess : Nat) (g : Vector Nat 6) :
    grantSum (lowerGrants excess g l) + excess ≤ grantSum g ∨
      ((∀ c ∈ l, (lowerGrants excess g l)[c] = 0) ∧
        grantSum (lowerGrants excess g l) ≤ grantSum g) := by
  induction l generalizing excess g with
  | nil => exact .inr ⟨fun c h => absurd h (by simp), Nat.le_refl _⟩
  | cons d l ih =>
    have hs := grantSum_set g d (g[d] - min g[d] excess)
    have hm : min g[d] excess ≤ g[d] := Nat.min_le_left _ _
    have hx : min g[d] excess ≤ excess := Nat.min_le_right _ _
    show grantSum (lowerGrants (excess - min g[d] excess) _ l) + excess ≤ grantSum g ∨
      ((∀ c ∈ d :: l, (lowerGrants (excess - min g[d] excess) _ l)[c] = 0) ∧
        grantSum (lowerGrants (excess - min g[d] excess) _ l) ≤ grantSum g)
    rcases ih (excess - min g[d] excess) (g.set d (g[d] - min g[d] excess)) with h | ⟨h, hle⟩
    · left
      omega
    · by_cases hd : g[d] ≤ excess
      · right
        refine ⟨fun c hc => ?_, by omega⟩
        rcases List.mem_cons.1 hc with rfl | hc
        · have hle' := lowerGrants_le l (excess - min g[c] excess)
            (g.set c (g[c] - min g[c] excess)) c
          have h0 : (g.set c (g[c] - min g[c] excess))[c] = g[c] - min g[c] excess := by simp
          omega
        · exact h c hc
      · left
        have : min g[d] excess = excess := Nat.min_eq_right (by omega)
        omega

theorem mem_deductionOrder (e : Env) (p : Plant) (c : Fin 6) : c ∈ deductionOrder e p := by
  unfold deductionOrder
  dsimp only
  rw [List.mem_append, List.mem_filter]
  by_cases h : c ∈ (match p.alu.division with
    | some d => if isParticipant e.own d then recordOrder e.own d else localOrder p
    | none => localOrder p)
  · exact .inl h
  · exact .inr ⟨mem_sixIds c, decide_eq_true h⟩

/-- The grants of the tested circuit are set to 0 first (R65). -/
theorem deductGrants_eq (e : Env) (p : Plant) (circuit : Option (Fin 6)) (room : Nat)
    (g : Vector Nat 6) :
    ∃ h : Vector Nat 6, (∀ c : Fin 6, h[c] = if circuit = some c then 0 else g[c]) ∧
      deductGrants e p circuit room g =
        lowerGrants (grantSum h - room) h (deductionOrder e p).reverse := by
  cases circuit with
  | none => exact ⟨g, fun c => by simp, rfl⟩
  | some d =>
    refine ⟨g.set d 0, fun c => ?_, rfl⟩
    have hc : (g.set d 0)[c] = if d.val = c.val then 0 else g[c] := Vector.getElem_set ..
    rw [hc]
    simp [Fin.ext_iff]

/-- The deduction leaves the room of the test, raises no grant, and gives the tested circuit none. -/
theorem deductGrants_bounds (e : Env) (p : Plant) (circuit : Option (Fin 6)) (room : Nat)
    (g : Vector Nat 6) :
    grantSum (deductGrants e p circuit room g) ≤ room ∧
      (∀ c : Fin 6, (deductGrants e p circuit room g)[c] ≤ g[c]) ∧
      ∀ c : Fin 6, circuit = some c → (deductGrants e p circuit room g)[c] = 0 := by
  obtain ⟨h, h1, h2⟩ := deductGrants_eq e p circuit room g
  rw [h2]
  have hle := fun c => lowerGrants_le (deductionOrder e p).reverse (grantSum h - room) h c
  refine ⟨?_, fun c => (hle c).trans ?_, fun c hc => ?_⟩
  · rcases lowerGrants_sum (deductionOrder e p).reverse (grantSum h - room) h with k | ⟨k, -⟩
    · omega
    · rw [grantSum_zero _ fun c => k c (List.mem_reverse.2 (mem_deductionOrder e p c))]
      exact Nat.zero_le _
  · rw [h1]
    split
    · exact Nat.zero_le _
    · exact Nat.le_refl _
  · have := hle c
    rw [h1, if_pos hc] at this
    omega

/-! ### The division (R53 to R57) -/

/-- A base spread over the records of an address: no part above a need, and no more than the base. -/
theorem spreadBase_bounds (l : List RecEntry) (base : Nat) :
    ((spreadBase base l).map RecEntry.basePart).sum ≤ base ∧
      ∀ r ∈ spreadBase base l, r.basePart ≤ r.need := by
  induction l generalizing base with
  | nil => exact ⟨Nat.zero_le _, fun r h => by cases h⟩
  | cons x l ih =>
    obtain ⟨h1, h2⟩ := ih (base - min x.need base)
    refine ⟨?_, fun r hr => ?_⟩
    · simp only [spreadBase, List.map_cons, List.sum_cons]
      omega
    · rcases List.mem_cons.1 hr with rfl | hr
      · exact Nat.min_le_left _ _
      · exact h2 r hr

/-- The pass over the pool: no part above a residual need, no more than the pool, and the base parts
kept. -/
theorem poolPass_bounds (l : List RecEntry) (pool : Nat) :
    ((poolPass pool l).map RecEntry.poolPart).sum ≤ pool ∧
      (poolPass pool l).map RecEntry.basePart = l.map RecEntry.basePart ∧
      ((∀ r ∈ l, r.basePart ≤ r.need) →
        ∀ r ∈ poolPass pool l, r.basePart + r.poolPart ≤ r.need) := by
  induction l generalizing pool with
  | nil => exact ⟨Nat.zero_le _, rfl, fun _ r h => by cases h⟩
  | cons x l ih =>
    obtain ⟨h1, h2, h3⟩ := ih (pool - min (x.need - x.basePart) pool)
    refine ⟨?_, ?_, fun hl r hr => ?_⟩
    · simp only [poolPass, List.map_cons, List.sum_cons]
      omega
    · simp only [poolPass, List.map_cons, h2]
    · rcases List.mem_cons.1 hr with rfl | hr
      · have := hl x (by simp)
        dsimp only
        omega
      · exact h3 (fun r hr => hl r (by simp [hr])) r hr

/-- What an address is charged, its base and what it gives to the pool make up its share (R53, R54). -/
theorem share_parts (e : Env) (l : Ledger) (a : Nat) :
    (if classify e.own l a = .charged then e.share a else 0) + baseOf e l a + poolShare e l a =
      e.share a := by
  unfold poolShare baseOf classify
  cases h : participantBid l a with
  | some b =>
    simp only [Option.isSome_some, if_true]
    simp
  | none =>
    simp only [Option.isSome_none, Bool.false_eq_true, if_false]
    split <;> simp

theorem sum_map_add {α : Type} (l : List α) (f g : α → Nat) :
    (l.map fun a => f a + g a).sum = (l.map f).sum + (l.map g).sum := by
  induction l with
  | nil => rfl
  | cons a l ih =>
    simp only [List.map_cons, List.sum_cons, ih]
    omega

/-- The records of an address take at most its base (R55). -/
theorem recordsOf_bounds (e : Env) (l : Ledger) (a : Nat) :
    ((recordsOf e l a).map RecEntry.basePart).sum ≤ baseOf e l a ∧
      ∀ r ∈ recordsOf e l a, r.basePart ≤ r.need := by
  unfold recordsOf
  split
  · exact spreadBase_bounds _ _
  · exact ⟨Nat.zero_le _, fun r h => by cases h⟩

/-- Shares are at most the budget in all (R48). -/
theorem shares_within (m : Image) (h : sharedOk m = true) :
    ((List.range' 1 m.stations).map (shareOf m)).sum ≤ m.budget := by
  have hb : reserveSum m < m.budget := by
    simp only [sharedOk, Bool.and_eq_true, decide_eq_true_eq] at h
    exact h.1.1.1.1.2
  have one : ∀ (r : Nat × Nat) (n k : Nat),
      ((List.range' k n).map (reserveFor r)).sum ≤ r.2 ∧
        (r.1 < k → ((List.range' k n).map (reserveFor r)).sum = 0) := by
    intro r n
    induction n with
    | zero => intro k; exact ⟨Nat.zero_le _, fun _ => rfl⟩
    | succ n ih =>
      intro k
      obtain ⟨h1, h2⟩ := ih (k + 1)
      have hr : reserveFor r k = if r.1 = k then r.2 else 0 := rfl
      simp only [List.range'_succ, List.map_cons, List.sum_cons, hr]
      refine ⟨?_, fun hk => ?_⟩
      · split
        · rename_i hk
          have := h2 (by omega)
          omega
        · omega
      · have := h2 (by omega)
        rw [if_neg (by omega)]
        omega
  have hs : (List.range' 1 m.stations).map (shareOf m) =
      (List.range' 1 m.stations).map fun a =>
        floorOf m + reserveFor m.reserve1 a + reserveFor m.reserve2 a := by
    refine List.map_congr_left fun a ha => ?_
    rw [List.mem_range'_1] at ha
    unfold shareOf
    rw [if_pos (by omega)]
  rw [hs, sum_map_add, sum_map_add]
  have h1 := (one m.reserve1 m.stations 1).1
  have h2 := (one m.reserve2 m.stations 1).1
  have hf : ((List.range' 1 m.stations).map fun _ => floorOf m).sum ≤ m.budget - reserveSum m := by
    rw [List.map_const', List.sum_replicate, List.length_range', smul_eq_mul, floorOf]
    exact Nat.mul_div_le _ _
  have hr : reserveSum m = m.reserve1.2 + m.reserve2.2 := rfl
  omega

end Sys2Proof.Machine
end

