-- ==== Sys2Proof/Laws/Guard.lean ====
section
/-! SUPPORT. What the Output Guard's operations leave: switching an output off and on, every circuit's
entry to DISABLED with the NONE computation that follows. -/

namespace Sys2Proof.Machine

/-! ### Switching off and on (R118, R119) -/

/-- An output switched off is off; no circuit, role, factor or allotment is touched. -/
theorem switchOff_facts (o : Fin 6) (p : Plant) :
    (switchOff o p).cct = p.cct ∧
      (∀ j : Fin 6, (switchOff o p).ogd.outputs[j].role = p.ogd.outputs[j].role) ∧
      (switchOff o p).ogd.outputs[o].energized = false ∧ (switchOff o p).fct = p.fct ∧
      (switchOff o p).alu = p.alu := by
  unfold switchOff
  split
  · refine ⟨rfl, fun j => ?_, (congrArg OutputRow.energized (updOut_row p o _)).trans rfl, rfl, rfl⟩
    by_cases h : j = o
    · rw [h]
      exact (congrArg OutputRow.role (updOut_row p o _)).trans rfl
    · exact congrArg OutputRow.role (updOut_other p o j _ h)
  · rename_i h
    exact ⟨rfl, fun _ => rfl, by simpa using h, rfl, rfl⟩

theorem switchOff_still (o : Fin 6) (p : Plant) (h : p.ogd.outputs[o].energized = false) :
    switchOff o p = p := by
  unfold switchOff
  rw [if_neg (by rw [h]; simp)]

theorem underTest_of (g : Ogd) (t : TestRecord) (h : g.test = some t) :
    g.underTest t.output = true := by
  simp [Ogd.underTest, h]

/-- The row of an output that has been energized: a new period has begun, and the health record's peak takes
in the leakage current of the moment (R119, R127). -/
def begunRow (e : Env) (o : Fin 6) (r : OutputRow) : OutputRow :=
  { r with
    energized := true, periodMs := 0, loadSum := 0, recent := [],
    health := { r.health with peak := max r.health.peak (e.leakageNow o) } }

/-- An output energized with its filtered leakage released is on in a new period, and nothing else is touched
but the peak of its test (R118, R119, R120). -/
theorem energize_on (e : Env) (o : Fin 6) (p : Plant)
    (hl : p.ogd.outputs[o].leakage.level ≠ some true) :
    (energize e o p).cct = p.cct ∧ (energize e o p).fct = p.fct ∧ (energize e o p).alu = p.alu ∧
      (energize e o p).ogd.trips = p.ogd.trips ∧
      (energize e o p).ogd.outputs[o] = begunRow e o p.ogd.outputs[o] ∧
      (∀ j : Fin 6, j ≠ o → (energize e o p).ogd.outputs[j] = p.ogd.outputs[j]) ∧
      ∀ t, p.ogd.test = some t → t.output = o →
        (energize e o p).ogd.test = some { t with peak := max t.peak (e.leakageNow o) } := by
  obtain ⟨q, hq⟩ : ∃ q, q = p.updOut o fun r =>
      { r with energized := true, periodMs := 0, loadSum := 0, recent := [] } := ⟨_, rfl⟩
  have rest : q.cct = p.cct ∧ q.fct = p.fct ∧ q.alu = p.alu ∧ q.ogd.trips = p.ogd.trips ∧
      q.ogd.test = p.ogd.test := by
    rw [hq]
    exact ⟨rfl, rfl, rfl, rfl, rfl⟩
  have row : q.ogd.outputs[o] =
      { p.ogd.outputs[o] with energized := true, periodMs := 0, loadSum := 0, recent := [] } := by
    rw [hq]
    exact updOut_row p o _
  have other : ∀ j : Fin 6, j ≠ o → q.ogd.outputs[j] = p.ogd.outputs[j] := fun j hj => by
    rw [hq]
    exact updOut_other p o j _ hj
  obtain ⟨u, hu⟩ : ∃ u, u = q.updOut o fun r =>
      { r with health := { r.health with peak := max r.health.peak (e.leakageNow o) } } := ⟨_, rfl⟩
  have rest' : u.cct = q.cct ∧ u.fct = q.fct ∧ u.alu = q.alu ∧ u.ogd.trips = q.ogd.trips ∧
      u.ogd.test = q.ogd.test := by
    rw [hu]
    exact ⟨rfl, rfl, rfl, rfl, rfl⟩
  have row' : u.ogd.outputs[o] = begunRow e o p.ogd.outputs[o] := by
    rw [hu, updOut_row, row]
    rfl
  have other' : ∀ j : Fin 6, j ≠ o → u.ogd.outputs[j] = p.ogd.outputs[j] := fun j hj => by
    rw [hu]
    exact (updOut_other q o j _ hj).trans (other j hj)
  have noted : switchOn e o p = if u.ogd.underTest o then
      u.setTest (u.ogd.test.map fun t => { t with peak := max t.peak (e.leakageNow o) }) else u := by
    rw [hu]
    unfold switchOn
    rw [← hq]
    exact if_pos (by rw [row])
  have untripped : energize e o p = switchOn e o p := by
    refine if_neg ?_
    rw [noted]
    split
    · show u.ogd.outputs[o].leakage.level ≠ _
      rw [row']
      exact hl
    · rw [row']
      exact hl
  rw [untripped, noted]
  have tests : ∀ t, p.ogd.test = some t → u.ogd.test = some t := fun t ht =>
    (rest'.2.2.2.2.trans rest.2.2.2.2).trans ht
  split
  · refine ⟨rest'.1.trans rest.1, rest'.2.1.trans rest.2.1, rest'.2.2.1.trans rest.2.2.1,
      rest'.2.2.2.1.trans rest.2.2.2.1, row', other', fun t ht _ => ?_⟩
    show Option.map _ u.ogd.test = _
    rw [tests t ht]
    rfl
  · rename_i hn
    refine ⟨rest'.1.trans rest.1, rest'.2.1.trans rest.2.1, rest'.2.2.1.trans rest.2.2.1,
      rest'.2.2.2.1.trans rest.2.2.2.1, row', other', fun t ht ho => ?_⟩
    exact absurd (ho ▸ underTest_of u.ogd t (tests t ht)) hn

/-! ### Entry to DISABLED (R72) and the NONE computation (R64) -/

/-- A circuit in DISABLED, as far as the grants look at it. -/
def Disabled (p : Plant) (c : Fin 6) : Prop :=
  p.cct[c].state = .disabled ∧ p.cct[c].need = 0 ∧ p.cct[c].onTime = 0

/-- The output a circuit is bound to has a role that names the circuit. -/
theorem boundTo_role {g : Ogd} {c o : Fin 6} (h : g.boundTo c = some o) :
    g.outputs[o].role.circuit = some c := by
  simpa using List.find?_some h

theorem boundTo_congr (g g' : Ogd) (c : Fin 6)
    (h : ∀ o : Fin 6, g'.outputs[o].role = g.outputs[o].role) : g'.boundTo c = g.boundTo c := by
  unfold Ogd.boundTo
  congr 1
  funext o
  rw [h]

/-- A circuit's entry to DISABLED: its bound output goes off; roles, factors and allotment stay. -/
theorem disableCircuit_facts (c : Fin 6) (p : Plant) :
    (∀ j : Fin 6, (j = c ∨ Disabled p j) → Disabled (disableCircuit c p) j) ∧
      (∀ j : Fin 6, (disableCircuit c p).ogd.outputs[j].role = p.ogd.outputs[j].role) ∧
      (∀ o, p.ogd.boundTo c = some o → (disableCircuit c p).ogd.outputs[o].energized = false) ∧
      (disableCircuit c p).fct = p.fct ∧ (disableCircuit c p).alu = p.alu := by
  obtain ⟨q, hq, hd⟩ : ∃ q, q = (match p.ogd.boundTo c with
        | some o => (switchOff o p).updOut o fun r => { r with holdOff := none }
        | none => p) ∧ disableCircuit c p = q.updCct c disabledRow := ⟨_, rfl, rfl⟩
  have hq1 : q.cct = p.cct ∧ (∀ j : Fin 6, q.ogd.outputs[j].role = p.ogd.outputs[j].role) ∧
      (∀ o, p.ogd.boundTo c = some o → q.ogd.outputs[o].energized = false) ∧ q.fct = p.fct ∧
      q.alu = p.alu := by
    rw [hq]
    generalize p.ogd.boundTo c = b
    cases b with
    | none => exact ⟨rfl, fun _ => rfl, fun o h => (by cases h), rfl, rfl⟩
    | some o =>
      obtain ⟨a1, a2, a3, a4, a5⟩ := switchOff_facts o p
      refine ⟨a1, fun j => ?_, fun u hu => ?_, a4, a5⟩
      · refine Eq.trans ?_ (a2 j)
        show (Plant.updOut _ _ _).ogd.outputs[j].role = _
        by_cases h : j = o
        · rw [h, updOut_row]
        · rw [updOut_other _ _ _ _ h]
      · cases hu
        show (Plant.updOut _ _ _).ogd.outputs[o].energized = _
        rw [updOut_row]
        exact a3
  rw [hd]
  refine ⟨fun j hj => ?_, hq1.2.1, hq1.2.2.1, hq1.2.2.2.1, hq1.2.2.2.2⟩
  unfold Disabled
  by_cases h : j = c
  · rw [h, updCct_row]
    exact ⟨rfl, rfl, rfl⟩
  · rw [updCct_other _ _ _ _ h, hq1.1]
    exact hj.resolve_left h

theorem disableEach_disabled (l : List (Fin 6)) : ∀ (p : Plant) (c : Fin 6),
    (c ∈ l ∨ Disabled p c) → Disabled (l.foldl (fun q c => disableCircuit c q) p) c := by
  induction l with
  | nil => exact fun p c h => h.resolve_left (by simp)
  | cons a l ih =>
    intro p c h
    rw [List.foldl_cons]
    have step := (disableCircuit_facts a p).1
    apply ih
    rcases h with h | h
    · exact (List.mem_cons.1 h).elim (fun h => .inr (step c (.inl h))) .inl
    · exact .inr (step c (.inr h))

theorem disableEach_fct (l : List (Fin 6)) : ∀ p : Plant,
    (l.foldl (fun q c => disableCircuit c q) p).fct = p.fct := by
  induction l with
  | nil => exact fun _ => rfl
  | cons a l ih => exact fun p => (ih _).trans (disableCircuit_facts a p).2.2.2.1

theorem disableEach_alu (l : List (Fin 6)) : ∀ p : Plant,
    (l.foldl (fun q c => disableCircuit c q) p).alu = p.alu := by
  induction l with
  | nil => exact fun _ => rfl
  | cons a l ih => exact fun p => (ih _).trans (disableCircuit_facts a p).2.2.2.2

theorem disableEach_off (l : List (Fin 6)) : ∀ (p : Plant) (c o : Fin 6),
    ((c ∈ l ∧ p.ogd.boundTo c = some o) ∨ p.ogd.outputs[o].energized = false) →
      (l.foldl (fun q c => disableCircuit c q) p).ogd.outputs[o].energized = false := by
  induction l with
  | nil => exact fun p c o h => h.resolve_left (by simp)
  | cons a l ih =>
    intro p c o h
    rw [List.foldl_cons]
    obtain ⟨_, roles, off, _, _⟩ := disableCircuit_facts a p
    apply ih _ c o
    rcases h with ⟨h, hb⟩ | h
    · rcases List.mem_cons.1 h with h | h
      · subst h
        exact .inr (off o hb)
      · exact .inl ⟨h, (boundTo_congr _ _ c roles).trans hb⟩
    · refine .inr ?_
      by_contra hn
      have := (disableCircuit_reach a p).off o (by simpa using hn)
      rw [h] at this
      cases this

/-- Every circuit's entry to DISABLED (R72): every circuit is DISABLED and every bound output off. -/
theorem disableAll_facts (p : Plant) :
    (∀ c, Disabled (disableAll p) c) ∧
      (∀ c o, p.ogd.boundTo c = some o → (disableAll p).ogd.outputs[o].energized = false) ∧
      (disableAll p).fct = p.fct ∧ (disableAll p).alu = p.alu := by
  have f1 := fun c => disableEach_disabled sixIds p c (.inl (mem_sixIds c))
  have f2 := fun c o hb => disableEach_off sixIds p c o (.inl ⟨mem_sixIds c, hb⟩)
  have f3 := disableEach_fct sixIds p
  have f4 := disableEach_alu sixIds p
  unfold disableAll stopWindows
  generalize sixIds.foldl (fun q c => disableCircuit c q) p = q at *
  refine ⟨fun c => ?_, fun c o h => f2 c o h, f3, f4⟩
  have := f1 c
  unfold Disabled at *
  dsimp only
  rw [mapRows_get]
  exact this

/-- An own allotment of 0 without a division grants nothing. -/
theorem grantsByKind_zero (e : Env) (p : Plant) (h : p.alu.division = none) (h0 : p.alu.own = 0)
    (c : Fin 6) : (grantsByKind e p)[c] = 0 := by
  unfold grantsByKind
  rw [h]
  dsimp only
  have bound := (localSpread_bounds p p.alu.own).1
  rw [h0] at bound ⊢
  have total : grantSum (localSpread p 0) = 0 := Nat.le_zero.1 bound
  unfold grantSum at total
  exact List.sum_eq_zero_iff.1 total _ (List.mem_map.2 ⟨c, mem_sixIds c, rfl⟩)

/-- Grants handed to circuits that are all DISABLED cut nothing. -/
theorem handGrantsWith_disabled (trip : Env → Fin 6 → FaultKind → Plant → Plant) (e : Env)
    (g : Vector Nat 6) (p : Plant) (hd : ∀ c, Disabled p c) :
    handGrantsWith trip e g p =
        { p with cct := mapRows p.cct fun c r => grantedRow e p c g[c] r } ∧
      ∀ c : Fin 6, Disabled { p with cct := mapRows p.cct fun c r => grantedRow e p c g[c] r } c ∧
        (mapRows p.cct fun c r => grantedRow e p c g[c] r)[c].grant = g[c] := by
  refine ⟨handGrantsWith_uncut _ _ _ _ fun c => cutNow_zero _ _ _ (hd c).2.2, fun c => ?_⟩
  unfold Disabled
  dsimp only
  rw [mapRows_get]
  obtain ⟨h1, h2, h3⟩ := hd c
  refine ⟨⟨h1, h2, ?_⟩, rfl⟩
  unfold grantedRow
  dsimp only
  split
  · rw [h3]
    exact Nat.zero_min _
  · exact h3

end Sys2Proof.Machine
end

