-- ==== Sys2Proof/Laws/Moves.lean ====
section
/-! SUPPORT. What a command can do to the outputs, the grants, the allotment and the membership, said once:
a few kinds of move, and every command a run of them. -/

namespace Sys2Proof.Machine

/-! ### Plants that are alike -/

/-- Neither factor set holds a code that names no factor (R176). -/
def Fct.Named (u : Fct) : Prop := u.status &&& unnamedCodes = 0 ∧ u.mask &&& unnamedCodes = 0

/-- Two plants with the same roles, outputs on, filtered limits, rated loads, test, circuit states, grants,
on-times and allotment; no trip count rises, codes that name no factor stay out, and samples in order stay
so. -/
structure Alike (p q : Plant) : Prop where
  role : ∀ o : Fin 6, q.ogd.outputs[o].role = p.ogd.outputs[o].role
  energized : ∀ o : Fin 6, q.ogd.outputs[o].energized = p.ogd.outputs[o].energized
  limit : ∀ o : Fin 6, q.ogd.outputs[o].limit.level = p.ogd.outputs[o].limit.level
  rated : ∀ o : Fin 6, q.ogd.outputs[o].rated = p.ogd.outputs[o].rated
  test : (q.ogd.test.map fun t => (t.output, t.circuit)) =
    p.ogd.test.map fun t => (t.output, t.circuit)
  state : ∀ c : Fin 6, q.cct[c].state = p.cct[c].state
  grant : ∀ c : Fin 6, q.cct[c].grant = p.cct[c].grant
  onTime : ∀ c : Fin 6, q.cct[c].onTime = p.cct[c].onTime
  trips : ∀ c : Fin 6, q.ogd.trips[c].count ≤ p.ogd.trips[c].count
  own : q.alu.own = p.alu.own
  division : q.alu.division = p.alu.division
  named : p.fct.Named → q.fct.Named
  samples : ∀ o : Fin 6, WindowKept p.ogd.outputs[o] → WindowKept q.ogd.outputs[o]

theorem Alike.refl (p : Plant) : Alike p p :=
  ⟨fun _ => rfl, fun _ => rfl, fun _ => rfl, fun _ => rfl, rfl, fun _ => rfl, fun _ => rfl, fun _ => rfl,
    fun _ => Nat.le_refl _, rfl, rfl, id, fun _ => id⟩

theorem Alike.trans {p q r : Plant} (h : Alike p q) (k : Alike q r) : Alike p r where
  role o := (k.role o).trans (h.role o)
  energized o := (k.energized o).trans (h.energized o)
  limit o := (k.limit o).trans (h.limit o)
  rated o := (k.rated o).trans (h.rated o)
  test := k.test.trans h.test
  state c := (k.state c).trans (h.state c)
  grant c := (k.grant c).trans (h.grant c)
  onTime c := (k.onTime c).trans (h.onTime c)
  trips c := (k.trips c).trans (h.trips c)
  own := k.own.trans h.own
  division := k.division.trans h.division
  named := k.named ∘ h.named
  samples o := k.samples o ∘ h.samples o

/-- The factor sets alone change. -/
theorem Alike.factors (p : Plant) (u : Fct) (h : p.fct.Named → u.Named) : Alike p { p with fct := u } :=
  { Alike.refl p with named := h }

theorem Fct.Named.raise {u : Fct} (h : u.Named) (x : Factor) : (u.raise x).Named := by
  refine ⟨?_, h.2⟩
  show (u.status ||| x.mark) &&& unnamedCodes = 0
  rw [BitVec.and_or_distrib_right, h.1, x.mark_named]
  rfl

theorem Alike.raise (p : Plant) (x : Factor) : Alike p (p.raise x) :=
  Alike.factors p _ fun h => h.raise x

theorem Alike.raiseIf (p : Plant) (b : Bool) (x : Factor) : Alike p (p.raiseIf b x) := by
  cases b
  · exact Alike.refl p
  · exact Alike.raise p x

/-- One output row is rewritten in other items. -/
theorem Alike.updOut (p : Plant) (o : Fin 6) (f : OutputRow → OutputRow)
    (hr : (f p.ogd.outputs[o]).role = p.ogd.outputs[o].role)
    (he : (f p.ogd.outputs[o]).energized = p.ogd.outputs[o].energized)
    (hl : (f p.ogd.outputs[o]).limit.level = p.ogd.outputs[o].limit.level)
    (hd : (f p.ogd.outputs[o]).rated = p.ogd.outputs[o].rated)
    (hw : WindowKept p.ogd.outputs[o] → WindowKept (f p.ogd.outputs[o]) := by exact id) :
    Alike p (p.updOut o f) := by
  have row : ∀ {α : Type} (g : OutputRow → α), g (f p.ogd.outputs[o]) = g p.ogd.outputs[o] →
      ∀ j : Fin 6, g (p.updOut o f).ogd.outputs[j] = g p.ogd.outputs[j] := fun g h j => by
    by_cases e : j = o
    · rw [e, updOut_row, h]
    · rw [updOut_other _ _ _ _ e]
  exact { Alike.refl p with
    role := row _ hr, energized := row _ he, limit := row (fun r => r.limit.level) hl,
    rated := row _ hd,
    samples := fun j x => by
      by_cases e : j = o
      · rw [e] at x ⊢
        rw [updOut_row]
        exact hw x
      · rw [updOut_other _ _ _ _ e]
        exact x }

/-- Every circuit row is rewritten in other items than its state, its grant and its on-time. -/
theorem Alike.mapCct (p : Plant) (f : Fin 6 → CircuitRow → CircuitRow)
    (hs : ∀ c r, (f c r).state = r.state) (hg : ∀ c r, (f c r).grant = r.grant)
    (ho : ∀ c r, (f c r).onTime = r.onTime) :
    Alike p { p with cct := mapRows p.cct f } :=
  { Alike.refl p with
    state := fun c => by
      show (mapRows p.cct f)[c].state = _
      rw [mapRows_get, hs]
    grant := fun c => by
      show (mapRows p.cct f)[c].grant = _
      rw [mapRows_get, hg]
    onTime := fun c => by
      show (mapRows p.cct f)[c].onTime = _
      rw [mapRows_get, ho] }

/-- A trip record is rewritten, with no more trips in it. -/
theorem Alike.updTrip (p : Plant) (c : Fin 6) (f : TripRec → TripRec)
    (h : (f p.ogd.trips[c]).count ≤ p.ogd.trips[c].count) : Alike p (p.updTrip c f) :=
  { Alike.refl p with
    trips := fun j => by
      rw [Plant.updTrip_trips, updAt_get]
      split
      · rename_i e
        subst e
        exact h
      · exact Nat.le_refl _ }

/-- Every output row, the trip records, the FLOW filter and the test record are rewritten in other items. -/
theorem Alike.mapOgd (p : Plant) (f : Fin 6 → OutputRow → OutputRow) (trips : Vector TripRec 6)
    (flow : Filter) (test : Option TestRecord)
    (hr : ∀ o r, (f o r).role = r.role ∧ (f o r).energized = r.energized ∧
      (f o r).limit.level = r.limit.level ∧ (f o r).rated = r.rated)
    (hw : ∀ o r, WindowKept r → WindowKept (f o r))
    (hn : ∀ c : Fin 6, trips[c].count ≤ p.ogd.trips[c].count)
    (ht : (test.map fun t => (t.output, t.circuit)) =
      p.ogd.test.map fun t => (t.output, t.circuit)) :
    Alike p { p with
      ogd := { outputs := mapRows p.ogd.outputs f, trips := trips, flow := flow, test := test } } := by
  have row : ∀ o : Fin 6, (mapRows p.ogd.outputs f)[o] = f o p.ogd.outputs[o] := mapRows_get _ _
  exact { Alike.refl p with
    role := fun o => by rw [row o, (hr o _).1]
    energized := fun o => by rw [row o, (hr o _).2.1]
    limit := fun o => by rw [row o, (hr o _).2.2.1]
    rated := fun o => by rw [row o, (hr o _).2.2.2]
    samples := fun o x => by
      rw [row o]
      exact hw o _ x
    trips := hn
    test := ht }

theorem notePeak_alike (e : Env) (o : Fin 6) (p : Plant) : Alike p (notePeak e o p) := by
  unfold notePeak
  split
  · have h := Alike.updOut p o
      (fun r => { r with health := { r.health with peak := max r.health.peak (e.leakageNow o) } }) rfl rfl
      rfl rfl
    dsimp only
    split
    · refine h.trans { Alike.refl _ with test := ?_ }
      show (Option.map _ (Option.map _ _)) = _
      cases (Plant.updOut p o _).ogd.test <;> rfl
    · exact h
  · exact Alike.refl p

/-- One millisecond of an energized period keeps its samples in order (R119). -/
theorem tickEnergized_samples (sample : Nat) (r : OutputRow) (h : WindowKept r) :
    WindowKept (tickEnergized sample r) := by
  obtain ⟨h1, h2⟩ := h
  refine ⟨?_, fun k => ?_⟩
  · show ((sample :: r.recent).take 100).length = min 100 (r.periodMs + 1)
    rw [List.length_take, List.length_cons]
    omega
  · have k : r.periodMs + 1 ≤ 100 := k
    show ((sample :: r.recent).take 100).sum = r.loadSum + sample
    rw [List.take_of_length_le (by rw [List.length_cons]; omega), List.sum_cons, h2 (by omega)]
    omega

theorem tickOutput_samples (e : Env) (o : Fin 6) (r : OutputRow) (h : WindowKept r) :
    WindowKept (tickOutput e o r) := by
  unfold tickOutput
  dsimp only
  split
  · exact tickEnergized_samples _ _ h
  · exact h

/-- One millisecond of the plant (R115, R119, R129). -/
theorem tickPlant_alike (e : Env) (p : Plant) : Alike p (tickPlant e p) := by
  refine (Alike.mapOgd p (tickOutput e) (mapRows p.ogd.trips (tickTrip p.ogd)) (tickFilter p.ogd.flow)
    (p.ogd.test.map (tickTest e p.ogd)) (fun o r => ?_) (fun o r => tickOutput_samples e o r) (fun c => ?_)
    ?_).trans (Alike.mapCct _ (fun _ r => { r with toNext := countDown r.toNext }) (fun _ _ => rfl)
      (fun _ _ => rfl) fun _ _ => rfl)
  · unfold tickOutput
    dsimp only
    split <;> exact ⟨rfl, rfl, rfl, rfl⟩
  · rw [mapRows_get]
    unfold tickTrip
    split <;> exact Nat.le_refl _
  · rw [Option.map_map]
    congr 1
    funext t
    simp only [Function.comp, tickTest]
    split <;> rfl

/-! ### The moves -/

/-- What a command does to the plant alone. -/
inductive PlantMove (e : Env) (p : Plant) : Plant → Prop where
  | windowStart (c : Fin 6) : PlantMove e p (windowStart e c p)
  | endPeriod (c : Fin 6) : PlantMove e p (endPeriod e c p)
  | settleExpiry (c : Fin 6) : PlantMove e p (settleExpiry e c p)
  | limitChange (o : Fin 6) (isOpen : Bool) : PlantMove e p (limitChange o isOpen e p)
  | trip (o : Fin 6) (k : FaultKind) : PlantMove e p (tripOutput e o k p)
  | holdOffExpiry (o : Fin 6) : PlantMove e p (holdOffExpiry o e p)
  | startTest (o : Fin 6) (seconds : Nat) (h : judgeTest e p o = .accepted) :
    PlantMove e p (startTest e o seconds p)
  | finishTest : PlantMove e p (finishTest e p)
  | compute (round : Option RoundNo) (swap : Bool) (x : Computation)
    (h : ∀ l, x = .complete l → e.membership.follows = true) :
    PlantMove e p (compute e round swap x p)

/-- RESETN, the address, an image that has been read, and whether rounds are followed are the same. -/
structure SameControl (s t : State) : Prop where
  held : t.pins.resetnHeld = s.pins.resetnHeld
  rank : t.sul.rank = s.sul.rank
  read : s.sul.progress = .done → t.sul = s.sul
  follows : t.rct.membership.follows = s.rct.membership.follows

theorem SameControl.trans {s t u : State} (h : SameControl s t) (k : SameControl t u) :
    SameControl s u where
  held := k.held.trans h.held
  rank := k.rank.trans h.rank
  read d := (k.read (by rw [h.read d]; exact d)).trans (h.read d)
  follows := k.follows.trans h.follows

/-- What a command can do: nothing to the plant that counts, a move of the plant, the judgement of an image,
the entry to RETIRED, or a RESTART. -/
inductive Move (s : State) : State → Prop where
  | alike {t : State} (hp : Alike s.plant t.plant) (hc : SameControl s t) : Move s t
  | plant {p : Plant} (h : PlantMove s.env s.plant p) : Move s { s with plant := p }
  | listen (u : Sul) (hr : u.rank = s.sul.rank) (hi : imagePasses u.copy u.rank = true)
    (hp : s.sul.progress ≠ .done) : Move s (enterListen { s with sul := u })
  | blocked (u : Sul) (hr : u.rank = s.sul.rank) (hp : s.sul.progress ≠ .done) :
    Move s (enterBlocked { s with sul := u })
  | retired (h : s.rct.membership.follows = true) : Move s (enterRetired s)
  | restart : Move s (restartTaken s)

/-- A run of moves. -/
abbrev Moves : State → State → Prop := Relation.ReflTransGen Move

theorem Moves.refl (s : State) : Moves s s := Relation.ReflTransGen.refl

theorem Moves.trans {s t u : State} (h : Moves s t) (k : Moves t u) : Moves s u :=
  Relation.ReflTransGen.trans h k

theorem Moves.one {s t : State} (h : Move s t) : Moves s t := .single h

/-- The plant, the Start-up Loader, RESETN and whether rounds are followed stay. -/
theorem Moves.same {s t : State} (hp : t.plant = s.plant := by rfl) (hs : t.sul = s.sul := by rfl)
    (hn : t.pins.resetnHeld = s.pins.resetnHeld := by rfl)
    (hf : t.rct.membership.follows = s.rct.membership.follows := by rfl) : Moves s t :=
  .one (.alike (hp ▸ Alike.refl _) ⟨hn, by rw [hs], fun _ => hs, hf⟩)

/-- The plant changes in nothing that counts, and the rest stays. -/
theorem Moves.alike {s : State} {p : Plant} (h : Alike s.plant p) : Moves s { s with plant := p } :=
  .one (.alike h ⟨rfl, rfl, fun _ => rfl, rfl⟩)

theorem Moves.plant {s : State} {p : Plant} (h : PlantMove s.env s.plant p) :
    Moves s { s with plant := p } := .one (.plant h)

theorem Moves.raise (s : State) (x : Factor) : Moves s (s.raise x) := .alike (.raise _ x)

theorem Moves.raiseIf (s : State) (b : Bool) (x : Factor) : Moves s (s.raiseIf b x) :=
  .alike (.raiseIf _ b x)

/-- No move asserts RESETN. -/
theorem move_held {s t : State} (h : Move s t) (hs : s.pins.resetnHeld = false) :
    t.pins.resetnHeld = false := by
  cases h with
  | alike hp hc => exact hc.held.trans hs
  | plant h => exact hs
  | listen u hr hi hp => exact hs
  | blocked u hr hp => exact hs
  | retired h => exact hs
  | restart => exact hs

/-! ### Rounds (R6, R9 to R15, R30) -/

theorem follows_member {m : Membership} (h : m = .member) : m.follows = true := by rw [h]; rfl

theorem swap_moves (kind : AdoptKind) (round : RoundNo) (degraded : Bool) (s : State) :
    Moves s (swap kind round degraded s) := by
  obtain ⟨r, hr⟩ := countMissedBids_eq (missedBids s kind s.rst.swapBuffers.settledBuf degraded) s
  unfold swap
  simp only [hr]
  generalize swapVerdict s kind degraded = complete
  generalize hx : swapComputation s kind s.rst.swapBuffers.settledBuf (rstAfterSwap s kind complete).rows
    complete = x
  have raises : Alike s.plant (swapRaises s kind (rstAfterSwap s kind complete).rows
      (rstAfterSwap s kind complete).silent s.plant) :=
    ((Alike.raiseIf _ _ _).trans (Alike.raiseIf _ _ _)).trans (Alike.raiseIf _ _ _)
  refine Moves.trans (t := { s with
    lck := { s.lck with rows := r }, rst := rstAfterSwap s kind complete,
    plant := swapRaises s kind (rstAfterSwap s kind complete).rows
      (rstAfterSwap s kind complete).silent s.plant }) ?_ ?_
  · exact Moves.one (.alike raises ⟨rfl, rfl, fun _ => rfl, rfl⟩)
  · refine (Moves.plant (.compute (some round) true x fun l hl => ?_)).trans
      (Moves.alike (Alike.raiseIf _ _ .peerAlarm))
    rw [← hx] at hl
    unfold swapComputation at hl
    split at hl
    · rename_i hm
      exact follows_member hm
    · cases hl

theorem adoptMembership_moves (kind : AdoptKind) (s : State) : Moves s (adoptMembership kind s) := by
  unfold adoptMembership
  split
  · rename_i hm
    dsimp only
    split
    · exact Moves.same (hf := by rw [hm]; rfl)
    · exact Moves.same
  · rename_i hm
    split
    · exact Moves.same (hf := by rw [hm]; rfl)
    · exact Moves.refl _
  all_goals exact Moves.refl _

theorem enterRound_moves (round : RoundNo) (opener : Nat) (degraded : Bool) (s : State) :
    Moves s (enterRound round opener degraded s) :=
  (Moves.same (t := updRct (fun r => { r with
    round := some round, opener := some opener, degraded := degraded,
    roundTimer := some s.roundTimerMs,
    listenTimer := if r.membership = .listen then some s.listenTimerMs else r.listenTimer }) s)).trans
    (Moves.raiseIf _ _ _)

theorem refillSlots_moves (round : RoundNo) (opener : Nat) (s : State) :
    Moves s (refillSlots round opener s) := by
  unfold refillSlots
  dsimp only
  split <;> exact Moves.same

theorem adopt_moves (kind : AdoptKind) (round : RoundNo) (opener : Nat) (s : State) :
    Moves s (adopt kind round opener s) :=
  ((((adoptMembership_moves kind s).trans Moves.same).trans (swap_moves _ _ _ _)).trans
    (enterRound_moves _ _ _ _)).trans (refillSlots_moves _ _ _)

theorem degradeMidRound_moves (s : State) : Moves s (degradeMidRound s) := by
  unfold degradeMidRound
  refine (Moves.same (t := updRct (fun r => { r with degraded := true }) s)).trans ?_
  dsimp only
  generalize updRct (fun r => { r with degraded := true }) s = t
  split
  · refine (Moves.raise t .degraded).trans ?_
    generalize t.raise .degraded = u
    exact Moves.plant (.compute _ _ _ fun _ h => (by cases h))
  · exact Moves.refl _

theorem conflict_moves (s : State) : Moves s (conflict s) := by
  unfold conflict
  refine (Moves.raise s .openConflict).trans ?_
  dsimp only
  split
  · exact Moves.refl _
  · exact degradeMidRound_moves _

theorem acceptBid_moves (b : BidFrame) (s : State) : Moves s (acceptBid b s) :=
  (Moves.same (t := { s with
    rst := { s.rst.collect b with rows := markReturn b.sender s.rst.rows } })).trans (Moves.raiseIf _ _ _)

theorem offerBid_moves (b : BidFrame) (s : State) : Moves s (offerBid b s) := by
  unfold offerBid
  split
  · exact Moves.refl _
  split
  · exact Moves.same
  split
  · exact Moves.raise _ _
  split
  · exact Moves.refl _
  split
  · exact Moves.raise _ _
  · exact acceptBid_moves b s

theorem openReceived_moves (f : OpenFrame) (s : State) : Moves s (openReceived f s) := by
  unfold openReceived
  split
  · exact Moves.refl _
  split
  · exact adopt_moves _ _ _ _
  · exact adopt_moves _ _ _ _
  · split
    · exact Moves.refl _
    · exact conflict_moves s
  · exact Moves.refl _

theorem bidReceived_moves (b : BidFrame) (s : State) : Moves s (bidReceived b s) := by
  unfold bidReceived
  split
  · exact offerBid_moves b s
  split
  · exact (adopt_moves _ _ _ _).trans (offerBid_moves _ _)
  · exact (adopt_moves _ _ _ _).trans (offerBid_moves _ _)
  · split
    · exact offerBid_moves b s
    · exact conflict_moves s
  · exact Moves.refl _

/-! ### Service (R161 to R175) -/

theorem takeRestart_moves (s : State) : Moves s (takeRestart s) := by
  unfold takeRestart
  split
  · exact Moves.one .restart
  · exact Moves.refl _

theorem serveTest_moves (o : Fin 6) (seconds : Nat) (s : State) :
    Moves s (serveTest o seconds s).2 := by
  unfold serveTest
  split
  · rename_i h
    exact Moves.plant (.startTest o seconds h)
  · exact Moves.refl _

theorem serveRetire_moves (a : Nat) (s : State) : Moves s (serveRetire a s) := by
  have row : Moves s (retireRow a s) := by
    unfold retireRow
    split
    · split
      · exact Moves.refl _
      · exact Moves.same
    · exact Moves.refl _
  have hm : (retireRow a s).rct = s.rct := by
    unfold retireRow
    split
    · split <;> rfl
    · rfl
  unfold serveRetire
  dsimp only
  split
  · rename_i h
    rw [Bool.and_eq_true] at h
    exact row.trans (Moves.one (.retired (by rw [hm]; exact h.2)))
  · exact row

/-- The factor codes of a CLEAR_FACTORS or SET_MASK of good form name factors (R161). -/
theorem factors_named (k : Nat) (args : List Byte) (hk : k = 1 ∨ k = 2)
    (hf : commandFormOk k args = true) : factorSetAt args 0 &&& unnamedCodes = 0 := by
  rcases hk with rfl | rfl
  all_goals
    rcases args with _ | ⟨a, _ | ⟨b, _ | ⟨c, _ | ⟨d, l⟩⟩⟩⟩
    all_goals first
      | exact of_decide_eq_true hf
      | cases hf

/-- A command of good form that is served. -/
theorem serveCommand_moves (kind : Nat) (args : List Byte) (s : State)
    (hf : commandFormOk kind args = true) : Moves s (serveCommand kind args s).2 := by
  match kind, hf with
  | 0, _ => exact Moves.refl _
  | 1, _ =>
    refine Moves.alike (Alike.factors _ _ fun h => ⟨?_, h.2⟩)
    show (s.plant.fct.status &&& ~~~_) &&& unnamedCodes = 0
    rw [BitVec.and_assoc, BitVec.and_comm (~~~_), ← BitVec.and_assoc, h.1]
    simp
  | 2, hf => exact Moves.alike (Alike.factors _ _ fun h => ⟨h.1, factors_named 2 args (.inr rfl) hf⟩)
  | 3, _ =>
    show Moves s (Prod.snd (match outputOf _ with | some o => serveTest o _ s | none => (.badRequest, s)))
    split
    · exact serveTest_moves _ _ _
    · exact Moves.refl _
  | 4, _ =>
    show Moves s (serveLinecheck _ _ s).2
    unfold serveLinecheck
    split
    · exact Moves.same
    · exact Moves.refl _
  | 5, _ => exact serveRetire_moves _ _
  | 6, _ => exact Moves.same
  | 7, _ => exact Moves.same
  | n + 8, _ => exact Moves.refl _

theorem judgeRequest_moves (r : Request) (s : State) : Moves s (judgeRequest r s).2 := by
  unfold judgeRequest
  split
  · exact Moves.refl _
  rename_i hf
  split
  · exact Moves.refl _
  split
  · exact Moves.refl _
  cases r with
  | query q => exact Moves.refl _
  | command c => exact serveCommand_moves _ _ _ (by simpa [formOk] using hf)

theorem serve_moves (r : Request) (s : State) : Moves s (serve r s) := by
  unfold serve
  have h := judgeRequest_moves r s
  generalize judgeRequest r s = x at h
  dsimp only
  split
  · exact h.trans (takeRestart_moves _)
  · exact h.trans Moves.same

/-! ### Frames (R138 to R140, R151, R156) -/

theorem updQuality_moves (a : Nat) (f : QualityRow → QualityRow) (s : State) :
    Moves s (updQuality a f s) := by
  obtain ⟨rows, h⟩ := updQuality_eq a f s
  rw [h]
  exact Moves.same

theorem countFrame_moves (f : Frame) (s : State) : Moves s (countFrame f s) := by
  have good : Moves s (countGood s) := .same
  unfold countFrame
  split
  · exact good.trans (updQuality_moves _ _ _)
  · exact (good.trans (updQuality_moves _ _ _)).trans (updQuality_moves _ _ _)
  · exact good.trans Moves.same
  · exact good.trans (updQuality_moves _ _ _)
  · exact good.trans (updQuality_moves _ _ _)

theorem route_moves (f : Frame) (s : State) : Moves s (route f s) := by
  unfold route
  split
  · exact openReceived_moves _ _
  · exact bidReceived_moves _ _
  · split
    · exact serve_moves _ _
    · exact Moves.refl _
  · exact Moves.refl _
  · exact (updQuality_moves _ _ _).trans (Moves.raiseIf _ _ _)

theorem goodFrame_moves (f : Frame) (s : State) : Moves s (goodFrame f s) :=
  (countFrame_moves f s).trans (route_moves f _)

theorem receive_moves (f : Frame) (s : State) : Moves s (receive f s) := by
  unfold receive
  split
  · split
    · exact (Moves.same (t := frameEnded 0 s)).trans (goodFrame_moves f _)
    · exact Moves.same
  · exact Moves.refl _

theorem receiveBytes_moves (bytes : List Byte) (s : State) : Moves s (receiveBytes bytes s) := by
  unfold receiveBytes
  split
  · split
    · exact (Moves.same (t := frameEnded 0 s)).trans (goodFrame_moves _ _)
    · exact Moves.same
    · exact Moves.same
  · exact Moves.refl _

theorem brokenFrame_moves (idle : Nat) (s : State) : Moves s (brokenFrame idle s) := by
  unfold brokenFrame
  split
  · exact Moves.same
  · exact Moves.refl _

/-! ### The station's own frames (R143 to R146) -/

theorem winLine_moves (n : SlotName) (s : State) : Moves s (winLine n s) := by
  unfold winLine
  dsimp only
  split
  · exact Moves.same
  · split <;> exact Moves.same
  · split <;> exact Moves.same
  · exact Moves.same

theorem deferenceExpiry_moves (s : State) : Moves s (deferenceExpiry s) := by
  unfold deferenceExpiry
  split
  · split
    · exact winLine_moves _ _
    · exact Moves.refl _
  · exact Moves.refl _

theorem checkEnded_moves (equal : Bool) (s : State) : Moves s (checkEnded equal s) :=
  (Moves.same (t := updLif (fun l => { l with idle := some 0 }) s)).trans (Moves.raiseIf _ _ _)

theorem openCheckEnd_moves (equal : Bool) (s : State) : Moves s (openCheckEnd equal s) := by
  unfold openCheckEnd
  split
  · refine (checkEnded_moves equal s).trans ?_
    dsimp only
    split
    · exact (Moves.same (t := updLif (fun l => { l with openSlot := .empty, openFailures := 0 })
        (checkEnded equal s))).trans (adopt_moves _ _ _ _)
    · split <;> exact Moves.same
  · exact Moves.refl _
  · exact Moves.refl _

theorem bidCheckEnd_moves (equal : Bool) (s : State) : Moves s (bidCheckEnd equal s) := by
  unfold bidCheckEnd
  split
  · refine (checkEnded_moves equal s).trans ?_
    dsimp only
    split <;> exact Moves.same
  · exact Moves.refl _
  · exact Moves.refl _

theorem replyCheckEnd_moves (equal : Bool) (s : State) : Moves s (replyCheckEnd equal s) := by
  unfold replyCheckEnd
  split
  · exact ((checkEnded_moves equal s).trans Moves.same).trans (takeRestart_moves _)
  · exact Moves.refl _
  · exact Moves.refl _

theorem testCheckEnd_moves (equal : Bool) (s : State) : Moves s (testCheckEnd equal s) := by
  unfold testCheckEnd
  split
  · exact (checkEnded_moves equal s).trans Moves.same
  · exact Moves.refl _
  · exact Moves.refl _

/-! ### Pins (R115, R133, R145) -/

theorem startBit_moves (s : State) : Moves s (startBit s) := by
  unfold startBit
  split
  · exact Moves.refl _
  · split
    · exact Moves.refl _
    · exact Moves.refl _
    · exact Moves.same
    · exact Moves.same

theorem lineStart_moves (s : State) : Moves s (lineStart s) := by
  refine Moves.trans ?_ (startBit_moves _)
  unfold breakAtGap
  split
  · exact brokenFrame_moves _ _
  · exact Moves.refl _

theorem lineCharacter_moves (c : LineChar) (s : State) : Moves s (lineCharacter c s) := by
  unfold lineCharacter
  split
  · unfold ownCharacter
    split
    · unfold checkEnd
      split
      · exact openCheckEnd_moves _ _
      split
      · exact bidCheckEnd_moves _ _
      split
      · exact replyCheckEnd_moves _ _
      · exact testCheckEnd_moves _ _
    · exact Moves.same
  · unfold otherCharacter
    split
    · exact Moves.refl _
    · exact Moves.refl _
    · exact Moves.same
    · unfold frameCharacter
      dsimp only
      split
      · exact brokenFrame_moves _ _
      split
      · exact receiveBytes_moves _ _
      · exact Moves.same

theorem rawStep_level (old new : Bool) (f : Filter) : (rawStep old new f).level = f.level := by
  unfold rawStep rawChange
  split <;> rfl

theorem rawInputChange_moves (i : RawInput) (s : State) : Moves s (rawInputChange i s) := by
  cases i with
  | leakage o mA =>
    refine (Moves.same (t := updPins (fun n => { n with leakage := n.leakage.set o mA }) s)).trans
      (Moves.alike ((Alike.updOut _ o _ rfl rfl rfl rfl).trans (notePeak_alike _ _ _)))
  | limit o isOpen =>
    exact (Moves.same (t := updPins (fun n => { n with limitOpen := n.limitOpen.set o isOpen }) s)).trans
      (Moves.alike (Alike.updOut _ o _ rfl rfl (rawStep_level _ _ _) rfl))
  | flow asserted =>
    exact (Moves.same (t := updPins (fun n => { n with flow := asserted }) s)).trans
      (Moves.alike { Alike.refl s.plant with })
  | load o tenths => exact Moves.same
  | strap bit isOpen => exact Moves.same
  | lineStart => exact lineStart_moves s
  | lineCharacter c => exact lineCharacter_moves c s

/-! ### Start-up (R187 to R192) -/

/-- The read goes on: nothing but the Start-up Loader's items changes, and the image is not judged. -/
theorem Moves.reading {s : State} (f : Sul → Sul) (hp : s.sul.progress ≠ .done)
    (hr : (f s.sul).rank = s.sul.rank) : Moves s (updSul f s) :=
  .one (.alike (Alike.refl _) ⟨rfl, hr, fun h => absurd h hp, rfl⟩)

theorem attemptFailed_moves (k a : Nat) (s : State) (hp : s.sul.progress ≠ .done) :
    Moves s (attemptFailed k a s) := by
  unfold attemptFailed
  split
  · exact Moves.reading _ hp rfl
  · exact Moves.one (.blocked s.sul rfl hp)

/-- The judgement of the working copy of `u` (R189, R190). -/
theorem judgeImage_moves (u : Sul) (s : State) (hr : u.rank = s.sul.rank) (hp : s.sul.progress ≠ .done) :
    Moves s (judgeImage { s with sul := u }) := by
  have judged : judgeImage { s with sul := u } =
      if imagePasses u.copy u.rank then
        enterListen { s with sul := { u with
          sharedGood := sharedPasses u.copy,
          digest := if sharedPasses u.copy then some (sharedDigest u.copy) else none } }
      else
        enterBlocked { s with sul := { u with
          sharedGood := sharedPasses u.copy,
          digest := if sharedPasses u.copy then some (sharedDigest u.copy) else none } } := rfl
  rw [judged]
  split
  · rename_i h
    exact Moves.one (.listen _ hr h hp)
  · exact Moves.one (.blocked _ hr hp)

theorem transferDone_moves (k : Nat) (bytes : List Byte) (s : State) (hp : s.sul.progress ≠ .done) :
    Moves s (transferDone k bytes s) := by
  unfold transferDone
  dsimp only
  split
  · exact Moves.one (.blocked { s.sul with copy := s.sul.copy ++ bytes } rfl hp)
  · split
    · exact Moves.reading (fun u =>
        { u with copy := u.copy ++ bytes, progress := .reading (k + 1) 1 none }) hp rfl
    · exact judgeImage_moves { s.sul with copy := s.sul.copy ++ bytes } s rfl hp

theorem transferAttemptEnd_moves (x : TransferOutcome) (s : State) :
    Moves s (transferAttemptEnd x s) := by
  unfold transferAttemptEnd
  split
  · rename_i k a h
    have hp : s.sul.progress ≠ .done := by rw [h]; nofun
    split
    · split
      · exact transferDone_moves _ _ _ hp
      · exact Moves.refl _
    · exact attemptFailed_moves _ _ _ hp
    · exact attemptFailed_moves _ _ _ hp
  all_goals exact Moves.refl _

theorem clockHoldTimeout_moves (s : State) : Moves s (clockHoldTimeout s) := by
  unfold clockHoldTimeout
  split
  · rename_i k a h
    exact attemptFailed_moves _ _ _ (by rw [h]; nofun)
  all_goals exact Moves.refl _

theorem attemptRetryDelayExpiry_moves (s : State) : Moves s (attemptRetryDelayExpiry s) := by
  unfold attemptRetryDelayExpiry
  split
  · rename_i k a w h
    exact Moves.reading _ (by rw [h]; nofun) rfl
  all_goals exact Moves.refl _

/-! ### The other commands -/

theorem placeOpen_moves (s : State) : Moves s (placeOpen s) := by
  unfold placeOpen
  split
  · exact Moves.same
  · exact Moves.refl _
  · exact Moves.refl _

theorem roundTimerExpiry_moves (s : State) : Moves s (roundTimerExpiry s) := by
  unfold roundTimerExpiry
  split
  · refine (Moves.same (t := updRct (fun r => { r with roundTimer := none }) s)).trans ?_
    dsimp only
    split
    · exact placeOpen_moves _
    · exact Moves.refl _
  · exact Moves.refl _

theorem listenTimerExpiry_moves (s : State) : Moves s (listenTimerExpiry s) := by
  unfold listenTimerExpiry
  split
  · rename_i h
    rw [Bool.and_eq_true, decide_eq_true_eq] at h
    exact (Moves.same (hf := by rw [h.2]; rfl)).trans (placeOpen_moves _)
  · exact Moves.refl _

theorem scanEnd_alike (p : Plant) : Alike p (scanEnd p) :=
  Alike.mapCct p (fun _ r => countScan r) (fun _ _ => rfl) (fun _ _ => rfl) fun _ _ => rfl

theorem conversionEnd_moves (m : Conversion) (s : State) : Moves s (conversionEnd m s) := by
  unfold conversionEnd
  split
  · exact Moves.refl _
  · dsimp only
    split
    · exact Moves.same
    · exact Moves.one (.alike (scanEnd_alike _) ⟨rfl, rfl, fun _ => rfl, rfl⟩)

theorem leakageChange_moves (o : Fin 6) (asserted : Bool) (s : State) :
    Moves s { s with plant := leakageChange o asserted s.env s.plant } := by
  have h := Alike.updOut s.plant o (fun r => { r with leakage := filterTo asserted r.leakage }) rfl rfl
    rfl rfl
  unfold leakageChange
  dsimp only
  split
  · exact (Moves.alike h).trans (Moves.plant (.trip o .leakage))
  · exact Moves.alike h

/-- Every command but a pin reset and the release of RESETN is a run of moves. -/
theorem exec_moves (x : Instr) (s t : State) (h : exec x s = .next t) (hp : x ≠ .pinReset)
    (hr : ∀ straps, x ≠ .resetnRelease straps) : Moves s t := by
  cases x <;> simp only [exec] at h <;> cases h
  case pinReset => exact absurd rfl hp
  case resetnRelease straps => exact absurd rfl (hr straps)
  case transferAttemptEnd => exact transferAttemptEnd_moves _ _
  case clockHoldTimeout => exact clockHoldTimeout_moves s
  case attemptRetryDelayExpiry => exact attemptRetryDelayExpiry_moves s
  case badFrameReceived => exact receiveBytes_moves _ _
  case frameGapTimeout => exact brokenFrame_moves _ _
  case brokenFrame => exact brokenFrame_moves _ _
  case deferenceExpiry => exact deferenceExpiry_moves s
  case openCheckEnd => exact openCheckEnd_moves _ _
  case bidCheckEnd => exact bidCheckEnd_moves _ _
  case replyCheckEnd => exact replyCheckEnd_moves _ _
  case testCheckEnd => exact testCheckEnd_moves _ _
  case roundTimerExpiry => exact roundTimerExpiry_moves s
  case listenTimerExpiry => exact listenTimerExpiry_moves s
  case windowStart c => exact Moves.plant (.windowStart c)
  case onTimeElapsed c => exact Moves.plant (.endPeriod c)
  case conversionEnd => exact conversionEnd_moves _ _
  case settleTimerExpiry c => exact Moves.plant (.settleExpiry c)
  case rawInputChange => exact rawInputChange_moves _ _
  case limitFilteredChange o isOpen => exact Moves.plant (.limitChange o isOpen)
  case leakageFilteredChange o asserted => exact leakageChange_moves o asserted s
  case flowFilteredChange asserted => exact Moves.alike { Alike.refl s.plant with }
  case overloadDetected o load =>
    simp only [onPlant, overloadDetected]
    split
    · exact Moves.plant (.trip o .overload)
    · exact Moves.alike (Alike.refl _)
  case holdOffExpiry o => exact Moves.plant (.holdOffExpiry o)
  case tripClearTimeReached c =>
    simp only [onPlant, tripClear]
    split
    · exact Moves.alike (Alike.updTrip _ _ _ (Nat.zero_le _))
    · exact Moves.alike (Alike.refl _)
  case testDurationExpiry => exact Moves.plant .finishTest
  all_goals exact receive_moves _ _

/-- One millisecond is a move (log entry 2). -/
theorem tick_move (s : State) : Move s (tick s) :=
  .alike (tickPlant_alike _ _) ⟨rfl, rfl, fun h => by
    show { s.sul with progress := tickProgress s.sul.progress } = s.sul
    rw [h]
    cases hs : s.sul
    rw [hs] at h
    cases h
    rfl, rfl⟩

end Sys2Proof.Machine
end

