-- ==== Sys2Proof/Laws/Reset.lean ====
section
/-! SUPPORT. What a held RESETN means for a step (R185), and the induction of every claim about what a step
keeps. -/

namespace Sys2Proof.Machine

/-! ### While RESETN is held -/

/-- The station with RESETN held, at other pin levels, counter of the free values, time and queue. -/
def heldState (pins : Pins) (free now : Nat) (queue : List Instr) : State :=
  { State.reset with
    pins := { pins with resetnHeld := true }, plant := { Plant.reset with free := free }, now := now,
    pending := queue }

theorem atPinReset_held (pins : Pins) (free now : Nat) (queue : List Instr) :
    AtPinReset (heldState pins free now queue) := rfl

theorem atPinReset_eq {s : State} (h : AtPinReset s) :
    s = heldState s.pins s.plant.free s.now s.pending := h

/-- RESETN is held, and the other pins are no item of a block. -/
theorem atPinReset_pins {s : State} (h : AtPinReset s) (n : Pins) (hn : n.resetnHeld = true) :
    AtPinReset { s with pins := n } := by
  obtain ⟨held, straps, leakage, limitOpen, load, flow⟩ := n
  cases hn
  rw [atPinReset_eq h]
  rfl

theorem updOut_self (p : Plant) (o : Fin 6) (f : OutputRow → OutputRow)
    (h : f p.ogd.outputs[o] = p.ogd.outputs[o]) : p.updOut o f = p := by
  unfold Plant.updOut updAt
  rw [h]
  simp

theorem updTrip_self (p : Plant) (c : Fin 6) (f : TripRec → TripRec)
    (h : f p.ogd.trips[c] = p.ogd.trips[c]) : p.updTrip c f = p := by
  unfold Plant.updTrip updAt
  rw [h]
  simp

/-- The rows of a plant in pin reset. -/
theorem resetRow (free : Nat) (o : Fin 6) :
    ({ Plant.reset with free := free } : Plant).ogd.outputs[o] = .reset := by
  show (Vector.replicate 6 OutputRow.reset)[o] = _
  simp

theorem resetCircuit (free : Nat) (c : Fin 6) :
    ({ Plant.reset with free := free } : Plant).cct[c] = .reset := by
  show (Vector.replicate 6 CircuitRow.reset)[c] = _
  simp

theorem resetTrip (free : Nat) (c : Fin 6) :
    ({ Plant.reset with free := free } : Plant).ogd.trips[c] = .reset := by
  show (Vector.replicate 6 TripRec.reset)[c] = _
  simp

theorem resetBound (free : Nat) (c : Fin 6) :
    ({ Plant.reset with free := free } : Plant).ogd.boundTo c = none := by
  unfold Ogd.boundTo
  rw [List.find?_eq_none]
  intro o _
  rw [resetRow]
  simp [OutputRow.reset, Role.circuit]

/-- A filter that is stopped stays so (R115). -/
theorem rawStep_reset (old new : Bool) : rawStep old new Filter.reset = .reset := by
  unfold rawStep
  split <;> rfl

/-- No operation of a command changes the plant of a held RESETN. -/
theorem reset_plant (e : Env) (free : Nat) {p : Plant} (hp : p = { Plant.reset with free := free }) :
    (∀ c, windowStart e c p = p) ∧ (∀ c, endPeriod e c p = p) ∧ (∀ c, settleExpiry e c p = p) ∧
      (∀ o b, limitChange o b e p = p) ∧ (∀ o b, leakageChange o b e p = p) ∧
      (∀ o load, overloadDetected o load e p = p) ∧ (∀ o, holdOffExpiry o e p = p) ∧
      (∀ c, tripClear c e p = p) ∧ finishTest e p = p ∧ (∀ o, notePeak e o p = p) := by
  have row := resetRow free
  have cct := resetCircuit free
  have trip := resetTrip free
  have bound := resetBound free
  rw [← hp] at row cct trip bound
  have test : p.ogd.test = none := by rw [hp]; rfl
  refine ⟨fun c => ?_, fun c => ?_, fun c => ?_, fun o b => ?_, fun o b => ?_, fun o load => ?_,
    fun o => ?_, fun c => ?_, ?_, fun o => ?_⟩
  · simp only [windowStart, cct c]
    rfl
  · simp only [endPeriod, endPeriodWith, bound c]
  · simp only [settleExpiry, cct c]
    rfl
  · simp only [limitChange, row o]
    exact updOut_self p o _ (by rw [row o]; rfl)
  · simp only [leakageChange, row o]
    exact updOut_self p o _ (by rw [row o]; rfl)
  · simp only [overloadDetected, row o]
    rfl
  · simp only [holdOffExpiry, row o]
    rfl
  · unfold tripClear
    split
    · exact updTrip_self p c _ (by rw [trip c]; rfl)
    · rfl
  · simp only [finishTest, test]
  · simp only [notePeak, row o]
    rfl

/-- A pin level changes under a held RESETN: no filter runs (R115). -/
theorem rawInputChange_atPinReset (i : RawInput) {s : State} (hs : AtPinReset s) :
    AtPinReset (rawInputChange i s) := by
  have plant : s.plant = { Plant.reset with free := s.plant.free } := by
    rw [atPinReset_eq hs]
    rfl
  have row : ∀ o : Fin 6, s.plant.ogd.outputs[o] = .reset := fun o => by
    rw [plant]
    exact resetRow _ o
  have flow : s.plant.ogd.flow = .reset := by
    rw [plant]
    rfl
  have held : s.pins.resetnHeld = true := by
    rw [atPinReset_eq hs]
    rfl
  have stays : ∀ (n : Pins) (p : Plant), p = s.plant → n.resetnHeld = s.pins.resetnHeld →
      AtPinReset { s with pins := n, plant := p } := fun n p hp hn => by
    rw [hp]
    exact atPinReset_pins hs n (hn.trans held)
  cases i with
  | leakage o mA =>
    refine stays _ _ ?_ rfl
    refine Eq.trans (congrArg _ (updOut_self s.plant o _ ?_)) ((reset_plant _ _ plant).2.2.2.2.2.2.2.2.2 o)
    rw [row o]
    exact congrArg (fun f => { OutputRow.reset with leakage := f }) (rawStep_reset _ _)
  | limit o isOpen =>
    refine stays _ _ (updOut_self s.plant o _ ?_) rfl
    rw [row o]
    exact congrArg (fun f => { OutputRow.reset with limit := f }) (rawStep_reset _ _)
  | flow asserted =>
    refine stays _ _ ?_ rfl
    have h : rawStep s.pins.flow asserted s.plant.ogd.flow = s.plant.ogd.flow := by
      rw [flow, rawStep_reset]
    exact congrArg (fun x => { s.plant with ogd := { s.plant.ogd with flow := x } }) h
  | load o tenths => exact stays _ _ rfl rfl
  | strap bit isOpen => exact stays _ _ rfl rfl
  | lineStart =>
    rw [atPinReset_eq hs]
    rfl
  | lineCharacter c =>
    rw [atPinReset_eq hs]
    rfl

/-- A command other than the release of RESETN leaves a held station in pin reset (R185). -/
theorem exec_atPinReset (x : Instr) (s t : State) (hs : AtPinReset s) (h : exec x s = .next t)
    (hr : ∀ straps, x ≠ .resetnRelease straps) : AtPinReset t := by
  have eq := atPinReset_eq hs
  obtain ⟨k1, k2, k3, k4, k5, k6, k7, k8, k9, k10⟩ :=
    reset_plant s.env s.plant.free (p := s.plant) (by rw [eq]; rfl)
  cases x <;> simp only [exec] at h <;> cases h
  case pinReset => rfl
  case resetnRelease straps => exact absurd rfl (hr straps)
  case windowStart c => simpa only [onPlant, k1] using hs
  case onTimeElapsed c => simpa only [onPlant, k2] using hs
  case settleTimerExpiry c => simpa only [k3] using hs
  case limitFilteredChange o b => simpa only [onPlant, k4] using hs
  case leakageFilteredChange o b => simpa only [onPlant, k5] using hs
  case overloadDetected o l => simpa only [onPlant, k6] using hs
  case holdOffExpiry o => simpa only [onPlant, k7] using hs
  case tripClearTimeReached c => simpa only [onPlant, k8] using hs
  case testDurationExpiry => simpa only [onPlant, k9] using hs
  case rawInputChange i => exact rawInputChange_atPinReset i hs
  all_goals
    rw [eq]
    rfl

/-- One millisecond under a held RESETN: only the time goes on. -/
theorem tick_atPinReset {s : State} (hs : AtPinReset s) : AtPinReset (tick s) := by
  have plant : s.plant = { Plant.reset with free := s.plant.free } := by
    rw [atPinReset_eq hs]
    rfl
  have still : tickPlant s.env s.plant = s.plant := by
    have cct : (mapRows s.plant.cct fun _ r => { r with toNext := countDown r.toNext }) =
        s.plant.cct := by
      ext1 c hc
      have h : s.plant.cct[c] = .reset := by
        rw [plant]
        exact resetCircuit _ ⟨c, hc⟩
      rw [mapRows_getElem, h]
      rfl
    have outputs : mapRows s.plant.ogd.outputs (tickOutput s.env) = s.plant.ogd.outputs := by
      ext1 o ho
      have h : s.plant.ogd.outputs[o] = .reset := by
        rw [plant]
        exact resetRow _ ⟨o, ho⟩
      rw [mapRows_getElem, h]
      rfl
    have trips : mapRows s.plant.ogd.trips (tickTrip s.plant.ogd) = s.plant.ogd.trips := by
      ext1 c hc
      rw [mapRows_getElem]
      unfold tickTrip circuitEnergized
      have h : s.plant.ogd.boundTo ⟨c, hc⟩ = none := by
        rw [plant]
        exact resetBound _ _
      rw [h]
      rfl
    have test : s.plant.ogd.test = none := by
      rw [plant]
      rfl
    have flow : s.plant.ogd.flow = .reset := by
      rw [plant]
      rfl
    unfold tickPlant
    rw [cct, outputs, trips, test, flow]
    rw [plant]
    rfl
  have eq : tick s = { tick s with plant := s.plant } := by
    conv_lhs => unfold tick
    rw [still]
    rfl
  rw [eq, atPinReset_eq hs]
  rfl

/-! ### The induction of a claim about every step -/

/-- A claim is kept by every step where it does not depend on the queue, holds of every station in pin
reset and of it at the release of RESETN, and is kept by every move of a station whose RESETN is not
held. -/
theorem step_keeps {I : State → Prop} (queue : ∀ s l, I s → I { s with pending := l })
    (reset : ∀ s, AtPinReset s → I s)
    (release : ∀ straps s, AtPinReset s → I (resetnRelease straps s))
    (move : ∀ s t, s.pins.resetnHeld = false → I s → Move s t → I t) {s t : State}
    (hr : HeldInReset s) (hs : I s) (h : step s = .next t) : HeldInReset t ∧ I t := by
  have kept : ∀ {s t : State}, Moves s t → s.pins.resetnHeld = false → I s →
      t.pins.resetnHeld = false ∧ I t := by
    intro s t hm h0 h1
    induction hm with
    | refl => exact ⟨h0, h1⟩
    | tail _ m ih => exact ⟨move_held m ih.1, move _ _ ih.1 ih.2 m⟩
  have free : ∀ {t : State}, t.pins.resetnHeld = false ∧ I t → HeldInReset t ∧ I t :=
    fun h => ⟨fun k => by rw [h.1] at k; (cases k), h.2⟩
  have held : ∀ {t : State}, AtPinReset t → HeldInReset t ∧ I t := fun h => ⟨fun _ => h, reset _ h⟩
  unfold step at h
  split at h
  · cases h
    unfold idleStep
    split
    · exact ⟨fun k => by rw [atPinReset_eq (hr k)]; rfl, queue _ _ hs⟩
    · cases hb : s.pins.resetnHeld with
      | true => exact held (tick_atPinReset (hr hb))
      | false => exact free (kept (.one (tick_move s)) hb hs)
  · rename_i x rest _
    have hs' := queue s rest hs
    have hr' : HeldInReset { s with pending := rest } := fun k => by rw [atPinReset_eq (hr k)]; rfl
    generalize { s with pending := rest } = u at h hs' hr'
    by_cases hp : x = .pinReset
    · subst hp
      cases h
      exact held rfl
    by_cases hl : ∃ straps, x = .resetnRelease straps
    · obtain ⟨straps, rfl⟩ := hl
      cases h
      cases hb : u.pins.resetnHeld with
      | true =>
        refine free ⟨?_, release straps u (hr' hb)⟩
        unfold resetnRelease
        rw [if_pos hb]
        rfl
      | false =>
        unfold resetnRelease
        rw [hb]
        exact free ⟨hb, hs'⟩
    · cases hb : u.pins.resetnHeld with
      | true => exact held (exec_atPinReset x u t (hr' hb) h fun straps k => hl ⟨straps, k⟩)
      | false => exact free (kept (exec_moves x u t h hp fun straps k => hl ⟨straps, k⟩) hb hs')

end Sys2Proof.Machine
end

