-- ==== Sys2Proof/Laws/Grants.lean ====
section
/-! SUPPORT. The six grants in force, the own allotment and the loads they allow (R50, R66, R89): what each
operation of the plant keeps. -/

namespace Sys2Proof.Machine

/-- The grants in force sum to at most the own allotment, and so do those of the own records of a division
in which the station is a participant (R50, R58). Where `D` holds, no circuit's duty-weighted rated load
exceeds its grant (R89); where `R` holds, the grants leave room for the output under test (R66). -/
structure Spent (D R : Prop) (e : Env) (p : Plant) : Prop where
  sum : grantSum (grantsInForce p) ≤ p.alu.own
  records : ∀ d, p.alu.division = some d → isParticipant e.own d = true →
    grantSum (recordGrants e.own d) ≤ p.alu.own
  duty : D → ∀ c : Fin 6, p.ogd.ratedOf c * p.cct[c].onTime ≤ p.cct[c].grant * e.windowMs
  room : R → ∀ t, p.ogd.test = some t →
    grantSum (grantsInForce p) + p.ogd.outputs[t.output].rated ≤ p.alu.own

theorem grantSum_le {g h : Vector Nat 6} (k : ∀ c : Fin 6, g[c] = h[c]) : grantSum g = grantSum h := by
  unfold grantSum
  rw [List.map_congr_left fun c _ => k c]

/-- The own allotment and the division stay where the allotment table stays but for its deduction. -/
theorem Reach.allotment {p q : Plant} (h : Reach p q) :
    q.alu.own = p.alu.own ∧ q.alu.division = p.alu.division :=
  ⟨by simpa using congrArg Alu.own h.table, by simpa using congrArg Alu.division h.table⟩

/-- A test that was not in progress is not after an operation within `Reach`. -/
theorem Reach.untested {p q : Plant} (r : Reach p q) (h : p.ogd.test = none) : q.ogd.test = none :=
  r.test.elim (fun e => e.trans h) id

/-! ### What leaves the grants -/

/-- The grants, the allotment and the rated loads stay; a test in progress is of the same output; each
circuit keeps its on-time and its output, or has on-time 0. -/
structure Thrift (p q : Plant) : Prop where
  grant : ∀ c : Fin 6, q.cct[c].grant = p.cct[c].grant
  allotment : q.alu.own = p.alu.own ∧ q.alu.division = p.alu.division
  rated : ∀ o : Fin 6, q.ogd.outputs[o].rated = p.ogd.outputs[o].rated
  test : ∀ t, q.ogd.test = some t → ∃ u, p.ogd.test = some u ∧ u.output = t.output
  duty : ∀ c : Fin 6, q.cct[c].onTime = 0 ∨
    q.cct[c].onTime = p.cct[c].onTime ∧ q.ogd.boundTo c = p.ogd.boundTo c

theorem Thrift.refl (p : Plant) : Thrift p p :=
  ⟨fun _ => rfl, ⟨rfl, rfl⟩, fun _ => rfl, fun t h => ⟨t, h, rfl⟩, fun _ => .inr ⟨rfl, rfl⟩⟩

theorem Thrift.trans {p q r : Plant} (h : Thrift p q) (k : Thrift q r) : Thrift p r where
  grant c := (k.grant c).trans (h.grant c)
  allotment := ⟨k.allotment.1.trans h.allotment.1, k.allotment.2.trans h.allotment.2⟩
  rated o := (k.rated o).trans (h.rated o)
  test t ht := by
    obtain ⟨u, hu, e⟩ := k.test t ht
    obtain ⟨v, hv, f⟩ := h.test u hu
    exact ⟨v, hv, f.trans e⟩
  duty c := by
    rcases k.duty c with k1 | ⟨k1, k2⟩
    · exact .inl k1
    · rcases h.duty c with h1 | ⟨h1, h2⟩
      · exact .inl (k1.trans h1)
      · exact .inr ⟨k1.trans h1, k2.trans h2⟩

theorem ratedOf_congr {g g' : Ogd} {c : Fin 6} (hb : g'.boundTo c = g.boundTo c)
    (hr : ∀ o : Fin 6, g'.outputs[o].rated = g.outputs[o].rated) : g'.ratedOf c = g.ratedOf c := by
  unfold Ogd.ratedOf
  rw [hb]
  split
  · exact hr _
  · rfl

theorem Spent.thrift {D R : Prop} {e : Env} {p q : Plant} (h : Spent D R e p) (k : Thrift p q) :
    Spent D R e q := by
  have grants : grantSum (grantsInForce q) = grantSum (grantsInForce p) := grantSum_le fun c => by
    simp only [grantsInForce, Fin.getElem_fin, Vector.getElem_ofFn]
    exact k.grant c
  refine ⟨?_, fun d hd hp => ?_, fun hD c => ?_, fun hR t ht => ?_⟩
  · rw [grants, k.allotment.1]
    exact h.sum
  · rw [k.allotment.1]
    exact h.records d (by rw [← k.allotment.2]; exact hd) hp
  · rcases k.duty c with k1 | ⟨k1, k2⟩
    · rw [k1]
      exact Nat.zero_le _
    · rw [k1, ratedOf_congr k2 k.rated, k.grant c]
      exact h.duty hD c
  · obtain ⟨u, hu, eq⟩ := k.test t ht
    rw [grants, k.rated, k.allotment.1, ← eq]
    exact h.room hR u hu

/-- With no test in progress nothing need be left for one. -/
theorem Spent.idle {D R R' : Prop} {e : Env} {p : Plant} (h : Spent D R e p) (ht : p.ogd.test = none) :
    Spent D R' e p :=
  { h with room := fun _ t k => by rw [ht] at k; cases k }

theorem Spent.drop {D R : Prop} {e : Env} {p : Plant} (h : Spent D R e p) : Spent D False e p :=
  { h with room := False.elim }

/-- The roles and the on-times stay. -/
theorem Thrift.roles {p q : Plant} (hc : ∀ c : Fin 6, q.cct[c].grant = p.cct[c].grant)
    (ho : ∀ c : Fin 6, q.cct[c].onTime = p.cct[c].onTime)
    (ha : q.alu.own = p.alu.own ∧ q.alu.division = p.alu.division)
    (hd : ∀ o : Fin 6, q.ogd.outputs[o].rated = p.ogd.outputs[o].rated)
    (hr : ∀ o : Fin 6, q.ogd.outputs[o].role = p.ogd.outputs[o].role)
    (ht : ∀ t, q.ogd.test = some t → ∃ u, p.ogd.test = some u ∧ u.output = t.output) : Thrift p q :=
  ⟨hc, ha, hd, ht, fun c => .inr ⟨ho c, boundTo_congr _ _ c hr⟩⟩

theorem Alike.thrift {p q : Plant} (h : Alike p q) : Thrift p q :=
  .roles h.grant h.onTime ⟨h.own, h.division⟩ h.rated h.role fun t ht => by
    have k := h.test
    rw [ht] at k
    cases hp : p.ogd.test with
    | none =>
      rw [hp] at k
      cases k
    | some u =>
      rw [hp] at k
      injection k with k
      injection k with k _
      exact ⟨u, rfl, k.symm⟩

/-- A circuit row is rewritten with its grant kept, and its on-time kept or set to 0. -/
theorem Thrift.updCct (p : Plant) (c : Fin 6) (f : CircuitRow → CircuitRow)
    (hg : ∀ r, (f r).grant = r.grant)
    (ho : (∀ r, (f r).onTime = 0) ∨ ∀ r, (f r).onTime = r.onTime) : Thrift p (p.updCct c f) := by
  refine ⟨fun j => ?_, ⟨rfl, rfl⟩, fun _ => rfl, fun t ht => ⟨t, ht, rfl⟩, fun j => ?_⟩
  · by_cases h : j = c
    · rw [h, updCct_row, hg]
    · rw [updCct_other _ _ _ _ h]
  · by_cases h : j = c
    · rw [h, updCct_row]
      exact ho.imp (fun k => k _) fun k => ⟨k _, rfl⟩
    · rw [updCct_other _ _ _ _ h]
      exact .inr ⟨rfl, rfl⟩

/-- An output row is rewritten with its role and its rated load kept. -/
theorem Thrift.updOut (p : Plant) (o : Fin 6) (f : OutputRow → OutputRow) (hr : ∀ r, (f r).role = r.role)
    (hd : ∀ r, (f r).rated = r.rated) : Thrift p (p.updOut o f) := by
  have row : ∀ {α : Type} (g : OutputRow → α), (∀ r, g (f r) = g r) →
      ∀ j : Fin 6, g (p.updOut o f).ogd.outputs[j] = g p.ogd.outputs[j] := fun g h j => by
    by_cases e : j = o
    · rw [e, updOut_row, h]
    · rw [updOut_other _ _ _ _ e]
  exact .roles (fun _ => rfl) (fun _ => rfl) ⟨rfl, rfl⟩ (row _ hd) (row _ hr) fun t ht => ⟨t, ht, rfl⟩

/-- A role changes that names no circuit before, or one with on-time 0; after, it names one with on-time 0 or
none. -/
theorem Thrift.role (p : Plant) (o : Fin 6) (f : OutputRow → OutputRow) (hd : ∀ r, (f r).rated = r.rated)
    (h0 : ∀ c, p.ogd.outputs[o].role.circuit = some c → p.cct[c].onTime = 0)
    (h1 : ∀ c, (f p.ogd.outputs[o]).role.circuit = some c → p.cct[c].onTime = 0) :
    Thrift p (p.updOut o f) := by
  refine ⟨fun _ => rfl, ⟨rfl, rfl⟩, fun j => ?_, fun t ht => ⟨t, ht, rfl⟩, fun c => ?_⟩
  · by_cases e : j = o
    · rw [e, updOut_row, hd]
    · rw [updOut_other _ _ _ _ e]
  · by_cases h : p.cct[c].onTime = 0
    · exact .inl h
    · refine .inr ⟨rfl, ?_⟩
      unfold Ogd.boundTo
      congr 1
      funext j
      by_cases e : j = o
      · rw [e, updOut_row]
        rw [decide_eq_false fun k => h (h1 c k), decide_eq_false fun k => h (h0 c k)]
      · rw [updOut_other _ _ _ _ e]

/-! ### Tests, failures, trips -/

theorem switchOff_thrift (o : Fin 6) (p : Plant) : Thrift p (switchOff o p) := by
  obtain ⟨h1, h2, _, _, _⟩ := switchOff_facts o p
  have r := switchOff_reach o p
  refine .roles (fun c => by rw [h1]) (fun c => by rw [h1]) r.allotment r.rated h2 fun t ht => ⟨t, ?_, rfl⟩
  unfold switchOff at ht
  split at ht <;> exact ht

theorem endTest_none (x : TestOutcome) (p : Plant) : (endTest x p).ogd.test = none := by
  unfold endTest
  split
  · assumption
  · rfl

theorem endTest_cct (x : TestOutcome) (p : Plant) : (endTest x p).cct = p.cct := by
  unfold endTest
  split <;> rfl

theorem endTest_role (x : TestOutcome) (p : Plant) (o : Fin 6) :
    (endTest x p).ogd.outputs[o].role = p.ogd.outputs[o].role := by
  unfold endTest
  split
  · rfl
  · rename_i t _
    show (Plant.updOut _ _ _).ogd.outputs[o].role = _
    by_cases h : o = t.output
    · rw [h, updOut_row]
    · rw [updOut_other _ _ _ _ h]

theorem endTest_thrift (x : TestOutcome) (p : Plant) : Thrift p (endTest x p) :=
  .roles (fun c => by rw [endTest_cct]) (fun c => by rw [endTest_cct]) (endTest_reach x p).allotment
    (endTest_reach x p).rated (endTest_role x p) fun t ht => by rw [endTest_none] at ht; cases ht

theorem enterSettling_thrift (e : Env) (c : Fin 6) (p : Plant) : Thrift p (enterSettling e c p) :=
  .updCct p c _ (fun _ => rfl) (.inl fun _ => rfl)

/-- A circuit's on-time is 0 when it enters SETTLING (R73). -/
theorem settleBound_idle (e : Env) (c q : Fin 6) (p : Plant) :
    (settleBound e c q p).cct[c].onTime = 0 ∧ ∀ d : Fin 6, d ≠ c →
      (settleBound e c q p).cct[d] = p.cct[d] := by
  unfold settleBound enterSettling
  dsimp only
  split
  · refine ⟨by rw [updCct_row]; rfl, fun d hd => ?_⟩
    rw [updCct_other _ _ _ _ hd, updCct_other _ _ _ _ hd]
  · exact ⟨by rw [updCct_row]; rfl, fun d hd => by rw [updCct_other _ _ _ _ hd]⟩

theorem settleBound_ogd (e : Env) (c q : Fin 6) (p : Plant) : (settleBound e c q p).ogd = p.ogd := by
  unfold settleBound
  dsimp only
  split <;> rfl

theorem settleBound_thrift (e : Env) (c q : Fin 6) (p : Plant) : Thrift p (settleBound e c q p) := by
  have settled := enterSettling_thrift e c p
  unfold settleBound
  dsimp only
  split
  · exact settled.trans (.updCct _ c _ (fun _ => rfl) (.inl fun _ => rfl))
  · exact settled

/-- A circuit takes over a free spare and enters SETTLING or INHIBITED (R126). -/
theorem takenSpare_thrift (e : Env) (c q : Fin 6) {p : Plant} (hq : p.ogd.outputs[q].role = .spareFree) :
    Thrift p (settleBound e c q (bindSpare c q p)) := by
  obtain ⟨idle, other⟩ := settleBound_idle e c q (bindSpare c q p)
  have settled := settleBound_thrift e c q (bindSpare c q p)
  refine ⟨settled.grant, settled.allotment, fun o => (settled.rated o).trans ?_, fun t ht =>
    settled.test t ht, fun d => ?_⟩
  · exact (bindSpare_reach c q p hq).rated o
  · by_cases e : d = c
    · rw [e]
      exact .inl idle
    · refine .inr ⟨by rw [other d e]; rfl, ?_⟩
      rw [settleBound_ogd]
      unfold Ogd.boundTo
      congr 1
      funext j
      show decide ((Plant.updOut _ _ _).ogd.outputs[j].role.circuit = some d) = _
      by_cases h : j = q
      · rw [h, updOut_row, hq]
        exact decide_eq_decide.2 ⟨fun k => by cases k; exact absurd rfl e, fun k => by cases k⟩
      · rw [updOut_other _ _ _ _ h]

/-- A re-spread that keeps the grants within the allotment. -/
abbrev KeepsSpent (D R : Prop) (respread : Env → Plant → Plant) : Prop :=
  ∀ e p, p.ogd.test = none → Spent D R e p → Spent D R e (respread e p)

theorem afterAbort_thrift (e : Env) (cause : AbortCause) (c : Fin 6) (p : Plant) :
    Thrift p (afterAbort e cause c p) := by
  unfold afterAbort
  split
  · split
    · exact .updCct p c _ (fun _ => rfl) (.inl fun _ => rfl)
    · exact enterSettling_thrift e c p
  · exact .refl p

theorem abortWith_spent {D R : Prop} {respread : Env → Plant → Plant} (hr : KeepsSpent D R respread)
    (e : Env) (cause : AbortCause) {p : Plant} (h : Spent D R e p) :
    Spent D R e (abortWith respread e cause p) := by
  unfold abortWith
  split
  · exact h
  · rename_i t _
    have ended := h.thrift ((switchOff_thrift t.output p).trans (endTest_thrift (.aborted cause) _))
    have none := endTest_none (.aborted cause) (switchOff t.output p)
    refine hr _ _ ?_ ?_
    · split
      · exact (afterAbort_reach e cause _ _).untested none
      · exact none
    · split
      · exact ended.thrift (afterAbort_thrift e cause _ _)
      · exact ended

/-- No test is left after one has ended ABORTED. -/
theorem abortWith_none {respread : Env → Plant → Plant} (hk : Tame respread) (e : Env)
    (cause : AbortCause) (p : Plant) : (abortWith respread e cause p).ogd.test = none := by
  unfold abortWith
  split
  · assumption
  · dsimp only
    refine (hk _ _).untested ?_
    split
    · exact (afterAbort_reach _ _ _ _).untested (endTest_none _ _)
    · exact endTest_none _ _

theorem failWith_spent {D R : Prop} {respread : Env → Plant → Plant} (hr : KeepsSpent D R respread)
    (e : Env) (c o : Fin 6) {p : Plant}
    (h0 : ∀ d, p.ogd.outputs[o].role.circuit = some d → p.cct[d].onTime = 0) (h : Spent D R e p) :
    Spent D R e (failWith respread e c o p) := by
  have bad : Spent D R e ((p.updOut o fun r => { r with role := .bad }).raise .circuitFailed) :=
    (h.thrift (.role p o (fun r => { r with role := .bad }) (fun _ => rfl) h0 nofun)).thrift
      (Alike.raise _ .circuitFailed).thrift
  have cleared : Spent D R e
      (clearSpare respread e ((p.updOut o fun r => { r with role := .bad }).raise .circuitFailed)) := by
    unfold clearSpare
    split
    · split
      · exact abortWith_spent hr e .binding bad
      · exact bad
    · exact bad
  unfold failWith takeSpare
  split
  · rename_i hq
    exact cleared.thrift (takenSpare_thrift e c _ (lowestSpare_role hq))
  · exact cleared.thrift (Alike.raise _ .spareExhausted).thrift

theorem tripRecorded_thrift (o : Fin 6) (k : FaultKind) (p : Plant) : Thrift p (tripRecorded o k p) :=
  ((switchOff_thrift o p).trans (.updOut _ o (fun r =>
    { r with
      openCount := 0,
      health :=
        { r.health with
          tripTotal := satAdd 65535 r.health.tripTotal 1, lastFault := some k } })
      (fun _ => rfl) fun _ => rfl)).trans (Alike.raise _ .circuitTrip).thrift

theorem Thrift.updTrip (p : Plant) (c : Fin 6) (f : TripRec → TripRec) : Thrift p (p.updTrip c f) :=
  .roles (fun _ => rfl) (fun _ => rfl) ⟨rfl, rfl⟩ (fun _ => rfl) (fun _ => rfl) fun t ht => ⟨t, ht, rfl⟩

theorem tripWith_spent {D R : Prop} {respread : Env → Plant → Plant} (hr : KeepsSpent D R respread)
    (hk : Tame respread) (e : Env) (o : Fin 6) (k : FaultKind) {p : Plant} (h : Spent D R e p) :
    Spent D R e (tripWith respread e o k p) := by
  have recorded := h.thrift (tripRecorded_thrift o k p)
  unfold tripWith
  split
  · dsimp only
    generalize tripRecorded o k p = q at recorded ⊢
    split
    · rename_i c hc
      have counted := recorded.thrift (.updTrip q c fun _ => ⟨q.ogd.trips[c].count + 1, 0, 0⟩)
      split
      · have tripped := (counted.thrift (.updOut _ o (fun r => { r with holdOff := some (e.img.holdOff * 1000) })
          (fun _ => rfl) fun _ => rfl)).thrift (.updCct _ c (idleRow .tripped) (fun _ => rfl)
            (.inl fun _ => rfl))
        unfold tripBelow
        dsimp only
        split
        · exact hr _ _ (endTest_none _ _) (tripped.thrift (endTest_thrift _ _))
        · exact tripped
      · have failed := counted.thrift (.updCct _ c (idleRow .failed) (fun _ => rfl) (.inl fun _ => rfl))
        have idle : ∀ d, q.ogd.outputs[o].role.circuit = some d → ((q.updTrip c fun _ =>
            ⟨q.ogd.trips[c].count + 1, 0, 0⟩).updCct c (idleRow .failed)).cct[d].onTime = 0 := fun d hd => by
          rw [hc] at hd
          cases hd
          exact congrArg CircuitRow.onTime (updCct_row _ c _)
        unfold tripLast
        dsimp only
        split
        · refine hr _ _ ((failWith_reach hk e c o _).untested (endTest_none _ _)) (failWith_spent hr e c o
            (fun d hd => ?_) (failed.thrift (endTest_thrift _ _)))
          rw [endTest_role] at hd
          rw [endTest_cct]
          exact idle d hd
        · exact failWith_spent hr e c o idle failed
    · rename_i hc
      unfold tripSpare
      split
      · exact hr _ _ (endTest_none _ _) ((recorded.thrift (.role q o (fun r => { r with role := .bad })
          (fun _ => rfl) (fun d hd => by rw [hc] at hd; cases hd) nofun)).thrift (endTest_thrift _ _))
      · exact recorded
  · exact h

/-! ### Periods and grants -/

/-- A way to trip outputs that keeps the grants within the allotment. -/
abbrev TripSpent (D R : Prop) (trip : Env → Fin 6 → FaultKind → Plant → Plant) : Prop :=
  ∀ e o k p, Spent D R e p → Spent D R e (trip e o k p)

theorem endPeriodWith_spent {D R : Prop} {trip : Env → Fin 6 → FaultKind → Plant → Plant}
    (ht : TripSpent D R trip) (e : Env) (c : Fin 6) {p : Plant} (h : Spent D R e p) :
    Spent D R e (endPeriodWith trip e c p) := by
  unfold endPeriodWith
  split
  · exact h
  · rename_i o _
    have count : ∀ n : OutputRow → Nat,
        Spent D R e (p.updOut o fun r => { r with openCount := n r }) :=
      fun n => h.thrift (.updOut p o (fun r => { r with openCount := n r }) (fun _ => rfl) fun _ => rfl)
    dsimp only
    split
    · split
      · exact h.thrift (switchOff_thrift o p)
      · split
        · split
          · exact ht _ _ _ _ (count fun r => r.openCount + 1)
          · exact (count fun r => r.openCount + 1).thrift (switchOff_thrift o _)
        · exact (count fun _ => 0).thrift (switchOff_thrift o _)
    · exact h

/-- A fall in grant shortens the on-time to what the new grant allows (R90). -/
theorem grantedRow_duty (e : Env) (p : Plant) (c : Fin 6) (g : Nat) (r : CircuitRow)
    (h : p.ogd.ratedOf c * r.onTime ≤ r.grant * e.windowMs) :
    p.ogd.ratedOf c * (grantedRow e p c g r).onTime ≤ (grantedRow e p c g r).grant * e.windowMs := by
  unfold grantedRow
  dsimp only
  split
  · refine (Nat.mul_le_mul_left _ (Nat.min_le_right _ _)).trans ?_
    unfold onTimeFor
    refine (Nat.mul_div_le _ _).trans ?_
    rw [Nat.mul_comm]
    exact Nat.mul_le_mul_right _ (Nat.min_le_left _ _)
  · exact h.trans (Nat.mul_le_mul_right _ (by omega))

/-- Grants that sum to at most the own allotment, and leave room for a test, are handed over. -/
theorem handGrantsWith_spent {D R : Prop} {trip : Env → Fin 6 → FaultKind → Plant → Plant}
    (ht : TripSpent D R trip) (e : Env) (g : Vector Nat 6) (p : Plant) (hg : grantSum g ≤ p.alu.own)
    (hd : ∀ d, p.alu.division = some d → isParticipant e.own d = true →
      grantSum (recordGrants e.own d) ≤ p.alu.own)
    (hD : D → ∀ c : Fin 6, p.ogd.ratedOf c * p.cct[c].onTime ≤ p.cct[c].grant * e.windowMs)
    (hR : R → ∀ t, p.ogd.test = some t → grantSum g + p.ogd.outputs[t.output].rated ≤ p.alu.own) :
    Spent D R e (handGrantsWith trip e g p) := by
  have fold : ∀ (l : List (Fin 6)) (b : Fin 6 → Bool) (q : Plant), Spent D R e q →
      Spent D R e (l.foldl (fun q c => if b c then endPeriodWith trip e c q else q) q) := by
    intro l b
    induction l with
    | nil => exact fun _ h => h
    | cons c l ih =>
      intro q h
      rw [List.foldl_cons]
      refine ih _ ?_
      split
      · exact endPeriodWith_spent ht e c h
      · exact h
  have sum : grantSum (grantsInForce
      { p with cct := mapRows p.cct fun c r => grantedRow e p c g[c] r }) = grantSum g :=
    grantSum_le fun c => by
      show (Vector.ofFn fun c => (mapRows p.cct fun c r => grantedRow e p c g[c] r)[c].grant)[c] = _
      simp [grantedRow]
  unfold handGrantsWith
  refine fold _ (fun c => cutNow e p.cct[c] _) _ ⟨?_, hd, fun k c => ?_, fun k t htest => ?_⟩
  · rw [sum]
    exact hg
  · show p.ogd.ratedOf c * (mapRows p.cct _)[c].onTime ≤ (mapRows p.cct _)[c].grant * _
    rw [mapRows_get]
    exact grantedRow_duty e p c _ _ (hD k c)
  · rw [sum]
    exact hR k t htest

/-- The grants of the allotment table stay within it. -/
theorem grantsByKind_spent (e : Env) (p : Plant)
    (hd : ∀ d, p.alu.division = some d → isParticipant e.own d = true →
      grantSum (recordGrants e.own d) ≤ p.alu.own) : grantSum (grantsByKind e p) ≤ p.alu.own := by
  unfold grantsByKind
  split
  · rename_i d hdiv
    split
    · rename_i hp
      exact hd d hdiv hp
    · exact (localSpread_bounds _ _).1
  · exact (localSpread_bounds _ _).1

theorem respreadWith_spent {D R : Prop} {trip : Env → Fin 6 → FaultKind → Plant → Plant}
    (ht : TripSpent D R trip) : KeepsSpent D R (respreadWith (handGrantsWith trip)) := fun e p h0 h =>
  handGrantsWith_spent ht e _ { p with alu := { p.alu with deduction := none } }
    (grantsByKind_spent e { p with alu := { p.alu with deduction := none } } h.records) h.records h.duty
    fun _ t k => by rw [show p.ogd.test = some t from k] at h0; cases h0

theorem respread_spent {D R : Prop} : KeepsSpent D R respread :=
  respreadWith_spent fun e o k _ h =>
    tripWith_spent (fun _ _ _ h => h) (fun _ p => Reach.refl p) e o k h

theorem tripOutput_spent {D R : Prop} : TripSpent D R tripOutput := fun e o k _ h =>
  tripWith_spent respread_spent respread_reach e o k h

theorem endPeriod_spent {D R : Prop} (e : Env) (c : Fin 6) {p : Plant} (h : Spent D R e p) :
    Spent D R e (endPeriod e c p) := endPeriodWith_spent tripOutput_spent e c h

theorem abortTest_spent {D R : Prop} (e : Env) (cause : AbortCause) {p : Plant} (h : Spent D R e p) :
    Spent D R e (abortTest e cause p) := abortWith_spent respread_spent e cause h

theorem energize_spent {D R : Prop} (e : Env) (o : Fin 6) {p : Plant} (h : Spent D R e p) :
    Spent D R e (energize e o p) := by
  have on : Spent D R e (switchOn e o p) :=
    (h.thrift (.updOut p o (fun r =>
      { r with energized := true, periodMs := 0, loadSum := 0, recent := [] }) (fun _ => rfl)
      fun _ => rfl)).thrift (notePeak_alike e o _).thrift
  unfold energize
  dsimp only
  split
  · exact tripOutput_spent _ _ _ _ on
  · exact on

/-- The table a computation writes grants no more than its own allotment (R50). -/
theorem allotTable_records (e : Env) (round : Option RoundNo) (x : Computation) (d : Division)
    (hd : (allotTable e round x).division = some d) (hp : isParticipant e.own d = true) :
    grantSum (recordGrants e.own d) ≤ (allotTable e round x).own := by
  cases x with
  | complete l =>
    cases hd
    show _ ≤ if isParticipant e.own (divide e l) then grantSum (recordGrants e.own (divide e l)) else _
    rw [if_pos hp]
  | degraded u => cases hd
  | capped => cases hd
  | noAllot => cases hd

theorem starvedUpdate_thrift (p : Plant) : Thrift p (starvedUpdate p) :=
  .roles (fun c => by
    show (mapRows p.cct fun _ r => starvedRow r)[c].grant = _
    rw [mapRows_get]
    rfl) (fun c => by
      show (mapRows p.cct fun _ r => starvedRow r)[c].onTime = _
      rw [mapRows_get]
      rfl) ⟨rfl, rfl⟩ (fun _ => rfl) (fun _ => rfl) fun t ht => ⟨t, ht, rfl⟩

/-- Every computation leaves the grants within its allotment (R50, R65), and the on-times within the
grants where they were. -/
theorem compute_spent {D R : Prop} (e : Env) (round : Option RoundNo) (swap : Bool) (x : Computation)
    (p : Plant)
    (hD : D → ∀ c : Fin 6, p.ogd.ratedOf c * p.cct[c].onTime ≤ p.cct[c].grant * e.windowMs) :
    Spent D R e (compute e round swap x p) := by
  have starve : ∀ {R : Prop} {q : Plant}, Spent D R e q →
      Spent D R e (if swap then starvedUpdate q else q) := by
    intro R q h
    split
    · exact h.thrift (starvedUpdate_thrift q)
    · exact h
  have hd := allotTable_records e round x
  have byKind := grantsByKind_spent e { p with alu := allotTable e round x } hd
  have all : ∀ {R : Prop}, (R → p.ogd.test = none) →
      Spent D R e (handGrants e (grantsByKind e { p with alu := allotTable e round x })
        { p with alu := allotTable e round x }) := fun h0 =>
    handGrantsWith_spent tripOutput_spent e _ { p with alu := allotTable e round x } byKind hd hD
      fun k t ht => by
        rw [show p.ogd.test = some t from ht] at h0
        cases h0 k
  unfold compute
  dsimp only
  split
  · rename_i h0
    exact starve (all fun _ => h0)
  · rename_i t ht
    split
    · rename_i fits
      have sum := (deductGrants_bounds e { p with alu := { allotTable e round x with
        deduction := some (t.output, p.ogd.outputs[t.output].rated) } } t.circuit
        ((allotTable e round x).own - p.ogd.outputs[t.output].rated)
        (grantsByKind e { p with alu := allotTable e round x })).1
      refine starve (handGrantsWith_spent tripOutput_spent e _ _ (sum.trans (Nat.sub_le _ _)) hd hD
        fun _ u hu => ?_)
      have eq : some t = some u := ht.symm.trans hu
      cases eq
      exact (Nat.add_le_add_right sum _).trans (Nat.sub_add_cancel fits).le
    · exact (abortTest_spent e .allotment (starve (all (R := False) False.elim))).idle
        (abortWith_none respread_reach _ _ _)

/-! ### The moves -/

/-- The start of a test in two steps (R129): its record stands and its circuit is in TESTING, in `q`; then
grants that make room for it are handed over, and the output is energized where the test survives. -/
theorem startTest_shape (e : Env) (o : Fin 6) (seconds : Nat) (p : Plant) :
    ∃ q : Plant,
      q = (match p.ogd.outputs[o].role.circuit with
        | some c => (switchOff o (p.setTest
            (some ⟨o, p.ogd.outputs[o].role.circuit, seconds, e.now, 0, 0, 0⟩))).updCct c (idleRow .testing)
        | none => p.setTest (some ⟨o, p.ogd.outputs[o].role.circuit, seconds, e.now, 0, 0, 0⟩)) ∧
      ∃ (load : Nat) (g : Vector Nat 6),
        startTest e o seconds p =
          (if (handGrants e g { q with alu := { q.alu with deduction := some (o, load) } }).ogd.underTest o
            then energize e o (handGrants e g { q with alu := { q.alu with deduction := some (o, load) } })
            else handGrants e g { q with alu := { q.alu with deduction := some (o, load) } }) ∧
        grantSum g ≤ q.alu.own - load ∧ load = p.ogd.outputs[o].rated :=
  ⟨_, rfl, _, _, rfl, (deductGrants_bounds _ _ _ _ _).1, rfl⟩

theorem startTest_spent {D R : Prop} (e : Env) (o : Fin 6) (seconds : Nat) {p : Plant}
    (h : Spent D R e p) (hl : R → p.ogd.outputs[o].rated ≤ p.alu.own) :
    Spent D R e (startTest e o seconds p) := by
  obtain ⟨q, hq, load, g, hs, hg, hload⟩ := startTest_shape e o seconds p
  have begun : Spent D False e q ∧ q.alu.own = p.alu.own ∧
      ∀ t, q.ogd.test = some t → q.ogd.outputs[t.output].rated = p.ogd.outputs[o].rated := by
    have set : ∀ t, Spent D False e (p.setTest t) :=
      fun t => ⟨h.sum, h.records, h.duty, False.elim⟩
    rw [hq]
    split
    · rename_i c _
      have off := switchOff_thrift o (p.setTest
        (some ⟨o, p.ogd.outputs[o].role.circuit, seconds, e.now, 0, 0, 0⟩))
      refine ⟨((set _).thrift off).thrift (.updCct _ c (idleRow .testing) (fun _ => rfl)
        (.inl fun _ => rfl)), off.allotment.1, fun t ht => ?_⟩
      obtain ⟨u, hu, eq⟩ := off.test t ht
      cases hu
      exact (off.rated t.output).trans (by rw [← eq]; rfl)
    · exact ⟨set _, rfl, fun t ht => by cases ht; rfl⟩
  obtain ⟨spent, own, rated⟩ := begun
  have handed : Spent D R e (handGrants e g { q with alu := { q.alu with deduction := some (o, load) } }) :=
    handGrantsWith_spent tripOutput_spent e g { q with alu := { q.alu with deduction := some (o, load) } }
      (hg.trans (Nat.sub_le _ _)) spent.records spent.duty fun k t ht => by
        show grantSum g + q.ogd.outputs[t.output].rated ≤ q.alu.own
        rw [rated t ht]
        have := hl k
        omega
  rw [hs]
  split
  · exact energize_spent e o handed
  · exact handed

theorem limitChange_spent {D R : Prop} (o : Fin 6) (isOpen : Bool) (e : Env) {p : Plant}
    (h : Spent D R e p) : Spent D R e (limitChange o isOpen e p) := by
  have set := h.thrift (.updOut p o (fun r => { r with limit := filterTo isOpen r.limit }) (fun _ => rfl)
    fun _ => rfl)
  unfold limitChange
  dsimp only
  generalize (p.updOut o fun r => { r with limit := filterTo isOpen r.limit }) = q at set ⊢
  split
  · split
    · unfold limitOpened
      split
      · rename_i c _
        have raised := set.thrift
          (Alike.raiseIf q (decide (q.cct[c].state ≠ .disabled)) .limitOpen).thrift
        dsimp only
        split
        · exact abortTest_spent e .limit raised
        · have off := raised.thrift (switchOff_thrift o _)
          split
          · exact off.thrift (.updCct _ c _ (fun _ => rfl) (.inl fun _ => rfl))
          · exact off
      · split
        · exact abortTest_spent e .limit set
        · exact set
    · unfold limitClosed
      split
      · split
        · exact set.thrift (enterSettling_thrift e _ _)
        · exact set
      · exact set
  · exact set

theorem windowRaises_alike (c : Fin 6) (p : Plant) : Alike p (windowRaises c p) := by
  unfold windowRaises
  split
  · exact Alike.raiseIf _ _ .limitOpen
  · exact (Alike.raiseIf _ _ .circuitFailed).trans (Alike.raiseIf _ _ .spareExhausted)

/-- An evaluation keeps the on-time within the grant (R89). -/
theorem evaluate_spent {D R : Prop} (e : Env) (c : Fin 6) {p : Plant} (h : Spent D R e p) :
    Spent D R e (evaluate e c p) := by
  have rows : ∀ d : Fin 6, (p.updCct c (evaluatedRow e p c)).cct[d].grant = p.cct[d].grant := fun d => by
    by_cases k : d = c
    · rw [k, updCct_row]
      rfl
    · rw [updCct_other _ _ _ _ k]
  have sum : grantSum (grantsInForce (p.updCct c (evaluatedRow e p c))) = grantSum (grantsInForce p) :=
    grantSum_le fun d => by
      simp only [grantsInForce, Fin.getElem_fin, Vector.getElem_ofFn]
      exact rows d
  have judged : Spent D R e (p.updCct c (evaluatedRow e p c)) := by
    refine ⟨by rw [sum]; exact h.sum, h.records, fun hD d => ?_, fun hR t ht => ?_⟩
    · rw [rows]
      by_cases k : d = c
      · rw [k, updCct_row]
        unfold evaluatedRow
        dsimp only
        split
        · unfold onTimeFor
          refine (Nat.mul_div_le _ _).trans ?_
          rw [Nat.mul_comm]
          exact Nat.mul_le_mul_right _ (Nat.min_le_left _ _)
        · exact Nat.zero_le _
      · rw [updCct_other _ _ _ _ k]
        exact h.duty hD d
    · rw [sum]
      exact h.room hR t ht
  exact judged.thrift ((Alike.raiseIf _ _ .belowPour).trans (Alike.raiseIf _ _ .sensorLost)).thrift

theorem windowStart_spent {D R : Prop} (e : Env) (c : Fin 6) {p : Plant} (h : Spent D R e p) :
    Spent D R e (windowStart e c p) := by
  have begun := h.thrift (.updCct p c (fun r => { r with toNext := some e.windowMs }) (fun _ => rfl)
    (.inr fun _ => rfl))
  unfold windowStart
  split
  · dsimp only
    split
    · have judged := evaluate_spent e c
        ((endPeriod_spent e c begun).thrift (windowRaises_alike c _).thrift)
      unfold requestOutput
      split
      · split
        · exact energize_spent e _ judged
        · exact judged
      · exact judged
    · exact begun
  · exact h

theorem finishTest_spent {D R : Prop} (e : Env) {p : Plant} (h : Spent D R e p) :
    Spent D R e (finishTest e p) := by
  unfold finishTest
  split
  · exact h
  · rename_i t _
    have ended := h.thrift ((switchOff_thrift t.output p).trans (endTest_thrift .done _))
    have none := endTest_none .done (switchOff t.output p)
    dsimp only
    generalize endTest .done (switchOff t.output p) = q at ended none ⊢
    refine respread_spent _ _ ?_ ?_
    · split
      · split <;> exact none
      · exact none
    · split
      · split
        · exact ended.thrift (enterSettling_thrift e _ q)
        · exact ended
      · exact ended

theorem holdOffExpiry_spent {D R : Prop} (o : Fin 6) (e : Env) {p : Plant} (h : Spent D R e p) :
    Spent D R e (holdOffExpiry o e p) := by
  have set := h.thrift (.updOut p o (fun r => { r with holdOff := none }) (fun _ => rfl) fun _ => rfl)
  unfold holdOffExpiry
  split
  · dsimp only
    split
    · split
      · split
        · exact set.thrift (.updCct _ _ _ (fun _ => rfl) (.inl fun _ => rfl))
        · exact set.thrift (enterSettling_thrift e _ _)
      · exact set
    · exact set
  · exact h

theorem settleExpiry_spent {D R : Prop} (e : Env) (c : Fin 6) {p : Plant} (h : Spent D R e p) :
    Spent D R e (settleExpiry e c p) := by
  unfold settleExpiry
  split
  · exact h
  · exact (h.thrift (.updCct p c (fun r => { r with
      settle := .stopped,
      state := if decide (p.cct[c].state = .settling) && (formTemperature e c).1.isNone then .sensorLost
        else r.state }) (fun _ => rfl) (.inr fun _ => rfl))).thrift (Alike.raiseIf _ _ .sensorLost).thrift

/-- R128: a test that is accepted: the station opens and bids, no test is in progress, the limit is closed,
the output is a free spare or bound to a circuit, and the last condition holds. -/
theorem judgeTest_accepted {e : Env} {p : Plant} {o : Fin 6} (h : judgeTest e p o = .accepted) :
    e.membership.bids = true ∧ p.ogd.test = none ∧ p.ogd.outputs[o].limit.level = some false ∧
      (p.ogd.outputs[o].role = .spareFree ∨ ∃ c, p.ogd.outputs[o].role.circuit = some c) ∧
      testHasRoom e p o = true := by
  unfold judgeTest at h
  dsimp only at h
  split at h
  · cases h
  rename_i ht
  have fin : ∀ b : Bool, (if (e.membership.bids && b && decide (p.ogd.outputs[o].limit.level = some false)
      && testHasRoom e p o) = true then Result.accepted else Result.refused) = .accepted →
      e.membership.bids = true ∧ b = true ∧ p.ogd.outputs[o].limit.level = some false ∧
        testHasRoom e p o = true := fun b k => by
    split at k
    · rename_i hk
      simp only [Bool.and_eq_true, decide_eq_true_eq] at hk
      exact ⟨hk.1.1.1, hk.1.1.2, hk.1.2, hk.2⟩
    · cases k
  obtain ⟨h1, h2, h3, h4⟩ := fin _ h
  refine ⟨h1, by simpa using ht, h3, ?_, h4⟩
  revert h2
  cases p.ogd.outputs[o].role with
  | primary c => exact fun _ => .inr ⟨c, rfl⟩
  | spareBound c => exact fun _ => .inr ⟨c, rfl⟩
  | spareFree => exact fun _ => .inl rfl
  | unused => exact fun k => by cases k
  | bad => exact fun k => by cases k

/-- R128: an accepted test fits the own allotment. -/
theorem judgeTest_fits {e : Env} {p : Plant} {o : Fin 6} (h : judgeTest e p o = .accepted)
    (hw : 0 < e.windowMs) : p.ogd.outputs[o].rated ≤ p.alu.own :=
  Nat.le_of_mul_le_mul_right ((Nat.le_add_right _ _).trans
    (of_decide_eq_true (judgeTest_accepted h).2.2.2.2)) hw

/-- Every move of the plant keeps the grants within the allotment. -/
theorem plantMove_spent {D R : Prop} {e : Env} {p q : Plant} (m : PlantMove e p q)
    (hw : R → e.membership.bids = true → 0 < e.windowMs) (h : Spent D R e p) : Spent D R e q := by
  cases m with
  | windowStart c => exact windowStart_spent e c h
  | endPeriod c => exact endPeriod_spent e c h
  | settleExpiry c => exact settleExpiry_spent e c h
  | limitChange o b => exact limitChange_spent o b e h
  | trip o k => exact tripOutput_spent e o k p h
  | holdOffExpiry o => exact holdOffExpiry_spent o e h
  | startTest o n ha => exact startTest_spent e o n h fun k => judgeTest_fits ha (hw k (judgeTest_accepted ha).1)
  | finishTest => exact finishTest_spent e h
  | compute round swap x _ => exact compute_spent e round swap x p h.duty

/-- A plant after pin reset or a RESTART. -/
theorem reset_spent {D R : Prop} (e : Env) (p : Plant) (hc : p.cct = Vector.replicate 6 .reset)
    (ha : p.alu = .reset) (ht : p.ogd.test = none) : Spent D R e p := by
  refine ⟨?_, fun d h => by (rw [ha] at h; cases h), fun _ c => ?_, fun _ t k => by rw [ht] at k; cases k⟩
  · rw [grantSum_zero]
    · exact Nat.zero_le _
    · intro c
      simp [grantsInForce, hc, CircuitRow.reset]
  · simp [hc, CircuitRow.reset]

/-! ### The entry to LISTEN (R71, R191) -/

/-- A circuit without an output has a rated load of 0. -/
theorem ratedOf_unbound {g : Ogd} {c : Fin 6}
    (h : ∀ o : Fin 6, g.outputs[o].role.circuit ≠ some c) : g.ratedOf c = 0 := by
  have none : g.boundTo c = none := List.find?_eq_none.2 fun o _ => by simpa using h o
  unfold Ogd.ratedOf
  rw [none]

/-- The load of the roles binds outputs to configured circuits only (R114). -/
theorem loadRoles_configured (e : Env) (p : Plant) (o c : Fin 6)
    (h : (loadRoles e p).ogd.outputs[o].role.circuit = some c) : isConfigured e.img c = true := by
  have fold : ∀ (l : List (Fin 6)) (q : Plant),
      (∀ o c : Fin 6, q.ogd.outputs[o].role.circuit = some c → isConfigured e.img c = true) →
      ∀ o c : Fin 6, (l.foldl (fun q c => loadSpare e c q) q).ogd.outputs[o].role.circuit = some c →
        isConfigured e.img c = true := by
    intro l
    induction l with
    | nil => exact fun _ k => k
    | cons a l ih =>
      refine fun q k => ih _ fun o c hc => ?_
      unfold loadSpare at hc
      dsimp only at hc
      split at hc
      · rename_i ha
        rw [Bool.and_eq_true] at ha
        split at hc
        · rename_i u _
          by_cases hu : o = u
          · rw [hu, show (bindSpare a u q).ogd.outputs[u] =
              { q.ogd.outputs[u] with role := .spareBound a, openCount := 0 } from updOut_row q u _] at hc
            cases hc
            exact ha.1
          · rw [show (bindSpare a u q).ogd.outputs[o] = q.ogd.outputs[o] from
              updOut_other q u o _ hu] at hc
            exact k o c hc
        · exact k o c hc
      · exact k o c hc
  refine fold sixIds _ (fun j d hj => ?_) o c h
  have hj : (mapRows p.ogd.outputs (loadedRow e))[j].role.circuit = some d := hj
  rw [mapRows_get] at hj
  unfold loadedRow imageRole at hj
  dsimp only at hj
  split at hj
  · cases hj
  · split at hj
    · split at hj
      · rename_i x hx
        cases hj
        have := List.find?_some hx
        simp only [Bool.and_eq_true] at this
        exact this.1
      · cases hj
    · split at hj <;> cases hj

/-- Every configured circuit comes into service with on-time 0 and the outputs it had (R71). -/
theorem circuitsIntoService_idle (e : Env) (p : Plant) :
    (circuitsIntoService e p).ogd = p.ogd ∧ ∀ c : Fin 6, isConfigured e.img c = true →
      (circuitsIntoService e p).cct[c].onTime = 0 := by
  have step : ∀ (c : Fin 6) (q : Plant), (leaveDisabled e c q).ogd = q.ogd ∧
      (isConfigured e.img c = true → (leaveDisabled e c q).cct[c].onTime = 0) ∧
      ∀ d : Fin 6, d ≠ c → (leaveDisabled e c q).cct[d] = q.cct[d] := by
    intro c q
    unfold leaveDisabled
    split
    · split
      · rename_i u _
        obtain ⟨h1, h2⟩ := settleBound_idle e c u q
        exact ⟨settleBound_ogd e c u q, fun _ => h1, h2⟩
      · exact ⟨rfl, fun _ => by rw [updCct_row]; rfl, fun d hd => by rw [updCct_other _ _ _ _ hd]⟩
    · rename_i h
      exact ⟨rfl, fun k => absurd k h, fun _ _ => rfl⟩
  have fold : ∀ (l : List (Fin 6)) (q : Plant),
      (l.foldl (fun q c => leaveDisabled e c q) q).ogd = q.ogd ∧ ∀ c : Fin 6, isConfigured e.img c = true →
        (c ∈ l ∨ q.cct[c].onTime = 0) → (l.foldl (fun q c => leaveDisabled e c q) q).cct[c].onTime = 0 := by
    intro l
    induction l with
    | nil => exact fun q => ⟨rfl, fun c _ h => h.resolve_left (by simp)⟩
    | cons a l ih =>
      intro q
      obtain ⟨h1, h2, h3⟩ := step a q
      obtain ⟨k1, k2⟩ := ih (leaveDisabled e a q)
      refine ⟨k1.trans h1, fun c hc h => k2 c hc ?_⟩
      by_cases ha : c = a
      · subst ha
        exact .inr (h2 hc)
      · rw [h3 c ha]
        exact h.imp (fun k => (List.mem_cons.1 k).resolve_left ha) id
  obtain ⟨h1, h2⟩ := fold sixIds p
  refine ⟨h1, fun c hc => ?_⟩
  show (mapRows (sixIds.foldl (fun q c => leaveDisabled e c q) p).cct _)[c].onTime = 0
  rw [mapRows_get]
  exact h2 c hc (.inl (mem_sixIds c))

/-- The entry to LISTEN ends in a computation CAPPED on the station's own address, with every circuit that
has an output at on-time 0 (R191). -/
theorem enterListen_computes (s : State) :
    ∃ (e : Env) (p : Plant), e.own = s.own ∧ e.img = s.img ∧ (enterListen s).own = s.own ∧
      (enterListen s).img = s.img ∧ (enterListen s).plant = compute e none false .capped p ∧
      ∀ c : Fin 6, p.ogd.ratedOf c * p.cct[c].onTime = 0 := by
  obtain ⟨e0, e1, e2, h0, h1, h2, h3, hp⟩ : ∃ e0 e1 e2 : Env, e0.img = s.img ∧ e1.img = s.img ∧
      e2.img = s.img ∧ e2.own = s.own ∧ (enterListen s).plant = compute e2 none false .capped
        (circuitsIntoService e1 (loadRoles e0 { s.plant with fct := s.plant.fct.setMask s.img.mask })) :=
    ⟨_, _, _, rfl, rfl, rfl, rfl, rfl⟩
  refine ⟨e2, _, h3, h2, rfl, rfl, hp, fun c => ?_⟩
  obtain ⟨k1, k2⟩ := circuitsIntoService_idle e1
    (loadRoles e0 { s.plant with fct := s.plant.fct.setMask s.img.mask })
  by_cases hc : isConfigured s.img c = true
  · rw [k2 c (by rw [h1]; exact hc)]
    rfl
  · rw [k1, ratedOf_unbound fun o k => hc (by rw [← h0]; exact loadRoles_configured e0 _ o c k)]
    exact Nat.zero_mul _

/-- The entry to BLOCKED ends in a computation NONE (R192). -/
theorem enterBlocked_computes (s : State) :
    ∃ e : Env, e.own = s.own ∧ e.img = s.img ∧ (enterBlocked s).own = s.own ∧
      (enterBlocked s).img = s.img ∧
      (enterBlocked s).plant = compute e none false .noAllot (s.plant.raise .configBad) :=
  ⟨_, rfl, rfl, rfl, rfl, rfl⟩

/-- The entry to RETIRED disables every circuit and ends in a computation NONE (R22, R72). -/
theorem enterRetired_computes (s : State) :
    ∃ (e : Env) (w : State),
      enterRetired s = { w with plant := compute e none false .noAllot (disableAll w.plant) } ∧
        w.plant = (s.raise .retired).plant ∧ e = w.env ∧ w.sul = s.sul ∧
        w.rct.membership = .retired := by
  obtain ⟨e, w, h, he, hw⟩ : ∃ (e : Env) (w : State),
      enterRetired s = { w with plant := compute e none false .noAllot (disableAll w.plant) } ∧ e = w.env ∧
        w = stopEmission ((updLif (fun l =>
          { l with openSlot := .empty, bidSlot := .empty, openFailures := 0 }) (updRct (fun r =>
          { r with
            membership := .retired, roundTimer := none, listenTimer := none, declaredCurrent := none,
            declaredClosed := none }) s)).raise .retired) := ⟨_, _, rfl, rfl, rfl⟩
  refine ⟨e, w, h, ?_, he, ?_, ?_⟩
  · rw [hw]
    rfl
  · rw [hw]
    rfl
  · rw [hw]
    rfl

/-- The grants hold in another environment with the same address and the same window. -/
theorem Spent.env {D R : Prop} {e e' : Env} {p : Plant} (h : Spent D R e p) (ho : e'.own = e.own)
    (hw : D → ∀ c : Fin 6, e'.windowMs = e.windowMs ∨ p.ogd.ratedOf c = 0) : Spent D R e' p := by
  refine ⟨h.sum, ?_, fun hD c => ?_, h.room⟩
  · rw [ho]
    exact h.records
  · rcases hw hD c with k | k
    · rw [k]
      exact h.duty hD c
    · rw [k, Nat.zero_mul]
      exact Nat.zero_le _

/-- Every move of the station keeps the grants within the allotment. -/
theorem move_spent {D R : Prop} {s t : State} (m : Move s t)
    (hu : D → s.sul.progress ≠ .done → ∀ c, s.plant.ogd.ratedOf c = 0)
    (hw : R → s.rct.membership.bids = true → 0 < s.img.window) (h : Spent D R s.env s.plant) :
    Spent D R t.env t.plant := by
  have window : ∀ {a b : State}, b.img = a.img → b.env.windowMs = a.env.windowMs := fun k =>
    congrArg (fun i : Image => i.window * 1000) k
  cases m with
  | alike hp hc =>
    refine (h.thrift hp.thrift).env ?_ fun hD c => ?_
    · show t.own = s.own
      unfold State.own
      rw [hc.rank]
    · by_cases hd : s.sul.progress = .done
      · refine .inl (window ?_)
        unfold State.img
        rw [hc.read hd]
      · refine .inr ?_
        rw [ratedOf_congr (boundTo_congr _ _ c hp.role) hp.rated]
        exact hu hD hd c
  | plant k =>
    exact (plantMove_spent k (fun hR hb => Nat.mul_pos (hw hR hb) (by decide)) h).env rfl
      fun _ _ => .inl rfl
  | listen u hr hi =>
    obtain ⟨e, p, h1, h2, h3, h4, h5, h6⟩ := enterListen_computes { s with sul := u }
    rw [h5]
    refine (compute_spent e none false .capped p fun _ c => ?_).env (h3.trans h1.symm) fun _ _ => .inl ?_
    · rw [h6 c]
      exact Nat.zero_le _
    · exact congrArg (fun i : Image => i.window * 1000) (h4.trans h2.symm)
  | blocked u hr hp =>
    obtain ⟨e, h1, h2, h3, h4, h5⟩ := enterBlocked_computes { s with sul := u }
    rw [h5]
    refine (compute_spent e none false .noAllot _ fun hD c => ?_).env (h3.trans h1.symm) fun _ _ => .inl ?_
    · rw [show (Plant.raise _ Factor.configBad).ogd = s.plant.ogd from rfl, hu hD hp c, Nat.zero_mul]
      exact Nat.zero_le _
    · exact congrArg (fun i : Image => i.window * 1000) (h4.trans h2.symm)
  | retired =>
    obtain ⟨e, w, h1, _, h2, h3, _⟩ := enterRetired_computes s
    have k : Spent D R e (compute e none false .noAllot (disableAll w.plant)) :=
      compute_spent e none false .noAllot _ fun _ c => by
        rw [((disableAll_facts w.plant).1 c).2.2]
        exact Nat.zero_le _
    rw [h1]
    generalize compute e none false .noAllot (disableAll w.plant) = p at k ⊢
    rw [h2] at k
    exact k.env rfl fun _ _ => .inl rfl
  | restart => exact reset_spent _ _ rfl rfl rfl

end Sys2Proof.Machine
end

