-- ==== Sys2Proof/Laws/Outputs.lean ====
section
/-! SUPPORT. Which outputs may be on (R118), at most one output to a circuit (R112), the test in progress
(R129): what each operation of the plant keeps of `OutputsInOrder`. -/

namespace Sys2Proof.Machine

/-! ### Outputs in order, but one -/

/-- The outputs are in order, but output `o` may be on where it is not to be. -/
structure InOrderBut (o : Fin 6) (p : Plant) : Prop where
  driven : ∀ j : Fin 6, j ≠ o → p.ogd.outputs[j].energized = true → drivable p j = true
  single : ∀ (j k c : Fin 6), p.ogd.outputs[j].role.circuit = some c →
    p.ogd.outputs[k].role.circuit = some c → j = k
  spareTest : ∀ t, p.ogd.test = some t → t.circuit = none → p.ogd.outputs[t.output].role = .spareFree
  circuitTest : ∀ t c, p.ogd.test = some t → t.circuit = some c →
    p.ogd.outputs[t.output].role.circuit = some c ∧ p.cct[c].state = .testing
  rated : ∀ j : Fin 6, p.ogd.outputs[j].role ≠ .unused → p.ogd.outputs[j].role ≠ .bad →
    0 < p.ogd.outputs[j].rated

theorem OutputsInOrder.but {p : Plant} (h : OutputsInOrder p) (o : Fin 6) : InOrderBut o p :=
  { h with driven := fun j _ => h.driven j }

theorem InOrderBut.all {o : Fin 6} {p : Plant} (h : InOrderBut o p)
    (ho : p.ogd.outputs[o].energized = true → drivable p o = true) : OutputsInOrder p :=
  { h with
    driven := fun j hj => by
      by_cases e : j = o
      · subst e
        exact ho hj
      · exact h.driven j e hj }

theorem InOrderBut.off {o : Fin 6} {p : Plant} (h : InOrderBut o p)
    (ho : p.ogd.outputs[o].energized = false) : OutputsInOrder p :=
  h.all fun k => by rw [ho] at k; cases k

/-- An output that may be driven has its limit closed, and is bound to a circuit that may be driven or is
the free spare under test. -/
theorem drivable_iff (p : Plant) (o : Fin 6) :
    drivable p o = true ↔ p.ogd.outputs[o].limit.level = some false ∧
      ((∃ c, p.ogd.outputs[o].role.circuit = some c ∧
          (p.cct[c].state.energizable = true ∨ p.cct[c].state = .testing)) ∨
        (p.ogd.outputs[o].role = .spareFree ∧ p.ogd.underTest o = true)) := by
  unfold drivable
  dsimp only
  rw [Bool.and_eq_true, decide_eq_true_eq]
  refine and_congr_right fun _ => ?_
  cases h : p.ogd.outputs[o].role with
  | primary c => simp [Role.circuit]
  | spareBound c => simp [Role.circuit]
  | spareFree => simp [Role.circuit]
  | unused => simp [Role.circuit]
  | bad => simp [Role.circuit]

/-- The roles, the filtered limits, the rated loads, the test and the circuit states stay, and no output
is switched on. -/
structure Quiet (p q : Plant) : Prop where
  role : ∀ o : Fin 6, q.ogd.outputs[o].role = p.ogd.outputs[o].role
  off : ∀ o : Fin 6, q.ogd.outputs[o].energized = true → p.ogd.outputs[o].energized = true
  limit : ∀ o : Fin 6, q.ogd.outputs[o].limit.level = p.ogd.outputs[o].limit.level
  rated : ∀ o : Fin 6, q.ogd.outputs[o].rated = p.ogd.outputs[o].rated
  test : (q.ogd.test.map fun t => (t.output, t.circuit)) = p.ogd.test.map fun t => (t.output, t.circuit)
  state : ∀ c : Fin 6, q.cct[c].state = p.cct[c].state

theorem Quiet.refl (p : Plant) : Quiet p p :=
  ⟨fun _ => rfl, fun _ h => h, fun _ => rfl, fun _ => rfl, rfl, fun _ => rfl⟩

theorem Quiet.trans {p q r : Plant} (h : Quiet p q) (k : Quiet q r) : Quiet p r where
  role o := (k.role o).trans (h.role o)
  off o x := h.off o (k.off o x)
  limit o := (k.limit o).trans (h.limit o)
  rated o := (k.rated o).trans (h.rated o)
  test := k.test.trans h.test
  state c := (k.state c).trans (h.state c)

theorem Alike.quiet {p q : Plant} (h : Alike p q) : Quiet p q where
  role := h.role
  off o x := by rw [← h.energized o]; exact x
  limit := h.limit
  rated := h.rated
  test := h.test
  state := h.state

/-- A test in the plant after is one in the plant before, of the same output and circuit. -/
theorem Quiet.testOf {p q : Plant} (h : Quiet p q) {t : TestRecord} (ht : q.ogd.test = some t) :
    ∃ u, p.ogd.test = some u ∧ u.output = t.output ∧ u.circuit = t.circuit := by
  have k := h.test
  rw [ht] at k
  cases hp : p.ogd.test with
  | none => rw [hp] at k; cases k
  | some u =>
    rw [hp] at k
    injection k with k
    injection k with k1 k2
    exact ⟨u, rfl, k1.symm, k2.symm⟩

theorem Quiet.underTest {p q : Plant} (h : Quiet p q) (o : Fin 6) :
    q.ogd.underTest o = p.ogd.underTest o := by
  have k := h.test
  unfold Ogd.underTest
  cases hp : p.ogd.test <;> cases hq : q.ogd.test <;> rw [hp, hq] at k
  · cases k
  · cases k
  · simp only [Option.map_some, Option.some.injEq, Prod.mk.injEq] at k
    dsimp only
    rw [k.1]

theorem Quiet.drivable {p q : Plant} (h : Quiet p q) (o : Fin 6) :
    drivable q o = drivable p o := by
  unfold Machine.drivable
  dsimp only
  rw [h.limit o, h.role o, h.underTest o]
  cases p.ogd.outputs[o].role <;> simp only [h.state]

/-- A quiet operation keeps the outputs in order. -/
theorem InOrderBut.quiet {o : Fin 6} {p q : Plant} (h : InOrderBut o p) (k : Quiet p q) :
    InOrderBut o q where
  driven j hj he := by
    rw [k.drivable j]
    exact h.driven j hj (k.off j he)
  single i j c hi hj := h.single i j c (by rw [← k.role i]; exact hi) (by rw [← k.role j]; exact hj)
  spareTest t ht hc := by
    obtain ⟨u, hu, h1, h2⟩ := k.testOf ht
    rw [k.role, ← h1]
    exact h.spareTest u hu (h2.trans hc)
  circuitTest t c ht hc := by
    obtain ⟨u, hu, h1, h2⟩ := k.testOf ht
    rw [k.role, k.state, ← h1]
    exact h.circuitTest u c hu (h2.trans hc)
  rated j h1 h2 := by
    rw [k.rated j]
    rw [k.role j] at h1 h2
    exact h.rated j h1 h2

theorem OutputsInOrder.quiet {p q : Plant} (h : OutputsInOrder p) (k : Quiet p q) :
    OutputsInOrder q :=
  ((h.but 0).quiet k).all fun he => by
    rw [k.drivable]
    exact h.driven 0 (k.off 0 he)

theorem switchOff_quiet (o : Fin 6) (p : Plant) : Quiet p (switchOff o p) where
  role := (switchOff_facts o p).2.1
  off := (switchOff_reach o p).off
  limit j := congrArg Filter.level ((switchOff_reach o p).limit j)
  rated := (switchOff_reach o p).rated
  test := by
    unfold switchOff
    split <;> rfl
  state c := by rw [(switchOff_facts o p).1]

theorem updOut_quiet (p : Plant) (o : Fin 6) (f : OutputRow → OutputRow)
    (hr : (f p.ogd.outputs[o]).role = p.ogd.outputs[o].role)
    (he : (f p.ogd.outputs[o]).energized = p.ogd.outputs[o].energized)
    (hl : (f p.ogd.outputs[o]).limit.level = p.ogd.outputs[o].limit.level)
    (hd : (f p.ogd.outputs[o]).rated = p.ogd.outputs[o].rated)
    (hw : WindowKept p.ogd.outputs[o] → WindowKept (f p.ogd.outputs[o]) := by exact id) :
    Quiet p (p.updOut o f) :=
  (Alike.updOut p o f hr he hl hd hw).quiet

/-- No output is bound to the circuit. -/
def Unbound (p : Plant) (c : Fin 6) : Prop := ∀ o : Fin 6, p.ogd.outputs[o].role.circuit ≠ some c

/-- No trip count exceeds the trip limit `lim`, and that of a circuit with an output is below it, but for
the circuit `x` (R113). -/
structure CountedBut (x : Option (Fin 6)) (lim : Nat) (p : Plant) : Prop where
  within : ∀ c : Fin 6, p.ogd.trips[c].count ≤ lim
  bound : ∀ o c : Fin 6, p.ogd.outputs[o].role.circuit = some c → x ≠ some c → p.ogd.trips[c].count < lim

/-- No trip count exceeds the trip limit, and that of every circuit with an output is below it (R113). -/
abbrev Counted : Nat → Plant → Prop := CountedBut none

/-- An output bound to a circuit after was bound to it before, and no trip count rises. -/
theorem CountedBut.fewer {x : Option (Fin 6)} {lim : Nat} {p q : Plant} (h : CountedBut x lim p)
    (hr : ∀ o c : Fin 6, q.ogd.outputs[o].role.circuit = some c → p.ogd.outputs[o].role.circuit = some c)
    (ht : ∀ c : Fin 6, q.ogd.trips[c].count ≤ p.ogd.trips[c].count) : CountedBut x lim q :=
  ⟨fun c => (ht c).trans (h.within c), fun o c k n => (ht c).trans_lt (h.bound o c (hr o c k) n)⟩

/-- A circuit at its trip limit has lost its output. -/
theorem CountedBut.lost {c : Fin 6} {lim : Nat} {p : Plant} (h : CountedBut (some c) lim p)
    (hc : Unbound p c) : Counted lim p :=
  ⟨h.within, fun o d k _ => h.bound o d k fun e => by cases e; exact hc o k⟩

/-- A spare takes over a circuit, whose trip record starts at 0 (R126). -/
theorem CountedBut.bindSpare {lim : Nat} {p : Plant} (h : Counted lim p) (hl : 0 < lim) (c q : Fin 6) :
    Counted lim (bindSpare c q p) := by
  have trip : (Machine.bindSpare c q p).ogd.trips[c] = ⟨0, 0, 0⟩ := updTrip_row _ c _
  have others : ∀ d : Fin 6, d ≠ c → (Machine.bindSpare c q p).ogd.trips[d] = p.ogd.trips[d] :=
    fun d hd => updTrip_other _ c d _ hd
  refine ⟨fun d => ?_, fun o d k _ => ?_⟩
  · by_cases e : d = c
    · rw [e, trip]
      exact Nat.zero_le _
    · rw [others d e]
      exact h.within d
  · by_cases e : d = c
    · rw [e, trip]
      exact hl
    · rw [others d e]
      have row : ∀ hn : o ≠ q, (Machine.bindSpare c q p).ogd.outputs[o] = p.ogd.outputs[o] :=
        fun hn => updOut_other p q o _ hn
      by_cases eo : o = q
      · rw [eo, show (Machine.bindSpare c q p).ogd.outputs[q] =
          { p.ogd.outputs[q] with role := .spareBound c, openCount := 0 } from updOut_row p q _] at k
        cases k
        exact absurd rfl e
      · rw [row eo] at k
        exact h.bound o d k nofun

/-- The outputs are in order, a circuit that had no output has none, and trip counts within the limit stay
so. -/
structure Ordered (e : Env) (p q : Plant) : Prop where
  order : OutputsInOrder q
  unbound : ∀ c, Unbound p c → Unbound q c
  counted : Counted e.img.tripLimit p → Counted e.img.tripLimit q

theorem OutputsInOrder.ordered {e : Env} {p : Plant} (h : OutputsInOrder p) : Ordered e p p :=
  ⟨h, fun _ k => k, id⟩

theorem Ordered.trans {e : Env} {p q r : Plant} (h : Ordered e p q) (k : Ordered e q r) :
    Ordered e p r :=
  ⟨k.order, fun c x => k.unbound c (h.unbound c x), k.counted ∘ h.counted⟩

/-- The roles stay, and no trip count rises. -/
theorem Ordered.roles {e : Env} {p q : Plant} (h : OutputsInOrder q)
    (hr : ∀ o : Fin 6, q.ogd.outputs[o].role = p.ogd.outputs[o].role)
    (ht : ∀ c : Fin 6, q.ogd.trips[c].count ≤ p.ogd.trips[c].count := by exact fun _ => Nat.le_refl _) :
    Ordered e p q :=
  ⟨h, fun c x o => by rw [hr o]; exact x o, fun k => k.fewer (fun o c x => by rw [← hr o]; exact x) ht⟩

/-- An order reached from a plant with the same roles and no fewer trips. -/
theorem Ordered.after {e : Env} {p q r : Plant} (k : Ordered e q r)
    (hr : ∀ o : Fin 6, q.ogd.outputs[o].role = p.ogd.outputs[o].role)
    (ht : ∀ c : Fin 6, q.ogd.trips[c].count ≤ p.ogd.trips[c].count := by exact fun _ => Nat.le_refl _) :
    Ordered e p r :=
  ⟨k.order, fun c x => k.unbound c fun o => by rw [hr o]; exact x o,
    fun n => k.counted (n.fewer (fun o c x => by rw [← hr o]; exact x) ht)⟩

theorem Ordered.quiet {e : Env} {p q : Plant} (h : OutputsInOrder p) (k : Quiet p q)
    (ht : ∀ c : Fin 6, q.ogd.trips[c].count ≤ p.ogd.trips[c].count := by exact fun _ => Nat.le_refl _) :
    Ordered e p q :=
  .roles (h.quiet k) k.role ht

theorem Ordered.alike {e : Env} {p q : Plant} (h : OutputsInOrder p) (k : Alike p q) : Ordered e p q :=
  .quiet h k.quiet k.trips

theorem switchOff_trips (o : Fin 6) (p : Plant) : (switchOff o p).ogd.trips = p.ogd.trips := by
  unfold switchOff
  split <;> rfl

theorem Ordered.switchOff {e : Env} {p : Plant} (h : OutputsInOrder p) (o : Fin 6) :
    Ordered e p (switchOff o p) :=
  .quiet h (switchOff_quiet o p) fun c => by rw [switchOff_trips]

/-! ### One circuit, one output, the test -/

/-- A circuit row changes its state: its output is off or may still be driven, and a test of the circuit
goes on. -/
theorem OutputsInOrder.circuit {p : Plant} (h : OutputsInOrder p) (c : Fin 6)
    (f : CircuitRow → CircuitRow)
    (hd : ∀ o : Fin 6, p.ogd.outputs[o].role.circuit = some c → p.ogd.outputs[o].energized = true →
      (f p.cct[c]).state.energizable = true ∨ (f p.cct[c]).state = .testing)
    (ht : ∀ t, p.ogd.test = some t → t.circuit = some c → (f p.cct[c]).state = .testing) :
    OutputsInOrder (p.updCct c f) :=
  { h with
    driven := fun o he => by
      have k := (drivable_iff p o).1 (h.driven o he)
      refine (drivable_iff _ o).2 ⟨k.1, k.2.imp ?_ id⟩
      rintro ⟨d, hr, hs⟩
      refine ⟨d, hr, ?_⟩
      by_cases hdc : d = c
      · subst hdc
        rw [updCct_row]
        exact hd o hr he
      · rw [updCct_other _ _ _ _ hdc]
        exact hs
    circuitTest := fun t d h1 h2 => by
      have k := h.circuitTest t d h1 h2
      refine ⟨k.1, ?_⟩
      by_cases hdc : d = c
      · subst hdc
        rw [updCct_row]
        exact ht t h1 h2
      · rw [updCct_other _ _ _ _ hdc]
        exact k.2 }

/-- A circuit that is not tested takes a state in which its output may be driven. -/
theorem OutputsInOrder.settling {p : Plant} (h : OutputsInOrder p) (e : Env) (c : Fin 6)
    (ht : ∀ t, p.ogd.test = some t → t.circuit ≠ some c) :
    OutputsInOrder (enterSettling e c p) :=
  h.circuit c _ (fun _ _ _ => .inl rfl) fun t h1 h2 => absurd h2 (ht t h1)

/-- A circuit that is not tested, and whose output is off, takes any state. -/
theorem OutputsInOrder.idle {p : Plant} (h : OutputsInOrder p) (c : Fin 6) (f : CircuitRow → CircuitRow)
    (ho : ∀ o : Fin 6, p.ogd.outputs[o].role.circuit = some c → p.ogd.outputs[o].energized = false)
    (ht : ∀ t, p.ogd.test = some t → t.circuit ≠ some c) : OutputsInOrder (p.updCct c f) :=
  h.circuit c f (fun o h1 h2 => by rw [ho o h1] at h2; cases h2) fun t h1 h2 => absurd h2 (ht t h1)

/-- The one output bound to a circuit. -/
theorem OutputsInOrder.only {p : Plant} (h : OutputsInOrder p) {o c : Fin 6}
    (hc : p.ogd.outputs[o].role.circuit = some c) (he : p.ogd.outputs[o].energized = false) :
    ∀ j : Fin 6, p.ogd.outputs[j].role.circuit = some c → p.ogd.outputs[j].energized = false :=
  fun j hj => by rw [h.single j o c hj hc]; exact he

/-- A test of a circuit whose output is `o` is a test of `o`. -/
theorem OutputsInOrder.testOf {p : Plant} (h : OutputsInOrder p) {o c : Fin 6}
    (hc : p.ogd.outputs[o].role.circuit = some c) {t : TestRecord} (ht : p.ogd.test = some t)
    (htc : t.circuit = some c) : t.output = o :=
  h.single _ _ c (h.circuitTest t c ht htc).1 hc

/-- The test record is removed with its output off. -/
theorem OutputsInOrder.untested {p : Plant} (h : OutputsInOrder p)
    (ho : ∀ t, p.ogd.test = some t → p.ogd.outputs[t.output].energized = false) :
    OutputsInOrder (p.setTest none) :=
  { h with
    driven := fun o he => by
      have k := (drivable_iff p o).1 (h.driven o he)
      refine (drivable_iff _ o).2 ⟨k.1, k.2.imp id ?_⟩
      rintro ⟨_, hu⟩
      unfold Ogd.underTest at hu
      cases htest : p.ogd.test with
      | none => rw [htest] at hu; cases hu
      | some t =>
        rw [htest] at hu
        have e : t.output = o := of_decide_eq_true hu
        subst e
        have on : p.ogd.outputs[t.output].energized = true := he
        rw [ho t htest] at on
        cases on
    spareTest := fun t ht => by cases ht
    circuitTest := fun t c ht => by cases ht }

theorem endTest_quiet (x : TestOutcome) (p : Plant) : Quiet (p.setTest none) (endTest x p) := by
  unfold endTest
  split
  · rename_i h
    exact { Quiet.refl p with test := congrArg _ h }
  · rename_i t _
    exact updOut_quiet (p.setTest none) t.output
      (fun r => { r with health := { r.health with
        lastTest := some ⟨x, t.energizedMs, testMean t, t.peak⟩ } }) rfl rfl rfl rfl

/-- A test ends with its output off. -/
theorem OutputsInOrder.ended {p : Plant} (h : OutputsInOrder (p.setTest none)) (x : TestOutcome) :
    OutputsInOrder (endTest x p) := h.quiet (endTest_quiet x p)

theorem endTest_trips (x : TestOutcome) (p : Plant) : (endTest x p).ogd.trips = p.ogd.trips := by
  unfold endTest
  split <;> rfl

/-- A free spare that is not under test is bound to a circuit that has no output. -/
theorem OutputsInOrder.bound {p : Plant} (h : OutputsInOrder p) {c q : Fin 6} (hc : Unbound p c)
    (hq : p.ogd.outputs[q].role = .spareFree) (hu : p.ogd.underTest q = false) :
    OutputsInOrder (bindSpare c q p) ∧ (bindSpare c q p).ogd.outputs[q].role.circuit = some c ∧
      ∀ d, d ≠ c → Unbound p d → Unbound (bindSpare c q p) d := by
  have row : (bindSpare c q p).ogd.outputs[q] =
      { p.ogd.outputs[q] with role := .spareBound c, openCount := 0 } := updOut_row p q _
  have other : ∀ j : Fin 6, j ≠ q → (bindSpare c q p).ogd.outputs[j] = p.ogd.outputs[j] :=
    fun j hj => updOut_other p q j _ hj
  have off : p.ogd.outputs[q].energized = false := by
    by_contra k
    have k := (drivable_iff p q).1 (h.driven q (by simpa using k))
    rcases k.2 with ⟨d, hd, _⟩ | ⟨_, k⟩
    · rw [hq] at hd
      cases hd
    · rw [hu] at k
      cases k
  have tests : ∀ t, p.ogd.test = some t → t.output ≠ q := fun t ht e => by
    rw [← e, underTest_of p.ogd t ht] at hu
    cases hu
  refine ⟨⟨fun j he => ?_, fun i j d hi hj => ?_, fun t ht hn => ?_, fun t d ht hd => ?_,
    fun j h1 h2 => ?_⟩, by rw [row]; rfl, fun d hd hb j => ?_⟩
  · by_cases e : j = q
    · rw [e, row] at he
      rw [off] at he
      cases he
    · rw [other j e] at he
      have k := (drivable_iff p j).1 (h.driven j he)
      refine (drivable_iff _ j).2 ?_
      rw [other j e]
      exact k
  · by_cases ei : i = q <;> by_cases ej : j = q
    · rw [ei, ej]
    · rw [ei, row] at hi
      rw [other j ej] at hj
      cases hi
      exact absurd hj (hc j)
    · rw [ej, row] at hj
      rw [other i ei] at hi
      cases hj
      exact absurd hi (hc i)
    · rw [other i ei] at hi
      rw [other j ej] at hj
      exact h.single i j d hi hj
  · rw [other _ (tests t ht)]
    exact h.spareTest t ht hn
  · rw [other _ (tests t ht)]
    exact h.circuitTest t d ht hd
  · by_cases e : j = q
    · rw [e, row]
      exact h.rated q (by rw [hq]; nofun) (by rw [hq]; nofun)
    · rw [other j e] at h1 h2 ⊢
      exact h.rated j h1 h2
  · by_cases e : j = q
    · rw [e, row]
      intro k
      cases k
      exact hd rfl
    · rw [other j e]
      exact hb j

/-- An output that is off and not under test becomes BAD. -/
theorem OutputsInOrder.nowBad {p : Plant} (h : OutputsInOrder p) (o : Fin 6)
    (he : p.ogd.outputs[o].energized = false) (hu : p.ogd.underTest o = false) :
    (∀ e, Ordered e p (p.updOut o fun r => { r with role := .bad })) ∧
      ∀ c, p.ogd.outputs[o].role.circuit = some c →
        Unbound (p.updOut o fun r => { r with role := .bad }) c := by
  have row := updOut_row p o fun r => { r with role := .bad }
  have other := fun (j : Fin 6) (hj : j ≠ o) => updOut_other p o j (fun r => { r with role := .bad }) hj
  have tests : ∀ t, p.ogd.test = some t → t.output ≠ o := fun t ht e => by
    rw [← e, underTest_of p.ogd t ht] at hu
    cases hu
  have sub : ∀ (j c : Fin 6),
      (p.updOut o fun r => { r with role := .bad }).ogd.outputs[j].role.circuit = some c →
        j ≠ o ∧ p.ogd.outputs[j].role.circuit = some c := fun j c hj => by
    by_cases e : j = o
    · rw [e, row] at hj
      cases hj
    · rw [other j e] at hj
      exact ⟨e, hj⟩
  refine ⟨fun _ => ⟨⟨fun j hj => ?_, fun i j c hi hj => ?_, fun t ht hn => ?_, fun t c ht hc => ?_,
    fun j h1 h2 => ?_⟩, fun c hc j hj => hc j (sub j c hj).2, fun k => k.fewer
      (fun j c hj => (sub j c hj).2) fun _ => Nat.le_refl _⟩, fun c hc j hj => ?_⟩
  · by_cases e : j = o
    · rw [e, row] at hj
      rw [he] at hj
      cases hj
    · rw [other j e] at hj
      have k := (drivable_iff p j).1 (h.driven j hj)
      refine (drivable_iff _ j).2 ?_
      rw [other j e]
      exact k
  · exact h.single i j c (sub i c hi).2 (sub j c hj).2
  · rw [other _ (tests t ht)]
    exact h.spareTest t ht hn
  · rw [other _ (tests t ht)]
    exact h.circuitTest t c ht hc
  · by_cases e : j = o
    · rw [e, row] at h2
      exact absurd rfl h2
    · rw [other j e] at h1 h2 ⊢
      exact h.rated j h1 h2
  · exact (sub j c hj).1 (h.single j o c (sub j c hj).2 hc)

/-! ### Tests, failures, trips -/

/-- A re-spread that keeps the outputs in order. -/
abbrev KeepsOrder (respread : Env → Plant → Plant) : Prop :=
  ∀ e p, OutputsInOrder p → Ordered e p (respread e p)

theorem underTest_test {g : Ogd} {o : Fin 6} (h : g.underTest o = true) :
    ∃ t, g.test = some t ∧ t.output = o := by
  unfold Ogd.underTest at h
  cases ht : g.test with
  | none => rw [ht] at h; cases h
  | some t =>
    rw [ht] at h
    exact ⟨t, rfl, of_decide_eq_true h⟩

/-- The circuit of a test that has ended moves on, with its output off (R81). -/
theorem afterAbort_order {q : Plant} (h : OutputsInOrder q) (e : Env) (cause : AbortCause) {c o : Fin 6}
    (ht : q.ogd.test = none) (hc : q.ogd.outputs[o].role.circuit = some c)
    (ho : q.ogd.outputs[o].energized = false) : Ordered e q (afterAbort e cause c q) := by
  have no : ∀ t, q.ogd.test = some t → t.circuit ≠ some c := fun t k => by rw [ht] at k; cases k
  unfold afterAbort
  split
  · split
    · exact .roles (h.idle c _ (h.only hc ho) no) fun _ => rfl
    · exact .roles (h.settling e c no) fun _ => rfl
  · exact h.ordered

/-- A test ends ABORTED: its output may have been on where it was not to be. -/
theorem abortWith_order {respread : Env → Plant → Plant} (hr : KeepsOrder respread) (e : Env)
    (cause : AbortCause) (p : Plant) (h : ∀ t, p.ogd.test = some t → InOrderBut t.output p)
    (h0 : p.ogd.test = none → OutputsInOrder p) : Ordered e p (abortWith respread e cause p) := by
  unfold abortWith
  split
  · rename_i ht
    exact (h0 ht).ordered
  · rename_i t ht
    have off := (switchOff_facts t.output p).2.2.1
    have offTest : (switchOff t.output p).ogd.test = some t := by
      unfold switchOff
      split <;> exact ht
    have out : OutputsInOrder (switchOff t.output p) := ((h t ht).quiet (switchOff_quiet _ _)).off off
    have ended : OutputsInOrder (endTest (.aborted cause) (switchOff t.output p)) :=
      (out.untested fun u hu => by
        rw [offTest] at hu
        cases hu
        exact off).ended _
    have gone := endTest_none (.aborted cause) (switchOff t.output p)
    have roles : ∀ o : Fin 6, (endTest (.aborted cause) (switchOff t.output p)).ogd.outputs[o].role =
        p.ogd.outputs[o].role := fun o => (endTest_role _ _ o).trans ((switchOff_quiet _ _).role o)
    have ended_off : (endTest (.aborted cause) (switchOff t.output p)).ogd.outputs[t.output].energized =
        false := by
      by_contra k
      have := (endTest_quiet (.aborted cause) (switchOff t.output p)).off t.output (by simpa using k)
      have : (switchOff t.output p).ogd.outputs[t.output].energized = true := this
      rw [off] at this
      cases this
    dsimp only
    have trips : (endTest (.aborted cause) (switchOff t.output p)).ogd.trips = p.ogd.trips :=
      (endTest_trips _ _).trans (switchOff_trips _ _)
    have circuit : ∀ c, t.circuit = some c → p.ogd.outputs[t.output].role.circuit = some c :=
      fun c hc => ((h t ht).circuitTest t c ht hc).1
    generalize endTest (.aborted cause) (switchOff t.output p) = q at ended gone roles ended_off trips ⊢
    have moved : Ordered e q (match t.circuit with
        | some c => afterAbort e cause c q
        | none => q) := by
      split
      · rename_i c hc
        exact afterAbort_order ended e cause gone (by rw [roles]; exact circuit c hc) ended_off
      · exact ended.ordered
    exact ((Ordered.roles (p := p) ended roles fun c => by rw [trips]).trans moved).trans
      (hr _ _ moved.order)

/-- A test ends ABORTED with its output switched off first. -/
theorem abortWith_reach_off {respread : Env → Plant → Plant} (hk : Tame respread) (e : Env)
    (cause : AbortCause) (p : Plant) {t : TestRecord} (ht : p.ogd.test = some t) :
    Reach (switchOff t.output p) (abortWith respread e cause p) := by
  unfold abortWith
  rw [ht]
  refine Reach.trans ?_ (hk _ _)
  refine (endTest_reach (.aborted cause) _).trans ?_
  split
  · exact afterAbort_reach e cause _ _
  · exact Reach.refl _

/-- A circuit with an output bound to it enters SETTLING or INHIBITED (R71, R80). -/
theorem settleBound_order {p : Plant} (h : OutputsInOrder p) (e : Env) {c q : Fin 6}
    (hq : p.ogd.outputs[q].role.circuit = some c)
    (ht : ∀ t, p.ogd.test = some t → t.circuit ≠ some c) : Ordered e p (settleBound e c q p) := by
  have settled := h.settling e c ht
  unfold settleBound
  dsimp only
  split
  · rename_i hl
    refine .roles (settled.idle c _ (settled.only (o := q) hq ?_) ht) fun _ => rfl
    by_contra k
    have k := ((drivable_iff _ q).1 (settled.driven q (by simpa using k))).1
    rw [hl] at k
    cases k
  · exact .roles settled fun _ => rfl

/-- A lowest free spare under test is taken after its test has ended (R126, R131). -/
theorem clearSpare_order {respread : Env → Plant → Plant} (hr : KeepsOrder respread)
    (hk : Tame respread) (e : Env) {p : Plant} (h : OutputsInOrder p) :
    Ordered e p (clearSpare respread e p) ∧
      ∀ q, (clearSpare respread e p).ogd.lowestSpare = some q →
        (clearSpare respread e p).ogd.underTest q = false := by
  unfold clearSpare
  split
  · rename_i q hq
    split
    · refine ⟨abortWith_order hr e .binding p (fun t _ => h.but _) fun _ => h, fun j _ => ?_⟩
      unfold Ogd.underTest
      rw [abortWith_none hk]
    · rename_i hu
      refine ⟨h.ordered, fun j hj => ?_⟩
      rw [hq] at hj
      cases hj
      simpa using hu
  · rename_i hq
    exact ⟨h.ordered, fun j hj => by rw [hq] at hj; cases hj⟩

/-- A circuit whose output has become BAD takes the lowest free spare (R126). -/
theorem takeSpare_order {p : Plant} (h : OutputsInOrder p) (e : Env) {c : Fin 6} (hc : Unbound p c)
    (hs : ∀ q, p.ogd.lowestSpare = some q → p.ogd.underTest q = false) :
    OutputsInOrder (takeSpare e c p) ∧ (∀ d, d ≠ c → Unbound p d → Unbound (takeSpare e c p) d) ∧
      (0 < e.img.tripLimit → Counted e.img.tripLimit p → Counted e.img.tripLimit (takeSpare e c p)) := by
  unfold takeSpare
  split
  · rename_i q hq
    obtain ⟨order, role, rest⟩ := h.bound hc (lowestSpare_role hq) (hs q hq)
    have no : ∀ t, (bindSpare c q p).ogd.test = some t → t.circuit ≠ some c := fun t ht k =>
      hc _ (h.circuitTest t c ht k).1
    have settled := settleBound_order order e role no
    exact ⟨settled.order, fun d hd hb => settled.unbound d (rest d hd hb),
      fun hl k => settled.counted (k.bindSpare hl c q)⟩
  · exact ⟨h.quiet (Alike.raise p .spareExhausted).quiet, fun _ _ k => k, fun _ k => ⟨k.within, k.bound⟩⟩

/-- A circuit at its trip limit, with its output off and not under test (R126). Its own trip count may be
at the limit. -/
theorem failWith_order {respread : Env → Plant → Plant} (hr : KeepsOrder respread)
    (hk : Tame respread) (e : Env) {c o : Fin 6} {p : Plant} (h : OutputsInOrder p)
    (hc : p.ogd.outputs[o].role.circuit = some c) (he : p.ogd.outputs[o].energized = false)
    (hu : p.ogd.underTest o = false) : Ordered e p (failWith respread e c o p) ∧
      (0 < e.img.tripLimit → CountedBut (some c) e.img.tripLimit p →
        Counted e.img.tripLimit (failWith respread e c o p)) := by
  obtain ⟨bad, unbound⟩ := h.nowBad o he hu
  replace bad := bad e
  have raised : Ordered e _ ((p.updOut o fun r => { r with role := .bad }).raise .circuitFailed) :=
    .alike bad.order (Alike.raise _ .circuitFailed)
  obtain ⟨clear, spare⟩ := clearSpare_order hr hk e raised.order
  have all := (bad.trans raised).trans clear
  obtain ⟨order, rest, counts⟩ := takeSpare_order clear.order e
    (clear.unbound c (raised.unbound c (unbound c hc))) spare
  refine ⟨⟨order, fun d hd => rest d ?_ (all.unbound d hd), fun k => counts
    (Nat.zero_lt_of_lt (k.bound o c hc nofun)) (all.counted k)⟩, fun hl k => counts hl ?_⟩
  · rintro rfl
    exact hd o hc
  · refine (raised.trans clear).counted (CountedBut.lost (c := c) ⟨k.within, fun j d hj hn => ?_⟩
      (unbound c hc))
    refine k.bound j d ?_ hn
    by_cases e : j = o
    · rw [e, updOut_row] at hj
      cases hj
    · rw [updOut_other _ _ _ _ e] at hj
      exact hj

theorem tripRecorded_quiet (o : Fin 6) (k : FaultKind) (p : Plant) : Quiet p (tripRecorded o k p) :=
  ((switchOff_quiet o p).trans (updOut_quiet _ o (fun r =>
    { r with
      openCount := 0,
      health :=
        { r.health with
          tripTotal := satAdd 65535 r.health.tripTotal 1, lastFault := some k } }) rfl rfl rfl rfl)).trans
    (Alike.raise _ .circuitTrip).quiet

theorem tripRecorded_off (o : Fin 6) (k : FaultKind) (p : Plant) :
    (tripRecorded o k p).ogd.outputs[o].energized = false := by
  have off := (switchOff_facts o p).2.2.1
  unfold tripRecorded
  show (Plant.updOut _ _ _).ogd.outputs[o].energized = _
  rw [updOut_row]
  exact off

/-- Outside the test of output `o`, an ended test or none. -/
theorem notUnder {p : Plant} {o : Fin 6} (h : p.ogd.underTest o = false) {t : TestRecord}
    (ht : p.ogd.test = some t) : t.output ≠ o := fun e => by
  rw [← e, underTest_of p.ogd t ht] at h
  cases h

/-- A circuit whose output is off and not under test goes to TRIPPED or FAILED. -/
theorem OutputsInOrder.idled {p : Plant} (h : OutputsInOrder p) {c o : Fin 6}
    (hc : p.ogd.outputs[o].role.circuit = some c) (he : p.ogd.outputs[o].energized = false)
    (hu : p.ogd.underTest o = false) (s : CState) : OutputsInOrder (p.updCct c (idleRow s)) :=
  h.idle c _ (h.only hc he) fun _ h1 h2 => notUnder hu h1 (h.testOf hc h1 h2)

/-- The record of a test is removed beside a quiet operation. -/
theorem Quiet.setNone {p q : Plant} (h : Quiet p q) : Quiet (p.setTest none) (q.setTest none) :=
  { role := h.role, off := h.off, limit := h.limit, rated := h.rated, test := rfl, state := h.state }

/-- The circuit of a tripped output goes to TRIPPED or FAILED; a test of the output ends TRIPPED. -/
theorem tripped_order {q u : Plant} {c o : Fin 6} (s : CState) (x : TestOutcome)
    (hc : q.ogd.outputs[o].role.circuit = some c) (off : q.ogd.outputs[o].energized = false)
    (untested : q.ogd.underTest o = true → OutputsInOrder (q.setTest none)) (h : OutputsInOrder q)
    (quiet : Quiet q u) :
    (q.ogd.underTest o = true → OutputsInOrder (endTest x (u.updCct c (idleRow s)))) ∧
      (q.ogd.underTest o = false → OutputsInOrder (u.updCct c (idleRow s))) := by
  have role : u.ogd.outputs[o].role.circuit = some c := by rw [quiet.role o]; exact hc
  have still : u.ogd.outputs[o].energized = false := by
    by_contra k
    rw [quiet.off o (by simpa using k)] at off
    cases off
  refine ⟨fun hu => ?_, fun hu => ?_⟩
  · exact .ended (p := u.updCct c (idleRow s))
      (((untested hu).quiet quiet.setNone).idled (c := c) (o := o) role still rfl s) x
  · exact (h.quiet quiet).idled role still (by rw [quiet.underTest]; exact hu) s

/-- A trip below the trip limit (R78, R123). -/
theorem tripBelow_order {respread : Env → Plant → Plant} (hr : KeepsOrder respread) (e : Env)
    {c o : Fin 6} {k : FaultKind} {q u : Plant} (hc : q.ogd.outputs[o].role.circuit = some c)
    (off : q.ogd.outputs[o].energized = false)
    (untested : q.ogd.underTest o = true → OutputsInOrder (q.setTest none)) (h : OutputsInOrder q)
    (quiet : Quiet q u) (count : Counted e.img.tripLimit q → Counted e.img.tripLimit u) :
    Ordered e q (tripBelow respread e (q.ogd.underTest o) c o k u) := by
  have held := updOut_quiet u o (fun r => { r with holdOff := some (e.img.holdOff * 1000) }) rfl rfl rfl
    rfl
  obtain ⟨h1, h2⟩ := tripped_order .tripped (.tripped k) hc off untested h (quiet.trans held)
  have moved : ∀ {w : Plant}, OutputsInOrder w →
      (∀ j : Fin 6, w.ogd.outputs[j].role = u.ogd.outputs[j].role) → w.ogd.trips = u.ogd.trips →
      Ordered e q w := fun order role trips =>
    ⟨order, fun d hd j => by rw [role, quiet.role]; exact hd j,
      fun n => (count n).fewer (fun j d hj => by rw [← role]; exact hj) fun d => by rw [trips]⟩
  unfold tripBelow
  dsimp only
  split
  · rename_i hu
    have ended := moved (h1 hu) (fun j => (endTest_role _ _ j).trans (held.role j)) (endTest_trips _ _)
    exact ended.trans (hr _ _ ended.order)
  · rename_i hu
    exact moved (h2 (by simpa using hu)) held.role rfl

/-- A trip that reaches the trip limit (R123, R126). -/
theorem tripLast_order {respread : Env → Plant → Plant} (hr : KeepsOrder respread)
    (hk : Tame respread) (e : Env) {c o : Fin 6} {k : FaultKind} {q u : Plant}
    (hc : q.ogd.outputs[o].role.circuit = some c) (off : q.ogd.outputs[o].energized = false)
    (untested : q.ogd.underTest o = true → OutputsInOrder (q.setTest none)) (h : OutputsInOrder q)
    (quiet : Quiet q u)
    (count : Counted e.img.tripLimit q → CountedBut (some c) e.img.tripLimit u) :
    Ordered e q (tripLast respread e (q.ogd.underTest o) c o k u) := by
  obtain ⟨h1, h2⟩ := tripped_order .failed (.tripped k) hc off untested h quiet
  have still : u.ogd.outputs[o].energized = false := by
    by_contra k
    rw [quiet.off o (by simpa using k)] at off
    cases off
  have role : u.ogd.outputs[o].role.circuit = some c := by rw [quiet.role o]; exact hc
  have failed : ∀ {w : Plant}, OutputsInOrder w →
      (∀ j : Fin 6, w.ogd.outputs[j].role = u.ogd.outputs[j].role) → w.ogd.trips = u.ogd.trips →
      w.ogd.outputs[o].energized = false → w.ogd.underTest o = false →
      Ordered e q (failWith respread e c o w) := fun order same trips he hu => by
    obtain ⟨k1, k2⟩ := failWith_order hr hk e (c := c) (o := o) order
      ((congrArg Role.circuit (same o)).trans role) he hu
    exact ⟨k1.order, fun d hd => k1.unbound d fun j => by rw [same, quiet.role]; exact hd j,
      fun n => k2 (Nat.zero_lt_of_lt (n.bound o c hc nofun))
        ((count n).fewer (fun j d hj => by rw [← same]; exact hj) fun d => by rw [trips])⟩
  unfold tripLast
  dsimp only
  split
  · rename_i hu
    have ended := endTest_quiet (.tripped k) (u.updCct c (idleRow .failed))
    have gone := failed (h1 hu) ended.role (endTest_trips _ _)
      (by
        by_contra k
        have k : u.ogd.outputs[o].energized = true := ended.off o (by simpa using k)
        rw [still] at k
        cases k)
      (by
        unfold Ogd.underTest
        rw [endTest_none])
    exact gone.trans (hr _ _ gone.order)
  · rename_i hu
    have hu : q.ogd.underTest o = false := by simpa using hu
    exact failed (h2 hu) (fun _ => rfl) rfl still (by rw [← hu]; exact quiet.underTest o)

/-- A trip counts one more, and the next count is still within the limit (R123). -/
theorem CountedBut.counts {lim : Nat} {p : Plant} (h : Counted lim p) {o c : Fin 6}
    (hc : p.ogd.outputs[o].role.circuit = some c) :
    CountedBut (some c) lim (p.updTrip c fun _ => ⟨p.ogd.trips[c].count + 1, 0, 0⟩) ∧
      (p.ogd.trips[c].count + 1 < lim →
        Counted lim (p.updTrip c fun _ => ⟨p.ogd.trips[c].count + 1, 0, 0⟩)) := by
  have row := updTrip_row p c fun _ => ⟨p.ogd.trips[c].count + 1, 0, 0⟩
  have other := fun (d : Fin 6) (hd : d ≠ c) =>
    updTrip_other p c d (fun _ => ⟨p.ogd.trips[c].count + 1, 0, 0⟩) hd
  have within : ∀ d : Fin 6,
      (p.updTrip c fun _ => ⟨p.ogd.trips[c].count + 1, 0, 0⟩).ogd.trips[d].count ≤ lim := fun d => by
    by_cases e : d = c
    · rw [e, row]
      exact h.bound o c hc nofun
    · rw [other d e]
      exact h.within d
  refine ⟨⟨within, fun j d hj hn => ?_⟩, fun hl => ⟨within, fun j d hj _ => ?_⟩⟩
  · rw [other d fun e => hn (congrArg some e.symm)]
    exact h.bound j d hj nofun
  · by_cases e : d = c
    · rw [e, row]
      exact hl
    · rw [other d e]
      exact h.bound j d hj nofun

/-- A trip (R123). -/
theorem tripWith_order {respread : Env → Plant → Plant} (hr : KeepsOrder respread)
    (hk : Tame respread) (e : Env) (o : Fin 6) (k : FaultKind) {p : Plant} (h : OutputsInOrder p) :
    Ordered e p (tripWith respread e o k p) := by
  unfold tripWith
  split
  swap
  · exact h.ordered
  have recorded : Ordered e p (tripRecorded o k p) :=
    .quiet h (tripRecorded_quiet o k p) fun c => by
      rw [show (tripRecorded o k p).ogd.trips = p.ogd.trips from switchOff_trips o p]
  have off := tripRecorded_off o k p
  have tested := (tripRecorded_quiet o k p).underTest o
  dsimp only
  rw [← tested]
  refine recorded.trans ?_
  replace recorded := recorded.order
  clear tested h
  generalize tripRecorded o k p = q at recorded off ⊢
  have untested : q.ogd.underTest o = true → OutputsInOrder (q.setTest none) := fun hu =>
    recorded.untested fun t ht => by
      obtain ⟨u, h1, h2⟩ := underTest_test hu
      rw [ht] at h1
      cases h1
      subst h2
      exact off
  split
  · rename_i c hc
    have counted : Quiet q (q.updTrip c fun _ => ⟨q.ogd.trips[c].count + 1, 0, 0⟩) :=
      { Quiet.refl q with }
    split
    · rename_i hl
      exact tripBelow_order hr e hc off untested recorded counted fun n => (n.counts hc).2 hl
    · exact tripLast_order hr hk e hc off untested recorded counted fun n => (n.counts hc).1
  · unfold tripSpare
    split
    · rename_i hu
      have bad := ((untested hu).nowBad o off rfl).1 e
      have ended := OutputsInOrder.ended (p := q.updOut o fun r => { r with role := .bad }) bad.order
        (.tripped k)
      have roles : Ordered e q (endTest (.tripped k) (q.updOut o fun r => { r with role := .bad })) :=
        ⟨ended, fun d hd j => by
          rw [endTest_role]
          exact bad.unbound d hd j, fun n => (bad.counted ⟨n.within, n.bound⟩).fewer (fun j d hj => by
            rw [endTest_role] at hj
            exact hj) fun d => by
              rw [endTest_trips]
              exact Nat.le_refl _⟩
      exact roles.trans (hr _ _ ended)
    · exact recorded.ordered

/-! ### Periods, grants, re-spreads -/

/-- A way to trip outputs that keeps them in order. -/
abbrev TripOrder (trip : Env → Fin 6 → FaultKind → Plant → Plant) : Prop :=
  ∀ e o k p, OutputsInOrder p → Ordered e p (trip e o k p)

theorem endPeriodWith_order {trip : Env → Fin 6 → FaultKind → Plant → Plant} (ht : TripOrder trip)
    (e : Env) (c : Fin 6) {p : Plant} (h : OutputsInOrder p) : Ordered e p (endPeriodWith trip e c p) := by
  unfold endPeriodWith
  split
  · exact h.ordered
  · rename_i o _
    have count : ∀ n : OutputRow → Nat, Ordered e p (p.updOut o fun r => { r with openCount := n r }) :=
      fun n => .quiet h (updOut_quiet p o (fun r => { r with openCount := n r }) rfl rfl rfl rfl)
    have off : ∀ {q : Plant}, OutputsInOrder q → Ordered e q (switchOff o q) := fun hq =>
      .switchOff hq o
    dsimp only
    split
    · split
      · exact off h
      · split
        · have c1 := count fun r => r.openCount + 1
          split
          · exact c1.trans (ht _ _ _ _ c1.order)
          · exact c1.trans (off c1.order)
        · exact (count fun _ => 0).trans (off (count fun _ => 0).order)
    · exact h.ordered

/-- A fold of steps that each keep the outputs in order. -/
theorem foldl_order {α : Type} {e : Env} (f : Plant → α → Plant)
    (hf : ∀ p a, OutputsInOrder p → Ordered e p (f p a)) (l : List α) {p : Plant}
    (h : OutputsInOrder p) : Ordered e p (l.foldl f p) := by
  induction l generalizing p with
  | nil => exact h.ordered
  | cons a l ih => exact (hf p a h).trans (ih (hf p a h).order)

/-- Every circuit row is rewritten in other items than its state. -/
theorem mapCct_quiet (p : Plant) (f : Fin 6 → CircuitRow → CircuitRow)
    (hs : ∀ c r, (f c r).state = r.state) : Quiet p { p with cct := mapRows p.cct f } :=
  { Quiet.refl p with
    state := fun c => by
      show (mapRows p.cct f)[c].state = _
      rw [mapRows_get, hs] }

/-- The allotment table changes. -/
theorem allot_quiet (p : Plant) (a : Alu) : Quiet p { p with alu := a } := { Quiet.refl p with }

theorem handGrantsWith_order {trip : Env → Fin 6 → FaultKind → Plant → Plant} (ht : TripOrder trip)
    (e : Env) (g : Vector Nat 6) {p : Plant} (h : OutputsInOrder p) :
    Ordered e p (handGrantsWith trip e g p) := by
  have taken : Ordered e p { p with cct := mapRows p.cct fun c r => grantedRow e p c g[c] r } :=
    .quiet h (mapCct_quiet p _ fun _ _ => rfl)
  unfold handGrantsWith
  refine taken.trans (foldl_order _ (fun q c hq => ?_) _ taken.order)
  split
  · exact endPeriodWith_order ht e c hq
  · exact hq.ordered

theorem respreadWith_order {trip : Env → Fin 6 → FaultKind → Plant → Plant} (ht : TripOrder trip) :
    KeepsOrder (respreadWith (handGrantsWith trip)) := fun e p h =>
  (Ordered.quiet h (allot_quiet p _)).trans
    (handGrantsWith_order ht e _ (h.quiet (allot_quiet p { p.alu with deduction := none })))

theorem respread_order : KeepsOrder respread :=
  respreadWith_order fun e o k _ h =>
    tripWith_order (fun _ _ h => h.ordered) (fun _ p => Reach.refl p) e o k h

theorem tripOutput_order : TripOrder tripOutput := fun e o k _ h =>
  tripWith_order respread_order respread_reach e o k h

theorem handGrants_order (e : Env) (g : Vector Nat 6) {p : Plant} (h : OutputsInOrder p) :
    Ordered e p (handGrants e g p) := handGrantsWith_order tripOutput_order e g h

theorem endPeriod_order (e : Env) (c : Fin 6) {p : Plant} (h : OutputsInOrder p) :
    Ordered e p (endPeriod e c p) := endPeriodWith_order tripOutput_order e c h

theorem abortTest_order (e : Env) (cause : AbortCause) {p : Plant} (h : OutputsInOrder p) :
    Ordered e p (abortTest e cause p) :=
  abortWith_order respread_order e cause p (fun _ _ => h.but _) fun _ => h

/-- An output row is rewritten in other items than its role and its rated load. -/
theorem OutputsInOrder.butRow {p : Plant} (h : OutputsInOrder p) (o : Fin 6) (f : OutputRow → OutputRow)
    (hr : (f p.ogd.outputs[o]).role = p.ogd.outputs[o].role)
    (hd : (f p.ogd.outputs[o]).rated = p.ogd.outputs[o].rated) : InOrderBut o (p.updOut o f) := by
  have same : ∀ {α : Type} (g : OutputRow → α), g (f p.ogd.outputs[o]) = g p.ogd.outputs[o] →
      ∀ j : Fin 6, g (p.updOut o f).ogd.outputs[j] = g p.ogd.outputs[j] := fun g hg j => by
    by_cases e : j = o
    · rw [e, updOut_row, hg]
    · rw [updOut_other _ _ _ _ e]
  have role := same OutputRow.role hr
  have rated := same OutputRow.rated hd
  refine ⟨fun j e hj => ?_, fun i j c hi hj => ?_, fun t ht hn => ?_, fun t c ht hc => ?_,
    fun j h1 h2 => ?_⟩
  · rw [updOut_other _ _ _ _ e] at hj
    have may := (drivable_iff p j).1 (h.driven j hj)
    refine (drivable_iff _ j).2 ?_
    rw [updOut_other _ _ _ _ e]
    exact may
  · exact h.single i j c (by rw [← role i]; exact hi) (by rw [← role j]; exact hj)
  · rw [role]
    exact h.spareTest t ht hn
  · rw [role]
    exact h.circuitTest t c ht hc
  · rw [rated j]
    rw [role j] at h1 h2
    exact h.rated j h1 h2

/-- An output row is rewritten in other items than its role, its filtered limit and its rated load; where
it is on after, it may be driven. -/
theorem OutputsInOrder.row {p : Plant} (h : OutputsInOrder p) (o : Fin 6) (f : OutputRow → OutputRow)
    (hr : (f p.ogd.outputs[o]).role = p.ogd.outputs[o].role)
    (hl : (f p.ogd.outputs[o]).limit.level = p.ogd.outputs[o].limit.level)
    (hd : (f p.ogd.outputs[o]).rated = p.ogd.outputs[o].rated)
    (he : (f p.ogd.outputs[o]).energized = true → drivable p o = true) :
    OutputsInOrder (p.updOut o f) := by
  refine (h.butRow o f hr hd).all fun k => ?_
  rw [updOut_row] at k
  have may := (drivable_iff p o).1 (he k)
  refine (drivable_iff _ o).2 ?_
  rw [updOut_row, hr, hl]
  exact may

theorem updOut_role (p : Plant) (o : Fin 6) (f : OutputRow → OutputRow) (h : ∀ r, (f r).role = r.role)
    (j : Fin 6) : (p.updOut o f).ogd.outputs[j].role = p.ogd.outputs[j].role := by
  by_cases e : j = o
  · rw [e, updOut_row, h]
  · rw [updOut_other _ _ _ _ e]

/-- An output that may be driven is switched on (R118). -/
theorem energize_order (e : Env) (o : Fin 6) {p : Plant} (h : OutputsInOrder p)
    (ho : drivable p o = true) : Ordered e p (energize e o p) := by
  have on : Ordered e p (p.updOut o fun r =>
      { r with energized := true, periodMs := 0, loadSum := 0, recent := [] }) :=
    .roles (h.row o (fun r => { r with energized := true, periodMs := 0, loadSum := 0, recent := [] }) rfl
      rfl rfl fun _ => ho) (updOut_role p o _ fun _ => rfl)
  have noted : Ordered e p (switchOn e o p) := on.trans (.alike on.order (notePeak_alike e o _))
  unfold energize
  dsimp only
  split
  · exact noted.trans (tripOutput_order _ _ _ _ noted.order)
  · exact noted

theorem starvedUpdate_ogd (p : Plant) : (starvedUpdate p).ogd = p.ogd := rfl

theorem starvedUpdate_quiet (p : Plant) : Quiet p (starvedUpdate p) :=
  (mapCct_quiet p (fun _ r => starvedRow r) fun _ _ => rfl).trans (Alike.raiseIf _ _ .starved).quiet

/-- A computation of the Allotment Unit (R49, R65). -/
theorem compute_order (e : Env) (round : Option RoundNo) (swap : Bool) (x : Computation) {p : Plant}
    (h : OutputsInOrder p) : Ordered e p (compute e round swap x p) := by
  have starve : ∀ {q : Plant}, OutputsInOrder q → Ordered e q (if swap then starvedUpdate q else q) :=
    fun hq => by
      split
      · exact .quiet hq (starvedUpdate_quiet _) fun c => by
          rw [starvedUpdate_ogd]
      · exact hq.ordered
  have all : ∀ (g : Vector Nat 6) (a : Alu),
      Ordered e p (if swap then starvedUpdate (handGrants e g { p with alu := a })
        else handGrants e g { p with alu := a }) := fun g a => by
    have table : Ordered e p { p with alu := a } := .quiet h (allot_quiet p a)
    have handed := table.trans (handGrants_order e g table.order)
    exact handed.trans (starve handed.order)
  unfold compute
  dsimp only
  split
  · exact all _ _
  · split
    · exact all _ _
    · exact (all _ _).trans (abortTest_order e .allotment (all _ _).order)

/-! ### The moves -/

/-- A circuit row changes to a state that is like the one before as far as R118 and R129 look at it. -/
theorem OutputsInOrder.calm {p : Plant} (h : OutputsInOrder p) (c : Fin 6)
    (f : CircuitRow → CircuitRow)
    (hs : p.cct[c].state.energizable = true → (f p.cct[c]).state.energizable = true)
    (ht : p.cct[c].state = .testing → (f p.cct[c]).state = .testing) :
    OutputsInOrder (p.updCct c f) :=
  h.circuit c f
    (fun o h1 h2 => by
      rcases ((drivable_iff p o).1 (h.driven o h2)).2 with ⟨d, hd, k⟩ | ⟨hd, _⟩
      · rw [h1] at hd
        cases hd
        exact k.imp hs ht
      · rw [hd] at h1
        cases h1)
    fun t h1 h2 => ht (h.circuitTest t c h1 h2).2

/-- The circuit that a test names is in TESTING. -/
theorem OutputsInOrder.notTested {p : Plant} (h : OutputsInOrder p) {c : Fin 6}
    (hc : p.cct[c].state ≠ .testing) : ∀ t, p.ogd.test = some t → t.circuit ≠ some c :=
  fun t ht k => hc (h.circuitTest t c ht k).2

/-- A limit opens on an output that may still be on (R116). -/
theorem limitOpened_order (e : Env) (o : Fin 6) {p : Plant} (h : InOrderBut o p)
    (hn : p.ogd.outputs[o].role.circuit = none → p.ogd.underTest o = false →
      p.ogd.outputs[o].energized = false) : Ordered e p (limitOpened e o p) := by
  have aborted : ∀ q : Plant, Quiet p q → q.ogd.underTest o = true →
      Ordered e q (abortTest e .limit q) := fun q k hu =>
    (abortWith_order respread_order e .limit q (fun t ht => by
      obtain ⟨u, h1, h2⟩ := underTest_test hu
      rw [ht] at h1
      cases h1
      rw [h2]
      exact h.quiet k) fun ht => by
        obtain ⟨u, h1, h2⟩ := underTest_test hu
        rw [ht] at h1
        cases h1)
  unfold limitOpened
  split
  · rename_i c hc
    have alike := Alike.raiseIf p (decide (p.cct[c].state ≠ .disabled)) .limitOpen
    dsimp only
    generalize p.raiseIf (decide (p.cct[c].state ≠ .disabled)) .limitOpen = q at alike ⊢
    have raised := alike.quiet
    split
    · rename_i hu
      exact (aborted q raised hu).after raised.role alike.trips
    · have off := (switchOff_facts o q).2.2.1
      have out : OutputsInOrder (switchOff o q) :=
        ((h.quiet raised).quiet (switchOff_quiet o q)).off off
      have role : (switchOff o q).ogd.outputs[o].role.circuit = some c := by
        rw [(switchOff_quiet o q).role o, raised.role o]
        exact hc
      have offed : Ordered e p (switchOff o q) :=
        .roles out (fun j => ((switchOff_quiet o q).role j).trans (raised.role j)) fun d => by
          rw [switchOff_trips]
          exact alike.trips d
      split
      · rename_i hs
        refine offed.trans (.roles ?_ fun _ => rfl)
        refine out.idle c _ (out.only role off) (out.notTested fun k => ?_)
        rw [k] at hs
        cases hs
      · exact offed
  · rename_i hc
    split
    · rename_i hu
      exact aborted p (.refl p) hu
    · rename_i hu
      exact (h.off (hn hc (by simpa using hu))).ordered

theorem limitChange_order (o : Fin 6) (isOpen : Bool) (e : Env) {p : Plant} (h : OutputsInOrder p) :
    Ordered e p (limitChange o isOpen e p) := by
  have same := updOut_role p o (fun r => { r with limit := filterTo isOpen r.limit }) fun _ => rfl
  have row := updOut_row p o fun r => { r with limit := filterTo isOpen r.limit }
  have but := h.butRow o (fun r => { r with limit := filterTo isOpen r.limit }) rfl rfl
  unfold limitChange isChange
  dsimp only
  split
  · rename_i hc
    have hc := of_decide_eq_true hc
    split
    · refine (limitOpened_order e o but fun h1 h2 => ?_).after same
      rw [row] at h1 ⊢
      by_contra k
      rcases ((drivable_iff p o).1 (h.driven o (by simpa using k))).2 with ⟨d, hd, _⟩ | ⟨_, hu⟩
      · rw [show p.ogd.outputs[o].role.circuit = none from h1] at hd
        cases hd
      · rw [show p.ogd.underTest o = false from h2] at hu
        cases hu
    · rename_i hopen
      have hopen : isOpen = false := by simpa using hopen
      subst hopen
      have off : p.ogd.outputs[o].energized = false := by
        by_contra k
        have k := ((drivable_iff p o).1 (h.driven o (by simpa using k))).1
        rw [hc] at k
        cases k
      have closed : OutputsInOrder (p.updOut o fun r => { r with limit := filterTo false r.limit }) :=
        but.off (by rw [row]; exact off)
      unfold limitClosed
      split
      · rename_i c _
        split
        · rename_i hs
          exact .roles (closed.settling e c (closed.notTested fun k => by rw [hs] at k; cases k)) same
        · exact .roles closed same
      · exact .roles closed same
  · rename_i hc
    refine .quiet h (updOut_quiet p o (fun r => { r with limit := filterTo isOpen r.limit }) rfl rfl ?_ rfl)
    unfold filterTo
    split
    · rename_i l hl
      rw [hl] at hc ⊢
      cases l <;> cases isOpen <;> first | rfl | exact absurd (by rfl) hc
    · rfl

/-- A circuit that is bound to no output. -/
theorem boundTo_none {p : Plant} {c : Fin 6} (h : p.ogd.boundTo c = none) : Unbound p c :=
  fun o k => by
    have n := List.find?_eq_none.1 h o (mem_sixIds o)
    exact n (decide_eq_true k)

/-- An evaluation moves a circuit within the states that R118 names (R75, R88). -/
theorem evaluate_order (e : Env) (c : Fin 6) {p : Plant} (h : OutputsInOrder p) :
    Ordered e p (evaluate e c p) := by
  have moved : OutputsInOrder (p.updCct c (evaluatedRow e p c)) := by
    refine h.calm c _ (fun k => ?_) fun k => ?_
    · show (movedState p.cct[c].state _ _).energizable = true
      revert k
      cases p.cct[c].state <;> intro k <;> try cases k
      all_goals
        unfold movedState
        dsimp only
        repeat' split
        all_goals rfl
    · show movedState p.cct[c].state _ _ = _
      rw [k]
      rfl
  exact (Ordered.roles (p := p) moved fun _ => rfl).trans
    (.alike moved ((Alike.raiseIf _ _ .belowPour).trans (Alike.raiseIf _ _ .sensorLost)))

theorem windowStart_order (e : Env) (c : Fin 6) {p : Plant} (h : OutputsInOrder p) :
    Ordered e p (windowStart e c p) := by
  have begun : Ordered e p (p.updCct c fun r => { r with toNext := some e.windowMs }) :=
    .roles (h.calm c (fun r => { r with toNext := some e.windowMs }) id id) fun _ => rfl
  unfold windowStart
  split
  · dsimp only
    split
    · have ended := begun.trans (endPeriod_order e c begun.order)
      have raised := ended.trans (.alike ended.order (windowRaises_alike c _))
      have judged := raised.trans (evaluate_order e c raised.order)
      generalize evaluate e c _ = q at judged ⊢
      unfold requestOutput
      split
      · rename_i o hb
        split
        · rename_i hk
          simp only [Bool.and_eq_true, decide_eq_true_eq] at hk
          exact judged.trans (energize_order e o judged.order ((drivable_iff q o).2
            ⟨hk.2, .inl ⟨c, boundTo_role hb, .inl hk.1.2⟩⟩))
        · exact judged
      · exact judged
    · exact begun
  · exact h.ordered

theorem holdOffExpiry_order (o : Fin 6) (e : Env) {p : Plant} (h : OutputsInOrder p) :
    Ordered e p (holdOffExpiry o e p) := by
  have ordered : Ordered e p (p.updOut o fun r => { r with holdOff := none }) :=
    .quiet h (updOut_quiet p o (fun r => { r with holdOff := none }) rfl rfl rfl rfl)
  unfold holdOffExpiry
  split
  · dsimp only
    generalize (p.updOut o fun r => { r with holdOff := none }) = q at ordered ⊢
    have stopped := ordered.order
    split
    · rename_i c hc
      split
      · rename_i hs
        have no := stopped.notTested (c := c) fun k => by rw [hs] at k; cases k
        split
        · rename_i hl
          refine ordered.trans (.roles (stopped.idle c _ (stopped.only hc ?_) no) fun _ => rfl)
          by_contra k
          have k := ((drivable_iff q o).1 (stopped.driven o (by simpa using k))).1
          rw [hl] at k
          cases k
        · exact ordered.trans (.roles (stopped.settling e c no) fun _ => rfl)
      · exact ordered
    · exact ordered
  · exact h.ordered

theorem settleExpiry_order (e : Env) (c : Fin 6) {p : Plant} (h : OutputsInOrder p) :
    Ordered e p (settleExpiry e c p) := by
  unfold settleExpiry
  split
  · exact h.ordered
  · have moved := (h.calm c (fun r => { r with
      settle := .stopped,
      state := if decide (p.cct[c].state = .settling) && (formTemperature e c).1.isNone then .sensorLost
        else r.state }) (fun k => by
          dsimp only
          split
          · rfl
          · exact k) fun k => by
            dsimp only
            rw [k]
            rfl)
    exact (Ordered.roles (p := p) moved fun _ => rfl).trans
      (.alike moved (Alike.raiseIf _ _ .sensorLost))

/-- The test duration expires (R130). -/
theorem finishTest_order (e : Env) {p : Plant} (h : OutputsInOrder p) :
    Ordered e p (finishTest e p) := by
  unfold finishTest
  split
  · exact h.ordered
  · rename_i t ht
    have off := (switchOff_facts t.output p).2.2.1
    have offTest : (switchOff t.output p).ogd.test = some t := by
      unfold switchOff
      split <;> exact ht
    have ended : OutputsInOrder (endTest .done (switchOff t.output p)) :=
      ((h.quiet (switchOff_quiet _ _)).untested fun u hu => by
        rw [offTest] at hu
        cases hu
        exact off).ended _
    have gone := endTest_none .done (switchOff t.output p)
    have ordered : Ordered e p (endTest .done (switchOff t.output p)) :=
      .roles ended (fun o => (endTest_role _ _ o).trans ((switchOff_quiet _ _).role o)) fun c => by
        rw [endTest_trips, switchOff_trips]
    dsimp only
    generalize endTest .done (switchOff t.output p) = q at ended gone ordered ⊢
    have moved : Ordered e p (match t.circuit with
        | some c => if q.cct[c].state = .testing then enterSettling e c q else q
        | none => q) := by
      split
      · rename_i c _
        split
        · exact ordered.trans
            (.roles (ended.settling e c fun u hu => by rw [gone] at hu; cases hu) fun _ => rfl)
        · exact ordered
      · exact ordered
    exact moved.trans (respread_order e _ moved.order)

/-- A test record is written where none was (R129). -/
theorem OutputsInOrder.tested {p : Plant} (h : OutputsInOrder p) (t : TestRecord)
    (h0 : p.ogd.test = none) (hs : t.circuit = none → p.ogd.outputs[t.output].role = .spareFree)
    (hc : ∀ c, t.circuit = some c →
      p.ogd.outputs[t.output].role.circuit = some c ∧ p.cct[c].state = .testing) :
    OutputsInOrder (p.setTest (some t)) :=
  { h with
    driven := fun o he => by
      have k := (drivable_iff p o).1 (h.driven o he)
      refine (drivable_iff _ o).2 ⟨k.1, k.2.imp id ?_⟩
      rintro ⟨_, hu⟩
      unfold Ogd.underTest at hu
      rw [h0] at hu
      cases hu
    spareTest := fun u hu => by
      cases hu
      exact hs
    circuitTest := fun u c hu => by
      cases hu
      exact hc c }

theorem startTest_order (e : Env) (o : Fin 6) (seconds : Nat) {p : Plant} (h : OutputsInOrder p)
    (ha : judgeTest e p o = .accepted) : Ordered e p (startTest e o seconds p) := by
  obtain ⟨_, h0, hl, hrole, _⟩ := judgeTest_accepted ha
  obtain ⟨q, hq, load, g, hs, _⟩ := startTest_shape e o seconds p
  have begun : OutputsInOrder q ∧ q.ogd.outputs[o].limit.level = some false ∧
      (∀ j : Fin 6, q.ogd.outputs[j].role = p.ogd.outputs[j].role) ∧ q.ogd.trips = p.ogd.trips := by
    rw [hq]
    split
    · rename_i c hc
      have off := (switchOff_facts o p).2.2.1
      have quiet := switchOff_quiet o p
      have out := h.quiet quiet
      have role : (switchOff o p).ogd.outputs[o].role.circuit = some c := by rw [quiet.role o]; exact hc
      have gone : (switchOff o p).ogd.test = none := by
        unfold switchOff
        split <;> exact h0
      have testing := out.idle c (idleRow .testing) (out.only role off) fun t ht => by
        rw [gone] at ht
        cases ht
      have commute : ∀ t, switchOff o (p.setTest t) = (switchOff o p).setTest t := fun t => by
        unfold switchOff
        split <;> rename_i k
        · rw [if_pos (by exact k)]
          rfl
        · rw [if_neg (by exact k)]
      rw [commute, hc]
      refine ⟨testing.tested ⟨o, some c, seconds, e.now, 0, 0, 0⟩ gone nofun fun d hd => ?_,
        (quiet.limit o).trans hl, quiet.role, switchOff_trips o p⟩
      cases hd
      exact ⟨role, congrArg CircuitRow.state (updCct_row _ c _)⟩
    · rename_i hc
      refine ⟨h.tested ⟨o, _, seconds, e.now, 0, 0, 0⟩ h0 (fun _ => ?_) fun c k => ?_, hl, fun _ => rfl, rfl⟩
      · exact hrole.resolve_right fun ⟨c, k⟩ => by rw [hc] at k; cases k
      · rw [show p.ogd.outputs[o].role.circuit = some c from k] at hc
        cases hc
  obtain ⟨order, limit, roles, trips⟩ := begun
  have dealt := order.quiet (allot_quiet q { q.alu with deduction := some (o, load) })
  have handed : Ordered e p (handGrants e g { q with alu := { q.alu with deduction := some (o, load) } }) :=
    (handGrants_order e g dealt).after roles fun c => by
      rw [show ({ q with alu := { q.alu with deduction := some (o, load) } } : Plant).ogd.trips =
        p.ogd.trips from trips]
  have closed : (handGrants e g { q with alu := { q.alu with deduction := some (o, load) } }).ogd.outputs[
      o].limit.level = some false :=
    (congrArg Filter.level ((handGrants_reach e g _).limit o)).trans limit
  rw [hs]
  generalize handGrants e g { q with alu := { q.alu with deduction := some (o, load) } } = u at handed closed ⊢
  split
  · rename_i hu
    refine handed.trans (energize_order e o handed.order ((drivable_iff u o).2 ⟨closed, ?_⟩))
    obtain ⟨t, h1, h2⟩ := underTest_test hu
    subst h2
    cases hc : t.circuit with
    | none => exact .inr ⟨handed.order.spareTest t h1 hc, hu⟩
    | some c =>
      obtain ⟨k1, k2⟩ := handed.order.circuitTest t c h1 hc
      exact .inl ⟨c, k1, .inr k2⟩
  · exact handed

/-- Every move of the plant keeps the outputs in order. -/
theorem plantMove_order {e : Env} {p q : Plant} (m : PlantMove e p q) (h : OutputsInOrder p) :
    Ordered e p q := by
  cases m with
  | windowStart c => exact windowStart_order e c h
  | endPeriod c => exact endPeriod_order e c h
  | settleExpiry c => exact settleExpiry_order e c h
  | limitChange o b => exact limitChange_order o b e h
  | trip o k => exact tripOutput_order e o k p h
  | holdOffExpiry o => exact holdOffExpiry_order o e h
  | startTest o n ha => exact startTest_order e o n h ha
  | finishTest => exact finishTest_order e h
  | compute round swap x _ => exact compute_order e round swap x h

/-! ### Stations that do not follow rounds -/

/-- No output is on, and no test is in progress. -/
def AllOff (p : Plant) : Prop :=
  (∀ o : Fin 6, p.ogd.outputs[o].energized = false) ∧ p.ogd.test = none

theorem AllOff.reach {p q : Plant} (h : AllOff p) (r : Reach p q) : AllOff q := by
  refine ⟨fun o => ?_, r.test.elim (fun e => e.trans h.2) id⟩
  by_contra k
  have k := r.off o (by simpa using k)
  rw [h.1 o] at k
  cases k

theorem AllOff.alike {p q : Plant} (h : AllOff p) (a : Alike p q) : AllOff q := by
  refine ⟨fun o => (a.energized o).trans (h.1 o), ?_⟩
  have k := a.test
  rw [h.2] at k
  simpa using k

theorem limitOpened_reach (e : Env) (o : Fin 6) (p : Plant) : Reach p (limitOpened e o p) := by
  unfold limitOpened
  split
  · rename_i c _
    have raised := Reach.raiseFactorIf p (decide (p.cct[c].state ≠ .disabled)) .limitOpen
    dsimp only
    split
    · exact raised.trans (abortTest_reach _ _ _)
    · split
      · exact (raised.trans (switchOff_reach _ _)).trans (Reach.updCct _ c _ rfl)
      · exact raised.trans (switchOff_reach _ _)
  · split
    · exact abortTest_reach _ _ _
    · exact Reach.refl p

theorem limitClosed_reach (e : Env) (o : Fin 6) (p : Plant) : Reach p (limitClosed e o p) := by
  unfold limitClosed
  split
  · split
    · exact enterSettling_reach e _ p
    · exact Reach.refl p
  · exact Reach.refl p

theorem holdOffExpiry_reach (o : Fin 6) (e : Env) (p : Plant) : Reach p (holdOffExpiry o e p) := by
  unfold holdOffExpiry
  split
  · refine (Reach.updOut p o (fun r => { r with holdOff := none }) (fun h => h) (fun h => h) rfl rfl
      rfl).trans ?_
    dsimp only
    split
    · split
      · split
        · exact Reach.updCct _ _ _ rfl
        · exact enterSettling_reach e _ _
      · exact Reach.refl _
    · exact Reach.refl _
  · exact Reach.refl p

/-- A computation stays off where nothing was on. -/
theorem AllOff.compute {p : Plant} (h : AllOff p) (e : Env) (round : Option RoundNo) (swap : Bool)
    (x : Computation) : AllOff (compute e round swap x p) :=
  AllOff.reach (p := { p with alu := allotTable e round x }) h (compute_reach e round swap x p)

/-- A move of the plant of a station that does not follow rounds puts no output on. -/
theorem plantMove_off {e : Env} {p q : Plant} (m : PlantMove e p q) (hf : e.membership.follows = false)
    (h : AllOff p) : AllOff q := by
  cases m with
  | windowStart c =>
    have begun : AllOff (p.updCct c fun r => { r with toNext := some e.windowMs }) := h
    unfold windowStart
    split
    · dsimp only
      split
      · have judged := begun.reach
          (((endPeriod_reach e c _).trans (windowRaises_reach c _)).trans (evaluate_reach e c _))
        unfold requestOutput
        split
        · rw [hf]
          simpa using judged
        · exact judged
      · exact begun
    · exact h
  | endPeriod c => exact h.reach (endPeriod_reach e c p)
  | settleExpiry c => exact h.reach (settleExpiry_reach e c p)
  | limitChange o b =>
    have set : AllOff (p.updOut o fun r => { r with limit := filterTo b r.limit }) := by
      refine ⟨fun j => ?_, h.2⟩
      by_cases k : j = o
      · rw [k, updOut_row]
        exact h.1 o
      · rw [updOut_other _ _ _ _ k]
        exact h.1 j
    unfold limitChange
    dsimp only
    split
    · split
      · exact set.reach (limitOpened_reach e o _)
      · exact set.reach (limitClosed_reach e o _)
    · exact set
  | trip o k => exact h.reach (tripOutput_reach e o k p)
  | holdOffExpiry o => exact h.reach (holdOffExpiry_reach o e p)
  | startTest o n ha =>
    have k := (judgeTest_accepted ha).1
    revert hf k
    cases e.membership <;> simp [Membership.bids, Membership.follows]
  | finishTest => exact h.reach (finishTest_reach e p)
  | compute round swap x _ => exact h.compute e round swap x

theorem disableCircuit_test (c : Fin 6) (p : Plant) :
    (disableCircuit c p).ogd.test = p.ogd.test := by
  unfold disableCircuit
  show Ogd.test (Plant.ogd (match p.ogd.boundTo c with
    | some o => (switchOff o p).updOut o fun r => { r with holdOff := none }
    | none => p)) = _
  split
  · rename_i o _
    show (switchOff o p).ogd.test = _
    unfold switchOff
    split <;> rfl
  · rfl

theorem disableAll_test (p : Plant) : (disableAll p).ogd.test = p.ogd.test := by
  have fold : ∀ (l : List (Fin 6)) (p : Plant),
      (l.foldl (fun q c => disableCircuit c q) p).ogd.test = p.ogd.test := by
    intro l
    induction l with
    | nil => exact fun _ => rfl
    | cons c l ih => exact fun p => (ih _).trans (disableCircuit_test c p)
  exact fold sixIds p

/-- The entry of every circuit to DISABLED puts no output on and keeps the rated loads. -/
theorem disableAll_still (p : Plant) :
    (∀ o : Fin 6, (disableAll p).ogd.outputs[o].energized = true → p.ogd.outputs[o].energized = true) ∧
      ∀ o : Fin 6, (disableAll p).ogd.outputs[o].rated = p.ogd.outputs[o].rated := by
  have r := foldl_reach (fun q c => disableCircuit c q) (fun q c => disableCircuit_reach c q) sixIds p
  unfold disableAll stopWindows
  generalize sixIds.foldl (fun q c => disableCircuit c q) p = q at r ⊢
  exact ⟨r.off, r.rated⟩

/-- The entry to RETIRED leaves no output on and no test in progress (R22, R72, R131). -/
theorem retire_off (e : Env) {p : Plant} (h : OutputsInOrder p) :
    AllOff (compute e none false .noAllot (disableAll p)) := by
  obtain ⟨disabled, off, _, _⟩ := disableAll_facts p
  obtain ⟨still, rated⟩ := disableAll_still p
  have test := disableAll_test p
  -- what is on after every circuit's entry to DISABLED is the free spare under test
  have spare : ∀ o : Fin 6, (disableAll p).ogd.outputs[o].energized = true →
      p.ogd.underTest o = true := fun o k => by
    rcases ((drivable_iff p o).1 (h.driven o (still o k))).2 with ⟨c, hc, _⟩ | ⟨_, hu⟩
    · cases hb : p.ogd.boundTo c with
      | none => exact absurd hc (boundTo_none hb o)
      | some j =>
        rw [← h.single j o c (boundTo_role hb) hc, off c j hb] at k
        cases k
    · exact hu
  generalize disableAll p = d at disabled off still rated test spare ⊢
  have reach := compute_reach e none false .noAllot d
  have handed : ∀ g : Vector Nat 6,
      (handGrants e g { d with alu := allotTable e none .noAllot }).ogd = d.ogd := fun g => by
    unfold handGrants
    rw [(handGrantsWith_disabled tripOutput e g { d with alu := allotTable e none .noAllot } disabled).1]
  cases ht : p.ogd.test with
  | none =>
    refine AllOff.reach (p := { d with alu := allotTable e none .noAllot }) ⟨fun o => ?_, test.trans ht⟩
      reach
    by_contra k
    obtain ⟨t, h1, _⟩ := underTest_test (spare o (by simpa using k))
    rw [ht] at h1
    cases h1
  | some t =>
    rw [ht] at test
    have load : 0 < d.ogd.outputs[t.output].rated := by
      rw [rated]
      cases hc : t.circuit with
      | none => exact h.rated _ (by rw [h.spareTest t ht hc]; nofun) (by rw [h.spareTest t ht hc]; nofun)
      | some c =>
        have k := (h.circuitTest t c ht hc).1
        exact h.rated _ (fun k2 => by rw [k2] at k; cases k) fun k2 => by rw [k2] at k; cases k
    have shape : compute e none false .noAllot d = abortTest e .allotment
        (handGrants e (grantsByKind e { d with alu := allotTable e none .noAllot })
          { d with alu := allotTable e none .noAllot }) := by
      unfold compute
      dsimp only
      rw [test]
      exact if_neg (Nat.not_le.2 load)
    rw [shape]
    have ogd := handed (grantsByKind e { d with alu := allotTable e none .noAllot })
    generalize handGrants e (grantsByKind e { d with alu := allotTable e none .noAllot })
      { d with alu := allotTable e none .noAllot } = q at ogd ⊢
    refine ⟨fun o => ?_, abortWith_none respread_reach e .allotment q⟩
    have ended : Reach (switchOff t.output q) (abortTest e .allotment q) :=
      abortWith_reach_off respread_reach e .allotment q (by rw [ogd]; exact test)
    by_contra k
    have k := ended.off o (by simpa using k)
    have on := (switchOff_reach t.output q).off o k
    rw [ogd] at on
    obtain ⟨u, h1, h2⟩ := underTest_test (spare o on)
    rw [ht] at h1
    cases h1
    subst h2
    rw [(switchOff_facts t.output q).2.2.1] at k
    cases k

/-! ### The entry to LISTEN (R114, R191) -/

theorem loadSpare_order (e : Env) (c : Fin 6) {p : Plant} (h : OutputsInOrder p)
    (h0 : p.ogd.test = none) : OutputsInOrder (loadSpare e c p) := by
  unfold loadSpare
  split
  · rename_i hc
    rw [Bool.and_eq_true] at hc
    split
    · rename_i q hq
      exact (h.bound (boundTo_none (Option.isNone_iff_eq_none.1 hc.2)) (lowestSpare_role hq)
        (by unfold Ogd.underTest; rw [h0])).1
    · exact h.quiet ((Alike.raise _ .circuitFailed).trans (Alike.raise _ .spareExhausted)).quiet
  · exact h

theorem leaveDisabled_order (e : Env) (c : Fin 6) {p : Plant} (h : OutputsInOrder p)
    (h0 : p.ogd.test = none) : OutputsInOrder (leaveDisabled e c p) := by
  have no : ∀ t, p.ogd.test = some t → t.circuit ≠ some c := fun t ht => by rw [h0] at ht; cases ht
  unfold leaveDisabled
  split
  · split
    · rename_i o hb
      exact (settleBound_order h e (boundTo_role hb) no).order
    · rename_i hb
      exact h.idle c _ (fun o k => absurd k (boundTo_none hb o)) no
  · exact h

/-- A fold of steps that keep the outputs in order while no test is in progress. -/
theorem foldl_untested (f : Plant → Fin 6 → Plant) (hr : ∀ p c, Reach p (f p c))
    (hf : ∀ p c, OutputsInOrder p → p.ogd.test = none → OutputsInOrder (f p c)) (l : List (Fin 6))
    {p : Plant} (h : OutputsInOrder p) (h0 : p.ogd.test = none) :
    OutputsInOrder (l.foldl f p) ∧ (l.foldl f p).ogd.test = none := by
  induction l generalizing p with
  | nil => exact ⟨h, h0⟩
  | cons c l ih => exact ih (hf p c h h0) ((hr p c).test.elim (fun e => e.trans h0) id)

/-- The load of the roles of a GOOD image, with every output off (R114). -/
theorem loadRoles_order (e : Env) {p : Plant} (h : AllOff p) (hi : localOk e.img = true) :
    OutputsInOrder (loadRoles e p) ∧ (loadRoles e p).ogd.test = none := by
  unfold loadRoles
  dsimp only
  refine foldl_untested _ (fun p c => loadSpare_reach e c p) (fun p c => loadSpare_order e c) _ ?_ h.2
  have row : ∀ o : Fin 6, (mapRows p.ogd.outputs (loadedRow e))[o] = loadedRow e o p.ogd.outputs[o] :=
    fun o => mapRows_get _ _ _
  have role : ∀ o c : Fin 6, (loadedRow e o p.ogd.outputs[o]).role.circuit = some c →
      primaryOf e.img c = some o := fun o c k => by
    unfold loadedRow imageRole at k
    dsimp only at k
    split at k
    · cases k
    · split at k
      · split at k
        · rename_i d hd
          cases k
          have := List.find?_some hd
          simp only [Bool.and_eq_true, decide_eq_true_eq] at this
          exact this.2
        · cases k
      · split at k <;> cases k
  have rated : ∀ o : Fin 6, 0 < e.img.outputs[o].2 := fun o => by
    unfold localOk at hi
    simp only [Bool.and_eq_true] at hi
    have := List.all_eq_true.1 hi.1.1.1.1.1.1.1.1.1.1.1.1.1.1.1 o (mem_sixIds o)
    unfold outputOk inRange at this
    simp only [Bool.and_eq_true, decide_eq_true_eq] at this
    omega
  refine ⟨fun o he => ?_, fun o j c ho hj => ?_, fun t ht => ?_, fun t c ht => ?_, fun o _ _ => ?_⟩
  · have k : (mapRows p.ogd.outputs (loadedRow e))[o].energized = true := he
    rw [row o] at k
    have k : p.ogd.outputs[o].energized = true := k
    rw [h.1 o] at k
    cases k
  · have ho : (mapRows p.ogd.outputs (loadedRow e))[o].role.circuit = some c := ho
    have hj : (mapRows p.ogd.outputs (loadedRow e))[j].role.circuit = some c := hj
    rw [row o] at ho
    rw [row j] at hj
    have k := role o c ho
    rw [role j c hj] at k
    cases k
    rfl
  · have k := h.2
    rw [show p.ogd.test = some t from ht] at k
    cases k
  · have k := h.2
    rw [show p.ogd.test = some t from ht] at k
    cases k
  · show 0 < (mapRows p.ogd.outputs (loadedRow e))[o].rated
    rw [row o]
    exact rated o

/-- The trip counts of a load of the roles from records without a trip (R114). -/
theorem loadRoles_counted (e : Env) {p : Plant} (h : ∀ c : Fin 6, p.ogd.trips[c].count = 0)
    (hl : 0 < e.img.tripLimit) : Counted e.img.tripLimit (loadRoles e p) := by
  have fold : ∀ (l : List (Fin 6)) {q : Plant}, Counted e.img.tripLimit q →
      Counted e.img.tripLimit (l.foldl (fun q c => loadSpare e c q) q) := by
    intro l
    induction l with
    | nil => exact fun k => k
    | cons c l ih =>
      refine fun {q} k => ih ?_
      unfold loadSpare
      dsimp only
      split
      · split
        · exact k.bindSpare hl c _
        · exact ⟨k.within, k.bound⟩
      · exact k
  refine fold sixIds ⟨fun c => ?_, fun o c _ _ => ?_⟩
  · exact (Nat.le_of_eq (h c)).trans (Nat.zero_le _)
  · exact (Nat.le_of_eq (h c)).trans_lt hl

/-- The entry to LISTEN with every output off leaves the outputs in order, and from trip records without a
trip it leaves the trip counts within the limit. -/
theorem enterListen_order (s : State) (h : AllOff s.plant) (hi : localOk s.img = true) :
    OutputsInOrder (enterListen s).plant ∧ (0 < s.img.tripLimit →
      (∀ c : Fin 6, s.plant.ogd.trips[c].count = 0) → Counted s.img.tripLimit (enterListen s).plant) := by
  obtain ⟨e0, e1, e2, h0, h2, hp⟩ : ∃ e0 e1 e2 : Env, e0.img = s.img ∧ e2.img = s.img ∧
      (enterListen s).plant = compute e2 none false .capped (circuitsIntoService e1
        (loadRoles e0 { s.plant with fct := s.plant.fct.setMask s.img.mask })) :=
    ⟨_, _, _, rfl, rfl, rfl⟩
  obtain ⟨k1, k2⟩ := loadRoles_order e0
    (p := { s.plant with fct := s.plant.fct.setMask s.img.mask }) h (by rw [h0]; exact hi)
  have service : OutputsInOrder (circuitsIntoService e1
      (loadRoles e0 { s.plant with fct := s.plant.fct.setMask s.img.mask })) := by
    unfold circuitsIntoService startWindows
    exact (foldl_untested _ (fun p c => leaveDisabled_reach e1 c p) (fun p c => leaveDisabled_order e1 c) _
      k1 k2).1.quiet (mapCct_quiet _ _ fun _ _ => rfl)
  have loaded := loadRoles_counted e0 (p := { s.plant with fct := s.plant.fct.setMask s.img.mask })
  have computed := compute_order e2 none false .capped service
  have counted := computed.counted
  rw [h2] at counted
  rw [h0] at loaded
  rw [hp]
  refine ⟨computed.order, fun hl hc => counted ?_⟩
  exact ⟨fun c => by rw [(circuitsIntoService_idle e1 _).1]; exact (loaded hc hl).within c, fun o c k n => by
    rw [(circuitsIntoService_idle e1 _).1] at k ⊢
    exact (loaded hc hl).bound o c k n⟩

/-! ### The moves of a station -/

/-- The outputs of a station that follows rounds are in order and its image has been read; any other has no
output on and no test. -/
structure OutputsKept (s : State) : Prop where
  following : s.rct.membership.follows = true → s.sul.progress = .done ∧ OutputsInOrder s.plant
  other : s.rct.membership.follows = false → AllOff s.plant

theorem OutputsKept.idle {s : State} (h : OutputsKept s) (hp : s.sul.progress ≠ .done) :
    AllOff s.plant :=
  h.other (by
    by_contra k
    exact hp (h.following (by simpa using k)).1)

/-- A station with no output on and no test that does not follow rounds. -/
theorem OutputsKept.still {s : State} (hf : s.rct.membership.follows = false) (h : AllOff s.plant) :
    OutputsKept s :=
  ⟨fun k => absurd k (by simp [hf]), fun _ => h⟩

theorem restartTaken_off (s : State) : AllOff (restartTaken s).plant := by
  refine ⟨fun o => ?_, rfl⟩
  show (mapRows (allOff s.plant).ogd.outputs fun _ r => restartRow r)[o].energized = false
  rw [mapRows_get]
  rfl

/-- Every move of the station keeps the outputs so. -/
theorem move_outputs {s t : State} (m : Move s t) (h : OutputsKept s) : OutputsKept t := by
  cases m with
  | alike hp hc =>
    refine ⟨fun k => ?_, fun k => (h.other (by rw [← hc.follows]; exact k)).alike hp⟩
    obtain ⟨h1, h2⟩ := h.following (by rw [← hc.follows]; exact k)
    exact ⟨by rw [hc.read h1]; exact h1, h2.quiet hp.quiet⟩
  | plant k =>
    exact ⟨fun f => ⟨(h.following f).1, (plantMove_order k (h.following f).2).order⟩,
      fun f => plantMove_off k f (h.other f)⟩
  | listen u hr hi hp =>
    have good : localOk ({ s with sul := u } : State).img = true := by
      unfold imagePasses at hi
      simp only [Bool.and_eq_true] at hi
      exact hi.1.2
    exact ⟨fun _ => ⟨rfl, (enterListen_order { s with sul := u } (h.idle hp) good).1⟩, fun k => by cases k⟩
  | blocked u hr hp =>
    obtain ⟨e, _, _, _, _, h1⟩ := enterBlocked_computes { s with sul := u }
    refine .still rfl ?_
    rw [h1]
    exact ((h.idle hp).alike (Alike.raise s.plant .configBad)).compute _ _ _ _
  | retired hf =>
    obtain ⟨e, w, h1, h2, _, _, h3⟩ := enterRetired_computes s
    have order : OutputsInOrder w.plant := by
      rw [h2]
      exact (h.following hf).2.quiet (Alike.raise s.plant .retired).quiet
    have off := retire_off e order
    rw [h1]
    generalize compute e none false .noAllot (disableAll w.plant) = p at off ⊢
    exact .still (congrArg Membership.follows h3) off
  | restart => exact .still rfl (restartTaken_off s)

end Sys2Proof.Machine
end

