-- ==== Sys2Proof/Laws/Budget.lean ====
section
/-! SUPPORT. Where the division in the allotment table comes from (R49, R67), and what stays of it. -/

namespace Sys2Proof.Machine

/-- An energized output leaves the allotment table but for its deduction. -/
theorem energize_allotment (e : Env) (o : Fin 6) (p : Plant) :
    (energize e o p).alu.division = p.alu.division := by
  have on : (switchOn e o p).alu.division = p.alu.division := (notePeak_alike e o _).division
  unfold energize
  dsimp only
  split
  · exact (tripOutput_reach e o .leakage _).allotment.2.trans on
  · exact on

/-- After a move of the plant the division is the one before, or none, or one that a COMPLETE computation of
a station that follows rounds has written. -/
theorem plantMove_division {e : Env} {p q : Plant} (m : PlantMove e p q) {d : Division}
    (h : q.alu.division = some d) :
    p.alu.division = some d ∨ e.membership.follows = true ∧ ∃ l, d = divide e l := by
  have same : ∀ {u : Plant}, q.alu.division = u.alu.division → u.alu.division = some d :=
    fun k => k.symm.trans h
  cases m with
  | windowStart c =>
    refine .inl (same ?_)
    unfold windowStart
    split
    · dsimp only
      split
      · have judged := (((endPeriod_reach e c (p.updCct c fun r => { r with toNext := some e.windowMs })).trans
          (windowRaises_reach c _)).trans (evaluate_reach e c _)).allotment.2
        unfold requestOutput
        split
        · split
          · exact (energize_allotment e _ _).trans judged
          · exact judged
        · exact judged
      · rfl
    · rfl
  | endPeriod c => exact .inl (same (endPeriod_reach e c p).allotment.2)
  | settleExpiry c => exact .inl (same (settleExpiry_reach e c p).allotment.2)
  | limitChange o b =>
    refine .inl (same ?_)
    unfold limitChange
    dsimp only
    split
    · split
      · exact (limitOpened_reach e o _).allotment.2
      · exact (limitClosed_reach e o _).allotment.2
    · rfl
  | trip o k => exact .inl (same (tripOutput_reach e o k p).allotment.2)
  | holdOffExpiry o => exact .inl (same (holdOffExpiry_reach o e p).allotment.2)
  | startTest o n _ =>
    refine .inl (same ?_)
    obtain ⟨u, hu, load, g, hs, _⟩ := startTest_shape e o n p
    have begun : u.alu.division = p.alu.division := by
      rw [hu]
      split
      · exact congrArg Alu.division (switchOff_facts o _).2.2.2.2
      · rfl
    have handed := (handGrants_reach e g
      { u with alu := { u.alu with deduction := some (o, load) } }).allotment.2.trans begun
    rw [hs]
    split
    · exact (energize_allotment e o _).trans handed
    · exact handed
  | finishTest => exact .inl (same (finishTest_reach e p).allotment.2)
  | compute round swap x hf =>
    have k : (allotTable e round x).division = some d :=
      ((compute_reach e round swap x p).allotment.2.symm.trans h)
    cases x with
    | complete l =>
      cases k
      exact .inr ⟨hf l rfl, l, rfl⟩
    | degraded u => cases k
    | capped => cases k
    | noAllot => cases k

/-- The image of a station that follows rounds has been read and its shared section is good; a division in
the allotment table stands under a read image and satisfies `D` of it. -/
structure DivisionKept (D : Image → Division → Prop) (s : State) : Prop where
  image : s.rct.membership.follows = true → s.sul.progress = .done ∧ sharedOk s.img = true
  division : ∀ d, s.plant.alu.division = some d → s.sul.progress = .done ∧ D s.img d

/-- Every move of the station keeps what every division under a good shared section satisfies. -/
theorem move_division {D : Image → Division → Prop}
    (hD : ∀ (e : Env) (l : Ledger), sharedOk e.img = true → D e.img (divide e l)) {s t : State}
    (m : Move s t) (h : DivisionKept D s) : DivisionKept D t := by
  have none : ∀ (e : Env) (x : Computation) (p : Plant), (∀ l, x ≠ .complete l) →
      (compute e none false x p).alu.division = none := fun e x p hx => by
    rw [(compute_reach e none false x p).allotment.2]
    cases x with
    | complete l => exact absurd rfl (hx l)
    | degraded u => rfl
    | capped => rfl
    | noAllot => rfl
  cases m with
  | alike hp hc =>
    have img : s.sul.progress = .done → t.sul.progress = .done ∧ t.img = s.img := fun k => by
      unfold State.img
      rw [hc.read k]
      exact ⟨k, rfl⟩
    refine ⟨fun k => ?_, fun d k => ?_⟩
    · obtain ⟨h1, h2⟩ := h.image (by rw [← hc.follows]; exact k)
      rw [(img h1).2]
      exact ⟨(img h1).1, h2⟩
    · obtain ⟨h1, h2⟩ := h.division d (by rw [← hp.division]; exact k)
      rw [(img h1).2]
      exact ⟨(img h1).1, h2⟩
  | plant k =>
    refine ⟨h.image, fun d hd => ?_⟩
    rcases plantMove_division k hd with h1 | ⟨hf, l, rfl⟩
    · exact h.division d h1
    · exact ⟨(h.image hf).1, hD s.env l (h.image hf).2⟩
  | listen u hr hi hp =>
    obtain ⟨e, p, _, _, _, _, h3, _⟩ := enterListen_computes { s with sul := u }
    refine ⟨fun _ => ⟨rfl, ?_⟩, fun d k => ?_⟩
    · unfold imagePasses sharedPasses at hi
      simp only [Bool.and_eq_true] at hi
      exact hi.1.1.2
    · rw [h3, none _ _ _ fun _ x => by cases x] at k
      cases k
  | blocked u hr hp =>
    obtain ⟨e, _, _, _, _, h3⟩ := enterBlocked_computes { s with sul := u }
    refine ⟨fun k => (by cases k), fun d k => ?_⟩
    rw [h3, none _ _ _ fun _ x => by cases x] at k
    cases k
  | retired hf =>
    obtain ⟨e, w, h1, _, _, _, h3⟩ := enterRetired_computes s
    have gone := none e .noAllot (disableAll w.plant) fun _ x => by cases x
    rw [h1]
    generalize compute e Option.none false .noAllot (disableAll w.plant) = p at gone ⊢
    refine ⟨fun k => ?_, fun d k => ?_⟩
    · have k : w.rct.membership.follows = true := k
      rw [h3] at k
      cases k
    · rw [show p.alu.division = some d from k] at gone
      cases gone
  | restart => exact ⟨fun k => (by cases k), fun d k => (by cases k)⟩

end Sys2Proof.Machine
end

