-- ==== Sys2Proof/Laws/Division.lean ====
section
/-! SUPPORT. The order and the parts of a division and of a spread (R55, R56, R59): ordering puts a list in
order and commutes with a choice of its elements; each element of a spread takes the lesser of what it asks
for and what those before it leave. -/

namespace Sys2Proof.Machine

/-! ### Ordering -/

/-- What ordering asks of a comparison: it is one of keys that are in line. -/
structure InLine {α : Type} (lt : α → α → Bool) : Prop where
  trans : ∀ {x y z}, lt y x = false → lt z y = false → lt z x = false
  asymm : ∀ {x y}, lt y x = true → lt x y = false

theorem mem_insertBy {α : Type} (lt : α → α → Bool) (x y : α) (l : List α) :
    y ∈ insertBy lt x l ↔ y = x ∨ y ∈ l := by
  rw [(insertBy_perm lt x l).mem_iff, List.mem_cons]

theorem mem_sortBy {α : Type} (lt : α → α → Bool) (y : α) (l : List α) : y ∈ sortBy lt l ↔ y ∈ l :=
  (sortBy_perm lt l).mem_iff

theorem insertBy_sorted {α : Type} {lt : α → α → Bool} (h : InLine lt) (x : α) (l : List α)
    (hl : l.Pairwise fun a b => lt b a = false) :
    (insertBy lt x l).Pairwise fun a b => lt b a = false := by
  induction l with
  | nil => exact List.pairwise_singleton _ _
  | cons y l ih =>
    rw [List.pairwise_cons] at hl
    unfold insertBy
    split
    · rename_i hyx
      refine List.pairwise_cons.2 ⟨fun z hz => ?_, ih hl.2⟩
      rcases (mem_insertBy lt x z l).1 hz with rfl | hz
      · exact h.asymm hyx
      · exact hl.1 z hz
    · rename_i hyx
      have hyx : lt y x = false := by simpa using hyx
      refine List.pairwise_cons.2 ⟨fun z hz => ?_, List.pairwise_cons.2 hl⟩
      rcases List.mem_cons.1 hz with rfl | hz
      · exact hyx
      · exact h.trans hyx (hl.1 z hz)

/-- An ordered list is in order. -/
theorem sortBy_sorted {α : Type} {lt : α → α → Bool} (h : InLine lt) (l : List α) :
    (sortBy lt l).Pairwise fun a b => lt b a = false := by
  induction l with
  | nil => exact List.Pairwise.nil
  | cons x l ih => exact insertBy_sorted h x _ ih

/-- An element goes before a list of elements that come no earlier. -/
theorem insertBy_first {α : Type} (lt : α → α → Bool) (x : α) (l : List α)
    (h : ∀ y ∈ l, lt y x = false) : insertBy lt x l = x :: l := by
  cases l with
  | nil => rfl
  | cons y l =>
    unfold insertBy
    rw [h y (by simp)]
    rfl

/-- A list that is in order stays as it is. -/
theorem sortBy_of_sorted {α : Type} (lt : α → α → Bool) (l : List α)
    (h : l.Pairwise fun a b => lt b a = false) : sortBy lt l = l := by
  induction l with
  | nil => rfl
  | cons x l ih =>
    rw [List.pairwise_cons] at h
    unfold sortBy
    rw [ih h.2, insertBy_first lt x l h.1]

theorem insertBy_filter {α : Type} {lt : α → α → Bool} (h : InLine lt) (p : α → Bool) (x : α)
    (l : List α) (hl : l.Pairwise fun a b => lt b a = false) :
    (insertBy lt x l).filter p =
      if p x then insertBy lt x (l.filter p) else l.filter p := by
  induction l with
  | nil => cases hx : p x <;> simp [insertBy, hx]
  | cons y l ih =>
    rw [List.pairwise_cons] at hl
    have step : insertBy lt x (y :: l) =
        if lt y x then y :: insertBy lt x l else x :: y :: l := rfl
    rw [step]
    by_cases hyx : lt y x = true
    · have kept : insertBy lt x (y :: l.filter p) = y :: insertBy lt x (l.filter p) := if_pos hyx
      rw [if_pos hyx, List.filter_cons, ih hl.2, List.filter_cons]
      cases p x <;> cases p y <;> simp [kept]
    · have hyx' : lt y x = false := by simpa using hyx
      rw [if_neg hyx]
      have first : insertBy lt x ((y :: l).filter p) = x :: (y :: l).filter p := by
        refine insertBy_first lt x _ fun z hz => ?_
        rcases List.mem_cons.1 (List.mem_filter.1 hz).1 with rfl | hz
        · exact hyx'
        · exact h.trans hyx' (hl.1 z hz)
      rw [List.filter_cons (x := x), first]

/-- Ordering commutes with a choice of elements. -/
theorem sortBy_filter {α : Type} {lt : α → α → Bool} (h : InLine lt) (p : α → Bool) (l : List α) :
    (sortBy lt l).filter p = sortBy lt (l.filter p) := by
  induction l with
  | nil => rfl
  | cons x l ih =>
    rw [sortBy, insertBy_filter h p x _ (sortBy_sorted h l), ih, List.filter_cons]
    split <;> rfl

/-! ### Keys -/

/-- A comparison of keys of one length is one of keys in line. -/
theorem keyLt_cons (a b : Int) (l m : List Int) :
    keyLt (a :: l) (b :: m) = true ↔ a < b ∨ a = b ∧ keyLt l m = true := by
  have step : keyLt (a :: l) (b :: m) = if a = b then keyLt l m else decide (a < b) := rfl
  rw [step]
  split
  · rename_i h
    subst h
    simp
  · rename_i h
    simp [h]

theorem keyLt_nil : keyLt [] [] = false := rfl

theorem recordLt_iff (x y : RecEntry) :
    recordLt x y = true ↔
      classRank x.cls < classRank y.cls ∨ classRank x.cls = classRank y.cls ∧
        (x.margin < y.margin ∨ x.margin = y.margin ∧
          (x.addr < y.addr ∨ x.addr = y.addr ∧ x.circuit < y.circuit)) := by
  unfold recordLt
  simp only [keyLt_cons, keyLt_nil, Bool.false_eq_true, and_false, or_false, Nat.cast_lt, Nat.cast_inj]

theorem recordLt_inLine : InLine recordLt where
  trans := by
    intro x y z h1 h2
    rw [Bool.eq_false_iff, Ne, recordLt_iff] at *
    omega
  asymm := by
    intro x y h
    rw [Bool.eq_false_iff, Ne, recordLt_iff]
    rw [recordLt_iff] at h
    omega

/-! ### Parts -/

/-- Each record of a spread base takes the lesser of its need and what those before it leave (R55). -/
theorem spreadBase_part (l : List RecEntry) (base : Nat) (before after : List RecEntry) (r : RecEntry)
    (h : spreadBase base l = before ++ r :: after) :
    r.basePart = min r.need (base - (before.map RecEntry.basePart).sum) := by
  induction l generalizing base before with
  | nil => simp [spreadBase] at h
  | cons x l ih =>
    cases before with
    | nil =>
      simp only [spreadBase, List.nil_append, List.cons.injEq] at h
      rw [← h.1]
      simp
    | cons y before =>
      simp only [spreadBase, List.cons_append, List.cons.injEq] at h
      rw [ih _ _ h.2, ← h.1]
      simp only [List.map_cons, List.sum_cons]
      omega

/-- Each record of the pass over the pool takes the lesser of its residual need and what those before it
leave (R56). -/
theorem poolPass_part (l : List RecEntry) (pool : Nat) (before after : List RecEntry) (r : RecEntry)
    (h : poolPass pool l = before ++ r :: after) :
    r.poolPart = min (r.need - r.basePart) (pool - (before.map RecEntry.poolPart).sum) := by
  induction l generalizing pool before with
  | nil => simp [poolPass] at h
  | cons x l ih =>
    cases before with
    | nil =>
      simp only [poolPass, List.nil_append, List.cons.injEq] at h
      rw [← h.1]
      simp
    | cons y before =>
      simp only [poolPass, List.cons_append, List.cons.injEq] at h
      rw [ih _ _ h.2, ← h.1]
      simp only [List.map_cons, List.sum_cons]
      omega

/-- The pass over the pool writes the pool parts and nothing else. -/
theorem poolPass_items (l : List RecEntry) (pool : Nat) :
    (poolPass pool l).map (fun r => { r with poolPart := 0 }) =
      l.map fun r => { r with poolPart := 0 } := by
  induction l generalizing pool with
  | nil => rfl
  | cons x l ih => simp only [poolPass, List.map_cons, ih]

/-- The base parts are written and nothing else. -/
theorem spreadBase_items (l : List RecEntry) (base : Nat) :
    (spreadBase base l).map (fun r => { r with basePart := 0 }) =
      l.map fun r => { r with basePart := 0 } := by
  induction l generalizing base with
  | nil => rfl
  | cons x l ih => simp only [spreadBase, List.map_cons, ih]

/-! ### Rows -/

theorem set_get (g : Vector Nat 6) (d c : Fin 6) (x : Nat) :
    (g.set d x)[c] = if d = c then x else g[c] := by
  have h : (g.set d x)[c] = if d.val = c.val then x else g[c] := Vector.getElem_set ..
  rw [h]
  simp only [Fin.ext_iff]

/-! ### The test deduction (R65) -/

theorem lowerGrants_zero (l : List (Fin 6)) (g : Vector Nat 6) : lowerGrants 0 g l = g := by
  induction l generalizing g with
  | nil => rfl
  | cons d l ih =>
    simp only [lowerGrants, Nat.min_zero, Nat.sub_zero]
    rw [ih]
    simp

theorem lowerGrants_other (l : List (Fin 6)) (excess : Nat) (g : Vector Nat 6) (d : Fin 6)
    (h : d ∉ l) : (lowerGrants excess g l)[d] = g[d] := by
  induction l generalizing excess g with
  | nil => rfl
  | cons c l ih =>
    simp only [lowerGrants]
    rw [ih _ _ fun k => h (by simp [k]), set_get, if_neg]
    rintro rfl
    exact h (by simp)

/-- Over all circuits, grants are lowered by the excess and no further. -/
theorem lowerGrants_exact (l : List (Fin 6)) (excess : Nat) (g : Vector Nat 6)
    (hx : excess ≤ grantSum g) (hl : ∀ c, c ∈ l) :
    grantSum (lowerGrants excess g l) + excess = grantSum g := by
  have least : ∀ (l : List (Fin 6)) (x : Nat) (g : Vector Nat 6),
      grantSum g ≤ grantSum (lowerGrants x g l) + x := by
    intro l
    induction l with
    | nil => exact fun x g => Nat.le_add_right _ _
    | cons d l ih =>
      intro x g
      have := ih (x - min g[d] x) (g.set d (g[d] - min g[d] x))
      have hs := grantSum_set g d (g[d] - min g[d] x)
      show _ ≤ grantSum (lowerGrants (x - min g[d] x) _ l) + x
      have h1 : min g[d] x ≤ g[d] := Nat.min_le_left _ _
      have h2 : min g[d] x ≤ x := Nat.min_le_right _ _
      omega
  have h := least l excess g
  rcases lowerGrants_sum l excess g with k | ⟨k, -⟩
  · omega
  · have := grantSum_zero _ fun c => k c (hl c)
    omega

/-- A grant is lowered only after every one that comes before it in the list is gone. -/
theorem lowerGrants_order (a b : List (Fin 6)) (excess : Nat) (g : Vector Nat 6) (c d : Fin 6)
    (hd : d ∉ a) (hcd : d ≠ c) (h : (lowerGrants excess g (a ++ c :: b))[d] < g[d]) :
    (lowerGrants excess g (a ++ c :: b))[c] = 0 := by
  have append : ∀ (l m : List (Fin 6)) (x : Nat) (g : Vector Nat 6),
      ∃ y, lowerGrants x g (l ++ m) = lowerGrants y (lowerGrants x g l) m := by
    intro l m
    induction l with
    | nil => exact fun x g => ⟨x, rfl⟩
    | cons c l ih => exact fun x g => ih _ _
  obtain ⟨y, e⟩ := append a (c :: b) excess g
  rw [e] at h ⊢
  have kept := lowerGrants_other a excess g d hd
  generalize lowerGrants excess g a = g' at *
  have head : lowerGrants y g' (c :: b) =
      lowerGrants (y - min g'[c] y) (g'.set c (g'[c] - min g'[c] y)) b := rfl
  rw [head] at h ⊢
  by_cases hy : g'[c] ≤ y
  · have := lowerGrants_le b (y - min g'[c] y) (g'.set c (g'[c] - min g'[c] y)) c
    rw [set_get, if_pos rfl] at this
    omega
  · have none : y - min g'[c] y = 0 := by omega
    simp only [none, lowerGrants_zero, set_get, if_neg (Ne.symm hcd), kept] at h
    omega

/-! ### The local spread (R59) -/

/-- A circuit that is not in the list keeps its grant. -/
theorem spreadOver_other (p : Plant) (l : List (Fin 6)) (amount : Nat) (g : Vector Nat 6) (c : Fin 6)
    (h : c ∉ l) : (spreadOver p amount g l)[c] = g[c] := by
  induction l generalizing amount g with
  | nil => rfl
  | cons d l ih =>
    rw [List.mem_cons, not_or] at h
    show (spreadOver p _ _ l)[c] = _
    rw [ih _ _ h.2, set_get, if_neg fun k => h.1 k.symm]

/-- Each circuit of the list is granted the lesser of its need and what those before it leave. -/
theorem spreadOver_get (p : Plant) (l : List (Fin 6)) (amount : Nat) (g : Vector Nat 6)
    (before after : List (Fin 6)) (c : Fin 6) (hl : l.Nodup) (h : l = before ++ c :: after) :
    (spreadOver p amount g l)[c] = min p.cct[c].need
      (amount - (before.map fun d => (spreadOver p amount g l)[d]).sum) := by
  induction l generalizing amount g before with
  | nil => simp at h
  | cons x l ih =>
    rw [List.nodup_cons] at hl
    have first : (spreadOver p amount g (x :: l))[x] = min p.cct[x].need amount := by
      show (spreadOver p _ _ l)[x] = _
      rw [spreadOver_other _ _ _ _ _ hl.1, set_get, if_pos rfl]
    cases before with
    | nil =>
      simp only [List.nil_append, List.cons.injEq] at h
      rw [← h.1, first]
      simp
    | cons y before =>
      simp only [List.cons_append, List.cons.injEq] at h
      have next := ih (amount - min p.cct[x].need amount) (g.set x (min p.cct[x].need amount)) before
        hl.2 h.2
      rw [List.map_cons, List.sum_cons, ← h.1, first]
      have same : spreadOver p amount g (x :: l) = spreadOver p (amount - min p.cct[x].need amount)
        (g.set x (min p.cct[x].need amount)) l := rfl
      rw [same, next]
      omega

/-- A spread over circuits without grants gives the lesser of the amount and their need in all. -/
theorem spreadOver_sum (p : Plant) (l : List (Fin 6)) (amount : Nat) (g : Vector Nat 6) (hl : l.Nodup)
    (h : ∀ c ∈ l, g[c] = 0) :
    grantSum (spreadOver p amount g l) =
      grantSum g + min amount (l.map fun c => p.cct[c].need).sum := by
  induction l generalizing amount g with
  | nil => simp [spreadOver]
  | cons x l ih =>
    rw [List.nodup_cons] at hl
    have set := grantSum_set g x (min p.cct[x].need amount)
    have zero := h x (by simp)
    have rest := ih (amount - min p.cct[x].need amount) (g.set x (min p.cct[x].need amount)) hl.2
      fun c hc => by
        rw [set_get, if_neg fun k : x = c => hl.1 (k ▸ hc)]
        exact h c (by simp [hc])
    show grantSum (spreadOver p _ _ l) = _
    rw [rest, List.map_cons, List.sum_cons]
    omega

end Sys2Proof.Machine
end

