-- ==== Sys2Proof/Laws/Frames.lean ====
section
/-! SUPPORT. Numbers and sets as bytes and back (R134). -/

namespace Sys2Proof.Machine

theorem byteOf_toNat (n : Nat) : (byteOf n).toNat = n % 256 := by
  simp [byteOf]

theorem byteOf_self (b : Byte) : byteOf b.toNat = b := by
  apply BitVec.eq_of_toNat_eq
  simp [byteOf]

/-- Two bytes, high byte first, give back a number below 65,536. -/
theorem twoBytes_back (n : Nat) (h : n < 65536) : (byteOf (n / 256)).toNat * 256 + (byteOf n).toNat = n := by
  rw [byteOf_toNat, byteOf_toNat]
  omega

/-- Two bytes of a 16-bit value give back the value. -/
theorem word_back (w : Word16) :
    BitVec.ofNat 16 ((byteOf (w.toNat / 256)).toNat * 256 + (byteOf w.toNat).toNat) = w := by
  rw [twoBytes_back _ w.isLt]
  simp

/-- The four bytes of a set of addresses give back the set. -/
theorem addrSet_back (h : AddrSet) :
    BitVec.ofNat 32 ((h.extractLsb' 0 8).toNat + 256 * ((h.extractLsb' 8 8).toNat +
      256 * ((h.extractLsb' 16 8).toNat + 256 * (h.extractLsb' 24 8).toNat))) = h := by
  apply BitVec.eq_of_toNat_eq
  have := h.isLt
  simp only [BitVec.extractLsb'_toNat, BitVec.toNat_ofNat, Nat.shiftRight_eq_div_pow]
  omega

/-- A signed byte gives back a number in −128…127. -/
theorem signedOne_back (i : Int) (h : -128 ≤ i ∧ i ≤ 127) :
    (BitVec.ofNat 8 (signedOne i).toNat).toInt = i := by
  simp only [signedOne, BitVec.ofNat_toNat, BitVec.setWidth_eq, BitVec.toInt_ofInt, Int.bmod_def]
  omega

/-- Class byte and class. -/
theorem classOf_back (c : Cls) (h : c ≠ .p3) : classOf (byteOf (classRank c)).toNat = some c := by
  cases c <;> first | rfl | exact absurd rfl h

/-- Result byte and result. -/
theorem resultOf_back (r : Result) : resultOf (byteOf (resultCode r)).toNat = some r := by
  cases r <;> rfl

/-- The bytes of demand records have four bytes each. -/
theorem recordBytes_length (l : List DemandRecord) :
    (l.map recordBytes).flatten.length = 4 * l.length := by
  induction l with
  | nil => rfl
  | cons r l ih =>
    simp only [List.map_cons, List.flatten_cons, List.length_append, ih, List.length_cons, recordBytes,
      List.length_nil]
    omega

/-- A byte behind the first bytes of a list. -/
theorem byteAt_append (a b : List Byte) (i : Nat) :
    byteAt (a ++ b) (a.length + i) = byteAt b i := by
  simp only [byteAt, List.getD_eq_getElem?_getD]
  rw [List.getElem?_append_right (Nat.le_add_right _ _), Nat.add_sub_cancel_left]

/-- Demand records read back from their bytes, wherever they stand and whatever follows them. -/
theorem recordsAt_back (l : List DemandRecord) (a z : List Byte)
    (h : ∀ r ∈ l, DemandRecord.wf r = true) :
    recordsAt (a ++ ((l.map recordBytes).flatten ++ z)) a.length l.length = some l := by
  induction l generalizing a with
  | nil => rfl
  | cons r l ih =>
    have hw := h r (by simp)
    simp only [DemandRecord.wf, Bool.and_eq_true, decide_eq_true_eq] at hw
    obtain ⟨⟨⟨h1, h2⟩, h3⟩, h4⟩ := hw
    have e : a ++ (((r :: l).map recordBytes).flatten ++ z) =
        (a ++ recordBytes r) ++ ((l.map recordBytes).flatten ++ z) := by
      simp only [List.map_cons, List.flatten_cons, List.append_assoc]
    have hl : (a ++ recordBytes r).length = a.length + 4 := by
      simp [recordBytes]
    have ih' := ih (a ++ recordBytes r) fun x hx => h x (by simp [hx])
    rw [hl] at ih'
    have b0 : ∀ i < 4, byteAt ((a ++ recordBytes r) ++ ((l.map recordBytes).flatten ++ z))
        (a.length + i) = byteAt (recordBytes r) i := by
      intro i hi
      rw [List.append_assoc, byteAt_append]
      simp only [byteAt, List.getD_eq_getElem?_getD]
      rw [List.getElem?_append_left (by simpa [recordBytes] using hi)]
    have c0 := b0 0 (by omega)
    have c1 := b0 1 (by omega)
    have c2 := b0 2 (by omega)
    have c3 := b0 3 (by omega)
    rw [Nat.add_zero] at c0
    rw [e, List.length_cons, recordsAt, ih', c0, c1, c2, c3]
    have d0 : byteAt (recordBytes r) 0 = r.circuit := by
      show (byteOf r.circuit).toNat = _
      rw [byteOf_toNat]
      omega
    have d1 : classOf (byteAt (recordBytes r) 1) = some r.cls := classOf_back _ h2
    have d2 : (BitVec.ofNat 8 (byteAt (recordBytes r) 2)).toInt = r.margin := signedOne_back _ h3
    have d3 : byteAt (recordBytes r) 3 = r.need := by
      show (byteOf r.need).toNat = _
      rw [byteOf_toNat]
      omega
    rw [d0, d1, d2, d3]

end Sys2Proof.Machine
end

