-- ==== Sys2Proof/Laws/Periods.lean ====
section
/-! SUPPORT. The end of an energized period, of a test and of a trip's first steps, said once: the row of
the output, the mean, the result (R119, R122, R123, R127, R130). -/

namespace Sys2Proof.Machine

/-! ### Rows and means -/

/-- Switching off touches the one row, and only where the output is on. -/
theorem switchOff_row (o : Fin 6) (p : Plant) (j : Fin 6) :
    (switchOff o p).ogd.outputs[j] =
      if j = o ∧ p.ogd.outputs[o].energized = true then offRow p.free p.ogd.outputs[o]
      else p.ogd.outputs[j] := by
  unfold switchOff
  by_cases he : p.ogd.outputs[o].energized = true
  · rw [if_pos he]
    by_cases hj : j = o
    · rw [if_pos ⟨hj, he⟩, hj]
      exact updOut_row p o _
    · rw [if_neg (by simp [hj])]
      exact updOut_other p o j _ hj
  · rw [if_neg he, if_neg fun h => he h.2]

/-- Every output switched off: each row that was on ends its period, and no other moves (R118). -/
theorem allOff_row (p : Plant) (j : Fin 6) :
    ∃ n, (allOff p).ogd.outputs[j] =
      if p.ogd.outputs[j].energized = true then offRow n p.ogd.outputs[j]
      else p.ogd.outputs[j] := by
  have fold : ∀ (l : List (Fin 6)) (p : Plant),
      (p.ogd.outputs[j].energized = false →
        (l.foldl (fun q o => switchOff o q) p).ogd.outputs[j] = p.ogd.outputs[j]) ∧
      (p.ogd.outputs[j].energized = true → j ∈ l → ∃ n,
        (l.foldl (fun q o => switchOff o q) p).ogd.outputs[j] = offRow n p.ogd.outputs[j]) := by
    intro l
    induction l with
    | nil => exact fun p => ⟨fun _ => rfl, fun _ h => by cases h⟩
    | cons a l ih =>
      intro p
      have row := switchOff_row a p j
      rw [List.foldl_cons]
      refine ⟨fun he => ?_, fun he hm => ?_⟩
      · rw [if_neg (fun h => by rw [← h.1, he] at h; cases h.2)] at row
        rw [(ih _).1 (by rw [row]; exact he), row]
      · by_cases hj : j = a
        · subst hj
          rw [if_pos ⟨rfl, he⟩] at row
          exact ⟨p.free, by rw [(ih _).1 (by rw [row]; rfl), row]⟩
        · rw [if_neg fun h => hj h.1] at row
          obtain ⟨n, hn⟩ := (ih (switchOff a p)).2 (by rw [row]; exact he) (by simpa [hj] using hm)
          exact ⟨n, by rw [hn, row]⟩
  obtain ⟨off, on⟩ := fold sixIds p
  unfold allOff
  generalize sixIds.foldl (fun q o => switchOff o q) p = q at *
  cases he : p.ogd.outputs[j].energized
  · exact ⟨0, by rw [off he, if_neg (by simp)]⟩
  · obtain ⟨n, hn⟩ := on he (mem_sixIds j)
    exact ⟨n, by rw [hn, if_pos rfl]⟩

/-- A free quotient, bounded, is a mean in 0.1 LU steps (R119; log entry 10). -/
theorem freeQuot_isMean (sum ms : Nat) (h : 0 < ms) : IsMean sum ms (min 4000 (freeQuot sum ms)) := by
  have div := Nat.div_add_mod sum ms
  have rest := Nat.mod_lt sum h
  rw [Nat.mul_comm] at div
  refine ⟨freeQuot sum ms, rfl, ?_, ?_⟩
  · unfold freeQuot
    split
    · omega
    · exact Nat.le_add_right _ _
  · unfold freeQuot
    split
    · omega
    · split
      · rw [Nat.add_mul]
        omega
      · rw [Nat.add_mul]
        omega

/-- The measured load of a period that has begun to count is a mean (R119). -/
theorem meanLoad_isMean (free sum ms : Nat) (h : 0 < ms) : IsMean sum ms (meanLoad free sum ms) := by
  unfold meanLoad
  rw [if_neg (by omega)]
  exact freeQuot_isMean sum ms h

/-! ### Periods -/

/-- A period ends with no open-element trip: the output is off with its mean, and its window count
follows the judgement (R122). -/
theorem endPeriodWith_ended (trip : Env → Fin 6 → FaultKind → Plant → Plant) (e : Env) (c o : Fin 6)
    (p : Plant) (hb : p.ogd.boundTo c = some o) (he : p.ogd.outputs[o].energized = true)
    (hut : p.ogd.underTest o = false)
    (hnt : ¬(1000 ≤ p.ogd.outputs[o].periodMs ∧ 2 ≤ p.ogd.outputs[o].openCount ∧
      2 * p.ogd.outputs[o].loadSum < 10 * p.ogd.outputs[o].rated * p.ogd.outputs[o].periodMs)) :
    PeriodEnded p.ogd.outputs[o] (endPeriodWith trip e c p).ogd.outputs[o] ∧
      (endPeriodWith trip e c p).cct = p.cct := by
  have off : ∀ f : OutputRow → OutputRow, (f p.ogd.outputs[o]).energized = true →
      (switchOff o (p.updOut o f)).ogd.outputs[o] = offRow p.free (f p.ogd.outputs[o]) ∧
        (switchOff o (p.updOut o f)).cct = p.cct := by
    intro f hf
    refine ⟨?_, (switchOff_facts o _).1⟩
    rw [switchOff_row, updOut_row, if_pos ⟨rfl, hf⟩]
    rfl
  have ended : ∀ (r : OutputRow) (n : Nat),
      (n = if r.periodMs < 1000 then r.openCount
        else if 2 * r.loadSum < 10 * r.rated * r.periodMs then r.openCount + 1 else 0) →
      PeriodEnded r (offRow p.free { r with openCount := n }) :=
    fun r n h => ⟨rfl, rfl, rfl, fun k => meanLoad_isMean _ _ _ k, h⟩
  unfold endPeriodWith
  rw [hb]
  dsimp only
  rw [he, hut, if_pos (by rfl)]
  by_cases short : p.ogd.outputs[o].periodMs < 1000
  · rw [if_pos short]
    refine ⟨?_, (switchOff_facts o _).1⟩
    rw [switchOff_row, if_pos ⟨rfl, he⟩]
    exact ended _ p.ogd.outputs[o].openCount (by rw [if_pos short])
  · rw [if_neg short]
    by_cases low : 2 * p.ogd.outputs[o].loadSum <
        10 * p.ogd.outputs[o].rated * p.ogd.outputs[o].periodMs
    · rw [if_pos low, if_neg fun h => hnt ⟨by omega, by omega, low⟩]
      obtain ⟨a, b⟩ := off (fun r => { r with openCount := r.openCount + 1 }) he
      rw [a, b]
      exact ⟨ended _ _ (by rw [if_neg short, if_pos low]), rfl⟩
    · rw [if_neg low]
      obtain ⟨a, b⟩ := off (fun r => { r with openCount := 0 }) he
      rw [a, b]
      exact ⟨ended _ _ (by rw [if_neg short, if_neg low]), rfl⟩

/-- A circuit whose output is off has no period to end. -/
theorem endPeriodWith_still (trip : Env → Fin 6 → FaultKind → Plant → Plant) (e : Env) (c : Fin 6)
    (p : Plant) (h : ∀ o, p.ogd.boundTo c = some o → p.ogd.outputs[o].energized = false) :
    endPeriodWith trip e c p = p := by
  unfold endPeriodWith
  split
  · rfl
  · rename_i o ho
    dsimp only
    rw [h o ho]
    rfl

/-! ### Cuts (R66, R90) -/

/-- Circuit `c` draws through output `o`: the output is bound to it, is on and is not under test. -/
def Draws (p : Plant) (c o : Fin 6) : Prop :=
  p.ogd.boundTo c = some o ∧ p.ogd.outputs[o].energized = true ∧ p.ogd.underTest o = false

/-- No circuit, factor, allotment, test, trip record or role changes. -/
structure OnlyRows (p q : Plant) : Prop where
  cct : q.cct = p.cct
  fct : q.fct = p.fct
  alu : q.alu = p.alu
  test : q.ogd.test = p.ogd.test
  trips : q.ogd.trips = p.ogd.trips
  role : ∀ j : Fin 6, q.ogd.outputs[j].role = p.ogd.outputs[j].role

theorem OnlyRows.refl (p : Plant) : OnlyRows p p := ⟨rfl, rfl, rfl, rfl, rfl, fun _ => rfl⟩

theorem OnlyRows.trans {p q r : Plant} (h : OnlyRows p q) (k : OnlyRows q r) : OnlyRows p r :=
  ⟨k.cct.trans h.cct, k.fct.trans h.fct, k.alu.trans h.alu, k.test.trans h.test, k.trips.trans h.trips,
    fun j => (k.role j).trans (h.role j)⟩

theorem switchOff_rows (o : Fin 6) (p : Plant) : OnlyRows p (switchOff o p) := by
  obtain ⟨h1, h2, _, h4, h5⟩ := switchOff_facts o p
  refine ⟨h1, h4, h5, ?_, ?_, h2⟩ <;> (unfold switchOff; split <;> rfl)

/-- The end of a period without an open-element trip touches the one output that draws. -/
theorem endPeriodWith_rows (trip : Env → Fin 6 → FaultKind → Plant → Plant) (e : Env) (c : Fin 6)
    (p : Plant) (hn : ∀ o, Draws p c o → ¬OpenElementDue p.ogd.outputs[o]) :
    OnlyRows p (endPeriodWith trip e c p) ∧
      ∀ j : Fin 6, ¬Draws p c j → (endPeriodWith trip e c p).ogd.outputs[j] = p.ogd.outputs[j] := by
  have counted : ∀ (o : Fin 6) (n : OutputRow → Nat), Draws p c o →
      OnlyRows p (switchOff o (p.updOut o fun r => { r with openCount := n r })) ∧
        ∀ j : Fin 6, ¬Draws p c j →
          (switchOff o (p.updOut o fun r => { r with openCount := n r })).ogd.outputs[j] =
            p.ogd.outputs[j] := fun o n ho => by
    refine ⟨OnlyRows.trans (q := p.updOut o fun r => { r with openCount := n r })
      ⟨rfl, rfl, rfl, rfl, rfl, fun j => ?_⟩ (switchOff_rows o _), fun j hj => ?_⟩
    · by_cases h : j = o
      · rw [h, updOut_row]
      · rw [updOut_other _ _ _ _ h]
    · have h : j ≠ o := fun h => hj (by rw [h]; exact ho)
      rw [switchOff_row, if_neg fun k => h k.1, updOut_other _ _ _ _ h]
  unfold endPeriodWith
  split
  · exact ⟨.refl p, fun _ _ => rfl⟩
  · rename_i o hb
    dsimp only
    split
    · rename_i he
      rw [Bool.and_eq_true, Bool.not_eq_true'] at he
      have due := hn o ⟨hb, he⟩
      split
      · refine ⟨switchOff_rows o p, fun j hj => ?_⟩
        rw [switchOff_row, if_neg fun k => hj (by rw [k.1]; exact ⟨hb, he⟩)]
      · split
        · rename_i h1 h2
          rw [if_neg fun h3 => due ⟨by omega, by omega, h2⟩]
          exact counted o (fun r => r.openCount + 1) ⟨hb, he⟩
        · exact counted o (fun _ => 0) ⟨hb, he⟩
    · exact ⟨.refl p, fun _ _ => rfl⟩

/-- The periods of several circuits end, none with an open-element trip: each output through which one of
them draws ends its period, and no other output moves. -/
theorem endPeriods_ended (trip : Env → Fin 6 → FaultKind → Plant → Plant) (e : Env) (b : Fin 6 → Bool)
    (l : List (Fin 6)) (p : Plant) (hn : ∀ c o, Draws p c o → ¬OpenElementDue p.ogd.outputs[o]) :
    OnlyRows p (l.foldl (fun q c => if b c then endPeriodWith trip e c q else q) p) ∧
      (∀ c ∈ l, b c = true → ∀ o, Draws p c o → PeriodEnded p.ogd.outputs[o]
        (l.foldl (fun q c => if b c then endPeriodWith trip e c q else q) p).ogd.outputs[o]) ∧
      ∀ j : Fin 6, (∀ c ∈ l, b c = true → ¬Draws p c j) →
        (l.foldl (fun q c => if b c then endPeriodWith trip e c q else q) p).ogd.outputs[j] =
          p.ogd.outputs[j] := by
  induction l generalizing p with
  | nil => exact ⟨.refl p, fun _ h => (by cases h), fun _ _ => rfl⟩
  | cons a l ih =>
    rw [List.foldl_cons]
    cases hb : b a with
    | false =>
      obtain ⟨h1, h2, h3⟩ := ih p hn
      refine ⟨h1, fun c hc k => ?_, fun j k => h3 j fun c hc => k c (.tail _ hc)⟩
      rcases List.mem_cons.1 hc with rfl | hc
      · rw [hb] at k
        cases k
      · exact h2 c hc k
    | true =>
      obtain ⟨k1, k2⟩ := endPeriodWith_rows trip e a p (hn a)
      have ended := fun o (h : Draws p a o) =>
        (endPeriodWith_ended trip e a o p h.1 h.2.1 h.2.2 (hn a o h)).1
      rw [if_pos rfl]
      generalize endPeriodWith trip e a p = u at k1 k2 ended ⊢
      have off : ∀ c o, Draws p a o → ¬Draws u c o := fun c o h k => by
        have := k.2.1
        rw [(ended o h).1] at this
        cases this
      -- an output that draws after one period has ended drew before, and has not moved
      have drew : ∀ c o, Draws u c o → Draws p c o ∧ ¬Draws p a o := fun c o h => by
        have n : ¬Draws p a o := fun k => off c o k h
        have row := k2 o n
        have under : u.ogd.underTest o = p.ogd.underTest o := by
          unfold Ogd.underTest
          rw [k1.test]
        refine ⟨⟨?_, ?_, ?_⟩, n⟩
        · rw [← h.1]
          exact (boundTo_congr _ _ c k1.role).symm
        · rw [← row]
          exact h.2.1
        · rw [← under]
          exact h.2.2
      have draws : ∀ c o, Draws p c o → ¬Draws p a o → Draws u c o := fun c o h n => by
        have row := k2 o n
        have under : u.ogd.underTest o = p.ogd.underTest o := by
          unfold Ogd.underTest
          rw [k1.test]
        exact ⟨(boundTo_congr _ _ c k1.role).trans h.1, by rw [row]; exact h.2.1, by rw [under]; exact h.2.2⟩
      obtain ⟨h1, h2, h3⟩ := ih u fun c o h => by
        obtain ⟨j1, j2⟩ := drew c o h
        rw [k2 o j2]
        exact hn c o j1
      refine ⟨k1.trans h1, fun c hc k o ho => ?_, fun j k => ?_⟩
      · by_cases h : Draws p a o
        · rw [h3 o fun c _ _ => off c o h]
          exact ended o h
        · have row := k2 o h
          rcases List.mem_cons.1 hc with rfl | hc
          · exact absurd ho h
          · rw [← row]
            exact h2 c hc k o (draws c o ho h)
      · have n := k a (.head _) hb
        rw [h3 j fun c hc hk d => k c (.tail _ hc) hk (drew c j d).1, k2 j n]

/-- Grants are handed over with no open-element trip: each row takes its grant, the outputs through which a
circuit whose cut on-time has passed draws end their periods, and nothing else moves (R66, R90). -/
theorem handGrantsWith_cuts (trip : Env → Fin 6 → FaultKind → Plant → Plant) (e : Env) (g : Vector Nat 6)
    (p : Plant) (hn : ∀ c o, Draws p c o → ¬OpenElementDue p.ogd.outputs[o]) :
    OnlyRows { p with cct := mapRows p.cct fun c r => grantedRow e p c g[c] r }
        (handGrantsWith trip e g p) ∧
      (∀ c o, Draws p c o → cutNow e p.cct[c] (grantedRow e p c g[c] p.cct[c]) = true →
        PeriodEnded p.ogd.outputs[o] (handGrantsWith trip e g p).ogd.outputs[o]) ∧
      ∀ j : Fin 6, (∀ c, cutNow e p.cct[c] (grantedRow e p c g[c] p.cct[c]) = true → ¬Draws p c j) →
        (handGrantsWith trip e g p).ogd.outputs[j] = p.ogd.outputs[j] := by
  have cut : ∀ c : Fin 6, (mapRows p.cct fun c r => grantedRow e p c g[c] r)[c] =
      grantedRow e p c g[c] p.cct[c] := fun c => mapRows_get _ _ _
  obtain ⟨h1, h2, h3⟩ := endPeriods_ended trip e (fun c => cutNow e p.cct[c]
    (mapRows p.cct fun c r => grantedRow e p c g[c] r)[c]) sixIds
    { p with cct := mapRows p.cct fun c r => grantedRow e p c g[c] r } hn
  simp only [cut] at h2 h3
  exact ⟨h1, fun c o hd hc => h2 c (mem_sixIds c) hc o hd, fun j hj => h3 j fun c _ hc => hj c hc⟩

/-! ### The start of a test (R129) -/

/-- The record of a test stands, its circuit is in TESTING with its period ended unjudged, and the test
deduction is noted: the plant before the lowered grants are handed over (R129, steps 1 to 3). -/
def testBegun (e : Env) (o : Fin 6) (seconds : Nat) (p : Plant) : Plant :=
  let q := p.setTest (some ⟨o, p.ogd.outputs[o].role.circuit, seconds, e.now, 0, 0, 0⟩)
  let q :=
    match p.ogd.outputs[o].role.circuit with
    | some c => (switchOff o q).updCct c (idleRow .testing)
    | none => q
  { q with alu := { q.alu with deduction := some (o, p.ogd.outputs[o].rated) } }

theorem testBegun_items (e : Env) (o : Fin 6) (seconds : Nat) (p : Plant) :
    let q := testBegun e o seconds p
    q.fct = p.fct ∧ q.alu = { p.alu with deduction := some (o, p.ogd.outputs[o].rated) } ∧
      q.ogd.test = some ⟨o, p.ogd.outputs[o].role.circuit, seconds, e.now, 0, 0, 0⟩ ∧
      q.ogd.trips = p.ogd.trips ∧
      (∀ c : Fin 6, q.cct[c] =
        if p.ogd.outputs[o].role.circuit = some c then idleRow .testing p.cct[c] else p.cct[c]) ∧
      (∀ j : Fin 6, q.ogd.outputs[j] =
        if j = o ∧ p.ogd.outputs[o].energized = true ∧ p.ogd.outputs[o].role.circuit.isSome = true
        then offRow p.free p.ogd.outputs[o] else p.ogd.outputs[j]) := by
  obtain ⟨q, hq⟩ : ∃ q, q =
      p.setTest (some ⟨o, p.ogd.outputs[o].role.circuit, seconds, e.now, 0, 0, 0⟩) := ⟨_, rfl⟩
  have hs : testBegun e o seconds p = (let u := match p.ogd.outputs[o].role.circuit with
      | some c => (switchOff o q).updCct c (idleRow .testing)
      | none => q
    { u with alu := { u.alu with deduction := some (o, p.ogd.outputs[o].rated) } }) := by
    rw [hq]
    rfl
  have rows : q.cct = p.cct ∧ q.fct = p.fct ∧ q.alu = p.alu ∧ q.free = p.free ∧
      q.ogd.trips = p.ogd.trips ∧ q.ogd.outputs = p.ogd.outputs ∧
      q.ogd.test = some ⟨o, p.ogd.outputs[o].role.circuit, seconds, e.now, 0, 0, 0⟩ := by
    rw [hq]
    exact ⟨rfl, rfl, rfl, rfl, rfl, rfl, rfl⟩
  obtain ⟨hc, hf, ha, hn, htr, ho, ht⟩ := rows
  rw [hs]
  cases hr : p.ogd.outputs[o].role.circuit with
  | none =>
    refine ⟨hf, by rw [← ha], ht.trans (by rw [hr]), htr, fun c => ?_, fun j => ?_⟩
    · rw [if_neg (by simp)]
      show q.cct[c] = _
      rw [hc]
    · rw [if_neg (by simp)]
      show q.ogd.outputs[j] = _
      rw [ho]
  | some d =>
    have off := switchOff_rows o q
    refine ⟨off.fct.trans hf, ?_, ?_, off.trips.trans htr, fun c => ?_, fun j => ?_⟩
    · rw [← ha, ← off.alu]
      rfl
    · show (switchOff o q).ogd.test = _
      rw [off.test, ht, hr]
    · show ((switchOff o q).updCct d (idleRow .testing)).cct[c] = _
      by_cases h : c = d
      · rw [h, updCct_row, if_pos rfl, off.cct, hc]
      · rw [updCct_other _ _ _ _ h, if_neg fun k => h (Option.some.inj k).symm, off.cct, hc]
    · show (switchOff o q).ogd.outputs[j] = _
      rw [switchOff_row, hn, ho]
      simp

/-- A test starts with no trip: its record stands with the leakage current of the moment as its peak, the
tested output is on in a new period with its window count as it was, the circuits take the grants that the
deduction leaves, and the outputs cut thereby end their periods (R129, R66, R90). -/
theorem startTest_runs (e : Env) (o : Fin 6) (seconds : Nat) (p : Plant)
    (hl : p.ogd.outputs[o].leakage.level ≠ some true)
    (hn : ∀ c j : Fin 6, j ≠ o → p.ogd.boundTo c = some j → p.ogd.outputs[j].energized = true →
      ¬OpenElementDue p.ogd.outputs[j]) :
    ∃ q g, q = startTest e o seconds p ∧
      g = deductGrants e (testBegun e o seconds p) p.ogd.outputs[o].role.circuit
        (p.alu.own - p.ogd.outputs[o].rated) (grantsInForce p) ∧
      q.fct = p.fct ∧ q.alu = { p.alu with deduction := some (o, p.ogd.outputs[o].rated) } ∧
      q.ogd.test =
        some ⟨o, p.ogd.outputs[o].role.circuit, seconds, e.now, 0, 0, max 0 (e.leakageNow o)⟩ ∧
      q.ogd.trips = p.ogd.trips ∧
      (∀ c : Fin 6, q.cct[c] = grantedRow e p c g[c]
        (if p.ogd.outputs[o].role.circuit = some c then idleRow .testing p.cct[c] else p.cct[c])) ∧
      q.ogd.outputs[o] = begunRow e o
        (if p.ogd.outputs[o].energized = true ∧ p.ogd.outputs[o].role.circuit.isSome = true
        then offRow p.free p.ogd.outputs[o] else p.ogd.outputs[o]) ∧
      (∀ c j : Fin 6, p.ogd.outputs[o].role.circuit ≠ some c → p.ogd.boundTo c = some j →
        p.ogd.outputs[j].energized = true → cutNow e p.cct[c] (grantedRow e p c g[c] p.cct[c]) = true →
        PeriodEnded p.ogd.outputs[j] q.ogd.outputs[j]) ∧
      ∀ j : Fin 6, j ≠ o → (∀ c : Fin 6, p.ogd.outputs[o].role.circuit ≠ some c →
        p.ogd.boundTo c = some j → p.ogd.outputs[j].energized = true →
        cutNow e p.cct[c] (grantedRow e p c g[c] p.cct[c]) = false) →
        q.ogd.outputs[j] = p.ogd.outputs[j] := by
  obtain ⟨hf, ha, ht, htr, hc, ho⟩ := testBegun_items e o seconds p
  have hs : startTest e o seconds p =
      (let u := handGrants e (deductGrants e (testBegun e o seconds p) p.ogd.outputs[o].role.circuit
          ((testBegun e o seconds p).alu.own - p.ogd.outputs[o].rated)
          (grantsInForce (testBegun e o seconds p))) (testBegun e o seconds p)
        if u.ogd.underTest o then energize e o u else u) := rfl
  have force : grantsInForce (testBegun e o seconds p) = grantsInForce p := by
    refine Vector.ext fun i hi => ?_
    have h := hc ⟨i, hi⟩
    unfold grantsInForce
    rw [Vector.getElem_ofFn, Vector.getElem_ofFn, h]
    split <;> rfl
  rw [force, ha] at hs
  refine ⟨_, _, rfl, rfl, ?_⟩
  rw [hs]
  dsimp only
  generalize testBegun e o seconds p = b at hf ha ht htr hc ho ⊢
  generalize deductGrants e b p.ogd.outputs[o].role.circuit
    (p.alu.own - p.ogd.outputs[o].rated) (grantsInForce p) = g
  have role : ∀ j : Fin 6, b.ogd.outputs[j].role = p.ogd.outputs[j].role := fun j => by
    rw [ho]
    split
    · rename_i h
      rw [h.1]
      rfl
    · rfl
  have same : ∀ j : Fin 6, j ≠ o → b.ogd.outputs[j] = p.ogd.outputs[j] := fun j hj => by
    rw [ho, if_neg fun h => hj h.1]
  have bound : ∀ c : Fin 6, b.ogd.boundTo c = p.ogd.boundTo c := fun c => boundTo_congr _ _ c role
  have rated : ∀ c : Fin 6, b.ogd.ratedOf c = p.ogd.ratedOf c := fun c => by
    unfold Ogd.ratedOf
    rw [bound]
    split
    · rename_i j _
      rw [ho]
      split
      · rename_i h
        rw [h.1]
        rfl
      · rfl
    · rfl
  have under : ∀ j : Fin 6, b.ogd.underTest j = decide (j = o) := fun j => by
    unfold Ogd.underTest
    rw [ht]
    simp [eq_comm]
  have draws : ∀ c j, Draws b c j ↔
      j ≠ o ∧ p.ogd.boundTo c = some j ∧ p.ogd.outputs[j].energized = true := fun c j => by
    unfold Draws
    rw [bound, under]
    by_cases h : j = o
    · simp [h]
    · rw [same j h]
      simp [h]
  obtain ⟨h1, h2, h3⟩ := handGrantsWith_cuts tripOutput e g b fun c j h => by
    obtain ⟨k1, k2, k3⟩ := (draws c j).1 h
    rw [same j k1]
    exact hn c j k1 k2 k3
  have granted : ∀ (c : Fin 6) (r : CircuitRow), grantedRow e b c g[c] r = grantedRow e p c g[c] r :=
    fun c r => by
      unfold grantedRow
      rw [rated]
  -- the tested circuit's on-time is 0 already, so it is not cut
  have tested : ∀ c : Fin 6, p.ogd.outputs[o].role.circuit = some c →
      cutNow e b.cct[c] (grantedRow e b c g[c] b.cct[c]) = false := fun c h => by
    rw [hc, if_pos h]
    exact cutNow_zero _ _ _ rfl
  change ∀ c o, _ → _ → PeriodEnded b.ogd.outputs[o] (handGrants e g b).ogd.outputs[o] at h2
  change ∀ j : Fin 6, _ → (handGrants e g b).ogd.outputs[j] = _ at h3
  change OnlyRows _ (handGrants e g b) at h1
  generalize handGrants e g b = u at h1 h2 h3 ⊢
  have rowO : u.ogd.outputs[o] = b.ogd.outputs[o] :=
    h3 o fun c _ k => ((draws c o).1 k).1 rfl
  have hu : u.ogd.test = b.ogd.test := h1.test
  have on : u.ogd.underTest o = true := by
    unfold Ogd.underTest
    rw [hu, ht]
    simp
  rw [if_pos on]
  have hl' : u.ogd.outputs[o].leakage.level ≠ some true := by
    rw [rowO, ho]
    split <;> exact hl
  obtain ⟨k1, k2, k3, k4, k5, k6, k7⟩ := energize_on e o u hl'
  refine ⟨k2.trans (h1.fct.trans hf), k3.trans (h1.alu.trans ha), k7 _ (hu.trans ht) rfl,
    k4.trans (h1.trips.trans htr), fun c => ?_, ?_, fun c j hx hb he hcut => ?_, fun j hj hx => ?_⟩
  · rw [k1, h1.cct]
    show (mapRows _ _)[c] = _
    rw [mapRows_get, granted, hc]
  · rw [k5, rowO, ho]
    simp
  · have hj : j ≠ o := fun h => hx (by rw [← h]; exact boundTo_role hb)
    rw [k6 j hj, ← same j hj]
    refine h2 c j ((draws c j).2 ⟨hj, hb, he⟩) ?_
    rw [granted, hc, if_neg hx]
    exact hcut
  · rw [k6 j hj, ← same j hj]
    refine h3 j fun c hcut hd => ?_
    obtain ⟨-, hb, he⟩ := (draws c j).1 hd
    by_cases h : p.ogd.outputs[o].role.circuit = some c
    · rw [tested c h] at hcut
      cases hcut
    · rw [granted, hc, if_neg h, hx c h hb he] at hcut
      cases hcut

/-! ### Tests and trips -/

/-- The end of a test: its record is gone, its result stands in the health record, and nothing else moves
(R127, R130, R131). -/
theorem endTest_items (x : TestOutcome) (p : Plant) (t : TestRecord) (ht : p.ogd.test = some t) :
    (endTest x p).ogd.test = none ∧ (endTest x p).cct = p.cct ∧ (endTest x p).alu = p.alu ∧
      (endTest x p).fct = p.fct ∧ (endTest x p).ogd.trips = p.ogd.trips ∧
      (endTest x p).ogd.outputs[t.output].health.lastTest =
        some ⟨x, t.energizedMs, testMean t, t.peak⟩ ∧
      (∀ o : Fin 6, (endTest x p).ogd.outputs[o].energized = p.ogd.outputs[o].energized ∧
        (endTest x p).ogd.outputs[o].role = p.ogd.outputs[o].role) ∧
      ∀ o : Fin 6, o ≠ t.output → (endTest x p).ogd.outputs[o] = p.ogd.outputs[o] := by
  unfold endTest
  rw [ht]
  refine ⟨rfl, rfl, rfl, rfl, rfl, ?_, fun o => ?_, fun o h => updOut_other p _ o _ h⟩
  · show (Plant.updOut _ _ _).ogd.outputs[t.output].health.lastTest = _
    rw [updOut_row]
  · show (Plant.updOut _ _ _).ogd.outputs[o].energized = _ ∧ (Plant.updOut _ _ _).ogd.outputs[o].role = _
    by_cases h : o = t.output
    · subst h
      rw [updOut_row]
      exact ⟨rfl, rfl⟩
    · rw [updOut_other _ _ _ _ h]
      exact ⟨rfl, rfl⟩

/-- Steps 1 to 3 of a trip: the output is off, CIRCUIT_TRIP is raised; the roles, the circuits, the
allotment, the trip records and a test in progress stay (R123). -/
theorem tripRecorded_items (o : Fin 6) (k : FaultKind) (p : Plant) :
    (tripRecorded o k p).ogd.test = p.ogd.test ∧ (tripRecorded o k p).cct = p.cct ∧
      (tripRecorded o k p).ogd.trips = p.ogd.trips ∧ (tripRecorded o k p).alu = p.alu ∧
      (tripRecorded o k p).fct = p.fct.raise .circuitTrip ∧
      (tripRecorded o k p).ogd.outputs[o].energized = false ∧
      (∀ j : Fin 6, (tripRecorded o k p).ogd.outputs[j].role = p.ogd.outputs[j].role) ∧
      ∀ j : Fin 6, j ≠ o → (tripRecorded o k p).ogd.outputs[j] = p.ogd.outputs[j] := by
  obtain ⟨hcct, hrole, hoff, hfct, halu⟩ := switchOff_facts o p
  have rest : (switchOff o p).ogd.test = p.ogd.test ∧ (switchOff o p).ogd.trips = p.ogd.trips := by
    unfold switchOff
    split <;> exact ⟨rfl, rfl⟩
  unfold tripRecorded
  refine ⟨rest.1, hcct, rest.2, halu, ?_, ?_, fun j => ?_, fun j hj => ?_⟩
  · show (switchOff o p).fct.raise _ = _
    rw [hfct]
  · show (Plant.updOut _ _ _).ogd.outputs[o].energized = _
    rw [updOut_row]
    exact hoff
  · show (Plant.updOut _ _ _).ogd.outputs[j].role = _
    by_cases h : j = o
    · subst h
      rw [updOut_row]
      exact hrole j
    · rw [updOut_other _ _ _ _ h]
      exact hrole j
  · show (Plant.updOut _ _ _).ogd.outputs[j] = _
    rw [updOut_other _ _ _ _ hj, switchOff_row, if_neg fun h => hj h.1]

end Sys2Proof.Machine
end

