-- ==== Sys2Proof/Laws/Swap.lean ====
section
/-! SUPPORT. What a swap leaves: the factors it raises, the missed bids it counts, the line state, and,
while no test is in progress, the grants and starved counts (R29, R36, R39, R43 to R45, R50, R92). -/

namespace Sys2Proof.Machine

/-! ### Factors, rows and reports -/

/-- A raise that depends on a condition sets its factor's status where the condition holds (R177). -/
theorem Plant.held_raiseIf (p : Plant) (b : Bool) (x y : Factor) :
    (p.raiseIf b x).fct.held y = (p.fct.held y || (b && decide (x = y))) := by
  have raised : (p.fct.raise x).held y = (p.fct.held y || decide (x = y)) := by
    show (p.fct.status ||| x.mark).getLsbD _ = _
    rw [BitVec.getLsbD_or]
    unfold Fct.held
    congr 1
    cases x <;> cases y <;> decide
  cases b
  · simp [Plant.raiseIf]
  · simpa [Plant.raiseIf] using raised

/-- Some row of another station, of an address up to `n`, has the status. -/
theorem someRow_iff (s : State) (rows : Vector PeerRow 32) (n : Nat) (st : PeerStatus) :
    someRow s rows n st = true ↔
      ∃ a : Fin 32, a.val + 1 ≤ n ∧ a.val + 1 ≠ s.own ∧ rows[a].status = st := by
  have status : ∀ j : Fin 32, statusOf rows (j.val + 1) = some rows[j].status := fun j => by
    simp [statusOf]
  unfold someRow
  simp only [List.any_eq_true, mem_stationAddresses, Bool.and_eq_true, decide_eq_true_eq]
  constructor
  · rintro ⟨x, h, ⟨h3, h4⟩, h5⟩
    obtain ⟨j, rfl⟩ := exists_place x h
    rw [status] at h5
    exact ⟨j, h3, h4, Option.some.inj h5⟩
  · rintro ⟨j, h1, h2, h3⟩
    exact ⟨j.val + 1, ⟨by omega, by omega⟩, ⟨h1, h2⟩, by rw [status, h3]⟩

/-- Some settled bid of another station carries its alarm summary (R183). -/
theorem peerAlarm_iff (s : State) (b : BidBuffer) :
    (peerBids s b).any BidFrame.alarm = true ↔
      ∃ (a : Fin 32) (x : BidFrame), a.val + 1 ≠ s.own ∧ b[a] = some x ∧ x.alarm = true := by
  unfold peerBids
  simp only [List.any_eq_true, List.mem_filterMap, List.mem_filter, mem_stationAddresses,
    decide_eq_true_eq]
  constructor
  · rintro ⟨x, ⟨a, ⟨h, h3⟩, h4⟩, h5⟩
    obtain ⟨j, rfl⟩ := exists_place a h
    rw [bidOf_succ] at h4
    exact ⟨j, x, h3, h4, h5⟩
  · rintro ⟨j, x, h1, h2, h3⟩
    exact ⟨x, ⟨j.val + 1, ⟨⟨by omega, by omega⟩, h1⟩, by rw [bidOf_succ]; exact h2⟩, h3⟩

/-- The line flows exactly where some report says so and none says otherwise (R45). -/
theorem lineFrom_flowing (l : List FlowReport) : lineFrom l = .flowing ↔ .flow ∈ l ∧ .stop ∉ l := by
  unfold lineFrom
  split
  · simp [*]
  · split <;> simp [*]

/-- The bids whose reports are used: all settled ones, and in a COMPLETE round those of the heard set
(R45). -/
theorem mem_flowBids (f : OpenFrame) (b : BidBuffer) (complete : Bool) (x : BidFrame) :
    x ∈ flowBids (.received f) b complete ↔
      ∃ a : Fin 32, b[a] = some x ∧ (complete = false ∨ inSet f.heard (a.val + 1) = true) := by
  unfold flowBids
  simp only [List.mem_filterMap, List.mem_filter, mem_stationAddresses]
  constructor
  · rintro ⟨a, ⟨h, h3⟩, h4⟩
    obtain ⟨j, rfl⟩ := exists_place a h
    rw [bidOf_succ] at h4
    refine ⟨j, h4, ?_⟩
    cases complete
    · exact .inl rfl
    · exact .inr h3
  · rintro ⟨j, h1, h3⟩
    refine ⟨j.val + 1, ⟨⟨by omega, by omega⟩, ?_⟩, by rw [bidOf_succ]; exact h1⟩
    cases complete
    · rfl
    · exact h3.resolve_left (by simp)

/-- A missed bid of each address of a list is counted in its row, and no other row moves (R43, R152). -/
theorem countMissedBids_row (l : List Nat) (hl : l.Nodup) (hb : ∀ a ∈ l, 1 ≤ a ∧ a ≤ 32) (s : State)
    (i : Fin 32) :
    (l.foldl (fun q a => countMissedBid a q) s).lck.rows[i] =
      if i.val + 1 ∈ l then
        { s.lck.rows[i] with bidsMissed := bump16 s.lck.rows[i].bidsMissed }
      else s.lck.rows[i] := by
  induction l generalizing s with
  | nil => simp
  | cons a l ih =>
    rw [List.nodup_cons] at hl
    obtain ⟨j, rfl⟩ := exists_place a (hb a (by simp))
    have one : (countMissedBid (j.val + 1) s).lck.rows[i] =
        if i = j then { s.lck.rows[i] with bidsMissed := bump16 s.lck.rows[i].bidsMissed }
        else s.lck.rows[i] := by
      unfold countMissedBid updQuality
      rw [place_succ]
      show (updAt s.lck.rows j _)[i] = _
      rw [updAt_get]
      by_cases h : j = i
      · subst h
        simp
      · rw [if_neg h, if_neg fun k => h k.symm]
    rw [List.foldl_cons, ih hl.2 (fun x hx => hb x (by simp [hx])), one]
    by_cases h : i = j
    · subst h
      rw [if_pos rfl, if_neg hl.1, if_pos (by simp)]
    · have other : i.val + 1 ≠ j.val + 1 := fun k => h (Fin.ext (by omega))
      rw [if_neg h]
      simp only [List.mem_cons, other, false_or]

/-! ### The plant and the counts of a swap -/

/-- The plant after a swap: the raises from the peer table, the computation in the new line state, and
PEER_ALARM (R29). -/
theorem swap_plant (kind : AdoptKind) (round : RoundNo) (degraded : Bool) (s : State) :
    let complete := swapVerdict s kind degraded
    let rows := updatedRows s s.rst.collecting
    (swap kind round degraded s).plant =
      (compute { s with rst := rstAfterSwap s kind complete }.env (some round) true
        (swapComputation s kind s.rst.collecting rows complete)
        (swapRaises s kind rows (silentAfter s s.rst.collecting) s.plant)).raiseIf
          ((peerBids s s.rst.collecting).any BidFrame.alarm) .peerAlarm := by
  obtain ⟨r, hr⟩ := countMissedBids_eq (missedBids s kind s.rst.swapBuffers.settledBuf degraded) s
  obtain ⟨-, -, hrows, hsilent, -⟩ := rstAfterSwap_items s kind (swapVerdict s kind degraded)
  unfold swap
  simp only [hr]
  rw [hrows, hsilent, swapBuffers_settledBuf]
  rfl

/-- The plant after an adoption: that of its swap, with DEGRADED raised in MEMBER (R7). -/
theorem adopt_plant (kind : AdoptKind) (round : RoundNo) (opener : Nat) (s : State) :
    (adopt kind round opener s).plant =
      (swap kind round (degradedAlready s kind round) (atSwap kind s)).plant.raiseIf
        (!swapVerdict (atSwap kind s) kind (degradedAlready s kind round) &&
          decide ((atSwap kind s).rct.membership = .member)) .degraded := by
  obtain ⟨r, p, h2⟩ := swap_eq kind round (degradedAlready s kind round) (atSwap kind s)
  simp only [adopt]
  rw [show moveDeclared (adoptMembership kind s) = atSwap kind s from rfl, h2]
  simp only [refillSlots]
  split <;> rfl

/-- The line-quality table after an adoption: the missed bids are counted (R43). -/
theorem adopt_lck (kind : AdoptKind) (round : RoundNo) (opener : Nat) (s : State) :
    (adopt kind round opener s).lck =
      ((missedBids (atSwap kind s) kind s.rst.collecting (degradedAlready s kind round)).foldl
        (fun q a => countMissedBid a q) (atSwap kind s)).lck := by
  have swapped : (swap kind round (degradedAlready s kind round) (atSwap kind s)).lck =
      ((missedBids (atSwap kind s) kind s.rst.collecting (degradedAlready s kind round)).foldl
        (fun q a => countMissedBid a q) (atSwap kind s)).lck := by
    obtain ⟨r, e⟩ := atSwap_eq kind s
    unfold swap
    rw [swapBuffers_settledBuf, e]
  rw [← swapped]
  unfold adopt
  dsimp only [refillSlots]
  split <;> rfl

/-- A factor that the plant does not raise stands after a computation as before it. -/
theorem compute_held (e : Env) (round : Option RoundNo) (swap : Bool) (x : Computation) (p : Plant)
    (y : Factor) (hy : plantCodes.getLsbD (y.code - 1) = false) :
    (compute e round swap x p).fct.held y = p.fct.held y :=
  (compute_reach e round swap x p).held y hy

/-! ### While no test is in progress -/

/-- What cuts, trips and failures leave while no test is in progress: the grants, the starved counts and
STARVED, the allotment table, the results of tests; and no test begins. -/
structure Untested (p q : Plant) : Prop where
  grant : ∀ c : Fin 6, q.cct[c].grant = p.cct[c].grant
  starved : ∀ c : Fin 6, q.cct[c].starved = p.cct[c].starved
  result : ∀ o : Fin 6, q.ogd.outputs[o].health.lastTest = p.ogd.outputs[o].health.lastTest
  test : q.ogd.test = none
  held : q.fct.held .starved = p.fct.held .starved
  alu : q.alu = p.alu

theorem Untested.refl {p : Plant} (h : p.ogd.test = none) : Untested p p :=
  ⟨fun _ => rfl, fun _ => rfl, fun _ => rfl, h, rfl, rfl⟩

theorem Untested.trans {p q r : Plant} (h : Untested p q) (k : Untested q r) : Untested p r :=
  ⟨fun c => (k.grant c).trans (h.grant c), fun c => (k.starved c).trans (h.starved c),
    fun o => (k.result o).trans (h.result o), k.test, k.held.trans h.held, k.alu.trans h.alu⟩

theorem Untested.updCct {p : Plant} (h : p.ogd.test = none) (c : Fin 6)
    (f : CircuitRow → CircuitRow) (hf : ∀ r, (f r).grant = r.grant ∧ (f r).starved = r.starved) :
    Untested p (p.updCct c f) := by
  refine ⟨updCct_grant p c f fun r => (hf r).1, fun j => ?_, fun _ => rfl, h, rfl, rfl⟩
  by_cases hj : j = c
  · rw [hj, updCct_row, (hf _).2]
  · rw [updCct_other _ _ _ _ hj]

theorem Untested.updOut {p : Plant} (h : p.ogd.test = none) (o : Fin 6)
    (f : OutputRow → OutputRow) (hf : ∀ r, (f r).health.lastTest = r.health.lastTest) :
    Untested p (p.updOut o f) := by
  refine ⟨fun _ => rfl, fun _ => rfl, fun j => ?_, h, rfl, rfl⟩
  by_cases hj : j = o
  · rw [hj, updOut_row, hf]
  · rw [updOut_other _ _ _ _ hj]

theorem Untested.updTrip {p : Plant} (h : p.ogd.test = none) (c : Fin 6) (f : TripRec → TripRec) :
    Untested p (p.updTrip c f) := ⟨fun _ => rfl, fun _ => rfl, fun _ => rfl, h, rfl, rfl⟩

theorem Untested.raised {p : Plant} (h : p.ogd.test = none) (x : Factor) (hx : x ≠ .starved) :
    Untested p (p.raise x) := by
  refine ⟨fun _ => rfl, fun _ => rfl, fun _ => rfl, h, ?_, rfl⟩
  have := Plant.held_raiseIf p true x .starved
  rw [Bool.true_and, decide_eq_false hx, Bool.or_false] at this
  exact this

theorem not_underTest {p : Plant} (h : p.ogd.test = none) (o : Fin 6) : p.ogd.underTest o = false := by
  simp [Ogd.underTest, h]

theorem switchOff_untested (o : Fin 6) {p : Plant} (h : p.ogd.test = none) :
    Untested p (switchOff o p) := by
  unfold switchOff
  split
  · exact (Untested.updOut h o (offRow p.free) fun _ => rfl).trans
      ⟨fun _ => rfl, fun _ => rfl, fun _ => rfl, h, rfl, rfl⟩
  · exact Untested.refl h

theorem settleBound_untested (e : Env) (c q : Fin 6) {p : Plant} (h : p.ogd.test = none) :
    Untested p (settleBound e c q p) := by
  have settling : Untested p (enterSettling e c p) := Untested.updCct h c _ fun _ => ⟨rfl, rfl⟩
  unfold settleBound
  dsimp only
  split
  · exact settling.trans (Untested.updCct settling.test c _ fun _ => ⟨rfl, rfl⟩)
  · exact settling

theorem failWith_untested (respread : Env → Plant → Plant) (e : Env) (c o : Fin 6) {p : Plant}
    (h : p.ogd.test = none) : Untested p (failWith respread e c o p) := by
  have out : Untested p (p.updOut o fun r => { r with role := .bad }) :=
    Untested.updOut h o _ fun _ => rfl
  have bad : Untested p ((p.updOut o fun r => { r with role := .bad }).raise .circuitFailed) :=
    out.trans (Untested.raised out.test .circuitFailed (by decide))
  unfold failWith
  generalize (p.updOut o fun r => { r with role := .bad }).raise .circuitFailed = q at bad ⊢
  have cleared : clearSpare respread e q = q := by
    unfold clearSpare
    split
    · rw [not_underTest bad.test]
      rfl
    · rfl
  rw [cleared]
  refine bad.trans ?_
  unfold takeSpare
  split
  · rename_i s _
    have role : Untested q (q.updOut s fun r => { r with role := .spareBound c, openCount := 0 }) :=
      Untested.updOut bad.test s _ fun _ => rfl
    have bound : Untested q (bindSpare c s q) := role.trans (Untested.updTrip role.test c _)
    exact bound.trans (settleBound_untested e c s bound.test)
  · exact Untested.raised bad.test _ (by decide)

theorem tripWith_untested (respread : Env → Plant → Plant) (e : Env) (o : Fin 6) (k : FaultKind)
    {p : Plant} (h : p.ogd.test = none) : Untested p (tripWith respread e o k p) := by
  have off := switchOff_untested o h
  have row : Untested (switchOff o p) ((switchOff o p).updOut o fun r =>
      { r with
        openCount := 0,
        health :=
          { r.health with
            tripTotal := satAdd 65535 r.health.tripTotal 1, lastFault := some k } }) :=
    Untested.updOut off.test o _ fun _ => rfl
  have recorded : Untested p (tripRecorded o k p) :=
    (off.trans row).trans (Untested.raised row.test .circuitTrip (by decide))
  unfold tripWith
  split
  · dsimp only
    rw [not_underTest h]
    refine recorded.trans ?_
    generalize tripRecorded o k p = q at recorded ⊢
    split
    · rename_i c _
      have counted : Untested q (q.updTrip c fun _ => ⟨q.ogd.trips[c].count + 1, 0, 0⟩) :=
        Untested.updTrip recorded.test c _
      refine counted.trans ?_
      split
      · unfold tripBelow
        dsimp only
        rw [if_neg (by simp)]
        have held := Untested.updOut counted.test o
          (fun r => { r with holdOff := some (e.img.holdOff * 1000) }) fun _ => rfl
        exact held.trans (Untested.updCct held.test c (idleRow .tripped) fun _ => ⟨rfl, rfl⟩)
      · unfold tripLast
        dsimp only
        rw [if_neg (by simp)]
        have failed := Untested.updCct counted.test c (idleRow .failed) fun _ => ⟨rfl, rfl⟩
        exact failed.trans (failWith_untested respread e c o failed.test)
    · unfold tripSpare
      rw [if_neg (by simp)]
      exact Untested.refl recorded.test
  · exact Untested.refl h

theorem endPeriodWith_untested (respread : Env → Plant → Plant) (e : Env) (c : Fin 6) {p : Plant}
    (h : p.ogd.test = none) : Untested p (endPeriodWith (tripWith respread) e c p) := by
  unfold endPeriodWith
  split
  · exact Untested.refl h
  · rename_i o _
    have count : ∀ n : OutputRow → Nat, Untested p (p.updOut o fun r => { r with openCount := n r }) :=
      fun _ => Untested.updOut h o _ fun _ => rfl
    dsimp only
    split
    · split
      · exact switchOff_untested o h
      · split
        · split
          · exact (count fun r => r.openCount + 1).trans
              (tripWith_untested respread e o .openElement (count _).test)
          · exact (count fun r => r.openCount + 1).trans (switchOff_untested o (count _).test)
        · exact (count fun _ => 0).trans (switchOff_untested o (count _).test)
    · exact Untested.refl h

/-- Grants handed over while no test is in progress: every circuit holds its new grant, whatever is cut
(R50, R90). -/
theorem handGrantsWith_untested (respread : Env → Plant → Plant) (e : Env) (g : Vector Nat 6)
    {p : Plant} (h : p.ogd.test = none) :
    Untested { p with cct := mapRows p.cct fun c r => grantedRow e p c g[c] r }
      (handGrantsWith (tripWith respread) e g p) := by
  have fold : ∀ (l : List (Fin 6)) (b : Fin 6 → Bool) (q : Plant), q.ogd.test = none →
      Untested q (l.foldl
        (fun q c => if b c then endPeriodWith (tripWith respread) e c q else q) q) := by
    intro l b
    induction l with
    | nil => exact fun q k => Untested.refl k
    | cons c l ih =>
      intro q k
      rw [List.foldl_cons]
      split
      · have ended := endPeriodWith_untested respread e c k
        exact ended.trans (ih _ ended.test)
      · exact ih _ k
  unfold handGrantsWith
  exact fold _ (fun c => cutNow e p.cct[c] _) _ h

/-- The computation of a swap while no test is in progress (R49, R50, R92). -/
theorem compute_untested (e : Env) (round : Option RoundNo) (x : Computation) (p : Plant)
    (h : p.ogd.test = none) :
    compute e round true x p =
      starvedUpdate (handGrants e (grantsByKind e { p with alu := allotTable e round x })
        { p with alu := allotTable e round x }) := by
  unfold compute
  dsimp only
  rw [h]
  rfl

/-- The local spread reads the circuits alone (R59). -/
theorem localSpread_congr (p q : Plant) (n : Nat) (h : p.cct = q.cct) :
    localSpread p n = localSpread q n := by
  have spread : ∀ (l : List (Fin 6)) (m : Nat) (g : Vector Nat 6),
      spreadOver p m g l = spreadOver q m g l := by
    intro l
    induction l with
    | nil => exact fun _ _ => rfl
    | cons c l ih =>
      intro m g
      simp only [spreadOver]
      rw [h]
      exact ih _ _
  unfold localSpread
  rw [spread]
  congr 1
  unfold localOrder localKey
  rw [h]

end Sys2Proof.Machine
end

