-- ==== Sys2Proof/Laws/Respread.lean ====
section
/-! SUPPORT. The grants of a re-spread and of a retirement: what the local spread and the grants by kind read of
the circuits, what a re-spread with every output off leaves, and the rows of the circuits that are disabled
together (R15, R50, R59, R62, R66, R72, R87, R124). -/

namespace Sys2Proof.Machine

/-! ### What a spread reads -/

/-- An insertion depends on the comparisons with the new element alone. -/
theorem insertBy_congr {α : Type} (f g : α → α → Bool) (x : α) (l : List α)
    (h : ∀ y ∈ l, f y x = g y x) : insertBy f x l = insertBy g x l := by
  induction l with
  | nil => rfl
  | cons y l ih =>
    simp only [insertBy]
    rw [h y (by simp), ih fun z hz => h z (by simp [hz])]

/-- Ordering depends on the comparisons among the list's own elements alone. -/
theorem sortBy_congr {α : Type} (f g : α → α → Bool) (l : List α)
    (h : ∀ x ∈ l, ∀ y ∈ l, f y x = g y x) : sortBy f l = sortBy g l := by
  induction l with
  | nil => rfl
  | cons a l ih =>
    simp only [sortBy]
    rw [ih fun x hx y hy => h x (by simp [hx]) y (by simp [hy])]
    refine insertBy_congr f g a _ fun y hy => h a (by simp) y ?_
    rw [mem_sortBy] at hy
    simp [hy]

/-- A spread reads the needs of the circuits it runs over. -/
theorem spreadOver_congr (p q : Plant) (l : List (Fin 6))
    (h : ∀ c ∈ l, p.cct[c].need = q.cct[c].need) (n : Nat) (g : Vector Nat 6) :
    spreadOver p n g l = spreadOver q n g l := by
  induction l generalizing n g with
  | nil => rfl
  | cons c l ih =>
    simp only [spreadOver]
    rw [h c (by simp), ih fun d hd => h d (by simp [hd])]

/-- A circuit takes part in a local spread (R59). -/
def spreads (p : Plant) (c : Fin 6) : Bool :=
  p.cct[c].state.energizable && decide (0 < p.cct[c].need)

/-- Two plants agree on what a local spread reads: which circuits take part, and the keys and needs of those. -/
def SpreadAgrees (p q : Plant) : Prop :=
  ∀ c : Fin 6, spreads p c = spreads q c ∧
    (spreads p c = true → localKey p c = localKey q c ∧ p.cct[c].need = q.cct[c].need)

/-- The local spread reads the circuits that take part, their keys and their needs (R59). -/
theorem localSpread_agree (p q : Plant) (n : Nat) (h : SpreadAgrees p q) :
    localSpread p n = localSpread q n := by
  have part : sixIds.filter (fun c => p.cct[c].state.energizable && decide (0 < p.cct[c].need)) =
      sixIds.filter fun c => q.cct[c].state.energizable && decide (0 < q.cct[c].need) := by
    congr 1
    funext c
    exact (h c).1
  have order : localOrder p = localOrder q := by
    unfold localOrder
    rw [← part]
    refine sortBy_congr _ _ _ fun x hx y hy => ?_
    rw [((h x).2 (List.mem_filter.1 hx).2).1, ((h y).2 (List.mem_filter.1 hy).2).1]
  unfold localSpread
  rw [← order]
  refine spreadOver_congr p q _ (fun c hc => ((h c).2 ?_).2) _ _
  unfold localOrder at hc
  rw [mem_sortBy] at hc
  exact (List.mem_filter.1 hc).2

/-- The grants by kind read the address, the allotment in force and what a local spread reads (R50). -/
theorem grantsByKind_agree (e f : Env) (p q : Plant) (address : e.own = f.own) (h : SpreadAgrees p q)
    (division : p.alu.division = q.alu.division) (own : p.alu.own = q.alu.own) :
    grantsByKind e p = grantsByKind f q := by
  unfold grantsByKind
  rw [address, division, own, localSpread_agree p q _ h]

/-! ### A re-spread with every output off -/

/-- With every output off a re-spread hands each circuit its grant by kind, without the deduction, and changes
nothing else (R66). -/
theorem respread_off (e : Env) (p : Plant) (h : ∀ o : Fin 6, p.ogd.outputs[o].energized = false) :
    let u := { p with alu := { p.alu with deduction := none } }
    respread e p = { u with cct := mapRows p.cct fun c r => grantedRow e u c (grantsByKind e u)[c] r } :=
  handGrantsWith_off tripUntested e _ _ h

/-- The grants in force after a re-spread with every output off are the grants by kind of the plant it leaves. -/
theorem respread_off_grants (e : Env) (p : Plant)
    (h : ∀ o : Fin 6, p.ogd.outputs[o].energized = false) :
    grantsInForce (respread e p) = grantsByKind e (respread e p) := by
  have row : ∀ c : Fin 6, (respread e p).cct[c] = grantedRow e
      { p with alu := { p.alu with deduction := none } } c
      (grantsByKind e { p with alu := { p.alu with deduction := none } })[c] p.cct[c] := by
    intro c
    rw [respread_off e p h]
    simp only [mapRows_get]
  have alu : (respread e p).alu = { p.alu with deduction := none } := by rw [respread_off e p h]
  have found : grantsInForce (respread e p) =
      grantsByKind e { p with alu := { p.alu with deduction := none } } := by
    unfold grantsInForce
    refine Vector.ext fun i hi => ?_
    rw [Vector.getElem_ofFn]
    exact congrArg CircuitRow.grant (row ⟨i, hi⟩)
  rw [found]
  refine grantsByKind_agree e e _ _ rfl (fun c => ?_) (by rw [alu]) (by rw [alu])
  unfold spreads localKey
  rw [row c]
  exact ⟨rfl, fun _ => ⟨rfl, rfl⟩⟩

/-! ### The circuits disabled together -/

/-- Disabling a circuit writes its row alone. -/
theorem disableCircuit_row (c : Fin 6) (p : Plant) (j : Fin 6) :
    (disableCircuit c p).cct[j] = if j = c then disabledRow p.cct[c] else p.cct[j] := by
  obtain ⟨q, shape, rows⟩ : ∃ q : Plant, disableCircuit c p = q.updCct c disabledRow ∧ q.cct = p.cct := by
    refine ⟨_, rfl, ?_⟩
    split
    · show (switchOff _ p).cct = _
      unfold switchOff
      split <;> rfl
    · rfl
  rw [shape]
  by_cases h : j = c
  · subst h
    rw [updCct_row, if_pos rfl, rows]
  · rw [updCct_other _ _ _ _ h, if_neg h, rows]

/-- Circuits disabled one after another: each of the list is disabled, the others stay. -/
theorem disableEach_row (l : List (Fin 6)) (p : Plant) (j : Fin 6) :
    (l.foldl (fun q c => disableCircuit c q) p).cct[j] =
      if j ∈ l then disabledRow p.cct[j] else p.cct[j] := by
  induction l generalizing p with
  | nil => simp
  | cons c l ih =>
    rw [List.foldl_cons, ih, disableCircuit_row]
    by_cases h : j = c
    · subst h
      by_cases m : j ∈ l <;> simp [m, disabledRow]
    · simp [h]

/-- All six circuits disabled: every row is a disabled one and no window is running (R72, R87, R124). -/
theorem disableAll_row (p : Plant) (c : Fin 6) :
    (disableAll p).cct[c] = { disabledRow p.cct[c] with toNext := none } := by
  have each := disableEach_row sixIds p c
  rw [if_pos (mem_sixIds c)] at each
  unfold disableAll stopWindows
  rw [← each]
  exact mapRows_get _ _ c

end Sys2Proof.Machine
end

