-- ==== Sys2Proof/Laws/Samples.lean ====
section
/-! SUPPORT. The samples of every energized period stay in order, whatever a step does (R119). -/

namespace Sys2Proof.Machine

/-- The samples of every output are in order. -/
def AllKept (p : Plant) : Prop := ∀ o : Fin 6, WindowKept p.ogd.outputs[o]

theorem AllKept.reach {p q : Plant} (h : AllKept p) (r : Reach p q) : AllKept q :=
  fun o => r.samples o (h o)

theorem AllKept.alike {p q : Plant} (h : AllKept p) (a : Alike p q) : AllKept q :=
  fun o => a.samples o (h o)

theorem AllKept.updOut {p : Plant} (h : AllKept p) (o : Fin 6) (f : OutputRow → OutputRow)
    (hw : WindowKept (f p.ogd.outputs[o])) : AllKept (p.updOut o f) := fun j => by
  by_cases e : j = o
  · rw [e, updOut_row]
    exact hw
  · rw [updOut_other _ _ _ _ e]
    exact h j

theorem AllKept.energize {p : Plant} (h : AllKept p) (e : Env) (o : Fin 6) :
    AllKept (energize e o p) := by
  have on : AllKept (switchOn e o p) :=
    (h.updOut o (fun r => { r with energized := true, periodMs := 0, loadSum := 0, recent := [] })
      (PeriodBegun.kept ⟨rfl, rfl, rfl⟩)).alike (notePeak_alike e o _)
  unfold Machine.energize
  dsimp only
  split
  · exact on.reach (tripOutput_reach e o .leakage _)
  · exact on

theorem AllKept.compute {p : Plant} (h : AllKept p) (e : Env) (round : Option RoundNo) (swap : Bool)
    (x : Computation) : AllKept (compute e round swap x p) :=
  AllKept.reach (p := { p with alu := allotTable e round x }) h (compute_reach e round swap x p)

theorem windowStart_samples (e : Env) (c : Fin 6) {p : Plant} (h : AllKept p) :
    AllKept (windowStart e c p) := by
  have begun : AllKept (p.updCct c fun r => { r with toNext := some e.windowMs }) := h
  unfold windowStart
  split
  · dsimp only
    split
    · have judged := begun.reach
        (((endPeriod_reach e c _).trans (windowRaises_reach c _)).trans (evaluate_reach e c _))
      unfold requestOutput
      split
      · split
        · exact judged.energize e _
        · exact judged
      · exact judged
    · exact begun
  · exact h

theorem limitChange_samples (o : Fin 6) (isOpen : Bool) (e : Env) {p : Plant} (h : AllKept p) :
    AllKept (limitChange o isOpen e p) := by
  have set := h.updOut o (fun r => { r with limit := filterTo isOpen r.limit }) (h o)
  unfold limitChange
  dsimp only
  split
  · split
    · exact set.reach (limitOpened_reach e o _)
    · exact set.reach (limitClosed_reach e o _)
  · exact set

theorem startTest_samples (e : Env) (o : Fin 6) (seconds : Nat) {p : Plant} (h : AllKept p) :
    AllKept (startTest e o seconds p) := by
  obtain ⟨q, hq, load, g, hs, -⟩ := startTest_shape e o seconds p
  have begun : AllKept q := by
    rw [hq]
    split
    · have off := AllKept.reach (p := p.setTest
        (some ⟨o, p.ogd.outputs[o].role.circuit, seconds, e.now, 0, 0, 0⟩)) h (switchOff_reach o _)
      exact off.reach (Reach.updCct _ _ _ rfl)
    · exact h
  have handed := AllKept.reach (p := { q with alu := { q.alu with deduction := some (o, load) } }) begun
    (handGrants_reach e g _)
  rw [hs]
  split
  · exact handed.energize e o
  · exact handed

/-- Every move of the plant keeps the samples in order. -/
theorem plantMove_samples {e : Env} {p q : Plant} (m : PlantMove e p q) (h : AllKept p) : AllKept q := by
  cases m with
  | windowStart c => exact windowStart_samples e c h
  | endPeriod c => exact h.reach (endPeriod_reach e c p)
  | settleExpiry c => exact h.reach (settleExpiry_reach e c p)
  | limitChange o b => exact limitChange_samples o b e h
  | trip o k => exact h.reach (tripOutput_reach e o k p)
  | holdOffExpiry o => exact h.reach (holdOffExpiry_reach o e p)
  | startTest o n _ => exact startTest_samples e o n h
  | finishTest => exact h.reach (finishTest_reach e p)
  | compute round swap x _ => exact h.compute e round swap x

theorem enterListen_samples (s : State) (h : AllKept s.plant) : AllKept (enterListen s).plant := by
  obtain ⟨e0, e1, e2, hp⟩ : ∃ e0 e1 e2 : Env, (enterListen s).plant =
      compute e2 none false .capped (circuitsIntoService e1
        (loadRoles e0 { s.plant with fct := s.plant.fct.setMask s.img.mask })) :=
    ⟨_, _, _, rfl⟩
  rw [hp]
  refine AllKept.compute ?_ _ _ _ _
  have loaded : AllKept (loadRoles e0 { s.plant with fct := s.plant.fct.setMask s.img.mask }) := by
    refine AllKept.reach ?_ (foldl_reach _ (fun p c => loadSpare_reach e0 c p) _ _)
    intro o
    show WindowKept (mapRows s.plant.ogd.outputs (loadedRow e0))[o]
    rw [mapRows_get]
    exact h o
  have served := loaded.reach (foldl_reach _ (fun p c => leaveDisabled_reach e1 c p) sixIds _)
  unfold circuitsIntoService
  generalize sixIds.foldl (fun q c => leaveDisabled e1 c q) _ = q at served ⊢
  exact served

theorem disableAll_samples {p : Plant} (h : AllKept p) : AllKept (disableAll p) := by
  have disabled := h.reach (foldl_reach _ (fun p c => disableCircuit_reach c p) sixIds p)
  unfold disableAll
  generalize sixIds.foldl (fun q c => disableCircuit c q) p = q at disabled ⊢
  exact disabled

theorem restartTaken_samples (s : State) : AllKept (restartTaken s).plant := by
  intro o
  show WindowKept (mapRows (allOff s.plant).ogd.outputs fun _ r => restartRow r)[o]
  rw [mapRows_get]
  exact PeriodBegun.kept ⟨rfl, rfl, rfl⟩

/-- Every move of the station keeps the samples in order. -/
theorem move_samples {s t : State} (m : Move s t) (h : AllKept s.plant) : AllKept t.plant := by
  cases m with
  | alike hp hc => exact h.alike hp
  | plant k => exact plantMove_samples k h
  | listen u hr => exact enterListen_samples { s with sul := u } h
  | blocked u hr =>
    obtain ⟨e, p, hp, h1⟩ : ∃ (e : Env) (p : Plant), p = (s.raise .configBad).plant ∧
        (enterBlocked { s with sul := u }).plant = compute e none false .noAllot p := ⟨_, _, rfl, rfl⟩
    rw [h1, hp]
    exact (h.alike (Alike.raise s.plant .configBad)).compute _ _ _ _
  | retired =>
    obtain ⟨e, w, h1, h2, _, _, _⟩ := enterRetired_computes s
    have raised : AllKept w.plant := by
      rw [h2]
      exact h.alike (Alike.raise s.plant .retired)
    have done := (disableAll_samples raised).compute e none false .noAllot
    rw [h1]
    generalize compute e none false .noAllot (disableAll w.plant) = p at done ⊢
    exact done
  | restart => exact restartTaken_samples s

end Sys2Proof.Machine
end

