-- ==== Sys2Proof/Laws/Service.lean ====
section
/-! SUPPORT. What a command of the service tool comes to: its form, its judgement (R161), and its
reception as an addressed or a broadcast frame (R162, R163). -/

namespace Sys2Proof.Machine

/-! ### Form (R161, stage 1) -/

theorem commandFormOk_clear (a b c : Byte) (h : factorSetAt [a, b, c] 0 &&& unnamedCodes = 0) :
    commandFormOk 1 [a, b, c] = true := decide_eq_true h

theorem commandFormOk_mask (a b c : Byte) (h : factorSetAt [a, b, c] 0 &&& unnamedCodes = 0) :
    commandFormOk 2 [a, b, c] = true := decide_eq_true h

theorem commandFormOk_test (o n : Byte)
    (h : 1 ≤ o.toNat ∧ o.toNat ≤ 6 ∧ 1 ≤ n.toNat ∧ n.toNat ≤ 60) :
    commandFormOk 3 [o, n] = true := decide_eq_true h

theorem commandFormOk_linecheck (k a b : Byte) (h : k ≠ 0) : commandFormOk 4 [k, a, b] = true :=
  decide_eq_true h

theorem commandFormOk_retire (a : Byte) (h : 1 ≤ a.toNat ∧ a.toNat ≤ 32) :
    commandFormOk 5 [a] = true := decide_eq_true h

theorem command_wf (d tag k : Byte) (args : List Byte) (hd : isDestination d = true)
    (ha : args.length ≤ 56) : Request.wf (.command ⟨d, tag, k, args⟩) = true := by
  simp [Request.wf, hd, ha]

/-! ### Judgement (R161) -/

/-- A command of good form that reaches stage 4 is served by its kind. -/
theorem judgeRequest_served (d tag k : Byte) (args : List Byte) (s : State)
    (hf : commandFormOk k.toNat args = true) (hret : k ≠ 5 ∨ d = 255)
    (hb : s.rct.membership ≠ .blocked ∨ k = 6) :
    judgeRequest (.command ⟨d, tag, k, args⟩) s = serveCommand k.toNat args s := by
  have h1 : formOk s (.command ⟨d, tag, k, args⟩) = true := hf
  have h2 : addressedRetire (.command ⟨d, tag, k, args⟩) = false := by
    simp only [addressedRetire, decide_eq_false_iff_not]
    exact fun ⟨a, b⟩ => hret.elim (fun h => h a) (fun h => b h)
  have h3 : servedIn s.rct.membership (.command ⟨d, tag, k, args⟩) = true := by
    simp only [servedIn]
    rcases hb with h | h <;> simp [h]
  simp [judgeRequest, h1, h2, h3]

/-- A command of good form other than RESTART is REFUSED in BLOCKED (R164). -/
theorem judgeRequest_blocked (d tag k : Byte) (args : List Byte) (s : State)
    (hf : commandFormOk k.toNat args = true) (hb : s.rct.membership = .blocked) (hk : k ≠ 6) :
    judgeRequest (.command ⟨d, tag, k, args⟩) s = (.refused, s) := by
  have h1 : formOk s (.command ⟨d, tag, k, args⟩) = true := hf
  have h3 : servedIn s.rct.membership (.command ⟨d, tag, k, args⟩) = false := by
    rw [servedIn, hb, decide_eq_false hk]
    rfl
  simp only [judgeRequest, h1, h3]
  simp

/-! ### Reception (R162, R163) -/

/-- An addressed command leaves the state its judgement leaves, with the answer in the REPLY slot. -/
theorem receive_command (d tag k : Byte) (args : List Byte) (s : State) (hr : canReceive s = true)
    (hd : d.toNat = s.own) (ha : args.length ≤ 56) (r : Result) (t : State)
    (h : judgeRequest (.command ⟨d, tag, k, args⟩) (afterRequest s) = (r, t)) :
    receive (commandFrame d tag k args) s = placeReply (commandReply s tag k r) t := by
  unfold commandFrame
  rw [receive_addressed (.command ⟨d, tag, k, args⟩) s hr
    (command_wf _ _ _ _ (isDestination_own d s hd) ha) hd, h]
  rfl

/-- A broadcast command leaves the state its judgement leaves, where no restart is due there. -/
theorem receive_command_broadcast (tag k : Byte) (args : List Byte) (s : State)
    (hr : canReceive s = true) (ha : args.length ≤ 56) (r : Result) (t : State)
    (h : judgeRequest (.command ⟨255, tag, k, args⟩) (afterRequest s) = (r, t))
    (hp : NoRestartDue t) : receive (commandFrame 255 tag k args) s = t := by
  unfold commandFrame
  rw [receive_broadcast (.command ⟨255, tag, k, args⟩) s hr (command_wf _ _ _ _ rfl ha) rfl, h,
    takeRestart_notDue _ hp]

end Sys2Proof.Machine
end

