-- ==== Sys2Proof/Laws/Settling.lean ====
section
/-! SUPPORT. An adoption said once: what it leaves in the Round Controller and the slots (`Adopted`), and
what its swap settles (`SwapSettles`), for a received OPEN, the own OPEN and a late adoption alike. -/

namespace Sys2Proof.Machine

/-- The heard set that an adoption holds. -/
def AdoptKind.heard (kind : AdoptKind) : Option AddrSet := kind.frame.map OpenFrame.heard

/-- The digest of the OPEN that an adoption takes. -/
def AdoptKind.digests (kind : AdoptKind) : List Word16 := kind.frame.toList.map OpenFrame.digest

/-! ### The Round Controller and the slots -/

theorem atSwap_listenTimer (kind : AdoptKind) (s : State) (h : s.rct.membership ≠ .listen) :
    (atSwap kind s).rct.listenTimer = s.rct.listenTimer := by
  unfold atSwap moveDeclared adoptMembership
  cases hm : s.rct.membership <;> dsimp only [updRct]
  case listen => exact absurd hm h
  case joining =>
    split <;> rfl

/-- A station that bids before an adoption bids after it (R18, R20). -/
theorem memberAfter_bids (m : Membership) (n : Nat) (heard : Bool) (h : m.bids = true) :
    (memberAfter m n heard).bids = true := by
  cases m <;> simp_all [Membership.bids, memberAfter]
  cases heard <;> rfl

theorem adopt_adopted (kind : AdoptKind) (round : RoundNo) (opener : Nat) (s : State)
    (ho : s.lif.openSlot.isSending = false)
    (hb : s.rct.membership.bids = true ∨ s.lif.bidSlot.isSending = false) :
    Adopted kind.heard round opener s (adopt kind round opener s) := by
  have r := adopt_rct kind round opener s
  obtain ⟨m, dc, dn, lj⟩ := atSwap_rct kind s
  obtain ⟨-, -, -, -, -, -, reply, test, -⟩ := adopt_periphery kind round opener s
  obtain ⟨os, bs⟩ := adopt_slots kind round opener s
  have bids := memberAfter_bids s.rct.membership s.rct.listenAdoptions
    (kind.frame.any fun f => inSet f.heard s.own)
  have hm : (adopt kind round opener s).rct.membership = (atSwap kind s).rct.membership := by rw [r]
  have heard : (kind.heard.any fun h => inSet h s.own) =
      kind.frame.any fun f => inSet f.heard s.own := by
    unfold AdoptKind.heard
    cases kind.frame <;> rfl
  refine ⟨by rw [r]; exact ⟨rfl, rfl⟩, by rw [r]; exact ⟨dc, dn⟩, ?_, ?_, by rw [r]; rfl, ?_, ?_, ?_,
    reply, test⟩
  · rw [hm, m, heard]
  · rw [r]
    exact atSwap_adoptions kind s
  · have timer : (adopt kind round opener s).rct.listenTimer =
        if (atSwap kind s).rct.membership = .listen then some s.listenTimerMs
        else (atSwap kind s).rct.listenTimer := by rw [r]
    rw [hm, timer]
    by_cases h : (atSwap kind s).rct.membership = .listen
    · rw [if_pos h, if_pos h]
      rfl
    · rw [if_neg h, if_neg h]
      by_cases hl : s.rct.membership = .listen
      · rw [if_pos hl]
        refine lj hl ?_
        rw [m, hl] at h ⊢
        unfold memberAfter at h ⊢
        by_cases hk : 1 ≤ s.rct.listenAdoptions
        · exact if_pos hk
        · exact absurd (if_neg hk) h
      · rw [if_neg hl]
        exact atSwap_listenTimer kind s hl
  · rw [os]
    exact discard_empty _ ho
  · rw [bs, hm]
    rcases hb with hb | hb
    · rw [← m] at bids
      rw [if_pos (bids hb), if_pos (bids hb)]
    · rw [discard_empty _ hb]

/-- An adoption reads of the state before it the Round Controller, the image and the two other slots. -/
theorem Adopted.of_eq {heard : Option AddrSet} {round : RoundNo} {opener : Nat} {u s t : State}
    (rct : u.rct = s.rct) (sul : u.sul = s.sul) (reply : u.lif.replySlot = s.lif.replySlot)
    (test : u.lif.testSlot = s.lif.testSlot) (h : Adopted heard round opener u t) :
    Adopted heard round opener s t := by
  obtain ⟨h1, h2, h3, h4, h5, h6, h7, h8, h9⟩ := h
  have own : u.own = s.own := by unfold State.own; rw [sul]
  have img : u.img = s.img := by unfold State.img; rw [sul]
  rw [rct] at h2 h3 h4 h6
  rw [own] at h3
  rw [img] at h5 h6
  rw [sul] at h5
  rw [reply, test] at h9
  exact ⟨h1, h2, h3, h4, h5, h6, h7, h8, h9⟩

/-! ### The peer rows -/

/-- The row of a peer after a swap, in the terms of R35 to R38. -/
theorem peerRow_settled (digest : Option Word16) (stale : Nat) (x : Option BidFrame) (r t : PeerRow)
    (h : t =
      match x with
      | some b => heardRow (decide (some b.digest ≠ digest)) b r
      | none => missedRow stale r) :
    (∀ b, x = some b → ¬(r.status = .retired ∧ r.returnMark = false) →
      t = ⟨if digest ≠ some b.digest then .mismatched
        else if b.member then .present else .joining, 0, some b, some b.round, false⟩) ∧
    (∀ b, x = some b → r.status = .retired → r.returnMark = false →
      t = { r with lastBid := some b, lastRound := some b.round }) ∧
    (x = none →
      (r.status ∈ [PeerStatus.unknown, .retired] → t = { r with returnMark := false }) ∧
      (r.status = .absent →
        t = { r with missCount := min 7 (r.missCount + 1), returnMark := false }) ∧
      (r.status ∈ [PeerStatus.present, .joining, .stale, .mismatched] →
        t =
          { r with
            missCount := min 7 (r.missCount + 1),
            status := if min 7 (r.missCount + 1) < stale then .stale else .absent,
            returnMark := false })) := by
  subst h
  refine ⟨fun b hb hne => ?_, fun b hb h1 h2 => ?_, fun hb => ⟨?_, ?_, ?_⟩⟩ <;> subst hb
  · simp only [heardRow]
    rw [if_neg]
    · simp only [statusFrom, decide_eq_true_eq]
      simp only [ne_comm]
    · simp only [Bool.and_eq_true, decide_eq_true_eq, Bool.not_eq_true', not_and,
        Bool.not_eq_false]
      intro h1
      by_contra h2
      exact hne ⟨h1, by simpa using h2⟩
  · simp [heardRow, h1, h2]
  · simp only [missedRow]
    intro hm
    simp only [List.mem_cons, List.not_mem_nil, or_false] at hm
    rcases hm with hm | hm <;> rw [hm]
  · simp only [missedRow]
    intro hm
    rw [hm]
    rfl
  · simp only [missedRow]
    intro hm
    simp only [List.mem_cons, List.not_mem_nil, or_false] at hm
    rcases hm with hm | hm | hm | hm <;> rw [hm] <;> rfl

theorem updatedRows_settled (s : State) : SwapRows s (updatedRows s s.rst.collecting) := by
  have row : ∀ a : Fin 32, a.val + 1 ≠ s.own → _ := fun a ha =>
    peerRow_settled s.sul.digest s.img.stale s.rst.collecting[a] s.rst.rows[a] _
      (updatedRows_other s s.rst.collecting a ha)
  refine ⟨?_, fun a b ha => (row a ha).1 b, fun a b ha => (row a ha).2.1 b, fun a ha =>
    (row a ha).2.2⟩
  unfold updatedRows
  refine (mapRows_get _ _ _).trans ?_
  rw [if_pos (show s.sul.rank.val + 1 = s.own from rfl)]
  unfold ownRow
  split <;> simp_all

/-! ### The line state -/

theorem mem_flowReports (kind : AdoptKind) (level : Option Bool) (b : BidBuffer) (complete : Bool)
    (r : FlowReport) (hr : r ≠ .noReport) (hk : complete = true → kind.frame.isSome) :
    r ∈ flowReport level :: (flowBids kind b complete).map BidFrame.flow ↔
      (level = some true ∧ r = .flow) ∨ (level = some false ∧ r = .stop) ∨
      ∃ (a : Fin 32) (x : BidFrame), b[a] = some x ∧ r = x.flow ∧
        (complete = false ∨ ∃ h, kind.heard = some h ∧ inSet h (a.val + 1) = true) := by
  rw [List.mem_cons, List.mem_map, ← or_assoc]
  refine or_congr ?_ ?_
  · unfold flowReport
    cases level with
    | none => simp [hr]
    | some l => cases l <;> simp
  · have used : ∀ p : Nat → Bool,
        (∀ a : Fin 32, p (a.val + 1) = true ↔
          (complete = false ∨ ∃ h, kind.heard = some h ∧ inSet h (a.val + 1) = true)) →
        ((∃ x, x ∈ (stationAddresses.filter p).filterMap (bidOf b) ∧ x.flow = r) ↔
          ∃ (a : Fin 32) (x : BidFrame), b[a] = some x ∧ r = x.flow ∧
            (complete = false ∨ ∃ h, kind.heard = some h ∧ inSet h (a.val + 1) = true)) := by
      intro p hp
      simp only [List.mem_filterMap, List.mem_filter, mem_stationAddresses]
      constructor
      · rintro ⟨x, ⟨a, ⟨h1, h2⟩, h3⟩, h4⟩
        obtain ⟨j, rfl⟩ := exists_place a h1
        rw [bidOf_succ] at h3
        exact ⟨j, x, h3, h4.symm, (hp j).1 h2⟩
      · rintro ⟨j, x, h1, h2, h3⟩
        exact ⟨x, ⟨j.val + 1, ⟨⟨by omega, by omega⟩, (hp j).2 h3⟩, by rw [bidOf_succ]; exact h1⟩,
          h2.symm⟩
    refine used _ fun a => ?_
    unfold AdoptKind.heard
    cases complete
    · simp
    · obtain ⟨f, hf⟩ := Option.isSome_iff_exists.1 (hk rfl)
      simp [hf]

/-! ### The swap -/

/-- A COMPLETE verdict is given to an OPEN alone (R7). -/
theorem swapVerdict_frame (s : State) (kind : AdoptKind) (degraded : Bool)
    (h : swapVerdict s kind degraded = true) : kind.frame.isSome := by
  cases kind with
  | received f => rfl
  | own f => rfl
  | late => simp [swapVerdict, roundComplete] at h

/-- The station after a swap, as the plant and the allotment read it: the share, the membership and the
declared need are those of step 3. -/
theorem adopt_env (kind : AdoptKind) (round : RoundNo) (opener : Nat) (s : State) :
    ({ atSwap kind s with
        rst := rstAfterSwap (atSwap kind s) kind
          (swapVerdict (atSwap kind s) kind (degradedAlready s kind round)) } : State).env =
      (adopt kind round opener s).env := by
  obtain ⟨pins, sul, ssc, -, now, -⟩ := adopt_periphery kind round opener s
  have rct := adopt_rct kind round opener s
  have rst := adopt_rst kind round opener s
  obtain ⟨r, e⟩ := atSwap_eq kind s
  generalize adopt kind round opener s = t at *
  unfold State.env State.img State.own State.imageGood
  rw [pins, sul, ssc, now, rct, rst, e]

/-- What a swap asks for in MEMBER (R49): the division of a COMPLETE round, or the degraded cap. -/
theorem swapComputation_member (a : State) (kind : AdoptKind) (b : BidBuffer)
    (rows : Vector PeerRow 32) (complete : Bool) (hm : a.rct.membership = .member) (own : Nat) (ho : own = a.own)
    (bid : Option BidFrame) (hb : bidOf b a.own = bid) :
    (∀ f, complete = true → kind.frame = some f →
      swapComputation a kind b rows complete = .complete ⟨b, rows, f.heard, a.sul.digest⟩) ∧
    (∀ f, complete = false → kind.frame = some f → swapComputation a kind b rows complete =
      .degraded (inSet f.heard own && bid.isNone)) ∧
    (kind.frame = none → swapComputation a kind b rows complete = .degraded false) := by
  subst ho hb
  unfold swapComputation
  rw [if_pos hm]
  refine ⟨fun f h1 h2 => ?_, fun f h1 h2 => ?_, fun h => ?_⟩
  · rw [h1, h2]
  · rw [h1, h2]
  · rw [h]
    cases complete <;> rfl

/-- The allotment table of a swap, from what its computation is asked for (R49). -/
theorem swapAllots_table (kind : AdoptKind) (round : RoundNo) (s a t : State) (complete : Bool)
    (rows : Vector PeerRow 32) (hs : a.sul = s.sul) (ht : t.sul = s.sul)
    (hc : t.rct.declaredClosed = s.rct.declaredCurrent)
    (hm : t.rct.membership = a.rct.membership) (hd : t.rct.degraded = !complete)
    (hk : complete = true → kind.frame.isSome)
    (table : { t.plant.alu with deduction := none } =
      { allotTable t.env (some round) (swapComputation a kind s.rst.collecting rows complete) with
        deduction := none }) :
    SwapAllots kind.heard round rows s t := by
  have own : a.own = s.own := by unfold State.own; rw [hs]
  have town : t.env.own = s.own := by show t.sul.rank.val + 1 = _; rw [ht]; rfl
  have share : t.env.share t.env.own = s.env.share s.own := by
    show (if t.imageGood then shareOf t.img t.own else 0) =
      (if s.imageGood then shareOf s.img s.own else 0)
    unfold State.imageGood State.img State.own
    rw [ht]
  have member := fun h => swapComputation_member a kind s.rst.collecting rows complete h s.own
    own.symm s.rst.collecting[s.sul.rank] (by rw [own]; exact bidOf_succ _ _)
  rw [← hm, hs] at member
  generalize hx : swapComputation a kind s.rst.collecting rows complete = x at table member
  have kindOf : t.plant.alu.kind = (allotTable t.env (some round) x).kind := by
    simpa using congrArg Alu.kind table
  have roundOf : t.plant.alu.round = (allotTable t.env (some round) x).round := by
    simpa using congrArg Alu.round table
  have capOf : t.plant.alu.cap = (allotTable t.env (some round) x).cap := by
    simpa using congrArg Alu.cap table
  have ownOf : t.plant.alu.own = (allotTable t.env (some round) x).own := by
    simpa using congrArg Alu.own table
  have divisionOf : t.plant.alu.division = (allotTable t.env (some round) x).division := by
    simpa using congrArg Alu.division table
  have capped : degradedCap t.env false =
      match s.rct.declaredCurrent with
      | none => .share
      | some n => .declared n := by
    unfold degradedCap
    rw [if_neg (by simp)]
    show (match t.rct.declaredClosed with
      | none => CapSource.share
      | some n => .declared n) = _
    rw [hc]
  refine ⟨?_, fun h1 h2 => ?_, fun h1 h2 h hh hi hb => ?_, fun h1 h2 hi => ?_, fun h1 => ?_⟩
  · rw [roundOf]
    cases x <;> rfl
  · have hv : complete = true := by simpa [hd] using h2
    obtain ⟨f, hf⟩ := Option.isSome_iff_exists.1 (hk hv)
    have hx' := (member h1).1 f hv hf
    refine ⟨f.heard, by simp [AdoptKind.heard, hf], ?_⟩
    dsimp only
    rw [kindOf, capOf, ownOf, divisionOf, hx']
    refine ⟨rfl, rfl, rfl, ?_⟩
    show (if isParticipant t.env.own _ then grantSum (recordGrants t.env.own _)
      else t.env.share t.env.own) = _
    rw [share, town]
  · have hv : complete = false := by simpa [hd] using h2
    obtain ⟨f, hf, rfl⟩ := Option.map_eq_some_iff.1 hh
    have hx' := (member h1).2.1 f hv hf
    rw [hi, hb] at hx'
    rw [kindOf, capOf, ownOf, divisionOf, hx']
    exact ⟨rfl, rfl, rfl, rfl⟩
  · have hv : complete = false := by simpa [hd] using h2
    have hx' : x = .degraded false := by
      cases hf : kind.frame with
      | none => exact (member h1).2.2 hf
      | some f =>
        refine ((member h1).2.1 f hv hf).trans (congrArg Computation.degraded ?_)
        cases hh : inSet f.heard s.own
        · rfl
        · have := hi f.heard (by simp [AdoptKind.heard, hf]) hh
          cases hq : s.rst.collecting[s.sul.rank] with
          | none => exact absurd hq this
          | some _ => rfl
    rw [kindOf, capOf, ownOf, divisionOf, hx']
    refine ⟨rfl, rfl, ?_⟩
    simp only [allotTable]
    rw [capped]
    cases s.rct.declaredCurrent with
    | none => exact ⟨rfl, share⟩
    | some n =>
      refine ⟨rfl, ?_⟩
      simp only [capAmount]
      rw [share]
  · have hx' : x = .capped := by
      rw [← hx]
      unfold swapComputation
      rw [if_neg (by rw [← hm]; exact h1)]
    rw [kindOf, capOf, ownOf, divisionOf, hx']
    exact ⟨rfl, rfl, rfl, share⟩

/-- The grants and the starved counts after the computation of a swap with no test in progress. -/
theorem swapGrants_untested (s t : State) (round : RoundNo) (x : Computation) (p : Plant)
    (hc : p.cct = s.plant.cct) (ht : p.ogd.test = none)
    (held : p.fct.held .starved = s.plant.fct.held .starved)
    (cct : t.plant.cct = (compute t.env (some round) true x p).cct)
    (alu : t.plant.alu = (compute t.env (some round) true x p).alu)
    (fct : t.plant.fct.held .starved = (compute t.env (some round) true x p).fct.held .starved) :
    SwapGrants s t := by
  rw [compute_untested t.env (some round) x p ht] at cct alu fct
  have hand := handGrantsWith_untested respread t.env
    (grantsByKind t.env { p with alu := allotTable t.env (some round) x })
    (p := { p with alu := allotTable t.env (some round) x }) ht
  change Untested _ (handGrants t.env _ _) at hand
  generalize handGrants t.env (grantsByKind t.env { p with alu := allotTable t.env (some round) x })
    { p with alu := allotTable t.env (some round) x } = q at *
  have row : ∀ c : Fin 6, t.plant.cct[c] = starvedRow q.cct[c] := by
    intro c
    rw [cct]
    exact mapRows_get _ _ _
  have table : t.plant.alu = allotTable t.env (some round) x := by
    rw [alu]
    exact hand.alu
  have granted : ∀ c : Fin 6, q.cct[c].grant =
      (grantsByKind t.env { p with alu := allotTable t.env (some round) x })[c] := by
    intro c
    rw [hand.grant c]
    refine (congrArg CircuitRow.grant (mapRows_get _ _ _)).trans ?_
    rfl
  have counted : ∀ c : Fin 6, q.cct[c].starved = s.plant.cct[c].starved := by
    intro c
    rw [hand.starved c]
    refine (congrArg CircuitRow.starved (mapRows_get _ _ _)).trans ?_
    rw [← hc]
    rfl
  refine ⟨⟨?_, fun c => ?_⟩, fun c => ?_, ?_⟩
  · rw [table]
    cases x <;> rfl
  · rw [row, table]
    refine (granted c).trans ?_
    unfold grantsByKind
    simp only [localSpread_congr { p with alu := allotTable t.env (some round) x }
      { s.plant with alu := allotTable t.env (some round) x } _ hc]
  · rw [row]
    show (if q.cct[c].cls = some .p0 ∧ q.cct[c].grant < q.cct[c].need then
      satAdd 255 q.cct[c].starved 1 else 0) = _
    rw [counted]
    rfl
  · unfold Held
    rw [fct]
    have : (starvedUpdate q).fct.held .starved =
        (p.fct.held .starved || sixIds.any fun c => decide (3 ≤ t.plant.cct[c].starved)) := by
      unfold starvedUpdate
      dsimp only
      rw [Plant.held_raiseIf]
      simp only [decide_true, Bool.and_true]
      congr 1
      · exact hand.held
      · rw [cct]
        rfl
    rw [this, held]
    simp only [Bool.or_eq_true, List.any_eq_true, decide_eq_true_eq, mem_sixIds, true_and]

/-- What the swap of an adoption settles, whatever the adoption is of. -/
theorem adopt_settles (kind : AdoptKind) (round : RoundNo) (opener : Nat) (s : State) :
    SwapSettles kind.heard kind.digests round (adopt kind round opener s).rst.rows s
      (adopt kind round opener s) := by
  obtain ⟨-, sul, -⟩ := adopt_periphery kind round opener s
  have rct := adopt_rct kind round opener s
  have rst := adopt_rst kind round opener s
  have plant := adopt_plant kind round opener s
  have env := adopt_env kind round opener s
  obtain ⟨-, closed, -⟩ := atSwap_rct kind s
  have swapped := swap_plant kind round (degradedAlready s kind round) (atSwap kind s)
  have frame := swapVerdict_frame (atSwap kind s) kind (degradedAlready s kind round)
  obtain ⟨r, e⟩ := atSwap_eq kind s
  generalize swapVerdict (atSwap kind s) kind (degradedAlready s kind round) = v at *
  generalize adopt kind round opener s = t at *
  generalize atSwap kind s = a at *
  have arst : a.rst = s.rst := by rw [e]
  have asul : a.sul = s.sul := by rw [e]
  have aplant : a.plant = s.plant := by rw [e]
  have aown : a.own = s.own := by unfold State.own; rw [asul]
  have aimg : a.img = s.img := by unfold State.img; rw [asul]
  have membership : t.rct.membership = a.rct.membership := by rw [rct]
  have degraded : t.rct.degraded = !v := by rw [rct]
  obtain ⟨settledBuf, -, rows, silent, line⟩ := rstAfterSwap_items a kind v
  rw [← rst] at settledBuf rows silent line
  rw [arst] at settledBuf rows silent line
  dsimp only at swapped env
  rw [env, arst, aplant] at swapped
  rw [swapped, ← rows, ← silent] at plant
  generalize hx : swapComputation a kind s.rst.collecting t.rst.rows v = x at plant
  generalize hp : swapRaises a kind t.rst.rows t.rst.silent s.plant = p at plant
  have before : ∀ y : Factor, p.fct.held y =
      (((s.plant.fct.held y ||
        (someRow a t.rst.rows a.img.stations .absent && decide (Factor.peerLost = y))) ||
        (isolated a t.rst.silent && decide (Factor.isolated = y))) ||
        (mismatchAt a kind t.rst.rows && decide (Factor.mismatch = y))) := by
    intro y
    rw [← hp]
    unfold swapRaises
    rw [Plant.held_raiseIf, Plant.held_raiseIf, Plant.held_raiseIf]
  have held : ∀ y : Factor, t.plant.fct.held y =
      (((compute t.env (some round) true x p).fct.held y ||
        ((peerBids a s.rst.collecting).any BidFrame.alarm && decide (Factor.peerAlarm = y))) ||
        ((!v && decide (a.rct.membership = .member)) && decide (Factor.degraded = y))) := by
    intro y
    rw [plant, Plant.held_raiseIf, Plant.held_raiseIf]
  have kept := fun y hy => compute_held t.env (some round) true x p y hy
  refine ⟨settledBuf, ?_, ?_, ?_, ⟨?_, ?_, ?_, ?_, ?_⟩, ?_, fun none => ?_⟩
  · have same : updatedRows a s.rst.collecting = updatedRows s s.rst.collecting := by
      unfold updatedRows State.foreign
      rw [arst, asul, aown, aimg]
    rw [rows, same]
    exact updatedRows_settled s
  · rw [silent, silentAfter_eq, arst, aown]
  · rw [line]
    unfold lineAfter
    rw [lineFrom_flowing, mem_flowReports _ _ _ _ _ (by decide) frame,
      mem_flowReports _ _ _ _ _ (by decide) frame, aplant]
    unfold FlowUsed
    simp only [degraded, Bool.not_eq_true']
  · unfold Held
    rw [held, kept _ (by decide), before]
    simp [someRow_iff, aimg, aown]
  · unfold Held
    rw [held, kept _ (by decide), before]
    simp [isolated, aimg, membership, and_assoc]
  · unfold Held
    rw [held, kept _ (by decide), before]
    have digests : (kind.frame.any fun f => a.foreign f.digest) = true ↔
        ∃ d ∈ kind.digests, s.sul.digest ≠ some d := by
      unfold AdoptKind.digests State.foreign
      rw [asul]
      cases kind.frame with
      | none => simp
      | some f =>
        simp only [Option.any_some, decide_eq_true_eq, Option.toList_some, List.map_cons,
          List.map_nil, List.mem_singleton, exists_eq_left]
        exact ne_comm
    have row : someRow a t.rst.rows 32 .mismatched = true ↔
        ∃ j : Fin 32, j.val + 1 ≠ s.own ∧ t.rst.rows[j].status = .mismatched := by
      rw [someRow_iff, aown]
      exact exists_congr fun j => ⟨fun k => k.2, fun k => ⟨Nat.succ_le_of_lt j.isLt, k⟩⟩
    rw [← digests, ← row]
    simp only [mismatchAt, reduceCtorEq, decide_false, decide_true, Bool.and_false, Bool.or_false,
      Bool.and_true, Bool.or_eq_true]
  · unfold Held
    rw [held, kept _ (by decide), before]
    rw [← aown, ← peerAlarm_iff a s.rst.collecting]
    simp
  · unfold Held
    rw [held, kept _ (by decide), before]
    simp [degraded, membership]
  · refine swapAllots_table kind round s a t v t.rst.rows asul sul ?_ membership degraded frame ?_
    · rw [rct]
      exact closed
    · rw [hx, plant]
      exact (compute_reach t.env (some round) true x p).table
  · have test : p.ogd.test = .none := by
      rw [← hp]
      exact none
    refine swapGrants_untested s t round x p ?_ test ?_ ?_ ?_ ?_
    · rw [← hp]
      rfl
    · rw [before]
      simp
    · rw [plant]
      rfl
    · rw [plant]
      rfl
    · rw [held]
      simp

/-- The swap reads of the state before it the Roster, the plant, the image and the declared need. -/
theorem SwapSettles.of_eq {heard : Option AddrSet} {digests : List Word16} {round : RoundNo}
    {rows : Vector PeerRow 32} {u s t : State} (rst : u.rst = s.rst) (sul : u.sul = s.sul)
    (plant : u.plant = s.plant) (rct : u.rct = s.rct)
    (h : SwapSettles heard digests round rows u t) : SwapSettles heard digests round rows s t := by
  cases u
  cases s
  dsimp only at rst sul plant rct
  subst rst sul plant rct
  exact ⟨h.settled, ⟨h.peers.own, h.peers.heard, h.peers.retired, h.peers.missed⟩, h.silent, h.line,
    ⟨h.raises.peerLost, h.raises.isolated, h.raises.mismatch, h.raises.peerAlarm,
      h.raises.degraded⟩,
    ⟨h.allots.computed, h.allots.complete, h.allots.unsettled, h.allots.capped, h.allots.share⟩,
    fun n => ⟨⟨(h.grants n).found.deduction, (h.grants n).found.grant⟩, (h.grants n).starved,
      (h.grants n).raised⟩⟩

end Sys2Proof.Machine
end

