-- ==== Sys2Proof/Laws/Trips.lean ====
section
/-! SUPPORT. The trip counts and the trip limit (R113): what a station without an output on and the entry to
RETIRED leave of them, and what every move of a station keeps. -/

namespace Sys2Proof.Machine

/-! ### Where no output is on -/

/-- The trip records and the roles stay. -/
def SameTrips (p q : Plant) : Prop :=
  q.ogd.trips = p.ogd.trips ∧ ∀ o : Fin 6, q.ogd.outputs[o].role = p.ogd.outputs[o].role

theorem SameTrips.ogd {p q : Plant} (h : q.ogd = p.ogd) : SameTrips p q := by
  unfold SameTrips
  rw [h]
  exact ⟨rfl, fun _ => rfl⟩

theorem AllOff.untested {p : Plant} (h : AllOff p) (o : Fin 6) : p.ogd.underTest o = false := by
  unfold Ogd.underTest
  rw [h.2]

/-- A computation with no output on touches no output (R49, R65). -/
theorem AllOff.compute_ogd {p : Plant} (h : AllOff p) (e : Env) (round : Option RoundNo) (swap : Bool)
    (x : Computation) : (Machine.compute e round swap x p).ogd = p.ogd := by
  unfold Machine.compute
  dsimp only
  rw [h.2]
  dsimp only
  unfold handGrants
  rw [handGrantsWith_off _ _ _ { p with alu := allotTable e round x } h.1]
  split <;> rfl

/-- A move of the plant of a station that does not follow rounds trips nothing. -/
theorem plantMove_trips {e : Env} {p q : Plant} (m : PlantMove e p q) (hf : e.membership.follows = false)
    (h : AllOff p) : SameTrips p q := by
  have rows : ∀ (o : Fin 6) (f : OutputRow → OutputRow) (hr : ∀ r, (f r).role = r.role),
      SameTrips p (p.updOut o f) := fun o f hr => ⟨rfl, updOut_role p o f hr⟩
  cases m with
  | windowStart c =>
    refine .ogd ?_
    unfold windowStart
    split
    · dsimp only
      split
      · have still : endPeriod e c (p.updCct c fun r => { r with toNext := some e.windowMs }) =
            p.updCct c fun r => { r with toNext := some e.windowMs } :=
          endPeriodWith_still _ _ _ _ fun o _ => h.1 o
        rw [still]
        have judged : ∀ q : Plant, (evaluate e c (windowRaises c q)).ogd = q.ogd := fun q => by
          show (windowRaises c q).ogd = q.ogd
          unfold windowRaises
          split <;> rfl
        unfold requestOutput
        split
        · rw [hf]
          simp only [Bool.and_false, Bool.false_and, Bool.false_eq_true, if_false]
          exact judged _
        · exact judged _
      · rfl
    · rfl
  | endPeriod c =>
    exact .ogd (congrArg Plant.ogd (endPeriodWith_still tripOutput e c p fun o _ => h.1 o))
  | settleExpiry c =>
    refine .ogd ?_
    unfold settleExpiry
    split <;> rfl
  | limitChange o b =>
    have set := rows o (fun r => { r with limit := filterTo b r.limit }) fun _ => rfl
    have off : (p.updOut o fun r => { r with limit := filterTo b r.limit }).ogd.outputs[o].energized =
        false := by
      rw [updOut_row]
      exact h.1 o
    have test : (p.updOut o fun r => { r with limit := filterTo b r.limit }).ogd.underTest o = false :=
      h.untested o
    unfold limitChange
    dsimp only
    generalize (p.updOut o fun r => { r with limit := filterTo b r.limit }) = q at set off test ⊢
    split
    · split
      · unfold limitOpened
        rw [test]
        split
        · rename_i c _
          dsimp only
          rw [show (q.raiseIf (decide (q.cct[c].state ≠ .disabled)) .limitOpen).ogd = q.ogd from rfl, test,
            if_neg (by simp), switchOff_still o (q.raiseIf (decide (q.cct[c].state ≠ .disabled)) .limitOpen)
              off]
          split <;> exact set
        · exact set
      · unfold limitClosed
        split
        · split <;> exact set
        · exact set
    · exact set
  | trip o k =>
    refine .ogd ?_
    unfold tripOutput tripWith
    rw [h.1 o]
    rfl
  | holdOffExpiry o =>
    have set := rows o (fun r => { r with holdOff := none }) fun _ => rfl
    unfold holdOffExpiry
    split
    · dsimp only
      split
      · split
        · split <;> exact set
        · exact set
      · exact set
    · exact .ogd rfl
  | startTest o n ha =>
    have k := (judgeTest_accepted ha).1
    revert hf k
    cases e.membership <;> simp [Membership.bids, Membership.follows]
  | finishTest =>
    refine .ogd ?_
    unfold finishTest
    rw [h.2]
  | compute round swap x _ => exact .ogd (h.compute_ogd e round swap x)

/-! ### The entry to RETIRED (R22, R72) -/

theorem disableAll_trips (p : Plant) : (disableAll p).ogd.trips = p.ogd.trips := by
  have fold : ∀ (l : List (Fin 6)) (p : Plant),
      (l.foldl (fun q c => disableCircuit c q) p).ogd.trips = p.ogd.trips := by
    intro l
    induction l with
    | nil => exact fun _ => rfl
    | cons c l ih =>
      refine fun p => (ih _).trans ?_
      unfold disableCircuit
      show Ogd.trips (Plant.ogd (match p.ogd.boundTo c with
        | some o => (switchOff o p).updOut o fun r => { r with holdOff := none }
        | none => p)) = _
      split
      · exact switchOff_trips _ p
      · rfl
  exact fold sixIds p

/-- The test that a NONE computation ends on circuits that are all DISABLED trips nothing. -/
theorem abortTest_disabled_trips (e : Env) (cause : AbortCause) {p : Plant} (h : ∀ c, Disabled p c) :
    (abortTest e cause p).ogd.trips = p.ogd.trips := by
  unfold abortTest abortWith
  split
  · rfl
  · rename_i t _
    have trips : (endTest (.aborted cause) (switchOff t.output p)).ogd.trips = p.ogd.trips :=
      (endTest_trips _ _).trans (switchOff_trips _ _)
    have cct : (endTest (.aborted cause) (switchOff t.output p)).cct = p.cct := by
      refine Eq.trans ?_ (switchOff_facts t.output p).1
      unfold endTest
      split <;> rfl
    dsimp only
    generalize endTest (.aborted cause) (switchOff t.output p) = q at trips cct ⊢
    have disabled : ∀ c, Disabled q c := fun c => by
      unfold Disabled
      rw [cct]
      exact h c
    have ended : ∀ u : Plant, u = q → (respread e u).ogd.trips = p.ogd.trips := fun u hu => by
      rw [hu, ← trips]
      unfold respread respreadWith handUntested
      dsimp only
      rw [(handGrantsWith_disabled tripUntested e _ _ (by exact disabled)).1]
    refine ended _ ?_
    split
    · rename_i c _
      unfold afterAbort
      rw [(disabled c).1, if_neg nofun]
    · rfl

theorem enterRetired_trips (s : State) : (enterRetired s).plant.ogd.trips = s.plant.ogd.trips := by
  obtain ⟨e, w, h1, h2, _, _, _⟩ := enterRetired_computes s
  have disabled := (disableAll_facts w.plant).1
  have trips : (disableAll w.plant).ogd.trips = s.plant.ogd.trips :=
    (disableAll_trips w.plant).trans (by rw [h2]; rfl)
  rw [h1]
  show (compute e none false .noAllot (disableAll w.plant)).ogd.trips = _
  rw [← trips]
  generalize disableAll w.plant = d at disabled ⊢
  obtain ⟨handed, still⟩ := handGrantsWith_disabled tripOutput e
    (grantsByKind e { d with alu := allotTable e none .noAllot })
    { d with alu := allotTable e none .noAllot } (by exact disabled)
  unfold compute
  dsimp only
  split
  · unfold handGrants
    rw [handed]
    rfl
  · split
    · unfold handGrants
      rw [(handGrantsWith_disabled tripOutput e _ _ (by exact disabled)).1]
      rfl
    · refine (abortTest_disabled_trips e .allotment (p := handGrants e _ _) ?_).trans ?_
      · unfold handGrants
        rw [handed]
        exact fun c => (still c).1
      · unfold handGrants
        rw [handed]

/-! ### The moves of a station -/

/-- Every move of the station leaves the outputs unbound and the trips uncounted until the image is read. -/
theorem move_unread {s t : State} (m : Move s t) (ho : OutputsKept s) (h : UnboundUntilRead s) :
    UnboundUntilRead t := by
  cases m with
  | alike hp hc =>
    intro k
    obtain ⟨h1, h2⟩ := h fun d => k (by rw [hc.read d]; exact d)
    exact ⟨fun o => by rw [hp.role]; exact h1 o,
      fun c => Nat.le_zero.1 ((hp.trips c).trans (Nat.le_of_eq (h2 c)))⟩
  | plant k =>
    intro n
    obtain ⟨h1, h2⟩ := h n
    have hf : s.rct.membership.follows = false := by
      by_contra hf
      exact n (ho.following (by simpa using hf)).1
    obtain ⟨trips, roles⟩ := plantMove_trips k hf (ho.other hf)
    exact ⟨fun o => by rw [roles]; exact h1 o, fun c => by rw [trips]; exact h2 c⟩
  | listen u hr hi hp => exact fun k => absurd rfl k
  | blocked u hr hp => exact fun k => absurd rfl k
  | retired hf => exact fun k => absurd (ho.following hf).1 k
  | restart =>
    refine fun _ => ⟨fun o => ?_, fun c => ?_⟩
    · show (mapRows (allOff s.plant).ogd.outputs fun _ r => restartRow r)[o].role.circuit = none
      rw [mapRows_get]
      unfold restartRow
      dsimp only
      split <;> rfl
    · show (Vector.replicate 6 TripRec.reset)[c].count = 0
      simp [TripRec.reset]

/-- No trip count exceeds the trip limit; while rounds are followed that limit is not 0, and the count of a
circuit with an output is below it (R113, R189). -/
structure TripsKept (s : State) : Prop where
  within : ∀ c : Fin 6, s.plant.ogd.trips[c].count ≤ s.img.tripLimit
  limit : s.rct.membership.follows = true → 0 < s.img.tripLimit
  bound : s.rct.membership.follows = true → ∀ o c : Fin 6,
    s.plant.ogd.outputs[o].role.circuit = some c → s.plant.ogd.trips[c].count < s.img.tripLimit

/-- A station that counts no trip and does not follow rounds. -/
theorem TripsKept.zero {s : State} (hf : s.rct.membership.follows = false)
    (h : ∀ c : Fin 6, s.plant.ogd.trips[c].count = 0) : TripsKept s :=
  ⟨fun c => (Nat.le_of_eq (h c)).trans (Nat.zero_le _), fun k => by simp [hf] at k,
    fun k => by simp [hf] at k⟩

/-- An image that passes names a trip limit of 1 or more and a window of 2 s or more (R189). -/
theorem imagePasses_limits {l : List Byte} {r : Fin 32} (h : imagePasses l r = true) :
    0 < (readImage l).tripLimit ∧ 0 < (readImage l).window := by
  unfold imagePasses localOk inRange at h
  simp only [Bool.and_eq_true, decide_eq_true_eq] at h
  omega

/-- Every move of the station keeps the trip counts so. -/
theorem move_trips {s t : State} (m : Move s t) (ho : OutputsKept s) (hu : UnboundUntilRead s)
    (h : TripsKept s) : TripsKept t := by
  cases m with
  | alike hp hc =>
    by_cases hd : s.sul.progress = .done
    · have img : t.img = s.img := by
        unfold State.img
        rw [hc.read hd]
      refine ⟨fun c => ?_, fun k => ?_, fun k o c hr => ?_⟩
      · rw [img]
        exact (hp.trips c).trans (h.within c)
      · rw [img]
        exact h.limit (by rw [← hc.follows]; exact k)
      · rw [img]
        exact (hp.trips c).trans_lt (h.bound (by rw [← hc.follows]; exact k) o c
          (by rw [← hp.role]; exact hr))
    · refine .zero ?_ fun c => Nat.le_zero.1 ((hp.trips c).trans (Nat.le_of_eq ((hu hd).2 c)))
      rw [hc.follows]
      by_contra k
      exact hd (ho.following (by simpa using k)).1
  | @plant p k =>
    by_cases hf : s.rct.membership.follows = true
    · obtain ⟨_, order⟩ := ho.following hf
      have counted := (plantMove_order k order).counted ⟨h.within, fun o c x _ => h.bound hf o c x⟩
      exact ⟨counted.within, h.limit, fun _ o c x => counted.bound o c x nofun⟩
    · have hf : s.rct.membership.follows = false := by simpa using hf
      obtain ⟨trips, _⟩ := plantMove_trips k hf (ho.other hf)
      refine ⟨fun c => ?_, h.limit, fun n => by simp [hf] at n⟩
      show p.ogd.trips[c].count ≤ _
      rw [trips]
      exact h.within c
  | listen u hr hi hp =>
    have limits := imagePasses_limits hi
    have good : localOk ({ s with sul := u } : State).img = true := by
      unfold imagePasses at hi
      simp only [Bool.and_eq_true] at hi
      exact hi.1.2
    have counted := (enterListen_order { s with sul := u } (ho.idle hp) good).2 limits.1 (hu hp).2
    exact ⟨counted.within, fun _ => limits.1,
      fun _ o c x => counted.bound o c x nofun⟩
  | blocked u hr hp =>
    refine .zero rfl fun c => ?_
    obtain ⟨e, _, _, _, _, h1⟩ := enterBlocked_computes { s with sul := u }
    rw [h1, AllOff.compute_ogd ((ho.idle hp).alike (.raise s.plant .configBad))]
    exact (hu hp).2 c
  | retired hf =>
    have follows : (enterRetired s).rct.membership.follows = false := rfl
    refine ⟨fun c => ?_, fun k => by (rw [follows] at k; cases k),
      fun k => by (rw [follows] at k; cases k)⟩
    rw [enterRetired_trips]
    exact h.within c
  | restart =>
    refine .zero rfl fun c => ?_
    show (Vector.replicate 6 TripRec.reset)[c].count = 0
    simp [TripRec.reset]

end Sys2Proof.Machine
end

