-- ==== Sys2Proof/Tests/Slice0.lean ====
section
/-! SUPPORT. Checks of the model: the smoke test of the operands' ranges, values the spec works out, one
step of each command on a small station, and for every claim with premises a situation that meets them. -/

namespace Sys2Proof.Tests

open Sys2Proof.Machine

set_option Elab.async false

/-! ### A small station: the running example of spec/03, N = 4, B = 400 LU, station 1 with 40 LU -/

/-- One configured circuit: primary output and sensor `n`, no backup sensor, setpoints 30.0 and 28.0 °C,
band 5.0 °C, fallback need 20 LU. -/
def circuitBytes (n : Byte) : List Byte := [1, n, n, 0, 1, 44, 1, 24, 0, 50, 20]

/-- Bytes 0…113 of an image: circuits 1 and 2 on O1 and O2, spares O5 and O6. -/
def imageBody : List Byte :=
  [1, 0, 116, 1, 144, 4, 1, 1, 0, 40, 0, 0, 0, 0, 240, 5, 10, 3] ++
    [1, 100, 1, 50, 0, 1, 0, 1, 2, 35, 2, 35, 0] ++ circuitBytes 1 ++ circuitBytes 2 ++
    List.replicate 44 0 ++
    [3, 50, 0, 30, 5, 5, 5, 0, 60, 3, 0, 30, 10, 1, 0, 0, 0]

/-- The image with its checksum. -/
def imageBytes : List Byte := imageBody ++ [0x35, 0x0e]

/-- A circuit of the station: REGULATING, need and grant 40 LU. -/
def circuitRow (onTime : Nat) : CircuitRow :=
  ⟨.regulating, .stopped, some 280, .primary, some 300, 40, some 4, some .p1, 40, onTime, 0, some 4000⟩

/-- An output of the station, off and with its inputs released. -/
def outputRow (r : Role) (rated : Nat) : OutputRow :=
  { OutputRow.reset with role := r, rated := rated, leakage := ⟨some false, none⟩, limit := ⟨some false, none⟩ }

/-- The plant of the station: nothing energized, no test. -/
def plant : Plant :=
  { Plant.reset with
    cct := ((Vector.replicate 6 .reset).set 0 (circuitRow 4000)).set 1 (circuitRow 8000),
    ogd :=
      { Ogd.reset with
        outputs :=
          #v[outputRow (.primary 0) 100, outputRow (.primary 1) 50, outputRow .unused 1,
            outputRow .unused 1, outputRow .spareFree 35, outputRow .spareFree 35],
        flow := ⟨some false, none⟩ },
    alu := ⟨.capped, some 7, none, 130, none, none⟩ }

/-- Station 1, a MEMBER in round 7 opened by station 2, with nothing waiting. -/
def station : State :=
  { State.reset with
    pins := { Pins.reset with resetnHeld := false },
    sul := ⟨0, .done, imageBytes, true, some 35377, some .good⟩,
    rct := ⟨.member, some 7, some 2, false, some 5000, none, 2, some 80, none⟩,
    plant := plant,
    ssc := ⟨Vector.replicate 8 ⟨.good, some 280, some 280, none, some 0⟩, some (0, 80)⟩,
    lif := { Lif.reset with receiver := .hunting, idle := some 0 }, now := 100000 }

/-- What a command answers, for a test on values. -/
def after (i : Instr) (s : State) : State :=
  match exec i s with
  | .next t => t
  | .fault _ => s
  | .refused _ => s

/-! ### Situations of the station -/

/-- The station in another membership. -/
def inMembership (m : Membership) : State := { station with rct := { station.rct with membership := m } }

/-- The station with another Line Interface. -/
def withLif (f : Lif → Lif) : State := { station with lif := f station.lif }

/-- The station with one output row rewritten. -/
def withOut (o : Fin 6) (f : OutputRow → OutputRow) : State :=
  { station with plant := station.plant.updOut o f }

/-- The station with one circuit row rewritten. -/
def withCct (c : Fin 6) (f : CircuitRow → CircuitRow) : State :=
  { station with plant := station.plant.updCct c f }

/-- The station with an output energized for `ms`, its load summing to `sum` tenths. -/
def energized (o : Fin 6) (ms sum : Nat) : State :=
  withOut o fun r => { r with energized := true, periodMs := ms, loadSum := sum }

/-- The station reading transfer `k`, attempt `a`, of its image, with `copy` read so far. -/
def reading (k a : Nat) (copy : List Byte) : State :=
  { State.reset with
    pins := { Pins.reset with resetnHeld := false },
    sul := ⟨0, .reading k a none, copy, false, none, none⟩ }

/-- A bid of a station for round 7 of opener 2, with the section's digest and no records. -/
def bidFrom (a : Nat) : BidFrame := ⟨a, 7, 2, true, .stop, false, 35377, 0, []⟩

/-- The station with station 3's bid in its collecting buffer. -/
def withBid : State := { station with rst := { station.rst with buf0 := station.rst.buf0.set 2 (some (bidFrom 3)) } }

/-- The station with its spare O5 under test since 1 s, its own circuits in REGULATING. -/
def testing : State :=
  { station with
    plant :=
      { (station.plant.updOut 4 fun r => { r with energized := true, periodMs := 1000, loadSum := 350000 }) with
        ogd :=
          { (station.plant.updOut 4 fun r => { r with energized := true, periodMs := 1000, loadSum := 350000 }).ogd with
            test := some ⟨4, none, 10, 99000, 1000, 350000, 0⟩ } } }

/-- The station sending a reply. -/
def replying : State := withLif fun l => { l with replySlot := .sending ⟨1, 9, 3, 1, .done, 0, 1, []⟩ }

/-! ### Operands' ranges: one ill-formed command for each check, which the check refuses -/
theorem test_illFormed_transfer : Instr.wf (.transferAttemptEnd (.success (List.replicate 33 0))) = false := by decide
theorem test_illFormed_openOpener : Instr.wf (.openReceived ⟨0, 1, 0, 0⟩) = false := by decide
theorem test_illFormed_openOpenerHigh : Instr.wf (.openReceived ⟨33, 1, 0, 0⟩) = false := by decide
theorem test_illFormed_bidSender : Instr.wf (.bidReceived { bidFrom 3 with sender := 33 }) = false := by decide
theorem test_illFormed_bidOpener : Instr.wf (.bidReceived { bidFrom 3 with opener := 0 }) = false := by decide
theorem test_illFormed_bidLoad : Instr.wf (.bidReceived { bidFrom 3 with load := 1201 }) = false := by decide
theorem test_illFormed_bidRecordCount : Instr.wf (.bidReceived { bidFrom 3 with records := List.replicate 7 ⟨1, .p0, 0, 1⟩ }) = false := by decide
theorem test_illFormed_bidRecordCircuit : Instr.wf (.bidReceived { bidFrom 3 with records := [⟨7, .p0, 0, 1⟩] }) = false := by decide
theorem test_illFormed_bidRecordClass : Instr.wf (.bidReceived { bidFrom 3 with records := [⟨1, .p3, 0, 1⟩] }) = false := by decide
theorem test_illFormed_bidRecordMargin : Instr.wf (.bidReceived { bidFrom 3 with records := [⟨1, .p0, 128, 1⟩] }) = false := by decide
theorem test_illFormed_bidRecordNeed : Instr.wf (.bidReceived { bidFrom 3 with records := [⟨1, .p0, 0, 0⟩] }) = false := by decide
theorem test_illFormed_bidRecordOrder : Instr.wf (.bidReceived { bidFrom 3 with records := [⟨2, .p0, 0, 1⟩, ⟨2, .p0, 0, 1⟩] }) = false := by decide
theorem test_illFormed_testSender : Instr.wf (.testFrameReceived ⟨0, 0, 0, List.replicate 32 0⟩) = false := by decide
theorem test_illFormed_testPayload : Instr.wf (.testFrameReceived ⟨1, 0, 0, List.replicate 31 0⟩) = false := by decide
theorem test_illFormed_replySource : Instr.wf (.replyFrameReceived ⟨0, 0, 3, 1, .done, 0, 1, []⟩) = false := by decide
theorem test_illFormed_replyBody : Instr.wf (.replyFrameReceived ⟨1, 0, 3, 1, .done, 0, 1, List.replicate 53 0⟩) = false := by decide
theorem test_illFormed_badFrameShort : Instr.wf (.badFrameReceived (List.replicate 7 0)) = false := by decide
theorem test_illFormed_badFrameLong : Instr.wf (.badFrameReceived (List.replicate 65 0)) = false := by decide
theorem test_illFormed_queryDest : Instr.wf (.queryStation 33 0 0) = false := by decide
theorem test_illFormed_commandDest : Instr.wf (.setMask 0 0 [0, 0, 0]) = false := by decide
theorem test_illFormed_commandLength : Instr.wf (.restart 1 0 (List.replicate 57 0)) = false := by decide
theorem test_illFormed_unknownQueryDest : Instr.wf (.unknownRequest (.query ⟨0, 0, 9, 0⟩)) = false := by decide
theorem test_illFormed_unknownCommandLength : Instr.wf (.unknownRequest (.command ⟨1, 0, 9, List.replicate 57 0⟩)) = false := by decide
theorem test_illFormed_unknownQueryKind : Instr.wf (.unknownRequest (.query ⟨1, 0, 8, 0⟩)) = false := by decide
theorem test_illFormed_unknownCommandKind : Instr.wf (.unknownRequest (.command ⟨1, 0, 7, []⟩)) = false := by decide
theorem test_illFormed_conversionHigh : Instr.wf (.conversionEnd (.inRange 250001)) = false := by decide
theorem test_illFormed_conversionLow : Instr.wf (.conversionEnd (.inRange (-60001))) = false := by decide
theorem test_illFormed_leakageRange : Instr.wf (.rawInputChange (.leakage 0 1001)) = false := by decide
theorem test_illFormed_loadRange : Instr.wf (.rawInputChange (.load 0 4001)) = false := by decide
theorem test_illFormed_overloadRange : Instr.wf (.overloadDetected 0 4001) = false := by decide

theorem test_wellFormed_bid :
    Instr.wf (.bidReceived { bidFrom 32 with load := 1200, records := [⟨1, .p0, -128, 200⟩, ⟨6, .p2, 127, 1⟩] }) =
      true := by decide
theorem test_wellFormed_reply :
    Instr.wf (.replyFrameReceived ⟨32, 0, 4, 7, .badRequest, 0, 1, List.replicate 52 0⟩) = true := by decide

/-! ### Values the spec works out -/

/-- The CRC of R135 over the nine characters 1 to 9. -/
theorem test_crc_check : crc16 [49, 50, 51, 52, 53, 54, 55, 56, 57] = 0x29B1 := by decide +kernel

/-- R155: from 0001 the payload begins 00, 01, and the register then holds 6801. -/
theorem test_payload_start :
    (testPayload 0 0).take 2 = [0, 1] ∧ lfsrEight (lfsrEight 1) = 0x6801 := by decide +kernel

/-- R155: the values loaded. -/
theorem test_payload_loads :
    lfsrLoad 0x1234 0 = 0x1234 ∧ lfsrLoad 0x1234 1 = 0x1335 ∧ lfsrLoad 0 0 = 1 ∧
      lfsrLoad 0x0101 1 = 1 := by decide +kernel

/-- The bytes of an OPEN of round 8 by station 2, heard set empty, digest 1234 (R134). -/
theorem test_open_bytes :
    frameBytes (.openFrame ⟨2, 8, 0, 0x1234⟩) = [1, 12, 2, 8, 0, 0, 0, 0, 18, 52, 0x34, 0xa1] := by
  decide +kernel

/-- The bytes of a BID with one record: flags MEMBER and STOP, margin −1 (R134). -/
theorem test_bid_bytes :
    (frameBytes (.bid ⟨3, 7, 2, true, .stop, false, 0x1234, 40, [⟨2, .p0, -1, 80⟩]⟩)).take 15 =
      [2, 17, 3, 7, 2, 5, 18, 52, 0, 40, 1, 2, 0, 255, 80] := by decide +kernel

/-- A heard set of stations 1, 3 and 9 is 05 01 00 00 on the line (R134). -/
theorem test_heard_bytes : addrSetBytes (addrSetOf [1, 3, 9]) = [5, 1, 0, 0] := by decide +kernel

theorem test_crc_image1 : (imageBody.take 29).foldl crcByte 0xFFFF = 50760 := by decide +kernel
theorem test_crc_image2 : ((imageBody.drop 29).take 29).foldl crcByte 50760 = 62653 := by decide +kernel
theorem test_crc_image3 : ((imageBody.drop 58).take 28).foldl crcByte 62653 = 54859 := by decide +kernel
theorem test_crc_image4 : (imageBody.drop 86).foldl crcByte 54859 = 0x350e := by decide +kernel

/-- The example image's checksum holds (R189, stage 3). -/
theorem test_image_checksum : checksumOk imageBytes = true := by
  have h : imageBytes.take 114 = imageBody.take 29 ++ ((imageBody.drop 29).take 29 ++
      ((imageBody.drop 58).take 28 ++ imageBody.drop 86)) := by decide +kernel
  have c : crc16 (imageBytes.take 114) = 0x350e := by
    unfold crc16
    rw [h, List.foldl_append, List.foldl_append, List.foldl_append, test_crc_image1, test_crc_image2,
      test_crc_image3, test_crc_image4]
  unfold checksumOk
  rw [c]
  decide +kernel

/-- The example image is GOOD at strap address 1 (R189). -/
theorem test_image_good : imagePasses imageBytes 0 = true := by
  unfold imagePasses sharedPasses
  rw [test_image_checksum]
  decide +kernel

/-- Stage 6: it is BAD at strap address 5 (R189, N = 4). -/
theorem test_image_address : imagePasses imageBytes 4 = false := by
  unfold imagePasses sharedPasses
  rw [test_image_checksum]
  decide +kernel

/-- R48: the shares of the running example of spec/03. -/
theorem test_shares : (List.range' 1 4).map (shareOf station.img) = [130, 90, 90, 90] := by
  decide +kernel

/-- The section of spec/12: B = 1,000 LU, N = 8, reserves (2, 60 LU) and (7, 45 LU). -/
def sectionEnv : Env :=
  { station.env with
    img :=
      { station.img with
        budget := 1000, stations := 8, reserveCount := 2, reserve1 := (2, 60), reserve2 := (7, 45) } }

/-- One bid of the section, of a MEMBER. -/
def sectionBid (a : Nat) (rs : List DemandRecord) : Option BidFrame :=
  some ⟨a, 3, 1, true, .stop, false, 9, 0, rs⟩

/-- What the eight stations hold for round 4 (12.1). -/
def sectionLedger : Ledger :=
  { settled :=
      ((((((((Vector.replicate 32 none).set 0 (sectionBid 1 [⟨1, .p0, -2, 80⟩, ⟨2, .p1, 3, 120⟩])).set 1
        (sectionBid 2 [⟨1, .p1, 6, 70⟩, ⟨2, .p2, 10, 40⟩])).set 2
        (sectionBid 3 [⟨1, .p0, -4, 90⟩, ⟨2, .p0, -1, 60⟩])).set 3
        (sectionBid 4 [⟨1, .p2, 12, 30⟩])).set 4
        (sectionBid 5 [⟨1, .p0, -3, 100⟩, ⟨2, .p1, 2, 50⟩])).set 5
        (sectionBid 6 [⟨1, .p1, 5, 40⟩])).set 6
        (sectionBid 7 [⟨1, .p0, -1, 120⟩, ⟨2, .p1, 4, 150⟩])).set 7
        (sectionBid 8 [⟨1, .p1, 7, 60⟩, ⟨2, .p2, 9, 30⟩]),
    rows := Vector.replicate 32 .reset, heard := 0xFF, digest := some 9 }

/-- The grant of an address in a division. -/
def grantOf (d : Division) (a : Nat) : Nat :=
  ((d.records.filter fun r => decide (r.addr = a)).map RecEntry.grant).sum

/-- 12.1, round 4: the pool is 234 LU and all of it is granted. -/
theorem test_section_round4 :
    (List.range' 1 8).map (grantOf (divide sectionEnv sectionLedger)) =
        [200, 110, 150, 30, 150, 40, 223, 90] ∧
      (divide sectionEnv sectionLedger).poolTotal = 234 ∧
      (divide sectionEnv sectionLedger).poolLeft = 0 := by decide +kernel

/-- 12.2: with station 5's bid outside the heard set, station 5 is charged and station 7 gains. -/
theorem test_section_lost_bid :
    (List.range' 1 8).map (grantOf (divide sectionEnv { sectionLedger with heard := 0xEF })) =
        [200, 110, 150, 30, 0, 40, 262, 90] ∧
      ((divide sectionEnv { sectionLedger with heard := 0xEF }).entries.map AddrEntry.charge).sum = 111 := by
  decide +kernel

/-! ### One step of each command -/

/-- Result and body length of the reply that waits. -/
def replyOf (s : State) : Option (Result × Nat) :=
  match s.lif.replySlot with
  | .pending f => some (f.result, f.body.length)
  | .empty => none
  | .sending _ => none

theorem test_pinReset :
    (after .pinReset (energized 0 5 5)).rct.membership = .start ∧
      (after .pinReset (energized 0 5 5)).pins.resetnHeld = true ∧
      (after .pinReset (energized 0 5 5)).plant.ogd.outputs[(0 : Fin 6)].energized = false := by
  decide +kernel
theorem test_resetnRelease :
    (after (.resetnRelease 4) State.reset).own = 5 ∧
      (after (.resetnRelease 4) State.reset).sul.progress = .reading 1 1 none := by decide +kernel
theorem test_transferAttemptEnd :
    (after (.transferAttemptEnd (.success [1, 0, 116])) (reading 1 1 [])).sul.progress =
        .reading 2 1 none ∧
      (after (.transferAttemptEnd .noAcknowledge) (reading 2 3 [1, 0, 116])).rct.membership =
        .blocked := by decide +kernel
theorem test_clockHoldTimeout :
    (after .clockHoldTimeout (reading 2 1 [])).sul.progress = .reading 2 2 (some 5) := by
  decide +kernel
theorem test_attemptRetryDelayExpiry :
    (after .attemptRetryDelayExpiry (after .clockHoldTimeout (reading 2 1 []))).sul.progress =
      .reading 2 2 none := by decide +kernel
theorem test_openReceived :
    (after (.openReceived ⟨2, 8, 0, 35377⟩) station).rct.round = some 8 ∧
      (after (.openReceived ⟨2, 8, 0, 35377⟩) station).rct.degraded = false ∧
      (after (.openReceived ⟨2, 8, 0, 35377⟩) station).lif.bidSlot = .pending (8, 2) ∧
      (after (.openReceived ⟨2, 8, 0, 35377⟩) station).plant.alu.kind = .complete := by decide +kernel
theorem test_openReceived_twoOn :
    (after (.openReceived ⟨2, 9, 0, 35377⟩) station).rct.degraded = true ∧
      (after (.openReceived ⟨2, 9, 0, 35377⟩) station).plant.alu.own = 80 := by decide +kernel
theorem test_bidReceived :
    (after (.bidReceived (bidFrom 3)) station).rst.collecting[(2 : Fin 32)] = some (bidFrom 3) := by
  decide +kernel
theorem test_bidReceived_conflict :
    (after (.bidReceived { bidFrom 3 with opener := 4 }) station).plant.fct.held .openConflict =
      true := by decide +kernel
theorem test_testFrameReceived :
    (after (.testFrameReceived ⟨3, 5, 2, testPayload 5 2⟩) station).lck.rows[(2 : Fin 32)] =
      ⟨1, 0, 0, 1, 0, 0, some 2, false⟩ := by decide +kernel
theorem test_testFrameReceived_bad :
    (after (.testFrameReceived ⟨3, 5, 2, List.replicate 32 0⟩) station).plant.fct.held .lineErrors =
      true := by decide +kernel
theorem test_replyFrameReceived :
    (after (.replyFrameReceived ⟨3, 0, 3, 1, .done, 0, 1, []⟩) station).lck.rows[(2 : Fin 32)].heard =
      1 := by decide +kernel
theorem test_badFrameReceived :
    (after (.badFrameReceived [1, 12, 2, 8, 0, 0, 0, 0, 18, 52, 0, 0]) station).lck.totals.crcFailures =
      1 := by decide +kernel
theorem test_frameGapTimeout :
    (after .frameGapTimeout station).lck.totals.crcFailures = 1 ∧
      (after .frameGapTimeout station).lif.idle = some 2 := by decide +kernel
theorem test_brokenFrame : (after .brokenFrame station).lck.totals.crcFailures = 1 := by decide +kernel
theorem test_queryStation : replyOf (after (.queryStation 1 9 0) station) = some (.done, 24) := by
  decide +kernel
theorem test_queryCircuits : replyOf (after (.queryCircuits 1 9 5) station) = some (.done, 24) := by
  decide +kernel
theorem test_queryOutputs : replyOf (after (.queryOutputs 1 9 6) station) = some (.done, 42) := by
  decide +kernel
theorem test_querySensors : replyOf (after (.querySensors 1 9 1) station) = some (.done, 46) := by
  decide +kernel
theorem test_queryRoster : replyOf (after (.queryRoster 1 9 1) station) = some (.done, 7) := by
  decide +kernel
theorem test_queryAllotment : replyOf (after (.queryAllotment 1 9 0) station) = some (.done, 25) := by
  decide +kernel
theorem test_queryFactors : replyOf (after (.queryFactors 1 9 0) station) = some (.done, 8) := by
  decide +kernel
theorem test_queryQuality : replyOf (after (.queryQuality 1 9 11) station) = some (.done, 30) := by
  decide +kernel
theorem test_clearFactors :
    (after (.clearFactors 1 9 [1, 0, 0])
      { station with plant := { station.plant with fct := ⟨3, 0⟩ } }).plant.fct = ⟨2, 0⟩ := by
  decide +kernel
theorem test_setMask : (after (.setMask 1 9 [255, 1, 0]) station).plant.fct.mask = 511 := by
  decide +kernel
theorem test_testOutput :
    replyOf (after (.testOutput 1 9 [5, 10]) station) = some (.accepted, 0) ∧
      (after (.testOutput 1 9 [5, 10]) station).plant.ogd.outputs[(4 : Fin 6)].energized = true := by
  decide +kernel
theorem test_linecheck :
    replyOf (after (.linecheck 1 9 [3, 0, 7]) station) = some (.accepted, 0) ∧
      (after (.linecheck 1 9 [3, 0, 7]) station).lif.testSlot = .pending () := by decide +kernel
theorem test_retire :
    (after (.retire 255 9 [3]) station).rst.rows[(2 : Fin 32)].status = .retired ∧
      (after (.retire 255 9 [1]) station).rct.membership = .retired := by decide +kernel
theorem test_restart :
    replyOf (after (.restart 1 9 []) station) = some (.done, 0) ∧
      (after (.restart 255 9 []) station).rct.membership = .start := by decide +kernel
theorem test_clearQuality :
    replyOf (after (.clearQuality 1 9 []) station) = some (.done, 0) ∧
      (after (.clearQuality 1 9 []) station).lck.totals.tool = 0 := by decide +kernel
theorem test_unknownRequest :
    replyOf (after (.unknownRequest (.query ⟨1, 9, 9, 0⟩)) station) = some (.badRequest, 0) := by
  decide +kernel
theorem test_deferenceExpiry :
    (after .deferenceExpiry (withLif fun l => { l with openSlot := .pending () })).lif.openSlot =
      .sending ⟨1, 8, 0, 35377⟩ := by decide +kernel
theorem test_openCheckEnd :
    (after (.openCheckEnd true) (withLif fun l => { l with openSlot := .sending ⟨1, 8, 0, 35377⟩ })).rct.opener =
        some 1 ∧
      (after (.openCheckEnd false)
        (withLif fun l => { l with openSlot := .sending ⟨1, 8, 0, 35377⟩ })).lif.openSlot = .pending () := by
  decide +kernel
theorem test_bidCheckEnd :
    (after (.bidCheckEnd true)
      (withLif fun l => { l with bidSlot := .sending (bidFrom 1) })).rct.declaredCurrent = some 0 := by
  decide +kernel
theorem test_replyCheckEnd : (after (.replyCheckEnd true) replying).lif.replySlot = .empty := by
  decide +kernel
theorem test_testCheckEnd :
    (after (.testCheckEnd true)
      { withLif fun l => { l with testSlot := .sending ⟨1, 5, 0, testPayload 5 0⟩ } with
        lck := { Lck.reset with emission := ⟨true, 2, 5, 0, 0, 0⟩ } }).lck.emission =
      ⟨true, 2, 5, 1, 1, 0⟩ := by decide +kernel
theorem test_roundTimerExpiry : (after .roundTimerExpiry station).lif.openSlot = .pending () := by
  decide +kernel
theorem test_listenTimerExpiry :
    (after .listenTimerExpiry
      { station with rct := { station.rct with membership := .listen, listenTimer := some 0 } }).rct.membership =
      .joining := by decide +kernel
/-- Circuit 1 at 28.0 °C in STANDSTILL against 28.0 °C needs nothing; against 30.0 °C it needs 40 LU. -/
theorem test_windowStart :
    (after (.windowStart 0) station).plant.cct[(0 : Fin 6)].need = 0 ∧
      (after (.windowStart 0) { station with rst := { station.rst with line := .flowing } }).plant.cct[(0 : Fin 6)].onTime =
        4000 := by decide +kernel
theorem test_onTimeElapsed :
    (after (.onTimeElapsed 0) (energized 0 4000 4000000)).plant.ogd.outputs[(0 : Fin 6)].energized =
        false ∧
      (after (.onTimeElapsed 0) (energized 0 4000 4000000)).plant.ogd.outputs[(0 : Fin 6)].measured =
        1000 := by decide +kernel
theorem test_conversionEnd :
    (after (.conversionEnd (.inRange 28049)) station).ssc.rows[(0 : Fin 8)].value = some 280 ∧
      (after (.conversionEnd (.inRange 60000)) station).ssc.rows[(0 : Fin 8)].quality = .suspect := by
  decide +kernel
theorem test_settleTimerExpiry :
    (after (.settleTimerExpiry 0)
      { withCct 0 (fun r => { r with state := .settling, settle := .due }) with
        ssc := .reset }).plant.cct[(0 : Fin 6)].state = .sensorLost := by decide +kernel
theorem test_rawInputChange :
    (after (.rawInputChange (.limit 0 true)) station).plant.ogd.outputs[(0 : Fin 6)].limit =
      ⟨some false, some 0⟩ := by decide +kernel
/-- A start bit begins a frame only 2 ms after the last character (R133). -/
theorem test_lineStart :
    (after (.rawInputChange .lineStart) (withLif fun l => { l with idle := some 2 })).lif.receiver =
        .receiving ∧
      (after (.rawInputChange .lineStart) (withLif fun l => { l with idle := some 1 })).lif.receiver =
        .hunting ∧
      (after (.rawInputChange .lineStart) (withLif fun l => { l with idle := some 1 })).lif.idle =
        none := by decide +kernel
/-- The last character of a QUERY STATION has it answered (R133, R165). -/
theorem test_lineCharacter :
    let bytes := frameBytes (queryFrame 1 9 1 0)
    let s := withLif fun l => { l with receiver := .receiving, idle := none, buffer := bytes.dropLast }
    replyOf (after (.rawInputChange (.lineCharacter ⟨bytes.getLastD 0, true⟩)) s) = some (.done, 24) ∧
      (after (.rawInputChange (.lineCharacter ⟨0, false⟩)) s).lck.totals.crcFailures = 1 := by
  decide +kernel
/-- A character of the own frame that comes back another ends it (R145). -/
theorem test_lineCharacter_own :
    (after (.rawInputChange (.lineCharacter ⟨5, true⟩)) replying).lif.checked = 1 ∧
      (after (.rawInputChange (.lineCharacter ⟨6, true⟩)) replying).plant.fct.held .txFail = true := by
  decide +kernel
theorem test_limitFilteredChange :
    (after (.limitFilteredChange 0 true) (energized 0 5 5)).plant.cct[(0 : Fin 6)].state = .inhibited ∧
      (after (.limitFilteredChange 0 true) (energized 0 5 5)).plant.ogd.outputs[(0 : Fin 6)].energized =
        false := by decide +kernel
theorem test_leakageFilteredChange :
    (after (.leakageFilteredChange 0 true) (energized 0 5 5)).plant.cct[(0 : Fin 6)].state =
      .tripped := by decide +kernel
theorem test_flowFilteredChange :
    (after (.flowFilteredChange true) station).plant.ogd.flow.level = some true := by decide +kernel
theorem test_overloadDetected :
    (after (.overloadDetected 0 1251) (energized 0 100 5)).plant.cct[(0 : Fin 6)].state = .tripped ∧
      (after (.overloadDetected 0 1250) (energized 0 100 5)).plant.cct[(0 : Fin 6)].state =
        .regulating := by decide +kernel
theorem test_holdOffExpiry :
    (after (.holdOffExpiry 0)
      (after (.leakageFilteredChange 0 true) (energized 0 5 5))).plant.cct[(0 : Fin 6)].state =
      .settling := by decide +kernel
theorem test_tripClearTimeReached :
    (after (.tripClearTimeReached 0)
      { station with plant := station.plant.updTrip 0 fun _ => ⟨2, 1800, 0⟩ }).plant.ogd.trips[(0 : Fin 6)].count =
      0 := by decide +kernel
theorem test_testDurationExpiry :
    (after .testDurationExpiry testing).plant.ogd.test = none ∧
      (after .testDurationExpiry testing).plant.ogd.outputs[(4 : Fin 6)].energized = false := by
  decide +kernel
/-- With nothing waiting and nothing due, a millisecond passes. -/
theorem test_idleStep :
    (match step station with
      | .next t => t.now
      | .fault _ => 0
      | .refused _ => 0) = 100001 := by decide +kernel

/-! ### For every claim with premises, a situation that meets them -/

theorem newer_of {s : State} {c r : RoundNo} (h : s.rct.round = some c) (l : 1 ≤ (r - c).toNat)
    (u : (r - c).toNat ≤ 127) : Newer s r := by
  intro d hd
  rw [h] at hd
  cases hd
  exact ⟨l, u⟩

theorem test_meets_StepTakesFrontCommand :
    { station with pending := [.pinReset] }.pending = Instr.pinReset :: [] := rfl

theorem test_meets_IdleStepsLetTimePass_due :
    let s := withLif fun l => { l with testSlot := .pending (), idle := some 80 }
    s.pending = [] ∧ dueEvents s = [.deferenceExpiry] := by decide +kernel

theorem test_meets_IdleStepsLetTimePass_tick :
    let s := withLif fun l => { l with testSlot := .pending (), idle := some 79 }
    s.pending = [] ∧ dueEvents s = [] := by decide +kernel

theorem test_meets_IdleStepsLetTimePass_energized :
    let s := withOut 1 fun r =>
      { r with energized := true, health := { r.health with remainder := 999, seconds := 4294967294 } }
    s.pending = [] ∧ dueEvents s = [] ∧ s.plant.ogd.outputs[(1 : Fin 6)].health.remainder < 1000 ∧
      s.plant.ogd.outputs[(1 : Fin 6)].health.seconds < 4294967295 ∧
      s.plant.ogd.outputs[(1 : Fin 6)].energized = true ∧
      s.plant.ogd.outputs[(0 : Fin 6)].health.remainder < 1000 ∧
      s.plant.ogd.outputs[(0 : Fin 6)].health.seconds < 4294967295 ∧
      s.plant.ogd.outputs[(0 : Fin 6)].energized = false := by decide +kernel

theorem test_meets_ResetPinResetsAndReleases :
    State.reset.pins.resetnHeld = true ∧ station.pins.resetnHeld = false := by decide

theorem test_meets_TransferAttemptsProceed :
    (reading 1 3 []).sul.progress = .reading 1 3 none ∧ (reading 1 3 []).sul.copy = [] ∧
      (reading 4 2 [1, 0, 116]).sul.progress = .reading 4 2 none ∧
      (List.replicate 32 (0 : Byte)).length = 32 := by decide

theorem test_meets_UnreadableImageBlocks :
    AtStart (reading 5 3 [1, 0, 116]) ∧ (reading 5 3 [1, 0, 116]).sul.progress = .reading 5 3 none ∧
      AtStart (reading 1 1 []) ∧ (reading 1 1 []).sul.progress = .reading 1 1 none ∧
      (reading 1 1 []).sul.copy = [] ∧ [1, 0, 117] ≠ ([1, 0, 116] : List Byte) :=
  ⟨⟨rfl, rfl⟩, rfl, ⟨rfl, rfl⟩, rfl, rfl, by decide⟩

/-- A GOOD image, and a BAD one with a good shared section: strap address 5 is above N. -/
theorem test_meets_ImageIsJudgedAndLoaded :
    let s := reading 5 3 (imageBytes.take 99)
    let t := { s with sul := { s.sul with rank := 4 } }
    AtStart s ∧ s.sul.progress = .reading 5 3 none ∧ (imageBytes.drop 99).length = 17 ∧
      imagePasses (s.sul.copy ++ imageBytes.drop 99) s.sul.rank = true ∧ AtStart t ∧
      t.sul.progress = .reading 5 3 none ∧
      sharedPasses (t.sul.copy ++ imageBytes.drop 99) = true ∧
      imagePasses (t.sul.copy ++ imageBytes.drop 99) t.sul.rank = false := by
  intro s t
  have h : s.sul.copy ++ imageBytes.drop 99 = imageBytes := List.take_append_drop 99 imageBytes
  have g : sharedPasses imageBytes = true := by
    have := test_image_good
    unfold imagePasses at this
    revert this
    cases sharedPasses imageBytes <;> simp
  exact ⟨⟨rfl, rfl⟩, rfl, by decide, by rw [h]; exact test_image_good, ⟨rfl, rfl⟩, rfl,
    by rw [h]; exact g, by rw [h]; exact test_image_address⟩

theorem test_meets_TimersPlaceOwnOpen :
    (station.rct.roundTimer.isSome ∧ station.rct.membership.bids = true ∧
      station.lif.openSlot = .empty) ∧
    ((inMembership .listen).rct.roundTimer.isSome ∧
      (inMembership .listen).rct.membership = .listen) ∧
    let s := { station with rct := { station.rct with membership := .listen, listenTimer := some 0 } }
    s.rct.listenTimer.isSome ∧ s.rct.membership = .listen ∧ s.lif.openSlot = .empty := by decide

/-- Also the premises of SwapSettlesTheRound: station 4 opens round 8, the newest of 127 that count as
newer, or the first round met. -/
theorem test_meets_NewerOpenIsAdopted :
    canReceive station = true ∧ station.rct.membership.follows = true ∧
      (⟨4, 8, 0, 35377⟩ : OpenFrame).opener = (3 : Fin 32).val + 1 ∧ 4 ≤ station.img.stations ∧
      4 ≠ station.own ∧ Newer station 8 ∧ Newer station 134 ∧
      Newer { station with rct := { station.rct with round := none } } 0 :=
  ⟨by decide +kernel, rfl, rfl, by decide +kernel, by decide +kernel,
    newer_of (c := 7) rfl (by decide) (by decide), newer_of (c := 7) rfl (by decide) (by decide),
    fun _ h => nomatch h⟩

theorem test_meets_NewerOpenIsAdopted_cases :
    let s := { station with
      rct := { station.rct with membership := .listen, listenAdoptions := 1, round := some 255 } }
    s.rct.membership = .listen ∧ memberAfter .listen 1 false = .joining ∧
      memberAfter .listen 0 false = .listen ∧ s.rct.round = some 255 ∧
      2 ≤ ((1 : RoundNo) - 255).toNat := by decide

theorem test_meets_CompletenessTest :
    canReceive withBid = true ∧ withBid.rct.membership.follows = true ∧
      (⟨2, 8, 4, 35377⟩ : OpenFrame).opener = (1 : Fin 32).val + 1 ∧ 2 ≤ withBid.img.stations ∧
      2 ≠ withBid.own ∧ withBid.rct.round = some 7 ∧ (8 : RoundNo) = 7 + 1 := by decide +kernel

theorem test_meets_SwapSettlesTheRound_rows :
    let row := fun st m => (⟨st, 0, none, none, m⟩ : PeerRow)
    let s := { withBid with
      rst := { withBid.rst with rows := (withBid.rst.rows.set 3 (row .absent false)).set 1 (row .present false) } }
    s.rst.collecting[(2 : Fin 32)] = some (bidFrom 3) ∧
      ¬(s.rst.rows[(2 : Fin 32)].status = .retired ∧ s.rst.rows[(2 : Fin 32)].returnMark = false) ∧
      s.rst.collecting[(3 : Fin 32)] = none ∧ s.rst.rows[(3 : Fin 32)].status = .absent ∧
      s.rst.collecting[(1 : Fin 32)] = none ∧ s.rst.rows[(1 : Fin 32)].status = .present ∧
      s.rst.rows[(4 : Fin 32)].status = .unknown := by decide +kernel

theorem test_meets_SwapSettlesTheRound_retired :
    let s := { withBid with
      rst := { withBid.rst with rows := withBid.rst.rows.set 2 ⟨.retired, 0, none, none, false⟩ } }
    s.rst.collecting[(2 : Fin 32)] = some (bidFrom 3) ∧
      s.rst.rows[(2 : Fin 32)].status = .retired ∧ s.rst.rows[(2 : Fin 32)].returnMark = false := by
  decide +kernel

theorem test_meets_OtherOpensAreIgnored :
    canReceive station = true ∧ (inMembership .retired).rct.membership.follows = false ∧
      station.img.stations < 5 ∧ (1 : Nat) = station.own ∧ station.rct.round = some 7 ∧
      128 ≤ ((135 : RoundNo) - 7).toNat ∧ station.rct.opener = some 2 := by decide +kernel

theorem test_meets_ConflictDegradesTheRound :
    canReceive station = true ∧ station.rct.membership.follows = true ∧
      (2 : Fin 32).val + 1 ≤ station.img.stations ∧ 3 ≠ station.own ∧
      station.rct.round = some (⟨3, 7, 0, 0⟩ : OpenFrame).round ∧ station.rct.opener ≠ some 3 ∧
      ({ bidFrom 3 with opener := 4 } : BidFrame).wf = true ∧ 4 ≤ station.img.stations ∧
      station.rct.opener ≠ some 4 ∧ station.rct.degraded = false ∧
      station.rct.membership = .member := by decide +kernel

theorem test_meets_ConflictDegradesTheRound_degraded :
    { station with rct := { station.rct with degraded := true } }.rct.degraded = true := rfl

theorem test_meets_NewerBidIsLateAdopted :
    canReceive station = true ∧ station.rct.membership.follows = true ∧
      ({ bidFrom 3 with round := 8 } : BidFrame).wf = true ∧ (3 : Nat) = (2 : Fin 32).val + 1 ∧
      3 ≤ station.img.stations ∧ 2 ≤ station.img.stations ∧ 3 ≠ station.own ∧ Newer station 8 :=
  ⟨by decide +kernel, rfl, by decide, rfl, by decide +kernel, by decide +kernel, by decide +kernel,
    newer_of (c := 7) rfl (by decide) (by decide)⟩

theorem test_meets_FirstBidIsCollected :
    canReceive station = true ∧ station.rct.membership.follows = true ∧ (bidFrom 4).wf = true ∧
      (bidFrom 4).sender = (3 : Fin 32).val + 1 ∧ 4 ≤ station.img.stations ∧
      (bidFrom 4).opener ≤ station.img.stations ∧ 4 ≠ station.own ∧
      station.rct.round = some (bidFrom 4).round ∧ station.rct.opener = some (bidFrom 4).opener ∧
      station.rst.collecting[(3 : Fin 32)] = none := by decide +kernel

theorem test_meets_OtherBidsAreDiscarded :
    canReceive withBid = true ∧ (bidFrom 3).wf = true ∧
      (inMembership .blocked).rct.membership.follows = false ∧
      withBid.rct.membership.follows = true ∧ 128 ≤ ((135 : RoundNo) - 7).toNat ∧
      withBid.rct.round = some (bidFrom 3).round ∧ withBid.rct.opener = some (bidFrom 3).opener ∧
      (withBid.rst.collecting[(2 : Fin 32)]).isSome ∧ (bidFrom 1).sender = withBid.own ∧
      withBid.img.stations < (bidFrom 5).sender ∧ (bidFrom 5).wf = true := by decide +kernel

theorem test_meets_OwnOpenCheckEnds :
    let s := fun n => withLif fun l => { l with openSlot := .sending ⟨1, 8, 0, 35377⟩, openFailures := n }
    (s 1).lif.openSlot = .sending ⟨1, 8, 0, 35377⟩ ∧ (s 1).rct.membership.bids = true ∧
      (s 1).lif.openFailures < 2 ∧ 2 ≤ (s 2).lif.openFailures := by decide

theorem test_meets_OwnBidCheckEnds :
    let s := withLif fun l => { l with bidSlot := .sending (bidFrom 1) }
    s.lif.bidSlot = .sending (bidFrom 1) ∧ (bidFrom 1).sender = s.own := by decide

theorem test_meets_DeferenceClasses :
    let s := withLif fun l => { l with replySlot := .pending ⟨1, 9, 3, 1, .done, 0, 1, []⟩ }
    contender s.lif = some .replySlot ∧ s.lif.sending = false := by decide

theorem test_meets_ShortestDeferenceTakesTheLine :
    let o := withLif fun l => { l with openSlot := .pending (), testSlot := .pending () }
    let r := withLif fun l =>
      { l with replySlot := .pending ⟨1, 9, 3, 1, .done, 0, 1, []⟩, bidSlot := .pending (7, 2) }
    let b := withLif fun l => { l with bidSlot := .pending (7, 2), testSlot := .pending () }
    let t := withLif fun l => { l with testSlot := .pending () }
    (o.lif.sending = false ∧ o.lif.openSlot = .pending ()) ∧
      (r.lif.sending = false ∧ r.lif.openSlot = .empty ∧
        r.lif.replySlot = .pending ⟨1, 9, 3, 1, .done, 0, 1, []⟩) ∧
      (b.lif.sending = false ∧ b.lif.openSlot = .empty ∧ b.lif.replySlot = .empty ∧
        b.lif.bidSlot = .pending (7, 2)) ∧
      t.lif.sending = false ∧ t.lif.openSlot = .empty ∧ t.lif.replySlot = .empty ∧
      t.lif.bidSlot = .empty ∧ t.lif.testSlot = .pending () := by decide

theorem test_meets_FrameBytesReadBack :
    (Frame.bid (bidFrom 32)).wf = true ∧ (Frame.test ⟨1, 0, 255, List.replicate 32 0⟩).wf = true := by
  decide

theorem test_meets_BadFramesAreOnlyCounted :
    canReceive station = true ∧ judgeBytes (List.replicate 8 0) = .crcFailed ∧
      judgeBytes [1, 8, 2, 8, 0, 0, 0xd, 0x54] = .rejected := by decide +kernel

/-- Bytes that are a frame of each kind, received as the frame: an OPEN, a BID, a REQUEST, a REPLY and a
TEST. -/
theorem test_meets_BadFramesAreOnlyCounted_good :
    ∀ f ∈ [Frame.openFrame ⟨3, 8, 4, 35377⟩, .bid (bidFrom 3), .request (.query ⟨1, 9, 1, 0⟩),
      .reply ⟨3, 0, 3, 1, .done, 0, 1, []⟩, .test ⟨3, 5, 2, testPayload 5 2⟩],
      canReceive station = true ∧ judgeBytes (frameBytes f) = .good f ∧
        after (.badFrameReceived (frameBytes f)) station = after (frameCommand f) station ∧
        after (frameCommand f) station ≠ station := by
  decide +kernel

theorem test_meets_TestFramesAreChecked :
    canReceive station = true ∧ (⟨3, 5, 2, testPayload 5 2⟩ : TestFrame).wf = true ∧
      (3 : Nat) = (2 : Fin 32).val + 1 ∧ (⟨3, 0, 3, 1, .done, 0, 1, []⟩ : ReplyFrame).wf = true := by
  decide +kernel

theorem test_meets_ReplyCheckEnds :
    replying.lif.replySlot = .sending ⟨1, 9, 3, 1, .done, 0, 1, []⟩ ∧
      replying.srv.restartPending = false ∧
      { replying with srv := ⟨true⟩ }.srv.restartPending = true := by decide

theorem test_meets_EmissionCountsItsFrames :
    let s := { withLif fun l => { l with testSlot := .sending ⟨1, 5, 254, testPayload 5 254⟩ } with
      lck := { Lck.reset with emission := ⟨true, 255, 5, 254, 250, 4⟩ } }
    s.lif.testSlot = .sending ⟨1, 5, 254, testPayload 5 254⟩ ∧ s.lck.emission.nextIndex < 255 ∧
      s.lck.emission.passed < 255 ∧ s.lck.emission.failed < 255 := by decide +kernel

theorem test_meets_QueriesAreAnswered :
    canReceive station = true ∧ (1 : Byte).toNat = station.own ∧
      station.rct.membership ≠ .blocked ∧ (0 : Byte).toNat < pageCountOf station 1 ∧
      (5 : Byte).toNat < pageCountOf station 2 ∧ (6 : Byte).toNat < pageCountOf station 3 ∧
      (1 : Byte).toNat < pageCountOf station 4 ∧ (32 : Byte).toNat < pageCountOf station 5 ∧
      (0 : Byte).toNat < pageCountOf station 6 ∧ (0 : Byte).toNat < pageCountOf station 7 ∧
      (11 : Byte).toNat < pageCountOf station 8 := by decide +kernel

theorem test_meets_BadAndOtherRequests :
    canReceive station = true ∧ (1 : Byte).toNat = station.own ∧ pageCountOf station 2 ≤ (6 : Byte).toNat ∧
      8 < (9 : Byte).toNat ∧ 7 < (8 : Byte).toNat ∧ [(0 : Byte)] ≠ [] ∧
      (Request.query ⟨32, 9, 0, 0⟩).wf = true ∧ (Request.query ⟨32, 9, 0, 0⟩).unknown = true ∧
      NoRestartDue station ∧ (32 : Byte).toNat ≠ station.own :=
  ⟨by decide +kernel, by decide +kernel, by decide +kernel, by decide, by decide, by decide,
    by decide +kernel, by decide +kernel, .inl rfl, by decide +kernel⟩

theorem test_meets_RefusedRequestsChangeNothing :
    let s := inMembership .blocked
    canReceive s = true ∧ (1 : Byte).toNat = s.own ∧ s.rct.membership = .blocked ∧
      (5 : Byte).toNat < pageCountOf s 2 ∧ (6 : Byte).toNat < pageCountOf s 3 ∧
      (1 : Byte).toNat < pageCountOf s 4 ∧ (0 : Byte).toNat < pageCountOf s 5 ∧
      (0 : Byte).toNat < pageCountOf s 6 ∧ (11 : Byte).toNat < pageCountOf s 8 ∧
      factorSetAt [255, 255, 3] 0 &&& unnamedCodes = 0 := by decide +kernel

/-- No restart is pending, or the reply it waits for is. -/
theorem test_noRestartDue :
    NoRestartDue station ∧ NoRestartDue { replying with srv := ⟨true⟩ } :=
  ⟨.inl rfl, .inr nofun⟩

theorem test_meets_BroadcastsActWithoutReply :
    canReceive station = true ∧ (1 : Byte).toNat = station.own ∧
      [(2 : Byte), 60].length ≤ 56 ∧ NoRestartDue station :=
  ⟨by decide +kernel, by decide +kernel, by decide, .inl rfl⟩

/-- Also the premises of ClearQualityClearsTheTable. -/
theorem test_meets_FactorCommandsAct :
    canReceive station = true ∧ station.rct.membership ≠ .blocked ∧
      factorSetAt [255, 255, 3] 0 &&& unnamedCodes = 0 ∧ (1 : Byte).toNat = station.own ∧
      NoRestartDue station :=
  ⟨by decide +kernel, by decide, by decide +kernel, by decide +kernel, .inl rfl⟩

theorem test_meets_LinecheckStartsEmission :
    canReceive station = true ∧ (1 : Byte).toNat = station.own ∧ (255 : Byte) ≠ 0 ∧
      station.rct.membership ≠ .blocked ∧ station.rct.membership.bids = true ∧
      station.lck.emission.running = false ∧
      { station with lck := { station.lck with emission := ⟨true, 3, 0, 1, 1, 0⟩ } }.lck.emission.running =
        true ∧
      (inMembership .listen).rct.membership ≠ .blocked ∧
      (inMembership .listen).rct.membership.bids = false := by decide +kernel

theorem test_meets_RetireActsOnPeerAndSelf :
    canReceive station = true ∧ station.rct.membership ≠ .blocked ∧
      NoRestartDue station ∧ (32 : Byte).toNat = (31 : Fin 32).val + 1 ∧
      (32 : Byte).toNat ≠ station.own ∧ station.rct.membership.follows = true ∧
      (1 : Byte).toNat = station.own ∧ station.plant.ogd.boundTo 0 = some 0 :=
  ⟨by decide +kernel, by decide, .inl rfl, rfl, by decide +kernel, rfl, by decide +kernel,
    by decide +kernel⟩

theorem test_meets_RestartWaitsForTheReply :
    let s := withLif fun l => { l with replySlot := .pending ⟨1, 9, 3, 1, .done, 0, 1, []⟩ }
    canReceive station = true ∧ (1 : Byte).toNat = station.own ∧ station.lif.replySlot = .empty ∧
      canReceive s = true ∧ s.lif.replySlot ≠ .empty := by decide +kernel

/-- A free spare, and the output of a REGULATING circuit, both with room. -/
theorem test_meets_AcceptedTestRuns :
    canReceive station = true ∧ (1 : Byte).toNat = station.own ∧ station.rct.membership.bids = true ∧
      station.plant.ogd.test = none ∧ station.plant.ogd.outputs[(4 : Fin 6)].role = .spareFree ∧
      station.plant.ogd.outputs[(1 : Fin 6)].role.circuit = some 1 ∧
      station.plant.cct[(1 : Fin 6)].state.energizable = true ∧
      (∀ o : Fin 6, station.plant.ogd.outputs[o].limit.level = some false ∧
        station.plant.ogd.outputs[o].leakage.level ≠ some true ∧
        station.plant.ogd.outputs[o].energized = false) ∧
      ∀ o ∈ [(4 : Fin 6), 1],
        station.plant.ogd.outputs[o].rated * (station.img.window * 1000) +
          ((sixIds.filter fun c =>
            decide (station.plant.ogd.outputs[o].role.circuit ≠ some c)).map fun c =>
              station.plant.ogd.ratedOf c * station.plant.cct[c].onTime).sum ≤
        station.plant.alu.own * (station.img.window * 1000) := by decide +kernel

theorem test_meets_OtherTestsAreTurnedAway :
    canReceive testing = true ∧ (1 : Byte).toNat = testing.own ∧ testing.rct.membership ≠ .blocked ∧
      testing.plant.ogd.test ≠ none ∧ station.plant.ogd.test = none ∧
      station.plant.ogd.outputs[(2 : Fin 6)].role = .unused ∧
      (withOut 0 fun r => { r with role := .bad }).plant.ogd.outputs[(0 : Fin 6)].role = .bad ∧
      (withCct 0 fun r => { r with state := .tripped }).plant.cct[(0 : Fin 6)].state.energizable = false ∧
      (withOut 0 fun r => { r with limit := ⟨some true, none⟩ }).plant.ogd.outputs[(0 : Fin 6)].limit.level ≠
        some false ∧
      (inMembership .listen).rct.membership.bids = false := by decide +kernel

theorem test_meets_WindowStartRegulates :
    station.plant.cct[(0 : Fin 6)].toNext.isSome ∧ isConfigured station.img 0 = true ∧
      station.plant.cct[(0 : Fin 6)].state.energizable = true ∧
      station.rct.membership.follows = true ∧ station.plant.ogd.boundTo 0 = some 0 ∧
      station.plant.ogd.outputs[(0 : Fin 6)].energized = false ∧
      station.plant.ogd.outputs[(0 : Fin 6)].limit.level = some false ∧
      station.plant.ogd.outputs[(0 : Fin 6)].leakage.level ≠ some true ∧
      formTemperature station.env 0 = (some 280, .primary) := by decide +kernel

theorem test_meets_WindowStartWithoutTemperature :
    let s := { withCct 0 (fun r => { r with state := .settling, settle := .running 2 }) with ssc := .reset }
    s.plant.cct[(0 : Fin 6)].toNext.isSome ∧ isConfigured s.img 0 = true ∧
      s.plant.cct[(0 : Fin 6)].state.energizable = true ∧ s.rct.membership.follows = true ∧
      s.plant.ogd.boundTo 0 = some 0 ∧ s.plant.ogd.outputs[(0 : Fin 6)].energized = false ∧
      s.plant.ogd.outputs[(0 : Fin 6)].limit.level = some false ∧
      s.plant.ogd.outputs[(0 : Fin 6)].leakage.level ≠ some true ∧
      formTemperature s.env 0 = (none, .noSource) ∧
      { station with ssc := .reset }.plant.cct[(0 : Fin 6)].state ≠ .settling := by decide +kernel

theorem test_meets_WindowStartWithoutHeat :
    let s := withOut 0 fun r => { r with limit := ⟨some true, none⟩ }
    (withCct 0 fun r => { r with toNext := none }).plant.cct[(0 : Fin 6)].toNext = none ∧
      (withCct 5 fun r => { r with toNext := some 0 }).plant.cct[(5 : Fin 6)].toNext.isSome ∧
      isConfigured station.img 5 = false ∧
      (withCct 0 fun r => { r with state := .disabled }).plant.cct[(0 : Fin 6)].state = .disabled ∧
      s.plant.cct[(0 : Fin 6)].toNext.isSome ∧ isConfigured s.img 0 = true ∧
      s.plant.cct[(0 : Fin 6)].state ≠ .disabled ∧ s.plant.ogd.boundTo 0 = some 0 ∧
      s.plant.ogd.outputs[(0 : Fin 6)].energized = false ∧
      s.plant.ogd.outputs[(0 : Fin 6)].limit.level = some true := by decide +kernel

theorem test_meets_OnTimeEndsThePeriod :
    let s := energized 0 1000 500000
    s.plant.ogd.boundTo 0 = some 0 ∧ s.plant.ogd.outputs[(0 : Fin 6)].energized = true ∧
      s.plant.ogd.underTest 0 = false ∧
      ¬(1000 ≤ s.plant.ogd.outputs[(0 : Fin 6)].periodMs ∧
        2 ≤ s.plant.ogd.outputs[(0 : Fin 6)].openCount ∧
        2 * s.plant.ogd.outputs[(0 : Fin 6)].loadSum <
          10 * s.plant.ogd.outputs[(0 : Fin 6)].rated * s.plant.ogd.outputs[(0 : Fin 6)].periodMs) := by
  decide +kernel

theorem test_meets_SettleTimerExpires :
    let s := { withCct 0 (fun r => { r with state := .settling, settle := .due }) with ssc := .reset }
    s.plant.cct[(0 : Fin 6)].settle ≠ .stopped ∧ s.plant.cct[(0 : Fin 6)].state = .settling ∧
      (formTemperature s.env 0).1 = none ∧
      (withCct 0 fun r => { r with settle := .running 0 }).plant.cct[(0 : Fin 6)].settle ≠ .stopped := by
  decide +kernel

theorem test_meets_ConversionIsJudged :
    station.ssc.conv = some (0, 80) ∧ (Conversion.inRange (-60000)).wf = true ∧
      (0 : Fin 8) < 1 ∧ isEnabled station.img 1 = true ∧
      { station with ssc := { station.ssc with conv := some (1, 0) } }.ssc.conv = some (1, 0) ∧
      ∀ j : Fin 8, 1 < j → isEnabled station.img j = false := by decide +kernel

theorem test_meets_LevelsAreFilteredAndRecorded :
    station.plant.ogd.outputs[(0 : Fin 6)].limit.level = some false ∧
      true ≠ station.pins.limitOpen[(0 : Fin 6)] ∧ station.plant.ogd.flow.level = some false ∧
      true ≠ station.pins.flow ∧ station.plant.ogd.outputs[(0 : Fin 6)].energized = false ∧
      station.plant.ogd.outputs[(0 : Fin 6)].leakage.level = some false ∧
      decide (station.img.leakThreshold ≤ 30) ≠
        decide (station.img.leakThreshold ≤ station.pins.leakage[(0 : Fin 6)]) := by decide +kernel

theorem test_meets_LimitChangesMoveTheCircuit :
    let s := withOut 0 fun r => { r with limit := ⟨some true, none⟩ }
    station.plant.ogd.outputs[(0 : Fin 6)].role.circuit = some 0 ∧
      station.plant.ogd.underTest 0 = false ∧
      station.plant.ogd.outputs[(0 : Fin 6)].limit.level = some false ∧
      station.plant.cct[(0 : Fin 6)].state ≠ .disabled ∧
      s.plant.ogd.outputs[(0 : Fin 6)].role.circuit = some 0 ∧ s.plant.ogd.underTest 0 = false ∧
      s.plant.ogd.outputs[(0 : Fin 6)].limit.level = some true := by decide +kernel

theorem test_meets_OverloadIsExact :
    (energized 0 99 0).plant.ogd.outputs[(0 : Fin 6)].periodMs < 100 ∧
      overloaded station.plant.ogd.outputs[(0 : Fin 6)].rated 1250 = false := by decide +kernel

theorem test_trips_leakage : Trips (energized 0 5 0) 0 (.leakageFilteredChange 0 true) .leakage :=
  .leakage rfl
theorem test_trips_overload : Trips (energized 0 100 0) 0 (.overloadDetected 0 1251) .overload :=
  .overload 1251 (by decide +kernel) (by decide +kernel)
theorem test_trips_openElement :
    Trips (withOut 0 fun r => { r with energized := true, periodMs := 1000, loadSum := 499999, openCount := 2 })
      0 (.onTimeElapsed 0) .openElement :=
  .openElement 0 (by decide +kernel) (by decide +kernel) (by decide +kernel) (by decide +kernel)

/-- The trips above are below the limit of 3; with two trips before, the next reaches it. -/
theorem test_meets_Trips :
    let s := energized 0 5 0
    let t := { s with plant := s.plant.updTrip 0 fun _ => ⟨2, 0, 0⟩ }
    s.plant.ogd.outputs[(0 : Fin 6)].energized = true ∧
      s.plant.ogd.outputs[(0 : Fin 6)].role.circuit = some 0 ∧ s.plant.ogd.test = none ∧
      s.plant.ogd.trips[(0 : Fin 6)].count + 1 < s.img.tripLimit ∧
      t.img.tripLimit = t.plant.ogd.trips[(0 : Fin 6)].count + 1 ∧
      t.plant.ogd.outputs[(4 : Fin 6)].role = .spareFree ∧
      (∀ j : Fin 6, j < 4 → t.plant.ogd.outputs[j].role ≠ .spareFree) := by decide +kernel

/-- The same with no spare free. -/
theorem test_meets_TripAtTheLimit_noSpare :
    let p := ((energized 0 5 0).plant.updOut 4 fun r => { r with role := .unused }).updOut 5
      fun r => { r with role := .unused }
    (∀ q : Fin 6, p.ogd.outputs[q].role ≠ .spareFree) ∧
      p.ogd.outputs[(0 : Fin 6)].role.circuit = some 0 := by decide +kernel

theorem test_meets_HoldOffAndTripCountEnd :
    let s := after (.leakageFilteredChange 0 true) (energized 0 5 0)
    let o := { s with plant := s.plant.updOut 0 fun r => { r with limit := ⟨some true, none⟩ } }
    s.plant.ogd.outputs[(0 : Fin 6)].holdOff.isSome ∧
      s.plant.ogd.outputs[(0 : Fin 6)].role.circuit = some 0 ∧
      s.plant.cct[(0 : Fin 6)].state = .tripped ∧
      s.plant.ogd.outputs[(0 : Fin 6)].limit.level ≠ some true ∧
      o.plant.ogd.outputs[(0 : Fin 6)].limit.level = some true ∧
      s.plant.ogd.trips[(0 : Fin 6)].seconds < s.img.tripClear * 60 ∧
      s.img.tripClear * 60 ≤ (⟨1, 1800, 0⟩ : TripRec).seconds := by decide +kernel

theorem test_meets_TestEndsDone :
    testing.plant.ogd.test = some ⟨4, none, 10, 99000, 1000, 350000, 0⟩ ∧
      (after (.testOutput 1 9 [2, 60]) station).plant.ogd.test =
        some ⟨1, some 1, 60, 100000, 0, 0, 0⟩ ∧
      (after (.testOutput 1 9 [2, 60]) station).plant.cct[(1 : Fin 6)].state = .testing := by
  decide +kernel

theorem test_meets_ChargesBasesAndPoolSumToShares :
    sectionEnv.img.stations ≤ 32 ∧ classify sectionEnv.own sectionLedger 8 = .participant ∧
      classify sectionEnv.own { sectionLedger with heard := 0x7F } 8 = .charged ∧
      classify sectionEnv.own
        { sectionLedger with
          heard := 0x7F, rows := sectionLedger.rows.set 7 ⟨.retired, 0, none, none, false⟩ } 8 =
        .released := by decide +kernel

theorem test_meets_DivisionStaysWithinTheBudget : sharedOk sectionEnv.img = true := by decide +kernel

theorem test_meets_AlarmFollowsTheFactorSets :
    { station with plant := { station.plant with fct := ⟨1, 0⟩ } }.alarm = true ∧
      { station with plant := { station.plant with fct := ⟨1, 1⟩ } }.alarm = false := by decide +kernel

theorem test_meets_FactorSetsStayNamed : FactorsNamed station := ⟨rfl, rfl⟩

theorem test_meets_BadSetNeverShrinks :
    (withOut 0 fun r => { r with role := .bad }).plant.ogd.outputs[(0 : Fin 6)].role = .bad := rfl

/-- Two commands that put an output on: a window start and an output test. -/
theorem test_meets_OutputsTurnOnSafely :
    station.plant.ogd.outputs[(0 : Fin 6)].energized = false ∧
      station.plant.ogd.outputs[(1 : Fin 6)].energized = false ∧
      (after (.windowStart 0) { station with rst := { station.rst with line := .flowing } }).plant.ogd.outputs[(0 : Fin 6)].energized =
        true ∧
      (after (.testOutput 1 9 [2, 60]) station).plant.ogd.outputs[(1 : Fin 6)].energized = true := by
  decide +kernel

/-- In BLOCKED a CLEAR_QUALITY, addressed or broadcast, with no restart due. -/
theorem test_meets_ClearQualityClearsTheTable :
    let s := inMembership .blocked
    canReceive s = true ∧ s.rct.membership = .blocked ∧ (1 : Byte).toNat = s.own ∧ NoRestartDue s :=
  ⟨by decide +kernel, rfl, by decide +kernel, .inl rfl⟩

/-- At the setpoint, one step below it, and a whole band below it. -/
theorem test_meets_NeedIsProportional :
    (0 : Int) < 50 ∧ regulatedNeed 100 300 300 50 = 0 ∧ regulatedNeed 100 300 299 50 = 2 ∧
      regulatedNeed 100 300 250 50 = 100 := by decide

/-! ### Situations for the further clauses -/

/-- A wait with all of its 5 ms to come, and one at its end. -/
theorem test_meets_TransferAttemptsProceed_retry :
    let s := fun w => { reading 2 1 [1, 0, 116] with
      sul := { (reading 2 1 [1, 0, 116]).sul with progress := .reading 2 2 (some w) } }
    (s 5).sul.progress = .reading 2 2 (some 5) ∧ (s 0).sul.progress = .reading 2 2 (some 0) := by
  decide

/-- At the load of the GOOD image: an open limit, circuits not configured, and a primary that is BAD with and without a
spare. -/
theorem test_meets_ImageIsJudgedAndLoaded_cases :
    let s := reading 5 3 imageBytes
    let t := enterListen
    let bad := fun o (p : State) => { p with plant := p.plant.updOut o fun r => { r with role := .bad } }
    let opened := t { s with pins := { s.pins with limitOpen := Vector.replicate 6 true } }
    let spared := t (bad 0 s)
    let lost := t (bad 0 (bad 4 (bad 5 s)))
    isConfigured station.img 0 = true ∧ isConfigured station.img 2 = false ∧
      (t s).plant.ogd.boundTo 0 = some 0 ∧ (t s).plant.cct[(0 : Fin 6)].state = .settling ∧
      (t s).plant.cct[(2 : Fin 6)].state = .disabled ∧
      opened.plant.cct[(0 : Fin 6)].state = .inhibited ∧
      spared.plant.ogd.outputs[(4 : Fin 6)].role = .spareBound 0 ∧
      lost.plant.ogd.boundTo 0 = none ∧ lost.plant.cct[(0 : Fin 6)].state = .failed ∧
      lost.plant.fct.held .spareExhausted = true := by decide +kernel

/-- A MEMBER's own bid is missing though the opener heard it (UNSETTLED); it is not (degraded cap, of the
share or of the declared need). -/
theorem test_meets_SwapSettlesTheRound_degraded :
    let f : OpenFrame := ⟨4, 9, 1, 35377⟩
    let t := after (.openReceived f) withBid
    let u := after (.openReceived { f with heard := 0 }) withBid
    let d := { withBid with rct := { withBid.rct with declaredCurrent := none } }
    withBid.rst.collecting[withBid.sul.rank] = none ∧ inSet f.heard withBid.own = true ∧
      t.rct.membership = .member ∧ t.rct.degraded = true ∧ t.plant.alu.cap = some .unsettled ∧
      inSet (0 : AddrSet) withBid.own = false ∧ u.rct.degraded = true ∧
      withBid.plant.ogd.test = none ∧ withBid.rct.declaredCurrent = some 80 ∧
      d.rct.declaredCurrent = none ∧
      (after (.openReceived { f with heard := 0 }) d).plant.alu.cap = some .share := by decide +kernel

/-- A COMPLETE round of a MEMBER that takes part, and of one that does not; a station still JOINING. -/
theorem test_meets_SwapSettlesTheRound_kinds :
    let f : OpenFrame := ⟨4, 8, 5, 35377⟩
    let own := { withBid with
      rst := { withBid.rst with buf0 := withBid.rst.buf0.set 0 (some { bidFrom 1 with records := [⟨1, .p1, 4, 40⟩] }) } }
    let t := after (.openReceived f) own
    let u := after (.openReceived { f with heard := 4 }) withBid
    let j := after (.openReceived { f with heard := 4 })
      { withBid with rct := { withBid.rct with membership := .joining } }
    t.rct.membership = .member ∧ t.rct.degraded = false ∧ t.plant.alu.kind = .complete ∧
      (t.plant.alu.division.map (isParticipant own.own)) = some true ∧
      u.rct.degraded = false ∧ u.rct.membership = .member ∧
      (u.plant.alu.division.map (isParticipant own.own)) = some false ∧
      j.rct.membership ≠ .member ∧ j.plant.alu.kind = .capped := by decide +kernel

/-- A bid that the opener heard and the station did not, and flow reports of both kinds. -/
theorem test_meets_SwapSettlesTheRound_reports :
    let f : OpenFrame := ⟨4, 8, 6, 35377⟩
    let s := { withBid with
      rst := { withBid.rst with buf0 := withBid.rst.buf0.set 2 (some { bidFrom 3 with flow := .flow }) } }
    let t := after (.openReceived f) s
    s.rct.round.map (· + 1) = some f.round ∧ inSet f.heard 2 = true ∧ s.rst.collecting[(1 : Fin 32)] = none ∧
      t.lck.rows[(1 : Fin 32)].bidsMissed = 1 ∧ FlowUsed (some f.heard) s t .flow ∧ FlowUsed (some f.heard) s t .stop ∧
      t.rst.line ≠ .flowing := by
  refine ⟨by decide +kernel, by decide +kernel, by decide +kernel, by decide +kernel,
    .inr (.inr ⟨2, { bidFrom 3 with flow := .flow }, by decide +kernel, rfl, .inr ⟨_, rfl, by decide +kernel⟩⟩),
    .inr (.inl ⟨by decide +kernel, rfl⟩), by decide +kernel⟩

theorem test_meets_ShortestDeferenceTakesTheLine_busy :
    station.lif.sending = false ∧ station.lif.receiver ≠ .receiving ∧ station.lif.idle.isSome ∧
      replying.lif.sending = true ∧
      (withLif fun l => { l with receiver := .receiving }).lif.receiver = .receiving ∧
      (withLif fun l => { l with idle := none }).lif.idle = none := by decide

/-- A start bit 1 ms and 2 ms after the last character, and inside a frame; characters of a frame of 8
bytes: the first, a bad length, the last, one without its stop bit. -/
theorem test_meets_BadFramesAreOnlyCounted_line :
    let idle := fun n => withLif fun l => { l with idle := some n }
    let frame := fun b => withLif fun l => { l with receiver := .receiving, idle := none, buffer := b }
    ((idle 1).lif.sending = false ∧ (idle 1).lif.idle = some 1 ∧ (idle 1).lif.receiver = .hunting ∧
      (idle 2).lif.idle = some 2) ∧
    (withLif fun l => { l with receiver := .receiving }).lif.receiver = .receiving ∧
    ((frame []).lif.sending = false ∧ (frame []).lif.idle = none ∧
      (frame []).lif.receiver = .receiving ∧ (frame []).lif.buffer ++ [7] = [7]) ∧
    (frame [7]).lif.buffer ++ [8] = [7, 8] ∧ byteAt [7, 8] 1 = 8 ∧ byteAt [7, 65] 1 = 65 ∧
    ([7, 8, 0, 0, 0, 0, 0] ++ [(1 : Byte)]).length = byteAt [7, 8, 0, 0, 0, 0, 0, 1] 1 ∧
    (⟨1, false⟩ : LineChar).stop = false ∧
    (withLif fun l => { l with idle := none }).lif.receiver = .hunting := by decide +kernel

/-- The frame being sent has 13 bytes; each character read back may be equal or not, and last or not. -/
theorem test_meets_ReplyCheckEnds_characters :
    let bytes := frameBytes (.reply ⟨1, 9, 3, 1, .done, 0, 1, []⟩)
    let last := withLif fun l => { replying.lif with idle := l.idle, checked := bytes.length - 1 }
    replying.lineBytes = some bytes ∧ last.lineBytes = some bytes ∧
      bytes[replying.lif.checked]? = some 5 ∧ bytes[replying.lif.checked]? ≠ some 6 ∧
      replying.lif.checked + 1 < bytes.length ∧ (bytes[last.lif.checked]?).isSome ∧
      last.lif.checked + 1 = bytes.length := by decide +kernel

/-- At a restart an output is on in the middle of its period. -/
theorem test_meets_ReplyCheckEnds_energized :
    let s := { energized 0 1500 15007 with lif := replying.lif, srv := ⟨true⟩ }
    s.srv.restartPending = true ∧ s.lif.replySlot = .sending ⟨1, 9, 3, 1, .done, 0, 1, []⟩ ∧
      s.plant.ogd.outputs[(0 : Fin 6)].energized = true ∧
      0 < s.plant.ogd.outputs[(0 : Fin 6)].periodMs ∧
      s.plant.ogd.outputs[(1 : Fin 6)].energized = false := by decide

/-- A COMPLETE allotment with one record: six address pages and one record page. -/
theorem test_meets_PagesHaveTheirLengths :
    let own := { withBid with
      rst := { withBid.rst with buf0 := withBid.rst.buf0.set 0 (some { bidFrom 1 with records := [⟨1, .p1, 4, 40⟩] }) } }
    let t := after (.openReceived ⟨4, 8, 5, 35377⟩) own
    (t.plant.alu.division.map fun d => d.records.length) = some 1 ∧ pageCountOf t 6 = 8 ∧
      (t.rst.rows[(2 : Fin 32)].lastBid).isSome ∧ t.rst.rows[(3 : Fin 32)].lastBid = none := by
  decide +kernel

theorem test_meets_BadAndOtherRequests_arguments :
    let bad := fun args : List Byte =>
      decide (¬(args.length = 3 ∧ factorSetAt args 0 &&& unnamedCodes = 0))
    let badTest := fun args : List Byte =>
      decide (¬(args.length = 2 ∧ 1 ≤ byteAt args 0 ∧ byteAt args 0 ≤ 6 ∧ 1 ≤ byteAt args 1 ∧
        byteAt args 1 ≤ 60))
    let badCheck := fun args : List Byte => decide (¬(args.length = 3 ∧ byteAt args 0 ≠ 0))
    let badRetire := fun args : List Byte =>
      decide (¬(args.length = 1 ∧ 1 ≤ byteAt args 0 ∧ byteAt args 0 ≤ 32))
    bad [0, 0] = true ∧ bad [0, 0, 4] = true ∧ bad [0, 0, 3] = false ∧ badTest [0, 60] = true ∧
      badTest [7, 60] = true ∧ badTest [6, 0] = true ∧ badTest [6, 61] = true ∧
      badTest [6, 60] = false ∧ badTest [1] = true ∧ badCheck [0, 1, 2] = true ∧
      badCheck [1, 2] = true ∧ badCheck [1, 0, 0] = false ∧ badRetire [] = true ∧
      badRetire [0] = true ∧ badRetire [33] = true ∧ badRetire [32] = false := by decide +kernel

/-- Station 32 is another one; 255 is all of them. -/
theorem test_meets_BadAndOtherRequests_destination :
    isDestination 32 = true ∧ (32 : Byte).toNat ≠ station.own ∧ (32 : Byte) ≠ 255 ∧
      ([] : List Byte).length ≤ 56 := by decide +kernel

/-- 130 LU allotted, 100 LU under test and 35 LU at full duty beside it. -/
theorem test_meets_OtherTestsAreTurnedAway_room :
    let s := withCct 1 fun r => { r with onTime := 30000 }
    s.plant.ogd.test = none ∧
      s.plant.alu.own * (s.img.window * 1000) <
        s.plant.ogd.outputs[(0 : Fin 6)].rated * (s.img.window * 1000) +
          ((sixIds.filter fun c =>
            decide (s.plant.ogd.outputs[(0 : Fin 6)].role.circuit ≠ some c)).map fun c =>
              s.plant.ogd.ratedOf c * s.plant.cct[c].onTime).sum := by decide +kernel

/-- A circuit that does not heat: TRIPPED with its output off, FAILED without one, and TESTING with its
output on under test. -/
theorem test_meets_WindowStartWithoutHeat_evaluated :
    let s := withCct 0 fun r => { r with state := .tripped }
    let f := { withCct 0 (fun r => { r with state := .failed }) with
      plant := (withCct 0 fun r => { r with state := .failed }).plant.updOut 0 fun r => { r with role := .bad } }
    let t := after (.testOutput 1 9 [2, 60]) station
    s.plant.cct[(0 : Fin 6)].toNext.isSome ∧ isConfigured s.img 0 = true ∧
      s.plant.ogd.boundTo 0 = some 0 ∧ s.plant.ogd.outputs[(0 : Fin 6)].energized = false ∧
      f.plant.ogd.boundTo 0 = none ∧ f.plant.cct[(0 : Fin 6)].state = .failed ∧
      t.plant.cct[(1 : Fin 6)].state = .testing ∧ t.plant.ogd.boundTo 1 = some 1 ∧
      t.plant.cct[(1 : Fin 6)].toNext.isSome ∧ t.plant.ogd.outputs[(1 : Fin 6)].energized = true ∧
      t.plant.ogd.underTest 1 = true := by decide +kernel

/-- A conflict in a COMPLETE round: the grant of 40 LU falls to 30, which the declared need of 30 allows; the
on-time of 4 s shortens to 3 s, which 3.5 s of the window have passed and 2 s have not. A declared need of
80 leaves the grant. -/
theorem test_meets_OnTimeEndsThePeriod_cut :
    let base := energized 0 2000 0
    let s := fun (n next : Nat) => { base with
      rct := { base.rct with declaredClosed := some n },
      plant := (base.plant.updCct 0 fun r => { r with onTime := 4000, toNext := some next }).updCct 1
        fun _ => .reset }
    let f : OpenFrame := ⟨3, 7, 0, 0⟩
    let fell := after (.openReceived f) (s 30 6500)
    let goes := after (.openReceived f) (s 30 8000)
    let kept := after (.openReceived f) (s 80 6500)
    canReceive (s 30 6500) = true ∧ (s 30 6500).rct.membership = .member ∧
      (s 30 6500).rct.degraded = false ∧ (s 30 6500).rct.round = some f.round ∧
      (s 30 6500).rct.opener ≠ some f.opener ∧ (s 30 6500).plant.ogd.test = none ∧
      (s 30 6500).plant.ogd.boundTo 0 = some 0 ∧
      (∀ j : Fin 6, j ≠ 0 → (s 30 6500).plant.ogd.outputs[j].energized = false) ∧
      (s 30 6500).plant.ogd.outputs[(0 : Fin 6)].openCount < 2 ∧
      fell.plant.cct[(0 : Fin 6)].grant = 30 ∧ fell.plant.cct[(0 : Fin 6)].onTime = 3000 ∧
      fell.plant.ogd.outputs[(0 : Fin 6)].energized = false ∧
      goes.plant.cct[(0 : Fin 6)].onTime = 3000 ∧
      goes.plant.ogd.outputs[(0 : Fin 6)].energized = true ∧
      kept.plant.cct[(0 : Fin 6)].grant = 40 ∧ kept.plant.cct[(0 : Fin 6)].onTime = 4000 := by
  decide +kernel

/-- The spare under test trips. -/
theorem test_trips_ofTest :
    Trips testing 4 (.leakageFilteredChange 4 true) .leakage ∧
      testing.plant.ogd.outputs[(4 : Fin 6)].energized = true ∧
      testing.plant.ogd.outputs[(4 : Fin 6)].role = .spareFree :=
  ⟨.leakage rfl, by decide +kernel, by decide +kernel⟩

/-- A bound output under test that trips below the limit, and one whose limit opens. -/
theorem test_meets_TestEndsDone_bound :
    let t := after (.testOutput 1 9 [2, 60]) station
    (∃ r, t.plant.ogd.test = some r ∧ r.output = 1 ∧ r.circuit = some 1) ∧
      Trips t 1 (.leakageFilteredChange 1 true) .leakage ∧
      t.plant.ogd.outputs[(1 : Fin 6)].energized = true ∧
      t.plant.ogd.outputs[(1 : Fin 6)].role.circuit = some 1 ∧
      t.plant.ogd.trips[(1 : Fin 6)].count + 1 < t.img.tripLimit ∧
      t.plant.ogd.outputs[(1 : Fin 6)].limit.level = some false ∧ t.rct.membership.follows = true ∧
      canReceive t = true ∧ NoRestartDue t ∧ (1 : Byte).toNat = t.own ∧
      0 < t.plant.ogd.outputs[(1 : Fin 6)].rated :=
  ⟨⟨_, rfl, by decide +kernel, by decide +kernel⟩, .leakage (by decide +kernel), by decide +kernel,
    by decide +kernel, by decide +kernel, by decide +kernel, by decide +kernel, by decide +kernel,
    .inl (by decide +kernel), by decide +kernel, by decide +kernel⟩

/-- The lowest free spare is under test, alone with an output that reaches its trip limit. -/
theorem test_meets_TestEndsDone_binding :
    let s := { testing with
      plant := (testing.plant.updOut 0 fun r => { r with energized := true, periodMs := 5 }).updTrip 0
        fun _ => ⟨2, 0, 0⟩ }
    s.plant.ogd.test = some ⟨4, none, 10, 99000, 1000, 350000, 0⟩ ∧
      Trips s 0 (.leakageFilteredChange 0 true) .leakage ∧
      s.plant.ogd.outputs[(0 : Fin 6)].energized = true ∧
      s.plant.ogd.outputs[(0 : Fin 6)].role.circuit = some 0 ∧
      s.img.tripLimit = s.plant.ogd.trips[(0 : Fin 6)].count + 1 ∧
      s.plant.ogd.outputs[(4 : Fin 6)].role = .spareFree ∧
      (∀ j : Fin 6, j < 4 → s.plant.ogd.outputs[j].role ≠ .spareFree) ∧
      ∀ j : Fin 6, j ≠ 0 → j ≠ 4 → s.plant.ogd.outputs[j].energized = false :=
  ⟨rfl, .leakage (by decide +kernel), by decide +kernel, by decide +kernel, by decide +kernel,
    by decide +kernel, by decide +kernel, by decide +kernel⟩

theorem test_division_total :
    ((after (.openReceived ⟨4, 8, 4, 35377⟩) withBid).plant.alu.division.all fun d =>
      decide (d.total ≤ (after (.openReceived ⟨4, 8, 4, 35377⟩) withBid).img.budget)) = true := by
  decide +kernel

/-- The invariants hold of a station with a division in force. -/
theorem test_meets_DivisionStaysWithinTheBudget_step :
    BudgetHeld (after (.openReceived ⟨4, 8, 4, 35377⟩) withBid) where
  reset h := absurd h (by decide +kernel)
  image _ := by decide +kernel
  division d h := by
    refine ⟨by decide +kernel, ?_⟩
    have := test_division_total
    rw [h] at this
    exact of_decide_eq_true this

theorem test_meets_GrantsStayWithinNeedAndAllotment_step : GrantsHeld station where
  reset h := absurd h (by decide)
  sum := by decide +kernel
  records _ h := nomatch h

/-- Of the station with a spare under test, which is on. -/
theorem test_meets_OutputsTurnOnSafely_step : OutputsSafe testing where
  reset h := absurd h (by decide)
  following _ :=
    ⟨rfl,
      { driven := by decide +kernel
        single := by decide +kernel
        spareTest := fun t h _ => by cases h; rfl
        circuitTest := fun t c h e => by cases h; cases e
        rated := by decide +kernel }⟩
  other h := absurd h (by decide)

/-- Of the station with a spare under test: 80 LU of grants and 35 LU of the spare, in 130 LU. -/
theorem test_meets_GrantsStayWithinNeedAndAllotment_loads : LoadsHeld testing where
  outputs := test_meets_OutputsTurnOnSafely_step
  grants := ⟨fun h => absurd h (by decide), by decide +kernel, fun _ h => nomatch h⟩
  unread h := absurd rfl h
  window _ := by decide +kernel
  duty := by decide +kernel
  tested t h := by
    cases h
    decide +kernel

/-- Of the station with a spare under test: no trip so far, a trip limit of 3. -/
theorem test_meets_BadSetNeverShrinks_counts : TripCountsHeld testing where
  outputs := test_meets_OutputsTurnOnSafely_step
  unread h := absurd rfl h
  within := by decide +kernel
  limit _ := by decide +kernel
  below _ := by decide +kernel

/-- Events due at the first millisecond of each: a window, an on-time, a settle timer, a trip count, a filter
that has held its glitch width, a hold-off, a test, the timers, a frame gap. -/
theorem test_meets_IdleStepsLetTimePass_events :
    let held := fun n => withOut 0 fun r => { r with leakage := ⟨some false, some n⟩ }
    let on := { energized 0 5000 500000 with
      plant := (energized 0 5000 500000).plant.updCct 0 fun r => { r with onTime := 4000, toNext := some 6000 } }
    station.img.glitchLeakage = 5 ∧ dueEvents (held 4) = [] ∧
      dueEvents (held 5) = [.leakageFilteredChange 0 false] ∧
      dueEvents on = [.onTimeElapsed 0] ∧
      dueEvents (withCct 1 fun r => { r with toNext := some 0 }) = [.windowStart 1] ∧
      dueEvents (withCct 1 fun r => { r with settle := .due }) = [.settleTimerExpiry 1] ∧
      dueEvents { station with plant := station.plant.updTrip 0 fun _ => ⟨1, 1800, 0⟩ } =
        [.tripClearTimeReached 0] ∧
      dueEvents (withOut 1 fun r => { r with holdOff := some 0 }) = [.holdOffExpiry 1] ∧
      dueEvents { testing with now := 109000 } = [.testDurationExpiry] ∧
      dueEvents { station with rct := { station.rct with roundTimer := some 0 } } = [.roundTimerExpiry] ∧
      dueEvents (withLif fun l => { l with receiver := .receiving, idle := some 2 }) = [] ∧
      dueEvents (withLif fun l => { l with receiver := .receiving, idle := some 3 }) =
        [.frameGapTimeout] := by decide +kernel

/-- A start bit 2 ms and 3 ms after the last character of a frame: the frame goes on, or it is broken and the
next one begins. -/
theorem test_meets_BadFramesAreOnlyCounted_gap :
    let s := fun n => withLif fun l => { l with receiver := .receiving, buffer := [7, 8], idle := some n }
    (s 2).lif.sending = false ∧ (s 2).lif.idle = some 2 ∧ (s 3).lif.idle = some 3 ∧
      (s 3).lif.receiver = .receiving ∧
      (after (.rawInputChange .lineStart) (s 2)).lif.buffer = [7, 8] ∧
      (after (.rawInputChange .lineStart) (s 3)).lif.buffer = [] ∧
      (after (.rawInputChange .lineStart) (s 3)).lif.receiver = .receiving ∧
      (after (.rawInputChange .lineStart) (s 3)).lck.totals.crcFailures = 1 := by decide +kernel

/-- The load of a bid: 40 % of 100 LU with 80 % of 50 LU, and a spare of 35 LU under test beside it. -/
theorem test_meets_ShortestDeferenceTakesTheLine_load :
    0 < station.img.window * 1000 ∧ station.plant.ogd.test = none ∧ testing.plant.ogd.test ≠ none ∧
      (ownBid 7 2 station).load = 80 ∧ (ownBid 7 2 testing).load = 115 := by decide +kernel

/-- The grants on entry to LISTEN: two circuits with a fallback need of 20 LU each, of a share of 130 LU. -/
theorem test_meets_ImageIsJudgedAndLoaded_spread :
    let t := enterListen (reading 5 3 imageBytes)
    spreadTakes t.plant 0 = true ∧ spreadTakes t.plant 2 = false ∧ spreadBefore t.plant 0 1 = true ∧
      t.plant.cct[(0 : Fin 6)].grant = 20 ∧ t.plant.cct[(1 : Fin 6)].grant = 20 := by decide +kernel

/-- In BLOCKED, and in RETIRED with its own address. -/
theorem test_meets_RetireActsOnPeerAndSelf_none :
    canReceive (inMembership .blocked) = true ∧ NoRestartDue (inMembership .blocked) ∧
      (inMembership .blocked).rct.membership = .blocked ∧ canReceive (inMembership .retired) = true ∧
      NoRestartDue (inMembership .retired) ∧ (inMembership .retired).rct.membership = .retired ∧
      (1 : Byte).toNat = (inMembership .retired).own :=
  ⟨by decide +kernel, .inl rfl, rfl, by decide +kernel, .inl rfl, rfl, by decide +kernel⟩

/-- On an output that is on, with and without a test of it. -/
theorem test_meets_LevelsAreFilteredAndRecorded_peak :
    (energized 0 5 0).plant.ogd.outputs[(0 : Fin 6)].energized = true ∧
      (energized 0 5 0).plant.ogd.test = none ∧
      testing.plant.ogd.outputs[(4 : Fin 6)].energized = true ∧
      (testing.plant.ogd.test.map TestRecord.output) = some 4 ∧
      ((after (.rawInputChange (.leakage 4 1200)) testing).plant.ogd.test.map TestRecord.peak) =
        some 1000 := by decide +kernel

/-- A free spare that is not under test. -/
theorem test_meets_LimitChangesMoveTheCircuit_unbound :
    station.plant.ogd.outputs[(4 : Fin 6)].role.circuit = none ∧ station.plant.ogd.underTest 4 = false ∧
      station.plant.ogd.outputs[(4 : Fin 6)].limit.level = some false := by decide +kernel

/-- Each way to a new allotment, with a test of O2 (50 LU) alone on: a declared need of 30 LU is below it, one
of 80 LU is not. -/
theorem test_meets_TestEndsDone_allotment :
    let s := after (.testOutput 1 9 [2, 60]) station
    let low := { s with rct := { s.rct with declaredCurrent := some 30 } }
    let t := fun x : State => after (.openReceived ⟨4, 9, 0, 35377⟩) x
    (∃ r, s.plant.ogd.test = some r ∧ r.output = 1 ∧ r.circuit = some 1) ∧
      (∀ j : Fin 6, j ≠ 1 → s.plant.ogd.outputs[j].energized = false) ∧
      s.plant.cct[(1 : Fin 6)].state = .testing ∧ (t low).plant.alu.own = 30 ∧
      (t low).plant.ogd.test = none ∧ (t s).plant.alu.own = 80 ∧ (t s).plant.ogd.test ≠ none :=
  ⟨⟨_, rfl, by decide +kernel, by decide +kernel⟩, by decide +kernel, by decide +kernel,
    by decide +kernel, by decide +kernel, by decide +kernel, by decide +kernel⟩

theorem test_reallots :
    Reallots station (.openReceived ⟨4, 9, 0, 35377⟩) ∧
      Reallots station (.bidReceived { bidFrom 3 with round := 8 }) ∧
      Reallots (withLif fun l => { l with openSlot := .sending ⟨1, 8, 0, 35377⟩ }) (.openCheckEnd true) ∧
      Reallots station (.openReceived ⟨3, 7, 0, 35377⟩) ∧
      Reallots station (.bidReceived { bidFrom 3 with opener := 4 }) :=
  ⟨.openNewer _ 3 (by decide +kernel) rfl rfl (by decide +kernel) (by decide +kernel)
      (newer_of (c := 7) rfl (by decide) (by decide)),
    .bidNewer _ 2 (by decide +kernel) rfl (by decide) rfl (by decide +kernel) (by decide +kernel)
      (by decide +kernel) (newer_of (c := 7) rfl (by decide) (by decide)),
    .ownOpen _ rfl rfl,
    .openConflict _ 2 (by decide +kernel) rfl rfl rfl (by decide +kernel) (by decide +kernel) rfl (by decide),
    .bidConflict _ 2 (by decide +kernel) rfl rfl (by decide) rfl (by decide +kernel) (by decide +kernel) rfl
      (by decide)⟩

/-- A bound output under test trips for the last time, with a free spare and with none. -/
theorem test_meets_TestEndsDone_limit :
    let b := after (.testOutput 1 9 [2, 60]) station
    let s := { b with plant := b.plant.updTrip 1 fun _ => ⟨2, 0, 0⟩ }
    let bad := fun (o : Fin 6) (p : Plant) => p.updOut o fun r => { r with role := .bad }
    let n := { s with plant := bad 4 (bad 5 s.plant) }
    Trips s 1 (.leakageFilteredChange 1 true) .leakage ∧
      s.plant.ogd.outputs[(1 : Fin 6)].energized = true ∧
      s.plant.ogd.outputs[(1 : Fin 6)].role.circuit = some 1 ∧
      s.img.tripLimit = s.plant.ogd.trips[(1 : Fin 6)].count + 1 ∧
      (∀ j : Fin 6, j ≠ 1 → s.plant.ogd.outputs[j].energized = false) ∧
      s.plant.ogd.outputs[(4 : Fin 6)].role = .spareFree ∧
      (∀ j : Fin 6, j < 4 → s.plant.ogd.outputs[j].role ≠ .spareFree) ∧
      Trips n 1 (.leakageFilteredChange 1 true) .leakage ∧
      ∀ q : Fin 6, n.plant.ogd.outputs[q].role ≠ .spareFree :=
  ⟨.leakage (by decide +kernel), by decide +kernel, by decide +kernel, by decide +kernel,
    by decide +kernel, by decide +kernel, by decide +kernel, .leakage (by decide +kernel),
    by decide +kernel⟩

/-- A participant of the worked division, its records in it, and a record with a base part and a pool
part. -/
theorem test_meets_ChargesBasesAndPoolSumToShares_records :
    let d := divide sectionEnv sectionLedger
    (∃ b, Participates sectionLedger 7 b) ∧ isParticipant 8 d = true ∧
      d.records.any (fun r => decide (r.addr = 8)) = true ∧
      d.records.any (fun r => decide (0 < r.basePart ∧ 0 < r.poolPart)) = true :=
  ⟨⟨(sectionLedger.settled[(7 : Fin 32)]).get (by decide +kernel), by decide +kernel, by decide +kernel,
    by decide +kernel, by decide +kernel⟩, by decide +kernel, by decide +kernel, by decide +kernel⟩

/-- A page of the allotment with an address and a record, and a channel that has converted and one that has not. -/
theorem test_meets_PagesHaveTheirLengths_rows :
    let own := { withBid with
      rst := { withBid.rst with buf0 := withBid.rst.buf0.set 0 (some { bidFrom 1 with records := [⟨1, .p1, 4, 40⟩] }) } }
    let t := after (.openReceived ⟨4, 8, 5, 35377⟩) own
    (t.plant.alu.division.bind fun d => d.records[0]?).isSome = true ∧
      t.plant.ogd.outputs[(0 : Fin 6)].holdOff = none ∧ t.plant.ogd.test = none ∧
      (testing.plant.ogd.test.map TestRecord.energizedMs) = some 1000 ∧
      (pageBody t 6 7) = [1, 1, 1, 4, 40, 40, 0, 40] := by decide +kernel

/-- Two readings that count, the backup's the lower, the higher and equal; one of them alone; none, the
qualities being SUSPECT and OPEN. -/
theorem test_meets_WindowStartRegulates_temperature :
    let s := fun (p b : Channel) => { station with
      sul := { station.sul with copy := imageBytes.set 34 2 },
      ssc := { station.ssc with rows := (station.ssc.rows.set 0 p).set 1 b } }
    let good := fun (v : Int) => (⟨.good, some v, some v, none, some 0⟩ : Channel)
    let bad := fun (q : Quality) => (⟨q, some 200, some 200, none, some 0⟩ : Channel)
    let formed := fun (p b : Channel) => formTemperature (s p b).env 0
    Counts (s (good 280) (good 270)) 1 280 ∧ Counts (s (good 280) (good 270)) 2 270 ∧
      (s (good 280) (good 270)).img.circuits[(0 : Fin 6)].backupSensor = 2 ∧
      formed (good 280) (good 270) = (some 270, .backup) ∧
      formed (good 270) (good 280) = (some 270, .primary) ∧
      formed (good 280) (good 280) = (some 280, .primary) ∧
      formed (good 280) (bad .suspect) = (some 280, .primary) ∧
      formed (bad .isOpen) (good 280) = (some 280, .backup) ∧
      formed (bad .isOpen) (bad .suspect) = (none, .noSource) :=
  ⟨⟨0, rfl, rfl, rfl⟩, ⟨1, rfl, rfl, rfl⟩, by decide +kernel, by decide +kernel, by decide +kernel,
    by decide +kernel, by decide +kernel, by decide +kernel, by decide +kernel⟩

/-- One field out of its range for a stage: a third reserve, a stale count of 8, a fallback need above the
rated load, a sensor that is not enabled, two circuits on one output, a window of 31 s. -/
theorem test_image_stages :
    let m := fun (i : Nat) (b : Byte) => readImage (imageBytes.set i b)
    sharedOk (m 6 3) = false ∧ sharedOk (m 17 8) = false ∧ localOk (m 41 101) = false ∧
      localOk (m 33 3) = false ∧ localOk (m 43 1) = false ∧ localOk (m 109 31) = false ∧
      sharedOk (readImage imageBytes) = true ∧ localOk (readImage imageBytes) = true := by
  decide +kernel

/-- An output on for its first millisecond, for 99 ms, and for 100 ms: the mean is over the whole period, and
then over its last 100 ms. -/
theorem test_meets_IdleStepsLetTimePass_loads :
    let s := fun n => { withOut 1 (fun r =>
      { r with energized := true, periodMs := n, loadSum := 300 * n, recent := List.replicate n 300 }) with
        pins := { station.pins with load := station.pins.load.set 1 500 } }
    let u := fun n => (tick (s n)).plant.ogd.outputs[(1 : Fin 6)]
    (s 99).pending = [] ∧ dueEvents (s 99) = [] ∧ WindowKept (s 0).plant.ogd.outputs[(1 : Fin 6)] ∧
      WindowKept (s 99).plant.ogd.outputs[(1 : Fin 6)] ∧
      WindowKept (s 100).plant.ogd.outputs[(1 : Fin 6)] ∧ (u 0).measured = 500 ∧
      (u 99).measured = 302 ∧ (u 99).recent.length = 100 ∧ (u 100).recent.length = 100 ∧
      (u 100).measured = 302 := by
  unfold WindowKept
  decide +kernel

theorem test_meets_IdleStepsLetTimePass_samples : PeriodsKept station where
  reset h := absurd h (by decide)
  samples := by
    unfold WindowKept
    decide +kernel

/-- A newer BID under the own address, one of a foreign digest, and one of a RETIRED sender. -/
theorem test_meets_NewerBidIsLateAdopted_senders :
    let own := { bidFrom 1 with round := 8 }
    let other := { bidFrom 3 with round := 8, digest := 1 }
    let s := { station with rst := { station.rst with rows := station.rst.rows.set 2 ⟨.retired, 0, none, none, false⟩ } }
    let t := after (.bidReceived other) s
    own.wf = true ∧ own.sender = station.own ∧ (1 : Nat) = (0 : Fin 32).val + 1 ∧
      (after (.bidReceived own) station).plant.fct.held .duplicateBid = true ∧
      (after (.bidReceived own) station).rst.collecting[(0 : Fin 32)] = none ∧
      other.wf = true ∧ station.sul.digest ≠ some other.digest ∧ t.plant.fct.held .mismatch = true ∧
      t.rst.rows[(2 : Fin 32)].status = .retired ∧ t.rst.rows[(2 : Fin 32)].returnMark = true ∧
      t.rct.degraded = true ∧ t.plant.alu.kind = .degraded := by decide +kernel

/-- The swap of the own OPEN, COMPLETE as participant, COMPLETE as charged, and DEGRADED by a foreign
digest. -/
theorem test_meets_OwnOpenCheckEnds_swaps :
    let s := fun (b : BidFrame) (h : AddrSet) => { withBid with
      lif := { withBid.lif with openSlot := .sending ⟨1, 8, h, 35377⟩ },
      rst := { withBid.rst with buf0 := withBid.rst.buf0.set 0 (some b) } }
    let own := { bidFrom 1 with records := [⟨1, .p1, 4, 40⟩] }
    let t := after (.openCheckEnd true) (s own 5)
    let c := after (.openCheckEnd true) (s own 4)
    let d := after (.openCheckEnd true) (s { own with digest := 1 } 5)
    (s own 5).rct.membership.bids = true ∧ t.rct.degraded = false ∧ t.rct.membership = .member ∧
      t.plant.alu.kind = .complete ∧ t.plant.alu.own = 40 ∧
      (t.plant.alu.division.map (isParticipant t.own)) = some true ∧ c.rct.degraded = false ∧
      (c.plant.alu.division.map (isParticipant c.own)) = some false ∧ c.plant.alu.own = 130 ∧
      d.rct.degraded = true ∧ d.plant.alu.kind = .degraded := by decide +kernel

/-- A test of 35 LU of an allotment of 100 LU: the grants of 40 LU each are lowered to 65 LU in all, from
circuit 2, the last in local order. One of 130 LU leaves them. -/
theorem test_meets_AcceptedTestRuns_lowered :
    let low := { station with
      plant := { station.plant.updCct 0 (fun r => { r with onTime := 2000 }) with
        alu := { station.plant.alu with own := 100 } } }
    let t := after (.testOutput 1 9 [5, 60]) low
    let u := after (.testOutput 1 9 [5, 60]) station
    low.plant.ogd.outputs[(4 : Fin 6)].rated * (low.img.window * 1000) +
        ((sixIds.filter fun c => decide (low.plant.ogd.outputs[(4 : Fin 6)].role.circuit ≠ some c)).map
          fun c => low.plant.ogd.ratedOf c * low.plant.cct[c].onTime).sum ≤
        low.plant.alu.own * (low.img.window * 1000) ∧
      localBefore low.plant 0 1 ∧ (grantsInForce t.plant).toList = [40, 25, 0, 0, 0, 0] ∧
      (grantsInForce u.plant).toList = [40, 40, 0, 0, 0, 0] := by
  unfold localBefore
  decide +kernel

/-- The order of a participant's own records is theirs: circuit 2 comes first in local order and last in its
records. -/
theorem test_meets_GrantsStayWithinNeedAndAllotment_order :
    let d := divide station.env ⟨withBid.rst.collecting.set 0 (some { bidFrom 1 with
      records := [⟨1, .p0, -1, 40⟩, ⟨2, .p1, 4, 40⟩] }), withBid.rst.rows, 5, withBid.sul.digest⟩
    let p := { station.plant.updCct 1 (fun r => { r with margin := some 3 }) with
      alu := { station.plant.alu with division := some d } }
    isParticipant 1 d = true ∧ localBefore p 1 0 ∧
      recordOrder 1 d = [0, 1] ∧ localOrder p = [1, 0] ∧
      (deductGrants station.env p none 65 (grantsInForce p)).toList = [40, 25, 0, 0, 0, 0] ∧
      (deductGrants station.env p (some 1) 65 (grantsInForce p)).toList = [40, 0, 0, 0, 0, 0] := by
  unfold localBefore
  decide +kernel

/-- A filter that has counted 3 ms goes on while the leakage current changes above the threshold, and
begins where it crosses it. -/
theorem test_meets_LevelsAreFilteredAndRecorded_held :
    let s := { withOut 0 (fun r => { r with leakage := ⟨some false, some 3⟩ }) with
      pins := { station.pins with leakage := station.pins.leakage.set 0 40 } }
    let held := fun mA => (after (.rawInputChange (.leakage 0 mA)) s).plant.ogd.outputs[(0 : Fin 6)].leakage.held
    s.img.leakThreshold = 30 ∧ held 41 = some 3 ∧ held 30 = some 3 ∧ held 29 = none ∧
      (after (.rawInputChange (.leakage 1 30)) s).plant.ogd.outputs[(1 : Fin 6)].leakage.held = some 0 ∧
      after (.rawInputChange (.limit 0 s.pins.limitOpen[(0 : Fin 6)])) s = s := by decide +kernel

/-- A station that is sending, a receiver that is off and one that hunts on a line in use take no frame. -/
theorem test_meets_BadFramesAreOnlyCounted_deaf :
    canReceive replying = false ∧ canReceive (withLif fun l => { l with receiver := .off }) = false ∧
      canReceive (withLif fun l => { l with idle := none }) = false ∧
      canReceive (withLif fun l => { l with receiver := .receiving, idle := none }) = true := by decide

/-- Each slot in SENDING. -/
theorem test_meets_ReplyCheckEnds_bytes :
    (withLif fun l => { l with openSlot := .sending ⟨1, 8, 0, 1⟩ }).lif.openSlot.isSending = true ∧
      (withLif fun l => { l with bidSlot := .sending (bidFrom 1) }).lif.openSlot.isSending = false ∧
      (withLif fun l => { l with testSlot := .sending ⟨1, 5, 0, testPayload 5 0⟩ }).lif.replySlot.isSending =
        false ∧
      replying.lif.bidSlot.isSending = false ∧ station.lineBytes = none := by decide +kernel

theorem test_meets_QueriesAreAnswered_division :
    (after (.openReceived ⟨4, 8, 4, 35377⟩) withBid).plant.alu.division.isSome = true ∧
      station.plant.alu.division = none ∧
      pageCountOf (after (.openReceived ⟨4, 8, 4, 35377⟩) withBid) 6 = 7 := by decide +kernel

/-- Bytes of a BID with two records that are sound and hold their fields, and bytes that fail one or the
other. -/
theorem test_meets_FrameBytesReadBack_fields :
    let b := frameBytes (.bid { bidFrom 32 with records := [⟨1, .p0, -1, 40⟩, ⟨2, .p1, 4, 40⟩] })
    BytesSound b ∧ FieldsHold b ∧ BytesSound [1, 8, 2, 8, 0, 0, 0xd, 0x54] ∧
      ¬FieldsHold [1, 8, 2, 8, 0, 0, 0xd, 0x54] ∧ ¬BytesSound (List.replicate 8 0) := by
  refine ⟨?_, .inr (.inl ⟨by decide +kernel, by decide +kernel, by decide +kernel, by decide +kernel,
    by decide +kernel, by decide +kernel, by decide +kernel, ?_⟩), ?_, ?_, ?_⟩
  · unfold BytesSound
    decide +kernel
  · intro k
    rw [show byteAt _ 10 = 2 by decide +kernel]
    revert k
    decide +kernel
  · unfold BytesSound
    decide +kernel
  · rintro (h | h | h | h | h | h) <;> first | exact absurd h.1 (by decide) | exact absurd h.2.1 (by decide)
  · unfold BytesSound
    decide +kernel

/-! ### An output energized while its filtered leakage is asserted (R118, R120) -/

/-- The station at 25.0 °C with the filtered leakage of an output asserted, and with `n` trips of circuit `o`
so far. -/
def leaking (o : Fin 6) (n : Nat) : State :=
  { station with
    ssc := ⟨Vector.replicate 8 ⟨.good, some 250, some 250, none, some 0⟩, some (0, 80)⟩,
    plant := (station.plant.updOut o fun r => { r with leakage := ⟨some true, none⟩ }).updTrip o
      fun _ => ⟨n, 7, 0⟩ }

theorem test_leaksAtStart : LeaksAtStart (leaking 0 2) 0 0 :=
  ⟨by decide +kernel, by decide +kernel, by decide +kernel, by decide +kernel, by decide +kernel,
    by decide +kernel, by decide +kernel, by decide +kernel, by decide +kernel⟩

/-- Without a temperature, out of SETTLING, with a fallback need of 20 LU. -/
theorem test_leaksAtStart_blind : LeaksAtStart { leaking 0 0 with ssc := .reset } 0 0 :=
  ⟨by decide +kernel, by decide +kernel, by decide +kernel, by decide +kernel, by decide +kernel,
    by decide +kernel, by decide +kernel, by decide +kernel, by decide +kernel⟩

/-- Below the trip limit of 3, at it with a spare, and at it with none. -/
theorem test_meets_Trips_start :
    let bad := fun (o : Fin 6) (p : Plant) => p.updOut o fun r => { r with role := .bad }
    let u := after (.windowStart 0) (leaking 0 1)
    let v := after (.windowStart 0) (leaking 0 2)
    let w := after (.windowStart 0) { leaking 0 2 with plant := bad 4 (bad 5 (leaking 0 2).plant) }
    (leaking 0 1).plant.ogd.underTest 0 = false ∧ (leaking 0 2).plant.ogd.test = none ∧
      (leaking 0 2).img.tripLimit = 3 ∧ (leaking 0 2).plant.ogd.outputs[(0 : Fin 6)].role.circuit = some 0 ∧
      u.plant.cct[(0 : Fin 6)] =
        ⟨.tripped, .stopped, some 250, .primary, some 280, 0, some 1, some .p1, 40, 0, 0, some 10000⟩ ∧
      u.plant.ogd.outputs[(0 : Fin 6)].holdOff = some 60000 ∧ u.plant.ogd.trips[(0 : Fin 6)] = ⟨2, 0, 0⟩ ∧
      v.plant.ogd.outputs[(4 : Fin 6)].role = .spareBound 0 ∧ v.plant.cct[(0 : Fin 6)].state = .settling ∧
      w.plant.cct[(0 : Fin 6)].state = .failed ∧
      [u, v, w].all fun t => decide (t.plant.ogd.outputs[(0 : Fin 6)].energized = false ∧
        t.plant.ogd.outputs[(0 : Fin 6)].health.lastFault = some .leakage) := by decide +kernel

/-- Tests of a free spare, and of the output of a circuit below its trip limit and at it. -/
theorem test_meets_AcceptedTestRuns_trip :
    TestAccepted 1 4 10 (leaking 4 0) ∧ TestAccepted 1 1 10 (leaking 1 0) ∧
      TestAccepted 1 1 10 (leaking 1 2) ∧
      ∀ j : Fin 6, (leaking 4 0).plant.ogd.outputs[j].energized = false ∧
        (leaking 1 0).plant.ogd.outputs[j].energized = false ∧
        (leaking 1 2).plant.ogd.outputs[j].energized = false := by
  refine ⟨⟨?_, ?_, ?_, ?_, .inl ?_, ?_, ?_⟩, ⟨?_, ?_, ?_, ?_, .inr ⟨1, ?_⟩, ?_, ?_⟩,
    ⟨?_, ?_, ?_, ?_, .inr ⟨1, ?_⟩, ?_, ?_⟩, ?_⟩ <;> decide +kernel

/-- A test of an output that is on for its circuit's window, in a period that would be the third in a row with
an open element: no judgement is made, the count of 2 stays, and the mean of 20.0 LU is kept. -/
theorem test_meets_AcceptedTestRuns_on :
    let s := { energized 1 2000 400000 with
      plant := (energized 1 2000 400000).plant.updOut 1 fun r => { r with openCount := 2 } }
    let t := after (.testOutput 1 9 [2, 10]) s
    TestAccepted 1 1 10 s ∧ OpenElementDue s.plant.ogd.outputs[(1 : Fin 6)] ∧
      (∀ j : Fin 6, j ≠ 1 → s.plant.ogd.outputs[j].energized = false) ∧
      t.plant.ogd.outputs[(1 : Fin 6)].energized = true ∧
      t.plant.ogd.outputs[(1 : Fin 6)].openCount = 2 ∧
      t.plant.ogd.outputs[(1 : Fin 6)].periodMs = 0 ∧ t.plant.fct = s.plant.fct ∧
      t.plant.cct[(1 : Fin 6)].state = .testing := by
  refine ⟨⟨?_, ?_, ?_, ?_, .inr ⟨1, ?_⟩, ?_, ?_⟩, ⟨?_, ?_, ?_⟩, ?_⟩ <;> decide +kernel

/-- The station with an allotment of 100 LU, its output O2 on since `ms` of a window of 10 s at its rated load. -/
def drawing (ms : Nat) : State :=
  { energized 1 ms (500 * ms) with
    plant := { (((energized 1 ms (500 * ms)).plant.updCct 0 fun r => { r with onTime := 2000 }).updCct 1
        fun r => { r with toNext := some (10000 - ms) }) with
      alu := { station.plant.alu with own := 100 } } }

/-- A test that lowers the grant of a circuit that draws, from 40 LU to 25 LU: its on-time falls from 8 s to
5 s. After 5 s of its window it ends at once, and after 4999 ms it goes on. -/
theorem test_meets_AcceptedTestRuns_cut :
    let t := fun ms => after (.testOutput 1 9 [5, 10]) (drawing ms)
    TestAccepted 1 4 10 (drawing 5000) ∧ TestAccepted 1 4 10 (drawing 4999) ∧
      (drawing 5000).plant.ogd.boundTo 1 = some 1 ∧
      ¬OpenElementDue (drawing 5000).plant.ogd.outputs[(1 : Fin 6)] ∧
      ¬OpenElementDue (drawing 4999).plant.ogd.outputs[(1 : Fin 6)] ∧
      (t 5000).plant.cct[(1 : Fin 6)].onTime = 5000 ∧ (t 4999).plant.cct[(1 : Fin 6)].onTime = 5000 ∧
      (t 5000).plant.ogd.outputs[(1 : Fin 6)].energized = false ∧
      (t 4999).plant.ogd.outputs[(1 : Fin 6)] = (drawing 4999).plant.ogd.outputs[(1 : Fin 6)] := by
  refine ⟨⟨?_, ?_, ?_, ?_, .inl ?_, ?_, ?_⟩, ⟨?_, ?_, ?_, ?_, .inl ?_, ?_, ?_⟩, ?_,
    fun h => absurd h.2.1 ?_, fun h => absurd h.2.1 ?_, ?_⟩ <;> decide +kernel

theorem test_trip_ofStart :
    let t := fun (o : Byte) (s : State) => after (.testOutput 1 9 [o, 10]) s
    let u := t 5 (leaking 4 0)
    let v := t 2 (leaking 1 0)
    let w := t 2 (leaking 1 2)
    u.plant.ogd.outputs[(4 : Fin 6)].role = .bad ∧ v.plant.cct[(1 : Fin 6)].state = .tripped ∧
      w.plant.ogd.outputs[(4 : Fin 6)].role = .spareBound 1 ∧ w.plant.cct[(1 : Fin 6)].state = .settling ∧
      (grantsInForce w.plant).toList = [40, 20, 0, 0, 0, 0] ∧
      [u, v, w].all fun x => decide (x.plant.ogd.test = none ∧ x.plant.alu.deduction = none ∧
        grantsInForce x.plant = grantsByKind x.env x.plant ∧
        ∀ j : Fin 6, x.plant.ogd.outputs[j].energized = false) := by decide +kernel

/-- The window start that takes the spare under test: its circuit has failed, and is granted nothing before
the binding. -/
theorem test_meets_TestEndsDone_bindingStart :
    let s := { testing with
      ssc := (leaking 0 0).ssc,
      plant := (testing.plant.updOut 0 fun r => { r with leakage := ⟨some true, none⟩ }).updTrip 0
        fun _ => ⟨2, 0, 0⟩ }
    let t := after (.windowStart 0) s
    TripDue s 0 0 (.windowStart 0) .leakage ∧
      t.plant.ogd.outputs[(4 : Fin 6)].role = .spareBound 0 ∧
      (grantsInForce t.plant).toList = [0, 40, 0, 0, 0, 0] ∧
      grantsInForce t.plant =
        grantsByKind t.env (s.plant.updCct 0 fun r => { r with state := .failed, need := 0 }) :=
  ⟨.inr ⟨⟨by decide +kernel, by decide +kernel, by decide +kernel, by decide +kernel,
    by decide +kernel, by decide +kernel, by decide +kernel, by decide +kernel, by decide +kernel⟩,
    rfl, rfl⟩, by decide +kernel, by decide +kernel, by decide +kernel⟩

/-- The spare under test is alone on: each end finds the grants again. -/
theorem test_meets_TestEndsDone_grants :
    let s := { testing with plant :=
      { testing.plant.updCct 0 (fun r => { r with grant := 5 }) with
        alu := { testing.plant.alu with deduction := some (4, 35) } } }
    (∀ j : Fin 6, j ≠ 4 → s.plant.ogd.outputs[j].energized = false) ∧
      [after .testDurationExpiry s, after (.leakageFilteredChange 4 true) s,
        after (.limitFilteredChange 4 true) s].all fun t => decide (
          (grantsInForce t.plant).toList = [40, 40, 0, 0, 0, 0] ∧ t.plant.alu.deduction = none) := by
  decide +kernel

/-- A conflict caps the station at its declared need of 50 LU, which its two needs of 40 LU share. -/
theorem test_meets_ConflictDegradesTheRound_grants :
    let low := { station with rct := { station.rct with declaredClosed := some 50 } }
    let t := after (.openReceived ⟨3, 7, 0, 35377⟩) low
    station.plant.ogd.test = none ∧ t.plant.alu.own = 50 ∧
      (grantsInForce t.plant).toList = [40, 10, 0, 0, 0, 0] := by decide +kernel

/-- A TRIPPED circuit with its hold-off running, and one in use. -/
theorem test_retire_leaves :
    let s := after (.windowStart 0) (leaking 0 0)
    let t := after (.retire 255 9 [1]) s
    s.plant.ogd.outputs[(0 : Fin 6)].holdOff.isSome ∧ s.plant.ogd.boundTo 0 = some 0 ∧
      t.plant.ogd.outputs[(0 : Fin 6)].holdOff = none ∧ t.plant.cct = Vector.replicate 6 .reset := by
  decide +kernel

end Sys2Proof.Tests
end

section
/-! PROOFS. Heat rounds: received OPENs that are only counted (R9, R10), and the end of the own bid's
check (R26). -/

namespace Sys2Proof.Machine

/-! ### Received OPENs that leave the Round Controller as it is (R9, R10) -/

/-- A round that is 128 or more ahead, modulo 256, is an older one (R1). -/
theorem roundOrder_older (r c : RoundNo) (h : 128 ≤ (r - c).toNat) : roundOrder r c = .older := by
  unfold roundOrder
  dsimp only
  rw [if_neg (by omega), if_neg (by omega), if_neg (by omega)]

/-- The conditions under which R9 keeps an OPEN from the rounds whatever its round. -/
theorem openReceived_screened (f : OpenFrame) (s : State)
    (h : s.rct.membership.follows = false ∨ s.img.stations < f.opener ∨ f.opener = s.own) :
    openReceived f s = s := by
  unfold openReceived
  rw [if_pos]
  rcases h with notFollowing | outside | own
  · simp [notFollowing]
  · have : s.configuredAddr f.opener = false := by
      simp only [State.configuredAddr, decide_eq_false_iff_not]
      omega
    simp [this]
  · simp [own]

/-- An OPEN of an older round changes nothing (R9). -/
theorem openReceived_older (f : OpenFrame) (s : State) (h : s.orderOf f.round = .older) :
    openReceived f s = s := by
  unfold openReceived
  rw [h]
  exact ite_self s

/-- A further OPEN of the current round and its opener changes nothing (R10). -/
theorem openReceived_repeated (f : OpenFrame) (s : State) (hr : s.orderOf f.round = .current)
    (ho : s.rct.opener = some f.opener) : openReceived f s = s := by
  unfold openReceived
  rw [hr]
  dsimp only
  rw [if_pos ho]
  exact ite_self s

/-- Every way in which an OPEN is ignored leaves the station as it is (R9, R10). -/
theorem openReceived_ignored (f : OpenFrame) (s : State)
    (h : s.rct.membership.follows = false ∨ s.img.stations < f.opener ∨ f.opener = s.own ∨
      ∃ c, s.rct.round = some c ∧
        (128 ≤ (f.round - c).toNat ∨ f.round = c ∧ s.rct.opener = some f.opener)) :
    openReceived f s = s := by
  rcases h with notFollowing | outside | own | ⟨c, held, older | ⟨same, opener⟩⟩
  · exact openReceived_screened f s (.inl notFollowing)
  · exact openReceived_screened f s (.inr (.inl outside))
  · exact openReceived_screened f s (.inr (.inr own))
  · have order : s.orderOf f.round = .older := by
      simp only [State.orderOf, held, roundOrder_older _ _ older]
    exact openReceived_older f s order
  · subst same
    exact openReceived_repeated f s (orderOf_current s f.round held) opener

/-- Settles O12: the count of a received OPEN leaves what R9 and R10 read, so the ignored OPEN finds the
same station after it. -/
theorem otherOpensAreIgnored : Obligations.OtherOpensAreIgnored := by
  intro f i s hr hi h
  calc exec (.openReceived f) s
      = .next (receive (.openFrame f) s) := exec_frameCommand (.openFrame f) s
    _ = .next (openReceived f (afterStation i false s)) := by rw [receive_open f i s hr hi]
    _ = .next (afterStation i false s) := by
        rw [openReceived_ignored f (afterStation i false s) h]

/-! ### The end of the own bid's check (R26, R146) -/

/-- The own bid's check passes: the slot is empty, the line idle, and the bid kept (R26). -/
theorem bidCheckEnd_passed (b : BidFrame) (s : State) (h : s.lif.bidSlot = .sending b) :
    bidCheckEnd true s =
      bidSent b { s with lif := { s.lif with bidSlot := .empty, idle := some 0 } } := by
  unfold bidCheckEnd
  rw [h]
  rfl

/-- The own bid's check fails: TX_FAIL is raised, and the bid leaves the slot all the same (R146). -/
theorem bidCheckEnd_failed (b : BidFrame) (s : State) (h : s.lif.bidSlot = .sending b) :
    bidCheckEnd false s = { s with
      plant := s.plant.raise .txFail, lif := { s.lif with bidSlot := .empty, idle := some 0 } } := by
  unfold bidCheckEnd
  rw [h]
  rfl

/-- The buffers and the peer table after the own bid is collected (R28, R32). -/
theorem collect_own (b : BidFrame) (s : State) (h : b.sender = s.own) :
    (∀ a : Fin 32, (s.rst.collect b).collecting[a] =
        if a.val + 1 = s.own then some b else s.rst.collecting[a]) ∧
      (s.rst.collect b).settledBuf = s.rst.settledBuf ∧ (s.rst.collect b).rows = s.rst.rows := by
  obtain ⟨hcollecting, hsettled, hrows, -, -⟩ := collect_collecting s.rst b s.sul.rank h
  refine ⟨fun a => ?_, hsettled, hrows⟩
  have hplace : a.val + 1 = s.own ↔ s.sul.rank.val = a.val := by
    simp only [State.own]
    omega
  rw [hcollecting]
  simp [Vector.getElem_set, hplace]

/-- Settles O18: a passed check hands the bid to the Round Controller and the Roster, a failed one to
neither. -/
theorem ownBidCheckEnds : Obligations.OwnBidCheckEnds := by
  intro b s hslot hown
  obtain ⟨hcollecting, hsettled, hrows⟩ := collect_own b s hown
  constructor
  · exact ⟨bidSent b { s with lif := { s.lif with bidSlot := .empty, idle := some 0 } },
      congrArg Host.Outcome.next (bidCheckEnd_passed b s hslot), rfl, hcollecting, hsettled, hrows, rfl⟩
  · exact congrArg Host.Outcome.next (bidCheckEnd_failed b s hslot)

end Sys2Proof.Machine
end

section
/-! PROOFS. The roster: the verdict of an OPEN newer by one is the completeness test (R40 to R42). -/

namespace Sys2Proof.Machine

/-! ### Rounds newer by one (R1, R7) -/

/-- The next round, modulo 256, is newer by one (R1). -/
theorem roundOrder_succ (c : RoundNo) : roundOrder (c + 1) c = .newerByOne := by
  simp [roundOrder]

/-- The next round is a newer one (R1). -/
theorem newer_succ (s : State) (c : RoundNo) (h : s.rct.round = some c) : Newer s (c + 1) := by
  intro d hd
  obtain rfl : c = d := Option.some.inj (h.symm.trans hd)
  simp

/-- A received OPEN of the next round is put to the completeness test: no verdict is given before (R7). -/
theorem degradedAlready_succ (f : OpenFrame) (c : RoundNo) (s : State) (h : s.rct.round = some c) :
    degradedAlready s (.received f) (c + 1) = false := by
  simp only [degradedAlready, h, roundOrder_succ, ne_eq, not_true_eq_false, decide_false]

/-! ### The completeness test (R40 to R42) -/

/-- A digest is not foreign exactly where it is the station's own (R33, R44). -/
theorem foreign_eq_false (s : State) (d : Word16) :
    s.foreign d = false ↔ s.sul.digest = some d := by
  simp only [State.foreign, decide_eq_false_iff_not, not_not]
  exact eq_comm

/-- The verdict on a received OPEN, where none is given already: MEMBER, the OPEN's digest the station's
own, and the bid of every heard address collected in the round that closes, with that digest (R41). -/
theorem swapVerdict_received (s : State) (f : OpenFrame) :
    swapVerdict s (.received f) false = true ↔
      s.rct.membership = .member ∧ s.sul.digest = some f.digest ∧
        ∀ a : Fin 32, inSet f.heard (a.val + 1) = true →
          ∃ b, s.rst.collecting[a] = some b ∧ s.sul.digest = some b.digest := by
  unfold swapVerdict roundComplete
  simp only [swapBuffers_settledBuf, Bool.not_false, Bool.true_and, Bool.and_eq_true,
    Bool.not_eq_true', decide_eq_true_eq, foreign_eq_false, heardSettled_iff]

/-- An adoption of an OPEN of the next round leaves DEGRADED clear exactly where the completeness test
holds of the membership that step 1 gave (R6, R7, R41). -/
theorem adopt_degraded_eq_false (f : OpenFrame) (c : RoundNo) (opener : Nat) (s : State)
    (h : s.rct.round = some c) :
    (adopt (.received f) (c + 1) opener s).rct.degraded = false ↔
      (adopt (.received f) (c + 1) opener s).rct.membership = .member ∧
        s.sul.digest = some f.digest ∧
        ∀ a : Fin 32, inSet f.heard (a.val + 1) = true →
          ∃ b, s.rst.collecting[a] = some b ∧ s.sul.digest = some b.digest := by
  obtain ⟨rct, hswap⟩ := atSwap_eq (.received f) s
  have hsul : (atSwap (.received f) s).sul = s.sul := by rw [hswap]
  have hrst : (atSwap (.received f) s).rst = s.rst := by rw [hswap]
  have verdict := swapVerdict_received (atSwap (.received f) s) f
  rw [hsul, hrst] at verdict
  rw [adopt_rct, degradedAlready_succ f c s h, Bool.not_eq_false']
  exact verdict

/-- Settles O10: the OPEN is counted and adopted, and its adoption gives the verdict of the completeness
test. -/
theorem completenessTest : Obligations.CompletenessTest := by
  intro f i c s hr hf hi hn ho hc hround
  refine ⟨adopt (.received f) f.round f.opener (afterStation i false s), ?_, ?_⟩
  · have newer : Newer (afterStation i false s) f.round := by
      rw [hround]
      exact newer_succ _ c hc
    calc exec (.openReceived f) s
        = .next (receive (.openFrame f) s) := exec_frameCommand (.openFrame f) s
      _ = .next (openReceived f (afterStation i false s)) := by rw [receive_open f i s hr hi]
      _ = .next (adopt (.received f) f.round f.opener (afterStation i false s)) := by
          rw [openReceived_newer f (afterStation i false s) hf ⟨by omega, hn⟩ ho newer]
  · rw [hround]
    exact adopt_degraded_eq_false f c f.opener (afterStation i false s) hc

end Sys2Proof.Machine
end

section
/-! PROOFS. Deference: the four classes, the contending slot and the idle time it waits for (R142, R143). -/

namespace Sys2Proof.Machine

/-! ### The classes of one rank and of any two ranks (R142) -/

/-- The classes do not overlap: whatever the two ranks, an OPEN comes before a REPLY, a REPLY before a BID
and a BID before a TEST (R142). -/
theorem deference_classes_apart (r q : Fin 32) :
    deference r.val .openSlot < deference q.val .replySlot ∧
      deference r.val .replySlot < deference q.val .bidSlot ∧
      deference r.val .bidSlot < deference q.val .testSlot := by
  simp only [deference]
  omega

/-- Every class but REPLY comes 1 ms later at the next rank (R142). -/
theorem deference_succ (r : Nat) {n : SlotName} (hn : n ≠ .replySlot) :
    deference (r + 1) n = deference r n + 1 := by
  cases n with
  | replySlot => exact absurd rfl hn
  | openSlot | bidSlot | testSlot => rfl

/-- Any frame of a station leaves the line to the service tool for its first 4 ms (R142). -/
theorem four_le_deference (r : Nat) (n : SlotName) : 4 ≤ deference r n := by
  unfold deference
  split <;> omega

/-! ### The contending slot (R143) -/

/-- The slots of a station from the shortest deference to the longest (R142). -/
def slotsByDeference : List SlotName := [.openSlot, .replySlot, .bidSlot, .testSlot]

theorem mem_slotsByDeference (n : SlotName) : n ∈ slotsByDeference := by
  cases n <;> decide

/-- At every rank the deferences grow along `slotsByDeference` (R142). -/
theorem slotsByDeference_sorted (r : Fin 32) :
    slotsByDeference.Pairwise fun m n => deference r.val m < deference r.val n := by
  obtain ⟨openReply, replyBid, bidTest⟩ := deference_classes_apart r r
  simp only [slotsByDeference, List.pairwise_cons, List.forall_mem_cons, List.not_mem_nil,
    false_imp_iff, implies_true, List.Pairwise.nil, and_true]
  omega

/-- At one station no two slots have the same deference (R142). -/
theorem deference_injective (r : Fin 32) : Function.Injective (deference r.val) := by
  have apart : (slotsByDeference.map (deference r.val)).Nodup :=
    List.pairwise_map.mpr ((slotsByDeference_sorted r).imp Nat.ne_of_lt)
  exact fun m n => List.inj_on_of_nodup_map apart (mem_slotsByDeference m) (mem_slotsByDeference n)

/-- The slot `n` is PENDING: `Waits` as a test that `contender` can make (R141). -/
def isWaiting (l : Lif) : SlotName → Bool
  | .openSlot => l.openSlot.isPending
  | .replySlot => l.replySlot.isPending
  | .bidSlot => l.bidSlot.isPending
  | .testSlot => l.testSlot.isPending

theorem Slot.isPending_iff {π σ : Type} (sl : Slot π σ) :
    sl.isPending = true ↔ ∃ p, sl = .pending p := by
  cases sl <;> simp [Slot.isPending]

theorem isWaiting_iff (l : Lif) (n : SlotName) : isWaiting l n = true ↔ Waits l n := by
  cases n with
  | replySlot | bidSlot => exact Slot.isPending_iff _
  | openSlot | testSlot => exact (Slot.isPending_iff _).trans ⟨fun ⟨(), h⟩ => h, fun h => ⟨(), h⟩⟩

/-- The contending slot is the first that waits, taken in the order of the deferences (R143). -/
theorem contender_eq_find (l : Lif) : contender l = slotsByDeference.find? (isWaiting l) := by
  unfold contender
  split_ifs <;> simp [slotsByDeference, isWaiting, *]

/-- The contending slot waits, and no waiting slot has a shorter deference (R143). -/
theorem contender_shortest (r : Fin 32) {l : Lif} {n : SlotName} (h : contender l = some n) :
    Waits l n ∧ ∀ m, Waits l m → deference r.val n ≤ deference r.val m := by
  rw [contender_eq_find, List.find?_eq_some_iff_append] at h
  obtain ⟨waits, before, after, listed, noneBefore⟩ := h
  refine ⟨(isWaiting_iff l n).mp waits, fun m hm => ?_⟩
  have sorted := slotsByDeference_sorted r
  have mem := mem_slotsByDeference m
  rw [listed] at sorted mem
  obtain ⟨-, sortedFromN, -⟩ := List.pairwise_append.mp sorted
  rcases List.mem_append.mp mem with inBefore | fromN
  · have mWaits := (isWaiting_iff l m).mpr hm
    simpa [mWaits] using noneBefore m inBefore
  · rcases List.mem_cons.mp fromN with rfl | inAfter
    · exact le_rfl
    · exact (List.rel_of_pairwise_cons sortedFromN inAfter).le

/-- Where some frame waits, some slot contends (R143). -/
theorem exists_contender {l : Lif} {m : SlotName} (h : Waits l m) : ∃ n, contender l = some n := by
  rw [← Option.isSome_iff_exists, contender_eq_find, List.find?_isSome]
  exact ⟨m, mem_slotsByDeference m, (isWaiting_iff l m).mpr h⟩

/-- The contending slot is the waiting slot of shortest deference (R143). -/
theorem contender_eq_some_iff (r : Fin 32) (l : Lif) (n : SlotName) :
    contender l = some n ↔ Waits l n ∧ ∀ m, Waits l m → deference r.val n ≤ deference r.val m := by
  refine ⟨contender_shortest r, fun ⟨waits, shortest⟩ => ?_⟩
  obtain ⟨k, hk⟩ := exists_contender waits
  obtain ⟨kWaits, kShortest⟩ := contender_shortest r hk
  have same : k = n := deference_injective r (le_antisymm (kShortest n waits) (shortest k kWaits))
  rw [hk, same]

/-! ### The idle time that the contending slot waits for (R143) -/

/-- The line is free for the station: idle, with no frame in progress on it (R133, R143). -/
theorem lineFree_iff (l : Lif) :
    lineFree l = true ↔ l.sending = false ∧ l.receiver ≠ .receiving ∧ ∃ t, l.idle = some t := by
  simp only [lineFree, Bool.and_eq_true, Bool.not_eq_true', decide_eq_true_eq,
    Option.isSome_iff_exists]
  tauto

/-- The expiry is due where the line is free and its idle time has reached the deference of the contending
slot (R143). -/
theorem deferenceDue_iff {s : State} {n : SlotName} (h : contender s.lif = some n) :
    deferenceDue s = true ↔ s.lif.sending = false ∧ s.lif.receiver ≠ .receiving ∧
      ∃ t, s.lif.idle = some t ∧ deference s.sul.rank.val n ≤ t := by
  rw [deferenceDue, Bool.and_eq_true, lineFree_iff, h]
  cases s.lif.idle <;> simp [and_assoc]

/-- Settles O19, from the classes' order, the slot that contends and the idle time it waits for. -/
theorem deferenceClasses : Obligations.DeferenceClasses := by
  intro r
  refine ⟨rfl, rfl, rfl, rfl, deference_classes_apart r, fun n hn => deference_succ r.val ?_,
    four_le_deference r.val, contender_eq_some_iff r, fun _ _ => deferenceDue_iff⟩
  rintro rfl
  simp at hn

end Sys2Proof.Machine
end

section
/-! PROOFS. The ALARM pin and the alarm summary, read factor by factor; what a raise sets; and the factor
sets at pin reset and at its release (R176, R177, R181, R182, R185). -/

namespace Sys2Proof.Machine

/-! ### ALARM and the alarm summary (R181, R182) -/

/-- A factor set is not empty exactly where it holds some code. -/
theorem factorSet_ne_zero_iff (v : FactorSet) : v ≠ 0 ↔ ∃ i : Fin 24, v.getLsbD i.val = true := by
  constructor
  · intro nonempty
    by_contra none
    push Not at none
    refine nonempty (BitVec.eq_of_getLsbD_eq fun i hi => ?_)
    simpa using none ⟨i, hi⟩
  · rintro ⟨i, hi⟩ rfl
    simp at hi

/-- ALARM is asserted exactly where some code has status set and mask clear (R181). -/
theorem Fct.alarm_iff (u : Fct) :
    u.alarm = true ↔ ∃ i : Fin 24, u.status.getLsbD i.val = true ∧ u.mask.getLsbD i.val = false := by
  rw [Fct.alarm, decide_eq_true_eq, factorSet_ne_zero_iff]
  simp

/-- With both factor sets empty ALARM is released (R181). -/
theorem Fct.alarm_empty : (⟨0, 0⟩ : Fct).alarm = false := rfl

/-- The alarm summary is the level that ALARM has once PEER_ALARM is cleared (R182). -/
theorem Fct.summary_eq_alarm_clear (u : Fct) :
    u.summary = (u.clear Factor.peerAlarm.mark).alarm := by
  have order : u.status &&& ~~~u.mask &&& ~~~Factor.peerAlarm.mark =
      u.status &&& ~~~Factor.peerAlarm.mark &&& ~~~u.mask := by
    rw [BitVec.and_assoc, BitVec.and_comm (~~~u.mask), ← BitVec.and_assoc]
  rw [Fct.summary, order]
  rfl

/-- PEER_ALARM has the place 15 of a factor set, and no other (R134, R176). -/
theorem peerAlarm_mark_getLsbD (i : Fin 24) :
    Factor.peerAlarm.mark.getLsbD i.val = decide (i.val = 15) := by
  revert i
  decide

/-- Clearing PEER_ALARM takes its code out of the status set, and no other (R179). -/
theorem Fct.clear_peerAlarm_getLsbD (u : Fct) (i : Fin 24) :
    (u.clear Factor.peerAlarm.mark).status.getLsbD i.val = true ↔
      i.val ≠ 15 ∧ u.status.getLsbD i.val = true := by
  show (u.status &&& ~~~Factor.peerAlarm.mark).getLsbD i.val = true ↔ _
  rw [BitVec.getLsbD_and, BitVec.getLsbD_not, peerAlarm_mark_getLsbD]
  simp [and_comm]

/-- The alarm summary is set exactly where some code other than that of PEER_ALARM has status set and mask
clear (R182). -/
theorem Fct.summary_iff (u : Fct) :
    u.summary = true ↔ ∃ i : Fin 24, i.val ≠ 15 ∧ u.status.getLsbD i.val = true ∧
      u.mask.getLsbD i.val = false := by
  rw [Fct.summary_eq_alarm_clear, Fct.alarm_iff]
  simp only [Fct.clear_peerAlarm_getLsbD, and_assoc]
  rfl

/-! ### Raises (R177) -/

/-- After a raise a factor is held where it was held before or is the one raised (R177). -/
theorem Fct.held_raise (u : Fct) (x y : Factor) :
    (u.raise x).held y = (u.held y || decide (x = y)) :=
  (Plant.held_raiseIf { Plant.reset with fct := u } true x y).trans (by rw [Bool.true_and])

/-! ### Pin reset and its release (R185, R186) -/

/-- Pin reset empties both factor sets (R176, R185). -/
theorem pinReset_fct (s : State) : (pinReset s).plant.fct = ⟨0, 0⟩ := rfl

/-- The release of RESETN leaves the plant (R186). -/
theorem resetnRelease_plant (straps : BitVec 5) (s : State) :
    (resetnRelease straps s).plant = s.plant := by
  rw [resetnRelease]
  split <;> rfl

/-- The release of RESETN after a pin reset finds both factor sets empty and leaves them so (R185, R186). -/
theorem resetnRelease_pinReset_fct (straps : BitVec 5) (s : State) :
    (resetnRelease straps (pinReset s)).plant.fct = ⟨0, 0⟩ := by
  rw [resetnRelease_plant, pinReset_fct]

/-- A station whose factor sets are empty has ALARM released (R181). -/
theorem alarm_eq_false_of_fct_empty {s : State} (h : s.plant.fct = ⟨0, 0⟩) : s.alarm = false := by
  rw [State.alarm, h, Fct.alarm_empty]

/-- Settles O56: the codes decide ALARM and the summary; pin reset empties the factor sets, and its release
leaves them empty. -/
theorem alarmFollowsTheFactorSets : Obligations.AlarmFollowsTheFactorSets := by
  refine ⟨⟨fun s => s.plant.fct.alarm_iff, ?held, ?released⟩,
    fun u x y => ⟨u.held_raise x y, u.raise_mask x, u.summary_iff⟩⟩
  case held =>
    intro s t reset
    cases reset
    have empty := pinReset_fct s
    exact ⟨alarm_eq_false_of_fct_empty empty, empty⟩
  case released =>
    intro straps s t u reset release
    cases reset
    cases release
    have empty := resetnRelease_pinReset_fct straps s
    exact ⟨alarm_eq_false_of_fct_empty empty, empty⟩

end Sys2Proof.Machine
end

section
/-! PROOFS. What no step undoes: the BAD set does not shrink, the factor sets keep to named codes, and no
trip count passes its limit (R113, R123, R176). -/

namespace Sys2Proof.Machine

/-! ### What every operation of the plant keeps -/

/-- From `p` to `q` the BAD set has not shrunk (R113), and no factor set has come to hold a code that names
no factor (R176). -/
structure Lasting (p q : Plant) : Prop where
  bad : ∀ o : Fin 6, p.ogd.outputs[o].role = .bad → q.ogd.outputs[o].role = .bad
  named : p.fct.Named → q.fct.Named

theorem Lasting.refl (p : Plant) : Lasting p p := ⟨fun _ h => h, id⟩

theorem Lasting.trans {p q r : Plant} (h : Lasting p q) (k : Lasting q r) : Lasting p r :=
  ⟨fun o hb => k.bad o (h.bad o hb), fun hn => k.named (h.named hn)⟩

theorem Reach.lasting {p q : Plant} (h : Reach p q) : Lasting p q where
  bad := h.bad
  named hn := ⟨h.named.trans hn.1, by rw [h.mask]; exact hn.2⟩

theorem Alike.lasting {p q : Plant} (h : Alike p q) : Lasting p q where
  bad o hb := (h.role o).trans hb
  named := h.named

/-- An operation that leaves the output rows, and the factor sets named, undoes nothing. -/
theorem Lasting.of_outputs {p q : Plant} (outputs : q.ogd.outputs = p.ogd.outputs)
    (named : p.fct.Named → q.fct.Named) : Lasting p q :=
  ⟨fun o hb => by rw [outputs]; exact hb, named⟩

/-- Rewriting an output row undoes nothing where a BAD output stays BAD. -/
theorem Lasting.updOut (p : Plant) (o : Fin 6) (f : OutputRow → OutputRow)
    (hb : p.ogd.outputs[o].role = .bad → (f p.ogd.outputs[o]).role = .bad) :
    Lasting p (p.updOut o f) where
  bad j hj := by
    by_cases e : j = o
    · subst e
      rw [updOut_row]
      exact hb hj
    · rw [updOut_other _ _ _ _ e]
      exact hj
  named := id

theorem switchOn_lasting (e : Env) (o : Fin 6) (p : Plant) : Lasting p (switchOn e o p) :=
  (Lasting.updOut p o _ id).trans (notePeak_alike e o _).lasting

theorem energize_lasting (e : Env) (o : Fin 6) (p : Plant) : Lasting p (energize e o p) := by
  have on := switchOn_lasting e o p
  unfold energize
  dsimp only
  split
  · exact on.trans (tripOutput_reach e o .leakage _).lasting
  · exact on

theorem requestOutput_lasting (e : Env) (c : Fin 6) (p : Plant) : Lasting p (requestOutput e c p) := by
  unfold requestOutput
  split
  · split
    · exact energize_lasting e _ p
    · exact Lasting.refl p
  · exact Lasting.refl p

theorem windowStart_lasting (e : Env) (c : Fin 6) (p : Plant) : Lasting p (windowStart e c p) := by
  have begun : Lasting p (p.updCct c fun r => { r with toNext := some e.windowMs }) :=
    .of_outputs rfl id
  unfold windowStart
  split
  · dsimp only
    split
    · have judged (q : Plant) : Reach q (evaluate e c (windowRaises c (endPeriod e c q))) :=
        ((endPeriod_reach e c q).trans (windowRaises_reach c _)).trans (evaluate_reach e c _)
      exact (begun.trans (judged _).lasting).trans (requestOutput_lasting e c _)
    · exact begun
  · exact Lasting.refl p

theorem limitChange_lasting (o : Fin 6) (isOpen : Bool) (e : Env) (p : Plant) :
    Lasting p (limitChange o isOpen e p) := by
  have recorded := Lasting.updOut p o (fun r => { r with limit := filterTo isOpen r.limit }) id
  unfold limitChange
  dsimp only
  split
  · split
    · exact recorded.trans (limitOpened_reach e o _).lasting
    · exact recorded.trans (limitClosed_reach e o _).lasting
  · exact recorded

theorem compute_lasting (e : Env) (round : Option RoundNo) (swap : Bool) (x : Computation) (p : Plant) :
    Lasting p (compute e round swap x p) :=
  (Lasting.of_outputs (p := p) (q := { p with alu := allotTable e round x }) rfl id).trans
    (compute_reach e round swap x p).lasting

theorem startTest_lasting (e : Env) (o : Fin 6) (seconds : Nat) (p : Plant) :
    Lasting p (startTest e o seconds p) := by
  obtain ⟨q, hq, load, g, hs, -⟩ := startTest_shape e o seconds p
  have begun : Lasting p q := by
    rw [hq]
    have tested (t : Option TestRecord) : Lasting p (p.setTest t) := .of_outputs rfl id
    split
    · exact ((tested _).trans (switchOff_reach o _).lasting).trans (.of_outputs rfl id)
    · exact tested _
  have handed : Lasting p (handGrants e g { q with alu := { q.alu with deduction := some (o, load) } }) :=
    (begun.trans (Reach.deduction q _).lasting).trans (handGrants_reach e g _).lasting
  rw [hs]
  split
  · exact handed.trans (energize_lasting e o _)
  · exact handed

/-- No move of the plant undoes a BAD output or a named factor set. -/
theorem plantMove_lasting {e : Env} {p q : Plant} (m : PlantMove e p q) : Lasting p q := by
  cases m with
  | windowStart c => exact windowStart_lasting e c p
  | endPeriod c => exact (endPeriod_reach e c p).lasting
  | settleExpiry c => exact (settleExpiry_reach e c p).lasting
  | limitChange o isOpen => exact limitChange_lasting o isOpen e p
  | trip o k => exact (tripOutput_reach e o k p).lasting
  | holdOffExpiry o => exact (holdOffExpiry_reach o e p).lasting
  | startTest o seconds _ => exact startTest_lasting e o seconds p
  | finishTest => exact (finishTest_reach e p).lasting
  | compute round swap x _ => exact compute_lasting e round swap x p

/-! ### The moves of the station -/

theorem mapOutputs_lasting (p : Plant) (f : Fin 6 → OutputRow → OutputRow) (flow : Filter)
    (hb : ∀ o r, r.role = .bad → (f o r).role = .bad) :
    Lasting p { p with ogd := { p.ogd with outputs := mapRows p.ogd.outputs f, flow := flow } } where
  bad o h := by
    show (mapRows p.ogd.outputs f)[o].role = .bad
    rw [mapRows_get]
    exact hb o _ h
  named := id

/-- The load of the roles only adds to the BAD set (R113, R114). -/
theorem loadRoles_lasting (e : Env) (p : Plant) : Lasting p (loadRoles e p) :=
  (mapOutputs_lasting p (loadedRow e) _ fun o r h => by simp [loadedRow, h]).trans
    (foldl_reach _ (fun p c => loadSpare_reach e c p) sixIds _).lasting

theorem circuitsIntoService_lasting (e : Env) (p : Plant) : Lasting p (circuitsIntoService e p) := by
  have served := (foldl_reach _ (fun p c => leaveDisabled_reach e c p) sixIds p).lasting
  unfold circuitsIntoService
  generalize sixIds.foldl (fun q c => leaveDisabled e c q) p = q at served ⊢
  exact served.trans (.of_outputs rfl id)

theorem disableAll_lasting (p : Plant) : Lasting p (disableAll p) := by
  have disabled := (foldl_reach _ (fun p c => disableCircuit_reach c p) sixIds p).lasting
  unfold disableAll
  generalize sixIds.foldl (fun q c => disableCircuit c q) p = q at disabled ⊢
  exact disabled.trans (.of_outputs rfl id)

/-- The mask of an image that passes stage 5 names no code without a factor (R189). -/
theorem localOk_mask {m : Image} (h : localOk m = true) : m.mask &&& unnamedCodes = 0 := by
  unfold localOk at h
  exact of_decide_eq_true (Bool.and_eq_true_iff.mp h).2

theorem enterListen_lasting (s : State) (h : localOk s.img = true) :
    Lasting s.plant (enterListen s).plant := by
  obtain ⟨e0, e1, e2, hp⟩ : ∃ e0 e1 e2 : Env, (enterListen s).plant =
      compute e2 none false .capped (circuitsIntoService e1
        (loadRoles e0 { s.plant with fct := s.plant.fct.setMask s.img.mask })) :=
    ⟨_, _, _, rfl⟩
  have masked : Lasting s.plant { s.plant with fct := s.plant.fct.setMask s.img.mask } :=
    .of_outputs rfl fun hn => ⟨hn.1, localOk_mask h⟩
  rw [hp]
  exact ((masked.trans (loadRoles_lasting e0 _)).trans (circuitsIntoService_lasting e1 _)).trans
    (compute_lasting e2 _ _ _ _)

/-- Empty factor sets hold no code (R176). -/
theorem Fct.named_empty : (⟨0, 0⟩ : Fct).Named := by
  constructor <;> exact BitVec.zero_and

theorem allOff_reach (p : Plant) : Reach p (allOff p) :=
  foldl_reach _ (fun p o => switchOff_reach o p) sixIds p

/-- A RESTART keeps the BAD set and empties the factor sets (R113, R176, R193). -/
theorem restartTaken_lasting (s : State) : Lasting s.plant (restartTaken s).plant where
  bad o hb := by
    have kept : (allOff s.plant).ogd.outputs[o].role = .bad := (allOff_reach s.plant).bad o hb
    show (mapRows (allOff s.plant).ogd.outputs fun _ r => restartRow r)[o].role = .bad
    rw [mapRows_get]
    simp only [restartRow, if_pos kept]
  named _ := Fct.named_empty

/-- No move of the station undoes a BAD output or a named factor set. -/
theorem move_lasting {s t : State} (m : Move s t) : Lasting s.plant t.plant := by
  cases m with
  | alike hp hc => exact hp.lasting
  | plant k => exact plantMove_lasting k
  | listen u hr hi hp =>
    unfold imagePasses at hi
    simp only [Bool.and_eq_true] at hi
    exact enterListen_lasting { s with sul := u } hi.1.2
  | blocked u hr hp =>
    obtain ⟨e, -, -, -, -, hc⟩ := enterBlocked_computes { s with sul := u }
    rw [hc]
    exact (Alike.raise s.plant .configBad).lasting.trans (compute_lasting e _ _ _ _)
  | retired hf =>
    obtain ⟨e, w, hs, hw, -⟩ := enterRetired_computes s
    rw [hs]
    refine Lasting.trans (q := w.plant) ?_
      ((disableAll_lasting _).trans (compute_lasting e _ _ _ _))
    rw [hw]
    exact (Alike.raise s.plant .retired).lasting
  | restart => exact restartTaken_lasting s

theorem moves_lasting {s t : State} (h : Moves s t) : Lasting s.plant t.plant := by
  induction h with
  | refl => exact Lasting.refl _
  | tail _ m ih => exact ih.trans (move_lasting m)

/-- Every command but pin reset undoes nothing. -/
theorem exec_lasting (x : Instr) (s t : State) (hp : x ≠ .pinReset) (h : exec x s = .next t) :
    Lasting s.plant t.plant := by
  by_cases hr : ∃ straps, x = .resetnRelease straps
  · obtain ⟨straps, rfl⟩ := hr
    cases h
    rw [resetnRelease_plant]
    exact Lasting.refl _
  · exact moves_lasting (exec_moves x s t h hp fun straps k => hr ⟨straps, k⟩)

/-! ### The factor sets (R176) -/

/-- Settles O57: a command undoes no named factor set, pin reset empties both, and time leaves them. -/
theorem factorSetsStayNamed : Obligations.FactorSetsStayNamed := by
  intro s t named taken
  unfold step at taken
  split at taken
  · cases taken
    unfold idleStep
    split
    · exact named
    · exact (move_lasting (tick_move s)).named named
  · rename_i x rest _
    by_cases reset : x = .pinReset
    · subst reset
      cases taken
      exact Fct.named_empty
    · exact (exec_lasting x _ t reset taken).named named

/-- Settles O58: both sets are empty right after reset. -/
theorem factorSetsNamedAtReset : Obligations.FactorSetsNamedAtReset := Fct.named_empty

end Sys2Proof.Machine
end

section
/-! PROOFS. The invariants that hold right after reset and after every step: trip counts within their limit,
the division within the budget, and outputs that are on only where they may be (R57, R113, R118). -/

namespace Sys2Proof.Machine

/-! ### A station that has just been reset -/

/-- What the invariants read of a station in pin reset, and of one whose RESETN has just been released: no
rounds are followed, the image is not read, and the plant has its pin-reset values (R185, R186). -/
structure JustReset (s : State) : Prop where
  idle : s.rct.membership.follows = false
  unread : s.sul.progress ≠ .done
  plant : s.plant = { Plant.reset with free := s.plant.free }

theorem AtPinReset.justReset {s : State} (h : AtPinReset s) : JustReset s := by
  rw [atPinReset_eq h]
  exact ⟨rfl, Progress.noConfusion, rfl⟩

/-- The release of RESETN begins the read of the image and leaves the rest of the station (R186). -/
theorem justReset_release (straps : BitVec 5) {s : State} (h : AtPinReset s) :
    JustReset (resetnRelease straps s) := by
  rw [atPinReset_eq h]
  exact ⟨rfl, Progress.noConfusion, rfl⟩

theorem heldInReset_reset : HeldInReset State.reset := fun _ => rfl

theorem justReset_reset : JustReset State.reset := AtPinReset.justReset (heldInReset_reset rfl)

theorem JustReset.output {s : State} (h : JustReset s) (o : Fin 6) :
    s.plant.ogd.outputs[o] = .reset := by
  rw [h.plant]
  exact resetRow _ o

theorem JustReset.trip {s : State} (h : JustReset s) (c : Fin 6) : s.plant.ogd.trips[c] = .reset := by
  rw [h.plant]
  exact resetTrip _ c

theorem JustReset.test {s : State} (h : JustReset s) : s.plant.ogd.test = none := by
  rw [h.plant]
  rfl

theorem JustReset.alu {s : State} (h : JustReset s) : s.plant.alu = .reset := by
  rw [h.plant]
  rfl

theorem JustReset.cct {s : State} (h : JustReset s) : s.plant.cct = Vector.replicate 6 .reset := by
  rw [h.plant]
  rfl

theorem JustReset.allOff {s : State} (h : JustReset s) : AllOff s.plant :=
  ⟨fun o => by rw [h.output o]; rfl, h.test⟩

/-- A claim that does not depend on the queue, holds of every station that has just been reset and is kept by
every move is kept by every step. -/
theorem step_keeps_reset {I : State → Prop} (queue : ∀ s l, I s → I { s with pending := l })
    (reset : ∀ s, JustReset s → I s) (move : ∀ s t, I s → Move s t → I t) {s t : State}
    (held : HeldInReset s) (h : I s) (taken : step s = .next t) : HeldInReset t ∧ I t :=
  step_keeps queue (fun _ hs => reset _ hs.justReset)
    (fun straps _ hs => reset _ (justReset_release straps hs)) (fun _ _ _ hs m => move _ _ hs m)
    held h taken

/-! ### The outputs (R118) -/

theorem JustReset.outputsKept {s : State} (h : JustReset s) : OutputsKept s :=
  .still h.idle h.allOff

theorem OutputsKept.queue {s : State} (h : OutputsKept s) (l : List Instr) :
    OutputsKept { s with pending := l } := ⟨h.following, h.other⟩

theorem outputsSafe_iff (s : State) : OutputsSafe s ↔ HeldInReset s ∧ OutputsKept s :=
  ⟨fun h => ⟨h.reset, h.following, h.other⟩, fun ⟨hr, hk⟩ => ⟨hr, hk.following, hk.other⟩⟩

theorem outputsSafe_reset : OutputsSafe State.reset :=
  (outputsSafe_iff _).mpr ⟨heldInReset_reset, justReset_reset.outputsKept⟩

theorem outputsSafe_step {s t : State} (h : OutputsSafe s) (taken : step s = .next t) :
    OutputsSafe t := by
  rw [outputsSafe_iff] at h ⊢
  exact step_keeps_reset (fun _ l hs => hs.queue l) (fun _ hs => hs.outputsKept)
    (fun _ _ hs m => move_outputs m hs) h.1 h.2 taken

/-- An output that is on in a station in order is one that may be on (R118). -/
theorem OutputsSafe.mayBeOn {s : State} (h : OutputsSafe s) {o : Fin 6}
    (on : s.plant.ogd.outputs[o].energized = true) :
    Machine.mayBeOn s.rct.membership s.plant o = true := by
  cases follows : s.rct.membership.follows with
  | true =>
    rw [Machine.mayBeOn, follows, Bool.true_and]
    exact (h.following follows).2.driven o on
  | false => exact absurd ((h.other follows).1 o) (by rw [on]; decide)

/-! ### The trip counts (R113, R123) -/

theorem JustReset.unboundUntilRead {s : State} (h : JustReset s) : UnboundUntilRead s :=
  fun _ => ⟨fun o => by rw [h.output o]; rfl, fun c => by rw [h.trip c]; rfl⟩

theorem JustReset.tripsKept {s : State} (h : JustReset s) : TripsKept s :=
  .zero h.idle fun c => by rw [h.trip c]; rfl

/-- What keeps the trip counts within their limit along every step: the outputs in order, and no output bound
before the image is read. -/
structure TripsInOrder (s : State) : Prop where
  outputs : OutputsKept s
  unread : UnboundUntilRead s
  trips : TripsKept s

theorem JustReset.tripsInOrder {s : State} (h : JustReset s) : TripsInOrder s :=
  ⟨h.outputsKept, h.unboundUntilRead, h.tripsKept⟩

theorem TripsInOrder.queue {s : State} (h : TripsInOrder s) (l : List Instr) :
    TripsInOrder { s with pending := l } :=
  ⟨h.outputs.queue l, h.unread, ⟨h.trips.within, h.trips.limit, h.trips.bound⟩⟩

theorem TripsInOrder.move {s t : State} (h : TripsInOrder s) (m : Move s t) : TripsInOrder t :=
  ⟨move_outputs m h.outputs, move_unread m h.outputs h.unread,
    move_trips m h.outputs h.unread h.trips⟩

theorem tripCountsHeld_iff (s : State) : TripCountsHeld s ↔ HeldInReset s ∧ TripsInOrder s := by
  constructor
  · intro h
    obtain ⟨held, kept⟩ := (outputsSafe_iff s).mp h.outputs
    exact ⟨held, kept, h.unread, h.within, h.limit, h.below⟩
  · rintro ⟨held, h⟩
    exact ⟨(outputsSafe_iff s).mpr ⟨held, h.outputs⟩, h.unread, h.trips.within, h.trips.limit,
      h.trips.bound⟩

/-- Settles O59: no command but pin reset takes an output out of the BAD set, and the trip counts stay within
their limit by induction along the moves of a step. -/
theorem badSetNeverShrinks : Obligations.BadSetNeverShrinks := by
  refine ⟨fun x s t notReset taken => (exec_lasting x s t notReset taken).bad, ?reset, ?step⟩
  case reset =>
    exact (tripCountsHeld_iff _).mpr ⟨heldInReset_reset, justReset_reset.tripsInOrder⟩
  case step =>
    intro s t h taken
    rw [tripCountsHeld_iff] at h ⊢
    exact step_keeps_reset (fun _ l hs => hs.queue l) (fun _ hs => hs.tripsInOrder)
      (fun _ _ hs m => hs.move m) h.1 h.2 taken

/-! ### The division within the budget (R48, R57) -/

/-- Putting lists of records in order, and passing the pool over them, leaves the sum of their base parts. -/
theorem sum_basePart_divided (pool : Nat) (l : List RecEntry) :
    ((poolPass pool (sortBy recordLt l)).map RecEntry.basePart).sum = (l.map RecEntry.basePart).sum := by
  rw [(poolPass_bounds (sortBy recordLt l) pool).2.1]
  exact ((sortBy_perm recordLt l).map RecEntry.basePart).sum_eq

/-- The base parts of all records are at most the bases of their addresses (R55). -/
theorem sum_basePart_le (e : Env) (l : Ledger) (addrs : List Nat) :
    ((addrs.map (recordsOf e l)).flatten.map RecEntry.basePart).sum ≤
      (addrs.map (baseOf e l)).sum := by
  induction addrs with
  | nil => exact le_rfl
  | cons a addrs ih =>
    simp only [List.map_cons, List.flatten_cons, List.map_append, List.sum_append, List.sum_cons]
    exact Nat.add_le_add (recordsOf_bounds e l a).1 ih

/-- The share in force of an address is at most the share of the image (R48). -/
theorem share_le_shareOf (e : Env) (a : Nat) : e.share a ≤ shareOf e.img a := by
  unfold Env.share
  split
  · exact le_rfl
  · exact Nat.zero_le _

/-- Under a good shared section a division charges and grants at most the feeder budget (R57): charges, bases
and what goes to the pool are the parts of the shares. -/
theorem divide_total_le (e : Env) (l : Ledger) (good : sharedOk e.img = true) :
    (divide e l).total ≤ e.img.budget := by
  let addrs := configuredAddresses e
  let charge (a : Nat) : Nat := if classify e.own l a = .charged then e.share a else 0
  let pool := (addrs.map (poolShare e l)).sum
  let records := sortBy recordLt (addrs.map (recordsOf e l)).flatten
  have charges : (divide e l).entries.map AddrEntry.charge = addrs.map charge := by
    simp only [divide, List.map_map, addrs]
    rfl
  have grants : ((divide e l).records.map RecEntry.grant).sum =
      ((poolPass pool records).map RecEntry.basePart).sum +
        ((poolPass pool records).map RecEntry.poolPart).sum := sum_map_add _ _ _
  have bases : ((poolPass pool records).map RecEntry.basePart).sum ≤ (addrs.map (baseOf e l)).sum :=
    (sum_basePart_divided pool _).trans_le (sum_basePart_le e l addrs)
  have pooled : ((poolPass pool records).map RecEntry.poolPart).sum ≤ pool :=
    (poolPass_bounds records pool).1
  calc (divide e l).total
      ≤ (addrs.map charge).sum + ((addrs.map (baseOf e l)).sum + pool) := by
        rw [Division.total, charges, grants]
        omega
    _ = (addrs.map e.share).sum := by
        simp only [pool]
        rw [← sum_map_add, ← sum_map_add]
        refine congrArg List.sum (List.map_congr_left fun a _ => ?_)
        rw [← share_parts e l a, Nat.add_assoc]
    _ ≤ (addrs.map (shareOf e.img)).sum := List.sum_le_sum fun a _ => share_le_shareOf e a
    _ ≤ e.img.budget := shares_within e.img good

/-- The bound of R57 as what is kept of a division under an image. -/
def WithinBudget (m : Image) (d : Division) : Prop := d.total ≤ m.budget

theorem JustReset.divisionKept {s : State} (h : JustReset s) (D : Image → Division → Prop) :
    DivisionKept D s where
  image follows := absurd (h.idle.symm.trans follows) (by decide)
  division d hd := by
    rw [h.alu] at hd
    cases hd

theorem budgetHeld_iff (s : State) : BudgetHeld s ↔ HeldInReset s ∧ DivisionKept WithinBudget s :=
  ⟨fun h => ⟨h.reset, h.image, h.division⟩, fun ⟨held, h⟩ => ⟨held, h.image, h.division⟩⟩

/-- Settles O54: the bound of one division, carried along the moves of a step. -/
theorem divisionStaysWithinTheBudget : Obligations.DivisionStaysWithinTheBudget := by
  refine ⟨divide_total_le, ?reset, ?step⟩
  case reset =>
    exact (budgetHeld_iff _).mpr ⟨heldInReset_reset, justReset_reset.divisionKept _⟩
  case step =>
    intro s t h taken
    rw [budgetHeld_iff] at h ⊢
    exact step_keeps_reset (fun _ _ hs => ⟨hs.image, hs.division⟩) (fun _ hs => hs.divisionKept _)
      (fun _ _ hs m => move_division divide_total_le m hs) h.1 h.2 taken

end Sys2Proof.Machine
end

section
/-! PROOFS. What a command puts on may be on: only a window start and an accepted test energize an output,
and each asks for R118's conditions. -/

namespace Sys2Proof.Machine

/-! ### Operations that put no output on -/

/-- Every output that is on in `q` was on in `p`. -/
def NoneOn (p q : Plant) : Prop :=
  ∀ o : Fin 6, q.ogd.outputs[o].energized = true → p.ogd.outputs[o].energized = true

theorem NoneOn.refl (p : Plant) : NoneOn p p := fun _ h => h

theorem NoneOn.trans {p q r : Plant} (h : NoneOn p q) (k : NoneOn q r) : NoneOn p r :=
  fun o on => h o (k o on)

theorem NoneOn.of_eq {p q : Plant} (h : q.ogd.outputs = p.ogd.outputs) : NoneOn p q :=
  fun o on => by rw [← h]; exact on

theorem Reach.noneOn {p q : Plant} (h : Reach p q) : NoneOn p q := h.off

theorem Alike.noneOn {p q : Plant} (h : Alike p q) : NoneOn p q :=
  fun o on => (h.energized o).symm.trans on

theorem AllOff.noneOn (p : Plant) {q : Plant} (h : AllOff q) : NoneOn p q :=
  fun o on => absurd ((h.1 o).symm.trans on) (by decide)

theorem noneOn_raise (p : Plant) (x : Factor) : NoneOn p (p.raise x) := .of_eq rfl

theorem noneOn_raiseIf (p : Plant) (b : Bool) (x : Factor) : NoneOn p (p.raiseIf b x) := .of_eq rfl

theorem compute_noneOn (e : Env) (round : Option RoundNo) (swap : Bool) (x : Computation) (p : Plant) :
    NoneOn p (compute e round swap x p) :=
  (NoneOn.of_eq (q := { p with alu := allotTable e round x }) rfl).trans
    (compute_reach e round swap x p).noneOn

theorem limitChange_noneOn (o : Fin 6) (isOpen : Bool) (e : Env) (p : Plant) :
    NoneOn p (limitChange o isOpen e p) := by
  have recorded : NoneOn p (p.updOut o fun r => { r with limit := filterTo isOpen r.limit }) := by
    intro j on
    by_cases same : j = o
    · subst same
      rwa [updOut_row] at on
    · rwa [updOut_other _ _ _ _ same] at on
  unfold limitChange
  dsimp only
  split
  · split
    · exact recorded.trans (limitOpened_reach e o _).noneOn
    · exact recorded.trans (limitClosed_reach e o _).noneOn
  · exact recorded

theorem disableAll_noneOn (p : Plant) : NoneOn p (disableAll p) := (disableAll_still p).1

theorem mapOutputs_noneOn (p : Plant) (f : Fin 6 → OutputRow → OutputRow) (flow : Filter)
    (hf : ∀ o r, (f o r).energized = r.energized) :
    NoneOn p { p with ogd := { p.ogd with outputs := mapRows p.ogd.outputs f, flow := flow } } :=
  fun o on => by
    have row : (mapRows p.ogd.outputs f)[o].energized = true := on
    rwa [mapRows_get, hf] at row

theorem loadRoles_noneOn (e : Env) (p : Plant) : NoneOn p (loadRoles e p) :=
  (mapOutputs_noneOn p (loadedRow e) _ fun _ _ => rfl).trans
    (foldl_reach _ (fun p c => loadSpare_reach e c p) sixIds _).noneOn

theorem circuitsIntoService_noneOn (e : Env) (p : Plant) : NoneOn p (circuitsIntoService e p) :=
  .of_eq (congrArg Ogd.outputs (circuitsIntoService_idle e p).1)

/-! ### Stations: rounds, start-up and the line -/

theorem swap_noneOn (kind : AdoptKind) (round : RoundNo) (degraded : Bool) (s : State) :
    NoneOn s.plant (swap kind round degraded s).plant := by
  rw [swap_plant]
  refine NoneOn.trans (q := swapRaises s kind (updatedRows s s.rst.collecting)
    (silentAfter s s.rst.collecting) s.plant) (.of_eq rfl) ?_
  exact (compute_noneOn _ _ _ _ _).trans (noneOn_raiseIf _ _ _)

theorem adopt_noneOn (kind : AdoptKind) (round : RoundNo) (opener : Nat) (s : State) :
    NoneOn s.plant (adopt kind round opener s).plant := by
  obtain ⟨rct, stepOne⟩ := atSwap_eq kind s
  have same : (atSwap kind s).plant = s.plant := by rw [stepOne]
  rw [adopt_plant]
  refine NoneOn.trans ?_ (noneOn_raiseIf _ _ _)
  rw [← same]
  exact swap_noneOn kind round _ (atSwap kind s)

theorem degradeMidRound_noneOn (s : State) : NoneOn s.plant (degradeMidRound s).plant := by
  unfold degradeMidRound
  dsimp only
  split
  · exact (noneOn_raise s.plant .degraded).trans (compute_noneOn _ _ _ _ _)
  · exact NoneOn.refl _

theorem conflict_noneOn (s : State) : NoneOn s.plant (conflict s).plant := by
  unfold conflict
  dsimp only
  split
  · exact noneOn_raise s.plant .openConflict
  · exact (noneOn_raise s.plant .openConflict).trans (degradeMidRound_noneOn (s.raise .openConflict))

theorem offerBid_noneOn (b : BidFrame) (s : State) : NoneOn s.plant (offerBid b s).plant := by
  unfold offerBid acceptBid
  split_ifs
  all_goals exact .of_eq rfl

theorem openReceived_noneOn (f : OpenFrame) (s : State) : NoneOn s.plant (openReceived f s).plant := by
  unfold openReceived
  split
  · exact NoneOn.refl _
  · split
    · exact adopt_noneOn _ _ _ s
    · exact adopt_noneOn _ _ _ s
    · split
      · exact NoneOn.refl _
      · exact conflict_noneOn s
    · exact NoneOn.refl _

theorem bidReceived_noneOn (b : BidFrame) (s : State) : NoneOn s.plant (bidReceived b s).plant := by
  unfold bidReceived
  split
  · exact offerBid_noneOn b s
  · split
    · exact (adopt_noneOn _ _ _ s).trans (offerBid_noneOn b _)
    · exact (adopt_noneOn _ _ _ s).trans (offerBid_noneOn b _)
    · split
      · exact offerBid_noneOn b s
      · exact conflict_noneOn s
    · exact NoneOn.refl _

theorem enterRetired_noneOn (s : State) : NoneOn s.plant (enterRetired s).plant := by
  obtain ⟨e, w, hs, hw, -⟩ := enterRetired_computes s
  rw [hs]
  refine NoneOn.trans (q := w.plant) ?_
    ((disableAll_noneOn _).trans (compute_noneOn e _ _ _ _))
  rw [hw]
  exact noneOn_raise s.plant .retired

theorem enterListen_noneOn (s : State) : NoneOn s.plant (enterListen s).plant := by
  obtain ⟨e0, e1, e2, hp⟩ : ∃ e0 e1 e2 : Env, (enterListen s).plant =
      compute e2 none false .capped (circuitsIntoService e1
        (loadRoles e0 { s.plant with fct := s.plant.fct.setMask s.img.mask })) :=
    ⟨_, _, _, rfl⟩
  rw [hp]
  refine NoneOn.trans (q := { s.plant with fct := s.plant.fct.setMask s.img.mask }) (.of_eq rfl) ?_
  exact ((loadRoles_noneOn e0 _).trans (circuitsIntoService_noneOn e1 _)).trans
    (compute_noneOn e2 _ _ _ _)

theorem enterBlocked_noneOn (s : State) : NoneOn s.plant (enterBlocked s).plant := by
  obtain ⟨e, -, -, -, -, hc⟩ := enterBlocked_computes s
  rw [hc]
  exact (noneOn_raise s.plant .configBad).trans (compute_noneOn e _ _ _ _)

theorem judgeImage_noneOn (s : State) : NoneOn s.plant (judgeImage s).plant := by
  obtain ⟨u, h, same⟩ : ∃ u : State,
      judgeImage s = (if imagePasses u.sul.copy u.sul.rank then enterListen u else enterBlocked u) ∧
        u.plant = s.plant := ⟨_, rfl, rfl⟩
  rw [h, ← same]
  split
  · exact enterListen_noneOn u
  · exact enterBlocked_noneOn u

theorem attemptFailed_noneOn (k a : Nat) (s : State) : NoneOn s.plant (attemptFailed k a s).plant := by
  unfold attemptFailed
  split
  · exact NoneOn.refl _
  · exact enterBlocked_noneOn s

theorem transferDone_noneOn (k : Nat) (bytes : List Byte) (s : State) :
    NoneOn s.plant (transferDone k bytes s).plant := by
  unfold transferDone
  dsimp only
  split
  · exact enterBlocked_noneOn (updSul _ s)
  · split
    · exact NoneOn.refl _
    · exact judgeImage_noneOn (updSul _ s)

theorem transferAttemptEnd_noneOn (x : TransferOutcome) (s : State) :
    NoneOn s.plant (transferAttemptEnd x s).plant := by
  unfold transferAttemptEnd
  split
  · split
    · split
      · exact transferDone_noneOn _ _ s
      · exact NoneOn.refl _
    · exact attemptFailed_noneOn _ _ s
    · exact attemptFailed_noneOn _ _ s
  all_goals exact NoneOn.refl _

theorem clockHoldTimeout_noneOn (s : State) : NoneOn s.plant (clockHoldTimeout s).plant := by
  unfold clockHoldTimeout
  split
  · exact attemptFailed_noneOn _ _ s
  all_goals exact NoneOn.refl _

theorem restartTaken_noneOn (s : State) : NoneOn s.plant (restartTaken s).plant :=
  (restartTaken_off s).noneOn s.plant

theorem takeRestart_noneOn (s : State) : NoneOn s.plant (takeRestart s).plant := by
  unfold takeRestart
  split
  · exact restartTaken_noneOn s
  · exact NoneOn.refl _

theorem winLine_plant (n : SlotName) (s : State) : (winLine n s).plant = s.plant := by
  unfold winLine
  cases n with
  | openSlot | testSlot => rfl
  | replySlot | bidSlot => dsimp only; split <;> rfl

theorem deferenceExpiry_plant (s : State) : (deferenceExpiry s).plant = s.plant := by
  unfold deferenceExpiry
  split
  · split
    · exact winLine_plant _ s
    · rfl
  · rfl

theorem checkEnded_noneOn (equal : Bool) (s : State) : NoneOn s.plant (checkEnded equal s).plant :=
  noneOn_raiseIf s.plant _ _

theorem openCheckEnd_noneOn (equal : Bool) (s : State) :
    NoneOn s.plant (openCheckEnd equal s).plant := by
  unfold openCheckEnd
  split
  · dsimp only
    split
    · exact (checkEnded_noneOn equal s).trans (adopt_noneOn _ _ _ (updLif _ (checkEnded equal s)))
    · split <;> exact checkEnded_noneOn equal s
  all_goals exact NoneOn.refl _

theorem bidCheckEnd_noneOn (equal : Bool) (s : State) : NoneOn s.plant (bidCheckEnd equal s).plant := by
  unfold bidCheckEnd
  split
  · dsimp only
    split <;> exact checkEnded_noneOn equal s
  all_goals exact NoneOn.refl _

theorem replyCheckEnd_noneOn (equal : Bool) (s : State) :
    NoneOn s.plant (replyCheckEnd equal s).plant := by
  unfold replyCheckEnd
  split
  · exact (checkEnded_noneOn equal s).trans (takeRestart_noneOn (updLif _ (checkEnded equal s)))
  all_goals exact NoneOn.refl _

theorem testCheckEnd_noneOn (equal : Bool) (s : State) :
    NoneOn s.plant (testCheckEnd equal s).plant := by
  unfold testCheckEnd
  split
  · exact checkEnded_noneOn equal s
  all_goals exact NoneOn.refl _

theorem checkEnd_noneOn (equal : Bool) (s : State) : NoneOn s.plant (checkEnd equal s).plant := by
  unfold checkEnd
  split_ifs
  · exact openCheckEnd_noneOn equal s
  · exact bidCheckEnd_noneOn equal s
  · exact replyCheckEnd_noneOn equal s
  · exact testCheckEnd_noneOn equal s

theorem updQuality_plant (a : Nat) (f : QualityRow → QualityRow) (s : State) :
    (updQuality a f s).plant = s.plant := by
  obtain ⟨rows, h⟩ := updQuality_eq a f s
  rw [h]

theorem checkTest_noneOn (f : TestFrame) (s : State) : NoneOn s.plant (checkTest f s).plant := by
  unfold checkTest
  refine NoneOn.trans (q := (updQuality f.sender (checkedRow f) s).plant) ?_ (noneOn_raiseIf _ _ _)
  rw [updQuality_plant]
  exact NoneOn.refl _

theorem brokenFrame_plant (idle : Nat) (s : State) : (brokenFrame idle s).plant = s.plant := by
  unfold brokenFrame
  split <;> rfl

theorem lineStart_plant (s : State) : (lineStart s).plant = s.plant := by
  have bit (u : State) : (startBit u).plant = u.plant := by
    unfold startBit
    split
    · rfl
    · split <;> rfl
  rw [lineStart, bit]
  unfold breakAtGap
  split
  · exact brokenFrame_plant _ s
  · rfl

end Sys2Proof.Machine
end

section
/-! PROOFS. A trip, one equation for each of its ends (R123); and the two operations that put an output on,
with what they find there (R118, R129). -/

namespace Sys2Proof.Machine

/-! ### The ends of a trip (R123) -/

section
variable (respread : Env → Plant → Plant) (e : Env) (o : Fin 6) (k : FaultKind) (p : Plant)

/-- A trip of an output that is off is ignored. -/
theorem tripWith_still (off : p.ogd.outputs[o].energized = false) : tripWith respread e o k p = p := by
  unfold tripWith
  rw [off]
  rfl

/-- The plant of a trip of circuit `c`'s output once the trip is counted (R123, steps 1 to 4). -/
def tripCounted (o c : Fin 6) (k : FaultKind) (p : Plant) : Plant :=
  (tripRecorded o k p).updTrip c fun _ => ⟨p.ogd.trips[c].count + 1, 0, 0⟩

/-- A trip of an output bound to circuit `c` ends below the trip limit or at it. -/
theorem tripWith_bound (on : p.ogd.outputs[o].energized = true) {c : Fin 6}
    (bound : p.ogd.outputs[o].role.circuit = some c) :
    tripWith respread e o k p =
      if p.ogd.trips[c].count + 1 < e.img.tripLimit then
        tripBelow respread e (p.ogd.underTest o) c o k (tripCounted o c k p)
      else tripLast respread e (p.ogd.underTest o) c o k (tripCounted o c k p) := by
  obtain ⟨-, -, trips, -, -, -, role, -⟩ := tripRecorded_items o k p
  unfold tripWith
  rw [if_pos on]
  dsimp only
  rw [role o, bound]
  simp only [trips]
  rfl

/-- A trip of an output bound to no circuit ends a test of it, and nothing else. -/
theorem tripWith_unbound (on : p.ogd.outputs[o].energized = true)
    (unbound : p.ogd.outputs[o].role.circuit = none) :
    tripWith respread e o k p =
      tripSpare respread e (p.ogd.underTest o) o k (tripRecorded o k p) := by
  obtain ⟨-, -, -, -, -, -, role, -⟩ := tripRecorded_items o k p
  unfold tripWith
  rw [if_pos on]
  dsimp only
  rw [role o, unbound]

/-- Whatever its end, a trip goes on from the plant in which it is recorded. -/
theorem tripWith_reach_recorded (tame : Tame respread) (on : p.ogd.outputs[o].energized = true) :
    Reach (tripRecorded o k p) (tripWith respread e o k p) := by
  cases bound : p.ogd.outputs[o].role.circuit with
  | none =>
    rw [tripWith_unbound respread e o k p on bound]
    exact tripSpare_reach tame _ _ _ _ _
  | some c =>
    rw [tripWith_bound respread e o k p on bound]
    refine (Reach.updTrip _ c _).trans (q := tripCounted o c k p) ?_
    split
    · exact tripBelow_reach tame _ _ _ _ _ _
    · exact tripLast_reach tame _ _ _ _ _ _

/-- A tripped output is off (R123, step 1). -/
theorem tripWith_off (tame : Tame respread) :
    (tripWith respread e o k p).ogd.outputs[o].energized = false := by
  cases on : p.ogd.outputs[o].energized with
  | false =>
    rw [tripWith_still respread e o k p on]
    exact on
  | true =>
    by_contra still
    have recorded := (tripWith_reach_recorded respread e o k p tame on).off o (by simpa using still)
    rw [tripRecorded_off] at recorded
    cases recorded

end

/-! ### Energizing (R118) -/

/-- What R118 asks of an output does not read whether it is on. -/
theorem drivable_updOut (p : Plant) (o j : Fin 6) (f : OutputRow → OutputRow)
    (hr : (f p.ogd.outputs[o]).role = p.ogd.outputs[o].role)
    (hl : (f p.ogd.outputs[o]).limit.level = p.ogd.outputs[o].limit.level) :
    drivable (p.updOut o f) j = drivable p j := by
  have role : (p.updOut o f).ogd.outputs[j].role = p.ogd.outputs[j].role := by
    by_cases same : j = o
    · subst same
      rw [updOut_row, hr]
    · rw [updOut_other _ _ _ _ same]
  have limit : (p.updOut o f).ogd.outputs[j].limit.level = p.ogd.outputs[j].limit.level := by
    by_cases same : j = o
    · subst same
      rw [updOut_row, hl]
    · rw [updOut_other _ _ _ _ same]
  unfold drivable
  dsimp only
  rw [role, limit]
  rfl

theorem switchOn_drivable (e : Env) (o j : Fin 6) (p : Plant) :
    drivable (switchOn e o p) j = drivable p j :=
  ((notePeak_alike e o _).quiet.drivable j).trans (drivable_updOut p o j _ rfl rfl)

/-- Energizing an output puts no other one on, and that one stays on only where the leakage trip is not taken
at once (R118, R120). -/
theorem energize_turns (e : Env) (o j : Fin 6) (p : Plant) (off : p.ogd.outputs[j].energized = false)
    (on : (energize e o p).ogd.outputs[j].energized = true) :
    j = o ∧ energize e o p = switchOn e o p := by
  have others (h : j ≠ o) : (switchOn e o p).ogd.outputs[j].energized = false := by
    rw [switchOn, (notePeak_alike e o _).energized, updOut_other _ _ _ _ h]
    exact off
  have tripped : (tripOutput e o .leakage (switchOn e o p)).ogd.outputs[o].energized = false :=
    tripWith_off respread e o .leakage _ respread_reach
  unfold energize at on ⊢
  dsimp only at on ⊢
  split at on
  · by_cases h : j = o
    · subst h
      rw [tripped] at on
      cases on
    · have := (tripOutput_reach e o .leakage _).off j on
      rw [others h] at this
      cases this
  · rename_i noLeak
    rw [if_neg noLeak]
    refine ⟨?_, rfl⟩
    by_contra h
    rw [others h] at on
    cases on

/-- An output that energizing puts on is driven where it could be driven before (R118). -/
theorem energize_drivable (e : Env) (o j : Fin 6) (p : Plant) (h : drivable p o = true)
    (off : p.ogd.outputs[j].energized = false)
    (on : (energize e o p).ogd.outputs[j].energized = true) : drivable (energize e o p) j = true := by
  obtain ⟨rfl, plain⟩ := energize_turns e o j p off on
  rw [plain, switchOn_drivable]
  exact h

/-! ### A window start (R88, R118) -/

/-- Every output that is on in `q` and was off in `p` is one that may be driven. -/
def DrivenOn (p q : Plant) : Prop :=
  ∀ o : Fin 6, p.ogd.outputs[o].energized = false → q.ogd.outputs[o].energized = true →
    drivable q o = true

theorem NoneOn.drivenOn {p q : Plant} (h : NoneOn p q) : DrivenOn p q :=
  fun o off on => absurd (off.symm.trans (h o on)) (by decide)

theorem NoneOn.then {p q r : Plant} (h : NoneOn p q) (k : DrivenOn q r) : DrivenOn p r := by
  intro o off on
  refine k o ?_ on
  by_contra was
  have := h o (by simpa using was)
  rw [off] at this
  cases this

theorem requestOutput_drivenOn (e : Env) (c : Fin 6) (p : Plant) :
    DrivenOn p (requestOutput e c p) := by
  unfold requestOutput
  split
  · rename_i o bound
    split
    · rename_i asked
      simp only [Bool.and_eq_true, decide_eq_true_eq] at asked
      obtain ⟨⟨⟨-, -⟩, heats⟩, closed⟩ := asked
      have may : drivable p o = true :=
        (drivable_iff p o).mpr ⟨closed, .inl ⟨c, boundTo_role bound, .inl heats⟩⟩
      exact fun j => energize_drivable e o j p may
    · exact (NoneOn.refl p).drivenOn
  · exact (NoneOn.refl p).drivenOn

/-- A request to energize is taken only where the membership follows rounds (R118). -/
theorem requestOutput_idle (e : Env) (c : Fin 6) (p : Plant) (h : e.membership.follows = false) :
    requestOutput e c p = p := by
  unfold requestOutput
  split
  · rw [if_neg (by simp [h])]
  · rfl

theorem evaluated_noneOn (e : Env) (c : Fin 6) (p : Plant) :
    NoneOn p (evaluate e c (windowRaises c (endPeriod e c p))) :=
  (((endPeriod_reach e c p).trans (windowRaises_reach c _)).trans (evaluate_reach e c _)).noneOn

/-- What a window start puts on may be driven (R88, R118). -/
theorem windowStart_drivenOn (e : Env) (c : Fin 6) (p : Plant) : DrivenOn p (windowStart e c p) := by
  have begun : NoneOn p (p.updCct c fun r => { r with toNext := some e.windowMs }) := .of_eq rfl
  unfold windowStart
  split
  · dsimp only
    split
    · exact (begun.trans (evaluated_noneOn e c _)).then (requestOutput_drivenOn e c _)
    · exact begun.drivenOn
  · exact (NoneOn.refl p).drivenOn

/-- A window start in a membership that follows no rounds puts nothing on (R118). -/
theorem windowStart_noneOn (e : Env) (c : Fin 6) (p : Plant) (h : e.membership.follows = false) :
    NoneOn p (windowStart e c p) := by
  have begun : NoneOn p (p.updCct c fun r => { r with toNext := some e.windowMs }) := .of_eq rfl
  unfold windowStart
  split
  · dsimp only
    rw [requestOutput_idle e c _ h]
    split
    · exact begun.trans (evaluated_noneOn e c _)
    · exact begun
  · exact NoneOn.refl p

/-! ### An accepted test (R129) -/

/-- The test of output `o`, whose role was `r` at its start, has ended, or it still stands: the output has its
role, and its circuit is in TESTING. -/
def TestStands (o : Fin 6) (r : Role) (p : Plant) : Prop :=
  p.ogd.test = none ∨ p.ogd.underTest o = true ∧ p.ogd.outputs[o].role = r ∧
    ∀ c, r.circuit = some c → p.cct[c].state = .testing

/-- What still stands of a test does not depend on the rows of other outputs and circuits. -/
theorem TestStands.of_same {o : Fin 6} {r : Role} {p q : Plant} (h : TestStands o r p)
    (test : q.ogd.test = p.ogd.test) (role : q.ogd.outputs[o].role = p.ogd.outputs[o].role)
    (state : ∀ c, r.circuit = some c → q.cct[c].state = p.cct[c].state) : TestStands o r q := by
  rcases h with ended | ⟨under, hr, testing⟩
  · exact .inl (test.trans ended)
  · refine .inr ⟨?_, role.trans hr, fun c hc => (state c hc).trans (testing c hc)⟩
    rw [Ogd.underTest, test]
    exact under

/-- A test that has ended stays so. -/
theorem TestStands.of_ended {o : Fin 6} {r : Role} {p q : Plant} (h : p.ogd.test = none)
    (k : Reach p q) : TestStands o r q := .inl (k.untested h)

/-- A spare that is not the one under test takes a circuit over, and the test stands (R126). -/
theorem takeSpare_stands {o c : Fin 6} {r : Role} (e : Env) (apart : r.circuit ≠ some c) {p : Plant}
    (h : TestStands o r p) (spare : ∀ q, p.ogd.lowestSpare = some q → p.ogd.underTest q = false) :
    TestStands o r (takeSpare e c p) := by
  rcases h with ended | stands
  · exact .of_ended ended (takeSpare_reach e c p)
  · unfold takeSpare
    split
    · rename_i q lowest
      have other : o ≠ q := by
        rintro rfl
        have := spare o lowest
        rw [stands.1] at this
        cases this
      refine TestStands.of_same (.inr stands) ?_ ?_ fun d hd => ?_
      · rw [settleBound_ogd]
        rfl
      · rw [settleBound_ogd]
        exact congrArg OutputRow.role (updOut_other p q o _ other)
      · have apartD : d ≠ c := by
          rintro rfl
          exact apart hd
        exact congrArg CircuitRow.state ((settleBound_idle e c q _).2 d apartD)
    · exact .inr stands

/-- A failed circuit that is not the one under test leaves the test standing, or ends it for its spare (R126,
R131). -/
theorem failWith_stands {o c j : Fin 6} {r : Role} (e : Env) (apart : r.circuit ≠ some c) (other : o ≠ j)
    {respread : Env → Plant → Plant} (tame : Tame respread) {p : Plant} (h : TestStands o r p) :
    TestStands o r (failWith respread e c j p) := by
  have bad : TestStands o r ((p.updOut j fun x => { x with role := .bad }).raise .circuitFailed) :=
    h.of_same rfl (congrArg OutputRow.role (updOut_other p j o _ other)) fun _ _ => rfl
  unfold failWith
  generalize (p.updOut j fun x => { x with role := .bad }).raise .circuitFailed = q at bad ⊢
  unfold clearSpare
  split
  · rename_i spare lowest
    split
    · exact .of_ended (abortWith_none tame e .binding q) (takeSpare_reach e c _)
    · rename_i untested
      refine takeSpare_stands e apart bad fun x hx => ?_
      obtain rfl : spare = x := Option.some.inj (lowest.symm.trans hx)
      simpa using untested
  · rename_i lowest
    refine takeSpare_stands e apart bad fun x hx => ?_
    rw [lowest] at hx
    cases hx

/-- The trip of another circuit's output, not under test, leaves the test standing or ends it (R123). -/
theorem tripOutput_stands {o c j : Fin 6} {r : Role} (e : Env) (k : FaultKind)
    (apart : r.circuit ≠ some c) {p : Plant} (h : TestStands o r p)
    (bound : p.ogd.outputs[j].role.circuit = some c) (untested : p.ogd.underTest j = false) :
    TestStands o r (tripOutput e j k p) := by
  rcases h with ended | stands
  · exact .of_ended ended (tripOutput_reach e j k p)
  have other : o ≠ j := by
    rintro rfl
    rw [stands.1] at untested
    cases untested
  cases on : p.ogd.outputs[j].energized with
  | false =>
    rw [tripOutput, tripWith_still _ e j k p on]
    exact .inr stands
  | true =>
    obtain ⟨test, cct, -, -, -, -, role, -⟩ := tripRecorded_items j k p
    have counted : TestStands o r (tripCounted j c k p) :=
      TestStands.of_same (.inr stands) test (role o) fun d _ => by
        show (tripRecorded j k p).cct[d].state = _
        rw [cct]
    have idled {q : Plant} (st : CState) (hq : TestStands o r q) :
        TestStands o r (q.updCct c (idleRow st)) :=
      hq.of_same rfl rfl fun d hd => by
        rw [updCct_other _ _ _ _ (by rintro rfl; exact apart hd)]
    rw [tripOutput, tripWith_bound _ e j k p on bound, untested]
    split
    · unfold tripBelow
      exact idled .tripped
        (counted.of_same rfl (congrArg OutputRow.role (updOut_other _ j o _ other)) fun _ _ => rfl)
    · unfold tripLast
      exact failWith_stands e apart other respread_reach (idled .failed counted)

/-- The end of another circuit's period leaves the test standing or ends it (R122). -/
theorem endPeriod_stands {o c : Fin 6} {r : Role} (e : Env) (apart : r.circuit ≠ some c) {p : Plant}
    (h : TestStands o r p) : TestStands o r (endPeriod e c p) := by
  have off (j : Fin 6) {q : Plant} (hq : TestStands o r q) : TestStands o r (switchOff j q) := by
    obtain ⟨cct, -, -, test, -, role⟩ : OnlyRows q (switchOff j q) := switchOff_rows j q
    exact hq.of_same test (role o) fun d _ => by rw [cct]
  have row (j : Fin 6) (f : OutputRow → OutputRow) (hf : ∀ x, (f x).role = x.role) :
      TestStands o r (p.updOut j f) :=
    h.of_same rfl (updOut_role p j f hf o) fun _ _ => rfl
  unfold endPeriod endPeriodWith
  split
  · exact h
  · rename_i j bound
    dsimp only
    split
    · rename_i drawn
      simp only [Bool.and_eq_true, Bool.not_eq_true'] at drawn
      split_ifs
      · exact off j h
      · refine tripOutput_stands e .openElement apart (row j _ fun _ => rfl) ?_ drawn.2
        rw [updOut_row]
        exact boundTo_role bound
      · exact off j (row j _ fun _ => rfl)
      · exact off j (row j _ fun _ => rfl)
    · exact h

/-- The cuts that make room for a test leave it standing or end it: its own circuit, with an on-time of 0, is
not cut (R65, R90, R129). -/
theorem handGrants_stands {o : Fin 6} {r : Role} (e : Env) (g : Vector Nat 6) {p : Plant}
    (h : TestStands o r p) (idle : ∀ c, r.circuit = some c → p.cct[c].onTime = 0) :
    TestStands o r (handGrants e g p) := by
  have taken : TestStands o r { p with cct := mapRows p.cct fun c x => grantedRow e p c g[c] x } :=
    h.of_same rfl rfl fun c _ => by
      show ((mapRows p.cct fun c x => grantedRow e p c g[c] x)[c]).state = _
      rw [mapRows_get]
      rfl
  unfold handGrants handGrantsWith
  dsimp only
  generalize hb : (fun c : Fin 6 => cutNow e p.cct[c]
    (mapRows p.cct fun c x => grantedRow e p c g[c] x)[c]) = cut
  have own : ∀ c, cut c = true → r.circuit ≠ some c := by
    intro c hc tested
    rw [← hb] at hc
    simp only [cutNow_zero e _ _ (idle c tested)] at hc
    cases hc
  have keeps (l : List (Fin 6)) (q : Plant) (hq : TestStands o r q) :
      TestStands o r
        (l.foldl (fun q c => if cut c then endPeriodWith tripOutput e c q else q) q) := by
    induction l generalizing q with
    | nil => exact hq
    | cons c l ih =>
      refine ih _ ?_
      dsimp only
      split
      · rename_i hc
        exact endPeriod_stands e (own c hc) hq
      · exact hq
  have := keeps sixIds _ taken
  rw [← hb] at this
  exact this

/-- What an accepted test puts on may be driven (R118, R128, R129). -/
theorem startTest_drivenOn (e : Env) (o : Fin 6) (seconds : Nat) (p : Plant)
    (accepted : judgeTest e p o = .accepted) : DrivenOn p (startTest e o seconds p) := by
  obtain ⟨-, -, closed, spareOrBound, -⟩ := judgeTest_accepted accepted
  obtain ⟨q, hq, load, g, hs, -⟩ := startTest_shape e o seconds p
  obtain ⟨stands, idle, noneOn, limit⟩ : TestStands o p.ogd.outputs[o].role q ∧
      (∀ c, p.ogd.outputs[o].role.circuit = some c → q.cct[c].onTime = 0) ∧ NoneOn p q ∧
      q.ogd.outputs[o].limit = p.ogd.outputs[o].limit := by
    generalize hu : p.setTest (some ⟨o, p.ogd.outputs[o].role.circuit, seconds, e.now, 0, 0, 0⟩) = u at hq
    have under : u.ogd.underTest o = true := by
      rw [← hu]
      exact decide_eq_true rfl
    have outputs : u.ogd.outputs = p.ogd.outputs := by rw [← hu]; rfl
    rw [hq]
    split
    · rename_i c bound
      obtain ⟨-, -, -, test, -, role⟩ : OnlyRows u (switchOff o u) := switchOff_rows o u
      refine ⟨.inr ⟨?_, ?_, fun d hd => ?_⟩, fun d hd => ?_, ?_, ?_⟩
      · show (switchOff o u).ogd.underTest o = true
        rw [Ogd.underTest, test]
        exact under
      · show (switchOff o u).ogd.outputs[o].role = _
        rw [role, outputs]
      · obtain rfl : c = d := Option.some.inj (bound.symm.trans hd)
        rw [updCct_row]
        rfl
      · obtain rfl : c = d := Option.some.inj (bound.symm.trans hd)
        rw [updCct_row]
        rfl
      · exact (NoneOn.of_eq outputs).trans (switchOff_reach o u).noneOn
      · exact ((switchOff_reach o u).limit o).trans (by rw [outputs])
    · rename_i unbound
      refine ⟨.inr ⟨under, by rw [outputs], fun d hd => ?_⟩, fun d hd => ?_, .of_eq outputs,
        by rw [outputs]⟩
      all_goals
        rw [unbound] at hd
        cases hd
  have handed := handGrants_stands (p := { q with alu := { q.alu with deduction := some (o, load) } })
    e g stands idle
  have reach : Reach q (handGrants e g { q with alu := { q.alu with deduction := some (o, load) } }) :=
    (Reach.deduction q _).trans (handGrants_reach e g _)
  rw [hs]
  generalize handGrants e g { q with alu := { q.alu with deduction := some (o, load) } } = u at handed reach ⊢
  have off : NoneOn p u := noneOn.trans reach.noneOn
  split
  · rename_i under
    rcases handed with ended | ⟨-, role, testing⟩
    · rw [not_underTest ended] at under
      cases under
    · refine off.then fun j => energize_drivable e o j u ((drivable_iff u o).mpr ⟨?_, ?_⟩)
      · rw [reach.limit, limit]
        exact closed
      · rw [role]
        rcases spareOrBound with spare | ⟨c, bound⟩
        · exact .inr ⟨spare, under⟩
        · exact .inl ⟨c, bound, .inr (testing c bound)⟩
  · exact off.drivenOn

end Sys2Proof.Machine
end

section
/-! PROOFS. Every command puts on only outputs that may be on (R118). -/

namespace Sys2Proof.Machine

/-- Every output that is on in `t` and was off in `s` is one that may be on. -/
def TurnsOn (s t : State) : Prop :=
  ∀ o : Fin 6, s.plant.ogd.outputs[o].energized = false →
    t.plant.ogd.outputs[o].energized = true → mayBeOn t.rct.membership t.plant o = true

theorem NoneOn.turnsOn {s t : State} (h : NoneOn s.plant t.plant) : TurnsOn s t :=
  fun o off on => absurd (off.symm.trans (h o on)) (by decide)

/-- What is put on may be driven and the membership follows rounds, so it may be on. -/
theorem DrivenOn.turnsOn {s t : State} (h : DrivenOn s.plant t.plant)
    (follows : t.rct.membership.follows = true) : TurnsOn s t := fun o off on => by
  rw [mayBeOn, follows, Bool.true_and]
  exact h o off on

/-- Only the plant counts of the station before. -/
theorem TurnsOn.from {s u t : State} (h : TurnsOn u t) (plant : u.plant = s.plant) : TurnsOn s t := by
  unfold TurnsOn at h ⊢
  rw [plant] at h
  exact h

/-- Only the plant and the membership count of the station after. -/
theorem TurnsOn.to {s t u : State} (h : TurnsOn s t) (plant : u.plant = t.plant)
    (rct : u.rct = t.rct) : TurnsOn s u := by
  unfold TurnsOn at h ⊢
  rw [plant, rct]
  exact h

/-! ### Requests (R161, R171) -/

/-- A membership that bids follows rounds (01, section 1.8). -/
theorem Membership.follows_of_bids {m : Membership} (h : m.bids = true) : m.follows = true := by
  revert h
  cases m <;> decide

theorem serveTest_turnsOn (o : Fin 6) (seconds : Nat) (s : State) :
    TurnsOn s (serveTest o seconds s).2 := by
  unfold serveTest
  split
  · rename_i accepted
    refine (startTest_drivenOn s.env o seconds s.plant accepted).turnsOn ?_
    have bids : s.rct.membership.bids = true := (judgeTest_accepted accepted).1
    show s.rct.membership.follows = true
    exact Membership.follows_of_bids bids
  · exact (NoneOn.refl _).turnsOn

theorem serveRetire_noneOn (a : Nat) (s : State) : NoneOn s.plant (serveRetire a s).plant := by
  have row : (retireRow a s).plant = s.plant := by
    unfold retireRow
    split
    · split <;> rfl
    · rfl
  unfold serveRetire
  dsimp only
  split
  · rw [← row]
    exact enterRetired_noneOn _
  · exact .of_eq (by rw [row])

theorem serveCommand_turnsOn (kind : Nat) (args : List Byte) (s : State) :
    TurnsOn s (serveCommand kind args s).2 := by
  unfold serveCommand
  split
  · exact (NoneOn.of_eq rfl).turnsOn
  · exact (NoneOn.of_eq rfl).turnsOn
  · split
    · exact serveTest_turnsOn _ _ s
    · exact (NoneOn.refl _).turnsOn
  · unfold serveLinecheck
    split <;> exact (NoneOn.refl _).turnsOn
  · exact (serveRetire_noneOn _ s).turnsOn
  all_goals exact (NoneOn.refl _).turnsOn

theorem judgeRequest_turnsOn (r : Request) (s : State) : TurnsOn s (judgeRequest r s).2 := by
  unfold judgeRequest
  split_ifs
  · exact (NoneOn.refl _).turnsOn
  · exact (NoneOn.refl _).turnsOn
  · exact (NoneOn.refl _).turnsOn
  · split
    · exact (NoneOn.refl _).turnsOn
    · exact serveCommand_turnsOn _ _ s

theorem serve_turnsOn (r : Request) (s : State) : TurnsOn s (serve r s) := by
  have judged := judgeRequest_turnsOn r s
  unfold serve
  dsimp only
  split
  · unfold takeRestart
    split
    · exact ((restartTaken_off _).noneOn s.plant).turnsOn
    · exact judged
  · exact judged.to rfl rfl

/-! ### Frames (R140) -/

theorem route_turnsOn (f : Frame) (s : State) : TurnsOn s (route f s) := by
  cases f with
  | openFrame f => exact (openReceived_noneOn f s).turnsOn
  | bid b => exact (bidReceived_noneOn b s).turnsOn
  | request r =>
    unfold route
    dsimp only
    split
    · exact serve_turnsOn r s
    · exact (NoneOn.refl _).turnsOn
  | reply f => exact (NoneOn.refl _).turnsOn
  | test f => exact (checkTest_noneOn f s).turnsOn

/-- The counts of a frame are kept by the Line Check Unit (R151). -/
theorem countFrame_plant (f : Frame) (s : State) : (countFrame f s).plant = s.plant := by
  cases f with
  | openFrame f | reply f | test f => exact updQuality_plant _ _ _
  | bid b => exact (updQuality_plant _ _ _).trans (updQuality_plant _ _ _)
  | request r => rfl

theorem goodFrame_turnsOn (f : Frame) (s : State) : TurnsOn s (goodFrame f s) :=
  (route_turnsOn f _).from (countFrame_plant f s)

theorem receive_turnsOn (f : Frame) (s : State) : TurnsOn s (receive f s) := by
  unfold receive
  split_ifs
  · exact (goodFrame_turnsOn f _).from rfl
  · exact (NoneOn.refl _).turnsOn
  · exact (NoneOn.refl _).turnsOn

theorem receiveBytes_turnsOn (bytes : List Byte) (s : State) : TurnsOn s (receiveBytes bytes s) := by
  unfold receiveBytes
  split
  · split
    · exact (goodFrame_turnsOn _ _).from rfl
    all_goals exact (NoneOn.refl _).turnsOn
  · exact (NoneOn.refl _).turnsOn

theorem lineCharacter_turnsOn (c : LineChar) (s : State) : TurnsOn s (lineCharacter c s) := by
  unfold lineCharacter
  split
  · unfold ownCharacter
    split
    · exact (checkEnd_noneOn _ s).turnsOn
    · exact (NoneOn.refl _).turnsOn
  · unfold otherCharacter
    split
    · exact (NoneOn.refl _).turnsOn
    · exact (NoneOn.refl _).turnsOn
    · exact (NoneOn.refl _).turnsOn
    · unfold frameCharacter
      dsimp only
      split_ifs
      · exact (NoneOn.of_eq (by rw [brokenFrame_plant])).turnsOn
      · exact receiveBytes_turnsOn _ s
      · exact (NoneOn.refl _).turnsOn

/-! ### The other commands -/

theorem rawInputChange_turnsOn (i : RawInput) (s : State) : TurnsOn s (rawInputChange i s) := by
  have row (o : Fin 6) (f : OutputRow → OutputRow) (hf : ∀ r, (f r).energized = r.energized) :
      NoneOn s.plant (s.plant.updOut o f) := by
    intro j on
    by_cases same : j = o
    · subst same
      rwa [updOut_row, hf] at on
    · rwa [updOut_other _ _ _ _ same] at on
  cases i with
  | leakage o mA =>
    refine NoneOn.turnsOn (NoneOn.trans (row o _ ?_) (notePeak_alike _ o _).noneOn)
    exact fun _ => rfl
  | limit o isOpen =>
    refine NoneOn.turnsOn (row o _ ?_)
    exact fun _ => rfl
  | flow asserted => exact (NoneOn.of_eq rfl).turnsOn
  | load o tenths => exact (NoneOn.refl _).turnsOn
  | strap bit isOpen => exact (NoneOn.refl _).turnsOn
  | lineStart => exact (NoneOn.of_eq (by rw [rawInputChange, lineStart_plant])).turnsOn
  | lineCharacter c => exact lineCharacter_turnsOn c s

theorem leakageChange_noneOn (o : Fin 6) (asserted : Bool) (e : Env) (p : Plant) :
    NoneOn p (leakageChange o asserted e p) := by
  have recorded : NoneOn p (p.updOut o fun r => { r with leakage := filterTo asserted r.leakage }) := by
    intro j on
    by_cases same : j = o
    · subst same
      rwa [updOut_row] at on
    · rwa [updOut_other _ _ _ _ same] at on
  unfold leakageChange
  dsimp only
  split
  · exact recorded.trans (tripOutput_reach e o .leakage _).noneOn
  · exact recorded

theorem windowStart_turnsOn (c : Fin 6) (s : State) :
    TurnsOn s (onPlant (fun e p => windowStart e c p) s) := by
  cases follows : s.rct.membership.follows with
  | true => exact (windowStart_drivenOn s.env c s.plant).turnsOn follows
  | false => exact (windowStart_noneOn s.env c s.plant follows).turnsOn

theorem overloadDetected_noneOn (o : Fin 6) (load : Nat) (e : Env) (p : Plant) :
    NoneOn p (overloadDetected o load e p) := by
  unfold overloadDetected
  split
  · exact (tripOutput_reach e o .overload p).noneOn
  · exact NoneOn.refl p

theorem tripClear_noneOn (c : Fin 6) (e : Env) (p : Plant) : NoneOn p (tripClear c e p) := by
  unfold tripClear
  split
  · exact .of_eq rfl
  · exact NoneOn.refl p

theorem conversionEnd_noneOn (m : Conversion) (s : State) : NoneOn s.plant (conversionEnd m s).plant := by
  unfold conversionEnd
  split
  · exact NoneOn.refl _
  · dsimp only
    split
    · exact NoneOn.refl _
    · exact (scanEnd_alike s.plant).noneOn

theorem timers_plant (s : State) :
    (roundTimerExpiry s).plant = s.plant ∧ (listenTimerExpiry s).plant = s.plant ∧
      (attemptRetryDelayExpiry s).plant = s.plant := by
  have place (u : State) : (placeOpen u).plant = u.plant := by
    unfold placeOpen
    split <;> rfl
  unfold roundTimerExpiry listenTimerExpiry attemptRetryDelayExpiry
  refine ⟨?_, ?_, ?_⟩
  · dsimp only
    split_ifs
    · exact place _
    · rfl
    · rfl
  · split_ifs
    · exact place _
    · rfl
  · split <;> rfl

/-- Every command puts on only outputs that may be on (R118). -/
theorem exec_turnsOn (x : Instr) (s t : State) (taken : exec x s = .next t) : TurnsOn s t := by
  obtain ⟨round, listen, retry⟩ := timers_plant s
  cases x
  all_goals cases taken
  case pinReset => exact ((AllOff.noneOn s.plant) ⟨fun o => resetRow s.plant.free o ▸ rfl, rfl⟩).turnsOn
  case resetnRelease straps => exact (NoneOn.of_eq (by rw [resetnRelease_plant])).turnsOn
  case transferAttemptEnd x => exact (transferAttemptEnd_noneOn x s).turnsOn
  case clockHoldTimeout => exact (clockHoldTimeout_noneOn s).turnsOn
  case attemptRetryDelayExpiry => exact (NoneOn.of_eq (by rw [retry])).turnsOn
  case badFrameReceived bytes => exact receiveBytes_turnsOn bytes s
  case frameGapTimeout => exact (NoneOn.of_eq (by rw [brokenFrame_plant])).turnsOn
  case brokenFrame => exact (NoneOn.of_eq (by rw [brokenFrame_plant])).turnsOn
  case deferenceExpiry => exact (NoneOn.of_eq (by rw [deferenceExpiry_plant])).turnsOn
  case openCheckEnd equal => exact (openCheckEnd_noneOn equal s).turnsOn
  case bidCheckEnd equal => exact (bidCheckEnd_noneOn equal s).turnsOn
  case replyCheckEnd equal => exact (replyCheckEnd_noneOn equal s).turnsOn
  case testCheckEnd equal => exact (testCheckEnd_noneOn equal s).turnsOn
  case roundTimerExpiry => exact (NoneOn.of_eq (by rw [round])).turnsOn
  case listenTimerExpiry => exact (NoneOn.of_eq (by rw [listen])).turnsOn
  case windowStart c => exact windowStart_turnsOn c s
  case onTimeElapsed c => exact (endPeriod_reach s.env c s.plant).noneOn.turnsOn
  case conversionEnd m => exact (conversionEnd_noneOn m s).turnsOn
  case settleTimerExpiry c => exact (settleExpiry_reach s.env c s.plant).noneOn.turnsOn
  case rawInputChange i => exact rawInputChange_turnsOn i s
  case limitFilteredChange o isOpen => exact (limitChange_noneOn o isOpen s.env s.plant).turnsOn
  case leakageFilteredChange o asserted => exact (leakageChange_noneOn o asserted s.env s.plant).turnsOn
  case flowFilteredChange asserted => exact (NoneOn.of_eq rfl).turnsOn
  case overloadDetected o load => exact (overloadDetected_noneOn o load s.env s.plant).turnsOn
  case holdOffExpiry o => exact (holdOffExpiry_reach o s.env s.plant).noneOn.turnsOn
  case tripClearTimeReached c => exact (tripClear_noneOn c s.env s.plant).turnsOn
  case testDurationExpiry => exact (finishTest_reach s.env s.plant).noneOn.turnsOn
  all_goals exact receive_turnsOn _ s

/-- Settles O60: what a command puts on may be on, and the outputs stay in order along every step. -/
theorem outputsTurnOnSafely : Obligations.OutputsTurnOnSafely :=
  ⟨fun x s t o taken => exec_turnsOn x s t taken o, fun _ _ safe => safe.mayBeOn,
    outputsSafe_reset, fun _ _ safe => outputsSafe_step safe⟩

end Sys2Proof.Machine
end

section
/-! PROOFS. The order of a spread and of a deduction: what the local spread grants, and which grants a test
deduction lowers first (R59, R65). -/

namespace Sys2Proof.Machine

/-! ### The local order -/

/-- Circuit `d` comes before circuit `c` in the ordering that the local spread uses. -/
abbrev localLt (p : Plant) (d c : Fin 6) : Bool := keyLt (localKey p d) (localKey p c)

theorem localLt_iff (p : Plant) (d c : Fin 6) : localLt p d c = true ↔
    (p.cct[d].cls.map classRank).getD 4 < (p.cct[c].cls.map classRank).getD 4 ∨
      (p.cct[d].cls.map classRank).getD 4 = (p.cct[c].cls.map classRank).getD 4 ∧
        (p.cct[d].margin.getD (-128) < p.cct[c].margin.getD (-128) ∨
          p.cct[d].margin.getD (-128) = p.cct[c].margin.getD (-128) ∧ d.val < c.val) := by
  unfold localLt localKey
  simp only [keyLt_cons, keyLt_nil, Bool.false_eq_true, and_false, or_false, Nat.cast_lt, Nat.cast_inj]

theorem localLt_eq_spreadBefore (p : Plant) (d c : Fin 6) : localLt p d c = spreadBefore p d c := by
  rw [Bool.eq_iff_iff, localLt_iff]
  unfold spreadBefore
  rw [decide_eq_true_iff]
  rfl

theorem localLt_inLine (p : Plant) : InLine (localLt p) where
  trans := by
    intro x y z h1 h2
    rw [Bool.eq_false_iff, Ne, localLt_iff] at *
    omega
  asymm := by
    intro x y h
    rw [Bool.eq_false_iff, Ne, localLt_iff]
    rw [localLt_iff] at h
    omega

/-- The circuit id decides between circuits of one class and margin. -/
theorem localLt_total (p : Plant) {c d : Fin 6} (h : d ≠ c) (k : localLt p d c = false) :
    localLt p c d = true := by
  have apart : d.val ≠ c.val := fun e => h (Fin.ext e)
  rw [Bool.eq_false_iff, Ne, localLt_iff] at k
  rw [localLt_iff]
  omega

theorem spreadTakes_eq (p : Plant) (c : Fin 6) :
    spreadTakes p c = (p.cct[c].state.energizable && decide (0 < p.cct[c].need)) := by
  unfold spreadTakes
  cases p.cct[c].state <;> simp [CState.energizable]

theorem localOrder_eq (p : Plant) :
    localOrder p = sortBy (localLt p) (sixIds.filter (spreadTakes p)) := by
  unfold localOrder
  rw [List.filter_congr fun c _ => (spreadTakes_eq p c).symm]

theorem mem_localOrder (p : Plant) (c : Fin 6) : c ∈ localOrder p ↔ spreadTakes p c = true := by
  rw [localOrder_eq, mem_sortBy, List.mem_filter]
  exact and_iff_right (mem_sixIds c)

theorem localOrder_perm (p : Plant) : (localOrder p).Perm (sixIds.filter (spreadTakes p)) := by
  rw [localOrder_eq]
  exact sortBy_perm _ _

theorem localOrder_nodup (p : Plant) : (localOrder p).Nodup :=
  (localOrder_perm p).nodup_iff.2 (List.Nodup.filter _ (by decide))

theorem localOrder_sorted (p : Plant) :
    (localOrder p).Pairwise fun a b => localLt p b a = false := by
  rw [localOrder_eq]
  exact sortBy_sorted (localLt_inLine p) _

/-- The circuits that a local order has before circuit `c` are those that come before it. -/
theorem localOrder_before (p : Plant) {before after : List (Fin 6)} {c : Fin 6}
    (h : localOrder p = before ++ c :: after) :
    before.Perm (sixIds.filter fun d => spreadTakes p d && spreadBefore p d c) := by
  have sorted := localOrder_sorted p
  have nodup := localOrder_nodup p
  rw [h, List.pairwise_append, List.pairwise_cons] at sorted
  obtain ⟨-, ⟨later, -⟩, earlier⟩ := sorted
  have chosen : (localOrder p).filter (fun d => localLt p d c) = before := by
    have first : ∀ d ∈ before, localLt p d c = true := fun d hd => by
      refine localLt_total p (fun e => ?_) (earlier d hd c (by simp))
      subst e
      rw [h] at nodup
      exact (List.disjoint_of_nodup_append nodup) hd (by simp)
    have self : localLt p c c = false := by
      cases k : localLt p c c with
      | false => rfl
      | true => exact absurd k (by simp [(localLt_inLine p).asymm k])
    rw [h, List.filter_append, List.filter_eq_self.2 first, List.filter_cons, self,
      List.filter_eq_nil_iff.2 fun d hd => by simp [later d hd]]
    simp
  have both : (sixIds.filter fun d => spreadTakes p d && spreadBefore p d c) =
      (sixIds.filter (spreadTakes p)).filter fun d => localLt p d c := by
    rw [List.filter_filter]
    exact List.filter_congr fun d _ => by rw [localLt_eq_spreadBefore, Bool.and_comm]
  rw [both, ← chosen]
  exact (localOrder_perm p).filter _

/-- R59: what the local spread of an amount grants. -/
theorem localSpread_spreadOf (p : Plant) (amount : Nat) : SpreadOf p amount (localSpread p amount) where
  taken c hc := by
    obtain ⟨before, after, h⟩ := List.append_of_mem ((mem_localOrder p c).2 hc)
    have sums := ((localOrder_before p h).map fun d => (localSpread p amount)[d]).sum_eq
    rw [← sums]
    exact spreadOver_get p _ amount noGrants before after c (localOrder_nodup p) h
  others c hc := by
    have out : c ∉ localOrder p := fun k => by simp [(mem_localOrder p c).1 k] at hc
    unfold localSpread
    rw [spreadOver_other p _ amount noGrants c out]
    simp [noGrants]
  total := by
    have needs := ((localOrder_perm p).map fun c => p.cct[c].need).sum_eq
    unfold localSpread
    rw [spreadOver_sum p _ amount noGrants (localOrder_nodup p) fun c _ => by simp [noGrants],
      grantSum_noGrants, Nat.zero_add, needs]

/-! ### The order of a deduction -/

/-- In a list that never has `c` before `d`, no `d` stands behind an occurrence of `c`. -/
theorem no_later {α : Type} {l : List α} {c d : α} (hc : c ∈ l)
    (h : l.Pairwise fun x y => ¬(x = c ∧ y = d)) : ∃ a b, l = a ++ c :: b ∧ d ∉ b := by
  obtain ⟨a, b, e⟩ := List.append_of_mem hc
  rw [e, List.pairwise_append, List.pairwise_cons] at h
  obtain ⟨-, ⟨later, -⟩, -⟩ := h
  exact ⟨a, b, e, fun hd => later d hd ⟨rfl, rfl⟩⟩

/-- An order followed by the circuits outside it, in circuit id (log entry 16), has `d` before `c` where the
order does, and where `c` is outside it and `d` either is in it or has the lower id. -/
theorem completed_pairwise {order : List (Fin 6)} {c d : Fin 6}
    (sorted : order.Pairwise fun x y => ¬(x = c ∧ y = d))
    (place : d ∈ order ∨ c ∉ order ∧ d < c) :
    (order ++ sixIds.filter fun x => decide (x ∉ order)).Pairwise fun x y => ¬(x = c ∧ y = d) := by
  have byId : (sixIds.filter fun x => decide (x ∉ order)).Pairwise (· < ·) :=
    List.Pairwise.filter _ (by decide)
  have outside : ∀ x, x ∈ sixIds.filter (fun x => decide (x ∉ order)) → x ∉ order := fun x hx => by
    simpa using (List.mem_filter.1 hx).2
  refine List.pairwise_append.2 ⟨sorted, byId.imp_of_mem fun {x y} hx hy lt => ?_, ?_⟩
  · rintro ⟨rfl, rfl⟩
    rcases place with hd | ⟨-, hlt⟩
    · exact outside _ hy hd
    · exact absurd lt (Fin.not_lt.2 (Fin.le_of_lt hlt))
  · rintro x hx y hy ⟨rfl, rfl⟩
    rcases place with hd | ⟨hc, -⟩
    · exact outside _ hy hd
    · exact hc hx

theorem localBefore_order {p : Plant} {c d : Fin 6} (h : localBefore p d c) :
    d ≠ c ∧ ((localOrder p).Pairwise fun x y => ¬(x = c ∧ y = d)) ∧
      (d ∈ localOrder p ∨ c ∉ localOrder p ∧ d < c) := by
  unfold localBefore at h
  simp only [mem_localOrder]
  rcases h with ⟨takes, before⟩ | ⟨takes, other, lt⟩
  · refine ⟨?_, ?_, .inl takes⟩
    · rintro rfl
      have self := before takes
      rw [← localLt_eq_spreadBefore, localLt_iff] at self
      omega
    · refine (localOrder_sorted p).imp_of_mem ?_
      rintro x y hx - later ⟨rfl, rfl⟩
      rw [localLt_eq_spreadBefore, before ((mem_localOrder p x).1 hx)] at later
      cases later
  · refine ⟨Fin.ne_of_lt lt, ?_, .inr ⟨by simp [other], lt⟩⟩
    refine List.pairwise_of_forall_mem_list ?_
    rintro x - y hy ⟨-, rfl⟩
    rw [mem_localOrder, takes] at hy
    cases hy

theorem outputOf_eq_some_iff (b : Nat) (o : Fin 6) : outputOf b = some o ↔ b = o.val + 1 := by
  unfold outputOf
  split
  · rename_i h
    rw [Option.some.injEq, Fin.ext_iff]
    show b - 1 = o.val ↔ _
    omega
  · rename_i h
    have := o.isLt
    exact ⟨fun e => by simp at e, fun e => absurd ⟨by omega, by omega⟩ h⟩

theorem mem_recordOrder (own : Nat) (v : Division) (c : Fin 6) :
    c ∈ recordOrder own v ↔ ∃ r, r ∈ v.records ∧ r.addr = own ∧ r.circuit = c.val + 1 := by
  unfold recordOrder ownRecords
  simp only [List.mem_filterMap, mem_sortBy, List.mem_filter, decide_eq_true_iff, outputOf_eq_some_iff]
  exact ⟨fun ⟨r, ⟨h1, h2⟩, h3⟩ => ⟨r, h1, h2, h3⟩, fun ⟨r, h1, h2, h3⟩ => ⟨r, ⟨h1, h2⟩, h3⟩⟩

theorem recordBefore_order {own : Nat} {v : Division} {c d : Fin 6} (h : recordBefore own v d c) :
    d ≠ c ∧ ((recordOrder own v).Pairwise fun x y => ¬(x = c ∧ y = d)) ∧
      (d ∈ recordOrder own v ∨ c ∉ recordOrder own v ∧ d < c) := by
  unfold recordBefore at h
  dsimp only at h
  rcases h with ⟨⟨x, named⟩, before⟩ | ⟨noneD, noneC, lt⟩
  · refine ⟨?_, ?_, .inl ((mem_recordOrder own v d).2 ⟨x, named⟩)⟩
    · rintro rfl
      exact (before x x named named).1 rfl
    · refine List.pairwise_filterMap.2 ((sortBy_sorted recordLt_inLine _).imp_of_mem ?_)
      rintro r q hr hq later a ha b hb ⟨rfl, rfl⟩
      rw [outputOf_eq_some_iff] at ha hb
      obtain ⟨hr, ar⟩ := List.mem_filter.1 ((mem_sortBy _ _ _).1 hr)
      obtain ⟨hq, aq⟩ := List.mem_filter.1 ((mem_sortBy _ _ _).1 hq)
      rw [decide_eq_true_iff] at ar aq
      obtain ⟨apart, order⟩ := before q r ⟨hq, aq, hb⟩ ⟨hr, ar, ha⟩
      have ids : b.val ≠ a.val := fun e => apart (Fin.ext e)
      rw [Bool.eq_false_iff, Ne, recordLt_iff] at later
      unfold RecordOrder at order
      omega
  · refine ⟨Fin.ne_of_lt lt, ?_, .inr ⟨?_, lt⟩⟩
    · refine List.pairwise_of_forall_mem_list ?_
      rintro x - y hy ⟨-, rfl⟩
      obtain ⟨r, hr⟩ := (mem_recordOrder own v y).1 hy
      exact noneD r hr
    · intro hc
      obtain ⟨r, hr⟩ := (mem_recordOrder own v c).1 hc
      exact noneC r hr

/-- A circuit that comes before circuit `c` in the order of a deduction stands nowhere behind it. -/
theorem deductionOrder_of_before {e : Env} {p : Plant} {c d : Fin 6} (h : deductBefore e.own p d c) :
    d ≠ c ∧ ∃ a b, deductionOrder e p = a ++ c :: b ∧ d ∉ b := by
  have listed : ∃ order : List (Fin 6),
      deductionOrder e p = (order ++ sixIds.filter fun x => decide (x ∉ order)) ∧
      d ≠ c ∧ (order.Pairwise fun x y => ¬(x = c ∧ y = d)) ∧ (d ∈ order ∨ c ∉ order ∧ d < c) := by
    unfold deductBefore at h
    unfold deductionOrder
    cases hv : p.alu.division with
    | none =>
      rw [hv] at h
      exact ⟨_, rfl, localBefore_order h⟩
    | some v =>
      rw [hv] at h
      refine ⟨_, rfl, ?_⟩
      dsimp only at h ⊢
      split at h
      · rename_i part
        rw [if_pos part]
        exact recordBefore_order h
      · rename_i part
        rw [if_neg part]
        exact localBefore_order h
  obtain ⟨order, eq, apart, sorted, place⟩ := listed
  refine ⟨apart, no_later (mem_deductionOrder e p c) ?_⟩
  rw [eq]
  exact completed_pairwise sorted place

/-- The grants that stay where only the circuit of the tested output is granted nothing. -/
theorem grantSum_untested {circuit : Option (Fin 6)} {g h : Vector Nat 6}
    (hg : ∀ c : Fin 6, h[c] = if circuit = some c then 0 else g[c]) :
    grantSum h = ((sixIds.filter fun c => decide (circuit ≠ some c)).map fun c => g[c]).sum := by
  unfold grantSum
  generalize sixIds = l
  induction l with
  | nil => rfl
  | cons c l ih =>
    rw [List.map_cons, List.sum_cons, ih, List.filter_cons, hg]
    by_cases hc : circuit = some c
    · simp [hc]
    · simp [hc]

/-- R65: what a test deduction leaves. -/
theorem deductGrants_deducted (e : Env) (p : Plant) (circuit : Option (Fin 6)) (room : Nat)
    (g : Vector Nat 6) :
    Deducted (deductBefore e.own p) circuit room g (deductGrants e p circuit room g) := by
  obtain ⟨-, lowered, tested⟩ := deductGrants_bounds e p circuit room g
  obtain ⟨h, rows, eq⟩ := deductGrants_eq e p circuit room g
  have sum := grantSum_untested rows
  refine ⟨tested, lowered, fun fits c hc => ?_, ?_, fun c d before hd less => ?_⟩
  · rw [eq, show grantSum h - room = 0 by omega, lowerGrants_zero, rows, if_neg hc]
  · have exact' := lowerGrants_exact (deductionOrder e p).reverse (grantSum h - room) h
      (Nat.sub_le _ _) fun c => List.mem_reverse.2 (mem_deductionOrder e p c)
    rw [eq, ← sum]
    omega
  · obtain ⟨apart, a, b, order, notLater⟩ := deductionOrder_of_before before
    have row : h[d] = g[d] := by rw [rows, if_neg hd]
    rw [eq, order, List.reverse_append, List.reverse_cons, List.append_assoc] at less ⊢
    exact lowerGrants_order _ _ _ _ _ _ (by simpa using notLater) apart (row ▸ less)

end Sys2Proof.Machine
end

section
/-! PROOFS. The division of a COMPLETE round (R48, R51 to R57): who takes part, what each address is charged
and gives, and how the records of the participants are served. -/

namespace Sys2Proof.Machine

/-! ### Participants and classes -/

theorem participantBid_eq_some_iff (l : Ledger) (i : Fin 32) (b : BidFrame) :
    participantBid l (i.val + 1) = some b ↔ Participates l i b := by
  unfold participantBid Participates
  rw [bidOf_succ]
  by_cases heard : inSet l.heard (i.val + 1) = true
  · simp only [heard, if_true, Option.filter_eq_some_iff, Bool.and_eq_true, decide_eq_true_iff]
    grind
  · simp [heard]

theorem participantBid_isSome_iff (l : Ledger) (i : Fin 32) :
    (participantBid l (i.val + 1)).isSome = true ↔ ∃ b, Participates l i b := by
  rw [Option.isSome_iff_exists]
  exact exists_congr fun b => participantBid_eq_some_iff l i b

theorem classify_eq_participant_iff (own : Nat) (l : Ledger) (a : Nat) :
    classify own l a = .participant ↔ (participantBid l a).isSome = true := by
  unfold classify
  by_cases part : (participantBid l a).isSome = true
  · simp [part]
  · rw [if_neg part]
    split <;> simp [part]

theorem statusOf_succ (rows : Vector PeerRow 32) (i : Fin 32) :
    statusOf rows (i.val + 1) = some rows[i].status := by
  unfold statusOf
  rw [place_succ]
  rfl

/-- R52: a released address is neither heard nor the own one, and its peer row is RETIRED. -/
theorem classify_eq_released_iff (own : Nat) (l : Ledger) (i : Fin 32) :
    classify own l (i.val + 1) = .released ↔
      inSet l.heard (i.val + 1) = false ∧ i.val + 1 ≠ own ∧ l.rows[i].status = .retired := by
  unfold classify
  rw [statusOf_succ]
  by_cases part : (participantBid l (i.val + 1)).isSome = true
  · obtain ⟨b, heard, -⟩ := (participantBid_isSome_iff l i).1 part
    simp [part, heard]
  · rw [if_neg part]
    simp only [Bool.and_eq_true, Bool.not_eq_true', decide_eq_true_iff, Option.some.injEq, and_assoc]
    split
    · rename_i h
      simp only [h, ne_eq, not_false_eq_true, and_self]
    · rename_i h
      simp only [h, iff_false]
      exact Classification.noConfusion

/-! ### The records of an address -/

/-- A record before the pass over the pool. -/
def beforePool (r : RecEntry) : RecEntry := { r with poolPart := 0 }

/-- What the bid of a participant says of a record. -/
def declared (r : RecEntry) : DemandRecord := ⟨r.circuit, r.cls, r.margin, r.need⟩

theorem recordOrder_of_sorted {l : List RecEntry} (h : l.Pairwise fun a b => recordLt b a = false) :
    l.Pairwise RecordOrder := by
  refine h.imp fun {a b} k => ?_
  rw [Bool.eq_false_iff, Ne, recordLt_iff] at k
  unfold RecordOrder
  omega

theorem filter_eq_of_items {α β : Type} {z : α → β} {p : β → Bool} {l m : List α}
    (h : l.map z = m.map z) : (l.filter (p ∘ z)).map z = (m.filter (p ∘ z)).map z := by
  rw [← List.filter_map, ← List.filter_map, h]

theorem spreadBase_sorted {l : List RecEntry} (base : Nat)
    (h : l.Pairwise fun a b => recordLt b a = false) :
    (spreadBase base l).Pairwise fun a b => recordLt b a = false := by
  have keys : ((spreadBase base l).map fun r => { r with basePart := 0 }).Pairwise
      fun a b => recordLt b a = false := by
    rw [spreadBase_items, List.pairwise_map]
    exact h
  rw [List.pairwise_map] at keys
  exact keys

theorem mem_spreadBase {l : List RecEntry} {base : Nat} {r : RecEntry} (h : r ∈ spreadBase base l) :
    ∃ q ∈ l, r = { q with basePart := r.basePart } := by
  have item := List.mem_map_of_mem (f := fun r : RecEntry => { r with basePart := 0 }) h
  rw [spreadBase_items] at item
  obtain ⟨q, hq, e⟩ := List.mem_map.1 item
  refine ⟨q, hq, ?_⟩
  calc r = { ({ r with basePart := 0 } : RecEntry) with basePart := r.basePart } := rfl
    _ = { ({ q with basePart := 0 } : RecEntry) with basePart := r.basePart } := by rw [← e]
    _ = { q with basePart := r.basePart } := rfl

/-- Every record of an address names it, and no pool has been given to it yet. -/
theorem mem_recordsOf {e : Env} {l : Ledger} {a : Nat} {r : RecEntry} (h : r ∈ recordsOf e l a) :
    r.addr = a ∧ r.poolPart = 0 ∧ (participantBid l a).isSome = true := by
  unfold recordsOf at h
  cases hb : participantBid l a with
  | none =>
    rw [hb] at h
    cases h
  | some b =>
    rw [hb] at h
    obtain ⟨q, hq, eq⟩ := mem_spreadBase h
    obtain ⟨x, -, blank⟩ := List.mem_map.1 ((mem_sortBy _ _ _).1 hq)
    rw [eq, ← blank]
    exact ⟨rfl, rfl, rfl⟩

theorem recordsOf_sorted (e : Env) (l : Ledger) (a : Nat) :
    (recordsOf e l a).Pairwise fun a b => recordLt b a = false := by
  unfold recordsOf
  split
  · exact spreadBase_sorted _ (sortBy_sorted recordLt_inLine _)
  · exact List.Pairwise.nil

/-- The records of a participant are those of its bid. -/
theorem recordsOf_declared {e : Env} {l : Ledger} {a : Nat} {b : BidFrame}
    (h : participantBid l a = some b) : ((recordsOf e l a).map declared).Perm b.records := by
  have unspread : (recordsOf e l a).map declared =
      (sortBy recordLt (b.records.map (blankRecord a))).map declared := by
    unfold recordsOf
    rw [h]
    have items := congrArg (List.map declared)
      (spreadBase_items (sortBy recordLt (b.records.map (blankRecord a))) (baseOf e l a))
    rw [List.map_map, List.map_map] at items
    exact items
  rw [unspread]
  refine ((sortBy_perm recordLt _).map declared).trans (List.Perm.of_eq ?_)
  rw [List.map_map]
  exact List.map_id _

/-- Among the records of all addresses, those that name address `a` are its own. -/
theorem filter_records_of (e : Env) (l : Ledger) {addrs : List Nat} (nodup : addrs.Nodup) (a : Nat) :
    ((addrs.map (recordsOf e l)).flatten.filter fun r => decide (r.addr = a)) =
      if a ∈ addrs then recordsOf e l a else [] := by
  induction addrs with
  | nil => rfl
  | cons x addrs ih =>
    rw [List.nodup_cons] at nodup
    rw [List.map_cons, List.flatten_cons, List.filter_append, ih nodup.2]
    by_cases hx : x = a
    · subst hx
      rw [List.filter_eq_self.2 fun r hr => by simp [(mem_recordsOf hr).1], if_neg nodup.1,
        if_pos List.mem_cons_self, List.append_nil]
    · rw [List.filter_eq_nil_iff.2 fun r hr => by simp [(mem_recordsOf hr).1, hx], List.nil_append]
      simp only [List.mem_cons, Ne.symm hx, false_or]

theorem mem_configuredAddresses (e : Env) (a : Nat) :
    a ∈ configuredAddresses e ↔ 1 ≤ a ∧ a ≤ e.img.stations := by
  unfold configuredAddresses
  rw [List.mem_range'_1]
  omega

/-- A configured address is one of a place in the peer table. -/
theorem place_of_configured {e : Env} {a : Nat} (h : a ∈ configuredAddresses e)
    (few : e.img.stations ≤ 32) : ∃ i : Fin 32, a = i.val + 1 := by
  rw [mem_configuredAddresses] at h
  exact exists_place a ⟨h.1, h.2.trans few⟩

/-- All records of a division, before the pass over the pool. -/
def allRecords (e : Env) (l : Ledger) : List RecEntry :=
  sortBy recordLt ((configuredAddresses e).map (recordsOf e l)).flatten

theorem divide_records (e : Env) (l : Ledger) :
    (divide e l).records = poolPass (divide e l).poolTotal (allRecords e l) := rfl

theorem divide_records_beforePool (e : Env) (l : Ledger) :
    (divide e l).records.map beforePool = (allRecords e l).map beforePool :=
  poolPass_items _ _

/-- The records of a configured address in a division are those of its bid, its base spread over them. -/
theorem divide_records_of (e : Env) (l : Ledger) {a : Nat} (h : a ∈ configuredAddresses e) :
    ((divide e l).records.filter fun r => decide (r.addr = a)).map beforePool = recordsOf e l a := by
  have chosen : (allRecords e l).filter (fun r => decide (r.addr = a)) = recordsOf e l a := by
    unfold allRecords
    have nodup : (configuredAddresses e).Nodup := List.nodup_range' ..
    rw [sortBy_filter recordLt_inLine, filter_records_of e l nodup, if_pos h]
    exact sortBy_of_sorted _ _ (recordsOf_sorted e l a)
  calc ((divide e l).records.filter fun r => decide (r.addr = a)).map beforePool
      = ((allRecords e l).filter fun r => decide (r.addr = a)).map beforePool :=
        filter_eq_of_items (p := fun r : RecEntry => decide (r.addr = a)) (divide_records_beforePool e l)
    _ = recordsOf e l a := by
        rw [chosen]
        refine (List.map_congr_left fun r hr => ?_).trans (List.map_id _)
        show beforePool r = r
        rw [beforePool, ← (mem_recordsOf hr).2.1]

/-- Every record of a division is one of a participant among the configured addresses. -/
theorem mem_divide_records {e : Env} {l : Ledger} {r : RecEntry} (h : r ∈ (divide e l).records) :
    r.addr ∈ configuredAddresses e ∧ (participantBid l r.addr).isSome = true := by
  have item := List.mem_map_of_mem (f := beforePool) h
  rw [divide_records_beforePool] at item
  obtain ⟨q, hq, eq⟩ := List.mem_map.1 item
  obtain ⟨rs, hrs, mem⟩ := List.mem_flatten.1 ((mem_sortBy _ _ _).1 hq)
  obtain ⟨a, ha, rfl⟩ := List.mem_map.1 hrs
  obtain ⟨addr, -, part⟩ := mem_recordsOf mem
  have same : r.addr = a := (congrArg RecEntry.addr eq).symm.trans addr
  rw [same]
  exact ⟨ha, part⟩

/-- R57: no record of a division is granted more than its need. -/
theorem divide_grant_le (e : Env) (l : Ledger) {r : RecEntry} (h : r ∈ (divide e l).records) :
    r.grant ≤ r.need := by
  refine (poolPass_bounds (allRecords e l) _).2.2 (fun q hq => ?_) r h
  obtain ⟨rs, hrs, mem⟩ := List.mem_flatten.1 ((mem_sortBy _ _ _).1 hq)
  obtain ⟨a, -, rfl⟩ := List.mem_map.1 hrs
  exact (recordsOf_bounds e l a).2 q mem

/-! ### The division -/

/-- The entry of an address in a division. -/
def entryOf (e : Env) (l : Ledger) (a : Nat) : AddrEntry where
  addr := a
  cls := classify e.own l a
  charge := if classify e.own l a = .charged then e.share a else 0
  base := baseOf e l a
  poolPart := poolPartOf (divide e l).records a

theorem divide_entries (e : Env) (l : Ledger) :
    (divide e l).entries = (configuredAddresses e).map (entryOf e l) := rfl

theorem mem_divide_entries {e : Env} {l : Ledger} {x : AddrEntry} (h : x ∈ (divide e l).entries) :
    x.addr ∈ configuredAddresses e ∧ x = entryOf e l x.addr := by
  rw [divide_entries] at h
  obtain ⟨a, ha, rfl⟩ := List.mem_map.1 h
  exact ⟨ha, rfl⟩

theorem baseOf_participant {e : Env} {l : Ledger} {i : Fin 32} {b : BidFrame} (h : Participates l i b) :
    baseOf e l (i.val + 1) = min (e.share (i.val + 1)) (bidNeed b) := by
  unfold baseOf
  rw [(participantBid_eq_some_iff l i b).2 h]

theorem baseOf_other {e : Env} {l : Ledger} {a : Nat} (h : classify e.own l a ≠ .participant) :
    baseOf e l a = 0 := by
  unfold baseOf
  rw [Ne, classify_eq_participant_iff, Bool.not_eq_true, Option.isSome_eq_false_iff,
    Option.isNone_iff_eq_none] at h
  rw [h]

/-- R51 to R56: what a division is. -/
theorem divide_dividedBy (e : Env) (l : Ledger) (few : e.img.stations ≤ 32) :
    DividedBy e l (divide e l) where
  heard := rfl
  addresses := by
    rw [divide_entries, List.map_map]
    exact List.map_id _
  classified i x hx ha := by
    obtain ⟨-, eq⟩ := mem_divide_entries hx
    have cls : x.cls = classify e.own l (i.val + 1) := by rw [eq, ← ha]; rfl
    rw [cls, ha]
    exact ⟨(classify_eq_participant_iff _ _ _).trans (participantBid_isSome_iff l i),
      classify_eq_released_iff e.own l i⟩
  amounts i x hx ha := by
    obtain ⟨-, eq⟩ := mem_divide_entries hx
    refine ⟨by rw [eq]; rfl, fun b part => ?_, fun other => ?_, by rw [eq]; rfl⟩
    · rw [eq, ha]
      exact baseOf_participant part
    · rw [eq] at other ⊢
      exact baseOf_other other
  pool := by
    rw [divide_entries, List.map_map]
    rfl
  poolLeft := rfl
  recorded i b part inside := by
    have configured := (mem_configuredAddresses e (i.val + 1)).2 ⟨by omega, inside⟩
    have items := congrArg (List.map declared) (divide_records_of e l configured)
    rw [List.map_map] at items
    show (List.map (declared ∘ beforePool) _).Perm _
    rw [items]
    exact recordsOf_declared ((participantBid_eq_some_iff l i b).2 part)
  ofParticipant r hr := by
    obtain ⟨configured, part⟩ := mem_divide_records hr
    obtain ⟨i, addr⟩ := place_of_configured configured few
    rw [addr] at part
    obtain ⟨b, part⟩ := (participantBid_isSome_iff l i).1 part
    exact ⟨i, b, addr, ((mem_configuredAddresses e _).1 configured).2, part⟩
  ordered := by
    have sorted := recordOrder_of_sorted
      (sortBy_sorted recordLt_inLine ((configuredAddresses e).map (recordsOf e l)).flatten)
    have items : ((divide e l).records.map beforePool).Pairwise RecordOrder := by
      rw [divide_records_beforePool, List.pairwise_map]
      exact sorted
    rw [List.pairwise_map] at items
    exact items
  basePart i b before after r part split addr := by
    have configured : i.val + 1 ∈ configuredAddresses e := by
      rw [← addr]
      exact (mem_divide_records (by rw [split]; simp)).1
    have own := divide_records_of e l configured
    rw [split, List.filter_append, List.filter_cons, if_pos (by simp [addr]), List.map_append,
      List.map_cons] at own
    have spread : recordsOf e l (i.val + 1) = spreadBase (baseOf e l (i.val + 1))
        (sortBy recordLt (b.records.map (blankRecord (i.val + 1)))) := by
      unfold recordsOf
      rw [(participantBid_eq_some_iff l i b).2 part]
    have part' := spreadBase_part _ _ _ _ _ (spread.symm.trans own.symm)
    rw [List.map_map, baseOf_participant part] at part'
    rw [addr]
    exact part'
  poolPart before after r split := poolPass_part _ _ _ _ _ split

/-! ### Participation and the own records -/

theorem isParticipant_divide_iff (e : Env) (l : Ledger) (first : 1 ≤ e.own)
    (inside : e.own ≤ e.img.stations) (few : e.img.stations ≤ 32) :
    isParticipant e.own (divide e l) = true ↔
      ∃ (i : Fin 32) (b : BidFrame), i.val + 1 = e.own ∧ Participates l i b := by
  have configured := (mem_configuredAddresses e e.own).2 ⟨first, inside⟩
  obtain ⟨i, own⟩ := place_of_configured configured few
  have listed : isParticipant e.own (divide e l) = true ↔ classify e.own l e.own = .participant := by
    unfold isParticipant
    simp only [List.any_eq_true, Bool.and_eq_true, decide_eq_true_iff]
    constructor
    · rintro ⟨x, hx, addr, cls⟩
      rw [(mem_divide_entries hx).2, addr] at cls
      exact cls
    · intro cls
      refine ⟨entryOf e l e.own, ?_, rfl, cls⟩
      rw [divide_entries]
      exact List.mem_map_of_mem configured
  rw [listed, classify_eq_participant_iff, own, participantBid_isSome_iff]
  constructor
  · rintro ⟨b, part⟩
    exact ⟨i, b, rfl, part⟩
  · rintro ⟨j, b, place, part⟩
    obtain rfl : j = i := Fin.ext (by omega)
    exact ⟨b, part⟩

theorem recordGrants_get (own : Nat) (d : Division) (c : Fin 6) : (recordGrants own d)[c] =
    ((d.records.filter fun r => decide (r.addr = own ∧ r.circuit = c.val + 1)).map fun r =>
      r.basePart + r.poolPart).sum := by
  have row : (recordGrants own d)[c] =
      (((ownRecords own d).filter fun r => decide (r.circuit = c.val + 1)).map RecEntry.grant).sum := by
    simp [recordGrants]
  rw [row]
  unfold ownRecords
  rw [List.filter_filter]
  refine congrArg (fun l => (l.map RecEntry.grant).sum) (List.filter_congr fun r _ => ?_)
  rw [Bool.decide_and, Bool.and_comm]

/-- R48: the share of a configured address. -/
theorem shareOf_configured (m : Image) (a : Nat) (h : 1 ≤ a ∧ a ≤ m.stations) : shareOf m a =
    (m.budget - (m.reserve1.2 + m.reserve2.2)) / m.stations +
      (if m.reserve1.1 = a then m.reserve1.2 else 0) +
      if m.reserve2.1 = a then m.reserve2.2 else 0 := by
  unfold shareOf
  rw [if_pos h]
  rfl

/-- R53, R54: each share is charged, or is a base and a part of the pool. -/
theorem divide_shares (e : Env) (l : Ledger) :
    ((divide e l).entries.map AddrEntry.charge).sum + ((divide e l).entries.map AddrEntry.base).sum +
        (divide e l).poolTotal =
      ((List.range' 1 e.img.stations).map e.share).sum := by
  let addrs := configuredAddresses e
  let charge (a : Nat) : Nat := if classify e.own l a = .charged then e.share a else 0
  have charges : (divide e l).entries.map AddrEntry.charge = addrs.map charge := by
    rw [divide_entries, List.map_map]
    rfl
  have bases : (divide e l).entries.map AddrEntry.base = addrs.map (baseOf e l) := by
    rw [divide_entries, List.map_map]
    rfl
  calc ((divide e l).entries.map AddrEntry.charge).sum +
        ((divide e l).entries.map AddrEntry.base).sum + (divide e l).poolTotal
      = (addrs.map charge).sum + (addrs.map (baseOf e l)).sum + (addrs.map (poolShare e l)).sum := by
        rw [charges, bases]
        rfl
    _ = (addrs.map e.share).sum := by
        rw [← sum_map_add, ← sum_map_add]
        exact congrArg List.sum (List.map_congr_left fun a _ => share_parts e l a)

/-- Settles O53: the division item by item, and the shares as the sum of its parts. -/
theorem chargesBasesAndPoolSumToShares : Obligations.ChargesBasesAndPoolSumToShares :=
  ⟨fun m a first inside => shareOf_configured m a ⟨first, inside⟩, fun _ _ => rfl, divide_dividedBy,
    fun e l _ => ⟨divide_shares e l, fun _ => rfl⟩⟩

end Sys2Proof.Machine
end

section
/-! PROOFS. The grants and the loads stay within the own allotment, right after reset and after every step
(R50, R65, R66, R89). -/

namespace Sys2Proof.Machine

/-! ### What a computation grants -/

/-- The own allotment of a computation other than a COMPLETE one is at most the share (R60, R61, R63, R64). -/
theorem allotTable_own_le_share (e : Env) (round : Option RoundNo) (x : Computation)
    (kind : (allotTable e round x).kind ≠ .complete) : (allotTable e round x).own ≤ e.share e.own := by
  cases x with
  | complete l => exact absurd rfl kind
  | degraded unsettled =>
    show capAmount e (degradedCap e unsettled) ≤ e.share e.own
    cases degradedCap e unsettled with
    | share => exact le_rfl
    | declared n => exact Nat.min_le_left _ _
    | unsettled => exact Nat.zero_le _
  | capped => exact le_rfl
  | noAllot => exact Nat.zero_le _

theorem allotTable_grants_le (e : Env) (round : Option RoundNo) (x : Computation) (p : Plant) :
    grantSum (grantsByKind e { p with alu := allotTable e round x }) ≤ (allotTable e round x).own :=
  grantsByKind_spent e _ (allotTable_records e round x)

theorem grantsByKind_participant {e : Env} {p : Plant} {d : Division} (table : p.alu.division = some d)
    (part : isParticipant e.own d = true) : grantsByKind e p = recordGrants e.own d := by
  unfold grantsByKind
  rw [table]
  exact if_pos part

theorem grantsByKind_spread {e : Env} {p : Plant}
    (other : ∀ d, p.alu.division = some d → isParticipant e.own d = false) :
    grantsByKind e p = localSpread p p.alu.own := by
  unfold grantsByKind
  cases table : p.alu.division with
  | none => rfl
  | some d => exact if_neg (by simp [other d table])

/-! ### The grants in force -/

theorem JustReset.spent {D R : Prop} {s : State} (h : JustReset s) : Spent D R s.env s.plant :=
  reset_spent s.env s.plant h.cct h.alu h.test

theorem grantsHeld_iff (s : State) :
    GrantsHeld s ↔ HeldInReset s ∧ Spent False False s.env s.plant :=
  ⟨fun h => ⟨h.reset, h.sum, h.records, False.elim, False.elim⟩,
    fun ⟨held, h⟩ => ⟨held, h.sum, h.records⟩⟩

theorem grantsHeld_reset : GrantsHeld State.reset :=
  (grantsHeld_iff _).mpr ⟨heldInReset_reset, justReset_reset.spent⟩

theorem grantsHeld_step {s t : State} (h : GrantsHeld s) (taken : step s = .next t) : GrantsHeld t := by
  rw [grantsHeld_iff] at h ⊢
  exact step_keeps_reset (I := fun s => Spent False False s.env s.plant) (fun _ _ hs => hs)
    (fun _ hs => hs.spent) (fun _ _ hs m => move_spent m False.elim False.elim hs) h.1 h.2 taken

/-! ### The loads -/

/-- A station that follows rounds has a firing window (R189). -/
def HasWindow (s : State) : Prop := s.rct.membership.follows = true → 0 < s.img.window

theorem move_window {s t : State} (m : Move s t) (outputs : OutputsKept s) (h : HasWindow s) :
    HasWindow t := by
  cases m with
  | alike _ same =>
    intro follows
    rw [same.follows] at follows
    have img : t.img = s.img := by
      unfold State.img
      rw [same.read (outputs.following follows).1]
    rw [img]
    exact h follows
  | plant _ => exact h
  | listen u _ passes _ => exact fun _ => (imagePasses_limits passes).2
  | blocked u _ _ => exact fun follows => nomatch follows
  | retired _ => exact fun follows => nomatch follows
  | restart => exact fun follows => nomatch follows

/-- What keeps the loads within the allotment along every step: the outputs in order, the grants and duties,
no output bound before the image is read, and a firing window wherever rounds are followed. -/
structure LoadsInOrder (s : State) : Prop where
  outputs : OutputsKept s
  spent : Spent True True s.env s.plant
  unread : UnboundUntilRead s
  window : HasWindow s

theorem JustReset.loadsInOrder {s : State} (h : JustReset s) : LoadsInOrder s :=
  ⟨h.outputsKept, h.spent, h.unboundUntilRead, fun follows => by rw [h.idle] at follows; cases follows⟩

theorem LoadsInOrder.queue {s : State} (h : LoadsInOrder s) (l : List Instr) :
    LoadsInOrder { s with pending := l } :=
  ⟨h.outputs.queue l, h.spent, h.unread, h.window⟩

theorem LoadsInOrder.move {s t : State} (h : LoadsInOrder s) (m : Move s t) : LoadsInOrder t where
  outputs := move_outputs m h.outputs
  spent :=
    have unbound (unread : s.sul.progress ≠ .done) (c : Fin 6) : s.plant.ogd.ratedOf c = 0 :=
      ratedOf_unbound fun o bound => nomatch ((h.unread unread).1 o).symm.trans bound
    move_spent m (fun _ => unbound) (fun _ bids => h.window (Membership.follows_of_bids bids)) h.spent
  unread := move_unread m h.outputs h.unread
  window := move_window m h.outputs h.window

theorem loadsHeld_iff (s : State) : LoadsHeld s ↔ HeldInReset s ∧ LoadsInOrder s := by
  constructor
  · intro h
    obtain ⟨held, kept⟩ := (outputsSafe_iff s).mp h.outputs
    exact ⟨held, kept, ⟨h.grants.sum, h.grants.records, fun _ => h.duty, fun _ => h.tested⟩, h.unread,
      h.window⟩
  · rintro ⟨held, h⟩
    exact ⟨(outputsSafe_iff s).mpr ⟨held, h.outputs⟩, ⟨held, h.spent.sum, h.spent.records⟩, h.unread,
      h.window, h.spent.duty trivial, h.spent.room trivial⟩

theorem loadsHeld_reset : LoadsHeld State.reset :=
  (loadsHeld_iff _).mpr ⟨heldInReset_reset, justReset_reset.loadsInOrder⟩

theorem loadsHeld_step {s t : State} (h : LoadsHeld s) (taken : step s = .next t) : LoadsHeld t := by
  rw [loadsHeld_iff] at h ⊢
  exact step_keeps_reset (fun _ l hs => hs.queue l) (fun _ hs => hs.loadsInOrder)
    (fun _ _ hs m => hs.move m) h.1 h.2 taken

/-- The duty-weighted rated loads of the circuits are at most their grants over a window (R89). -/
theorem LoadsHeld.drawn_le {s : State} (h : LoadsHeld s) :
    (sixIds.map fun c => s.plant.ogd.ratedOf c * s.plant.cct[c].onTime).sum ≤
      grantSum (grantsInForce s.plant) * (s.img.window * 1000) := by
  have grants : grantSum (grantsInForce s.plant) * (s.img.window * 1000) =
      (sixIds.map fun c => s.plant.cct[c].grant * (s.img.window * 1000)).sum := by
    unfold grantSum
    rw [← List.sum_map_mul_right]
    exact congrArg List.sum (List.map_congr_left fun c _ => by simp [grantsInForce])
  rw [grants]
  exact List.sum_le_sum fun c _ => h.duty c

/-- Settles O55: the spread, the deduction and a computation by their own rules, and the invariants of the
grants and of the loads by induction along the moves of a step. -/
theorem grantsStayWithinNeedAndAllotment : Obligations.GrantsStayWithinNeedAndAllotment := by
  refine ⟨localSpread_spreadOf, ⟨isParticipant_divide_iff, recordGrants_get, fun e p =>
      ⟨fun d => grantsByKind_participant, grantsByKind_spread⟩⟩,
    ⟨fun e l r => divide_grant_le e l, fun p amount => (localSpread_bounds p amount).symm⟩,
    fun e round x p => ⟨allotTable_grants_le e round x p, allotTable_own_le_share e round x⟩,
    deductGrants_deducted, ⟨grantsHeld_reset, fun s t => grantsHeld_step⟩,
    ⟨loadsHeld_reset, fun s t => loadsHeld_step⟩, fun s h => ⟨?_, fun t ht => ?_⟩⟩
  · exact h.drawn_le.trans (Nat.mul_le_mul_right _ h.grants.sum)
  · have room := Nat.mul_le_mul_right (s.img.window * 1000) (h.tested t ht)
    rw [Nat.add_mul] at room
    exact (Nat.add_le_add_right h.drawn_le _).trans room

end Sys2Proof.Machine
end

section
/-! PROOFS. The step, the values right after reset and the station's own time: which events are due, and
what one millisecond counts (log entries 1 and 2; R84, R119, R125, R129, R185). -/

namespace Sys2Proof.Machine

/-- Settles O1: the step is the command at the front of the queue. -/
theorem stepTakesFrontCommand : Obligations.StepTakesFrontCommand := by
  intro c rest s queue
  unfold step
  rw [queue]

/-! ### The values after reset -/

theorem replicate_get {α : Type} {n : Nat} (a : α) (i : Fin n) : (Vector.replicate n a)[i] = a := by
  simp

/-- Settles O3: each table is one of equal rows, and every other item is its reset value. -/
theorem resetLeavesTableValues : Obligations.ResetLeavesTableValues :=
  ⟨rfl, rfl, fun i => replicate_get _ i, fun i => ⟨replicate_get _ i, replicate_get _ i⟩, rfl, rfl, rfl,
    rfl, fun c => replicate_get _ c, fun t => replicate_get _ t, rfl, fun o => replicate_get _ o,
    fun c => replicate_get _ c, rfl, rfl, rfl, fun i => replicate_get _ i, rfl, rfl, rfl, rfl, rfl⟩

/-! ### The need below a setpoint -/

/-- A division rounded up is the least multiple that covers the dividend. -/
theorem ceilDiv_bounds (a : Nat) {b : Nat} (h : 0 < b) : a ≤ ceilDiv a b * b ∧ ceilDiv a b * b < a + b := by
  unfold ceilDiv
  have below := Nat.div_mul_le_self (a + (b - 1)) b
  have above := Nat.lt_div_mul_add (a := a + (b - 1)) h
  omega

theorem le_ceilDiv {a b n : Nat} (hb : 0 < b) (h : n * b ≤ a) : n ≤ ceilDiv a b :=
  Nat.le_of_mul_le_mul_right (h.trans (ceilDiv_bounds a hb).1) hb

theorem ceilDiv_le {a b n : Nat} (hb : 0 < b) (h : a ≤ n * b) : ceilDiv a b ≤ n := by
  have above := (ceilDiv_bounds a hb).2
  by_contra more
  have step : (n + 1) * b ≤ ceilDiv a b * b := Nat.mul_le_mul_right b (by omega)
  rw [Nat.add_mul, Nat.one_mul] at step
  omega

/-- Settles O42: the need in natural numbers is a division rounded up, cut at the rated load. -/
theorem needIsProportional : Obligations.NeedIsProportional := by
  intro rated sp x band positive
  obtain ⟨b, rfl⟩ := Int.eq_ofNat_of_zero_le positive.le
  have hb : 0 < b := by omega
  by_cases above : sp ≤ x
  · have need : regulatedNeed rated sp x b = 0 := if_pos above
    rw [need]
    exact ⟨Nat.zero_le _, fun _ => rfl, fun h => by omega, fun h => by omega⟩
  · obtain ⟨d, gap⟩ := Int.eq_ofNat_of_zero_le (a := sp - x) (by omega)
    have need : regulatedNeed rated sp x b = min rated (ceilDiv (rated * d) b) := by
      unfold regulatedNeed
      rw [if_neg above, gap]
      rfl
    rw [need, gap]
    refine ⟨Nat.min_le_left _ _, fun h => absurd h above, fun far => ?_, fun _ near => ?_⟩
    · exact Nat.min_eq_left (le_ceilDiv hb (Nat.mul_le_mul_left rated (by omega)))
    · rw [Nat.min_eq_right (ceilDiv_le hb (Nat.mul_le_mul_left rated (by omega)))]
      exact_mod_cast ceilDiv_bounds (rated * d) hb

/-! ### The events that are due -/

theorem mem_ite_singleton {α : Type} (b : Prop) [Decidable b] (x y : α) :
    x ∈ (if b then [y] else []) ↔ b ∧ x = y := by
  split <;> simp_all

theorem filterDue_iff (width : Nat) (f : Filter) : filterDue width f = true ↔
    ∃ l k, f.level = some l ∧ f.held = some k ∧ width ≤ k := by
  unfold filterDue
  cases f.level <;> cases f.held <;> simp

theorem underTest_eq_false_iff (g : Ogd) (o : Fin 6) :
    g.underTest o = false ↔ ∀ t, g.test = some t → t.output ≠ o := by
  unfold Ogd.underTest
  cases g.test <;> simp

theorem onTimeDue_iff (s : State) (c : Fin 6) : onTimeDue s c = true ↔
    ∃ o, s.plant.ogd.boundTo c = some o ∧ s.plant.ogd.outputs[o].energized = true ∧
      (∀ t, s.plant.ogd.test = some t → t.output ≠ o) ∧
      s.plant.cct[c].onTime ≤
        s.img.window * 1000 - s.plant.cct[c].toNext.getD (s.img.window * 1000) := by
  unfold onTimeDue
  cases bound : s.plant.ogd.boundTo c with
  | none => simp
  | some o =>
    simp only [Bool.and_eq_true, Bool.not_eq_true', underTest_eq_false_iff, decide_eq_true_iff,
      Option.some.injEq, exists_eq_left', and_assoc]
    rfl

theorem testDue_iff (s : State) : testDue s = true ↔
    ∃ t, s.plant.ogd.test = some t ∧ t.startedAt + t.duration * 1000 ≤ s.now := by
  unfold testDue
  cases s.plant.ogd.test <;> simp

theorem retryDue_iff (s : State) : retryDue s = true ↔ ∃ k a, s.sul.progress = .reading k a (some 0) := by
  unfold retryDue
  split <;> simp_all

theorem gapDue_iff (l : Lif) : gapDue l = true ↔ l.receiver = .receiving ∧ ∃ t, l.idle = some t ∧ 2 < t := by
  unfold gapDue Config.frameGap
  cases l.idle <;> simp

theorem deferenceDue_contender {s : State} (h : deferenceDue s = true) :
    ∃ n, contender s.lif = some n := by
  cases hc : contender s.lif with
  | some n => exact ⟨n, rfl⟩
  | none => simp [deferenceDue, hc] at h

theorem mem_circuitDue (s : State) (c : Fin 6) (x : Instr) : x ∈ circuitDue s c ↔
    (onTimeDue s c = true ∧ x = .onTimeElapsed c) ∨
      (s.plant.cct[c].toNext = some 0 ∧ x = .windowStart c) ∨
      (s.plant.cct[c].settle = .due ∧ x = .settleTimerExpiry c) ∨
      ((0 < s.plant.ogd.trips[c].count ∧ s.img.tripClear * 60 ≤ s.plant.ogd.trips[c].seconds) ∧
        x = .tripClearTimeReached c) := by
  unfold circuitDue
  simp only [List.mem_append, mem_ite_singleton, Bool.and_eq_true, decide_eq_true_iff, or_assoc]

theorem mem_outputDue (s : State) (o : Fin 6) (x : Instr) : x ∈ outputDue s o ↔
    (filterDue s.img.glitchLeakage s.plant.ogd.outputs[o].leakage = true ∧
        x = .leakageFilteredChange o (decide (s.img.leakThreshold ≤ s.pins.leakage[o]))) ∨
      (filterDue s.img.glitchLimit s.plant.ogd.outputs[o].limit = true ∧
        x = .limitFilteredChange o s.pins.limitOpen[o]) ∨
      ((s.plant.ogd.outputs[o].energized = true ∧ 100 ≤ s.plant.ogd.outputs[o].periodMs ∧
          125 * (s.plant.ogd.outputs[o].rated * 10) < 100 * s.plant.ogd.outputs[o].measured) ∧
        x = .overloadDetected o s.plant.ogd.outputs[o].measured) ∨
      (s.plant.ogd.outputs[o].holdOff = some 0 ∧ x = .holdOffExpiry o) := by
  unfold outputDue overloaded
  simp only [List.mem_append, mem_ite_singleton, Bool.and_eq_true, decide_eq_true_iff, or_assoc,
    and_assoc, gt_iff_lt]
  rfl

theorem mem_stationDue (s : State) (x : Instr) : x ∈ stationDue s ↔
    (testDue s = true ∧ x = .testDurationExpiry) ∨
      (filterDue s.img.glitchFlow s.plant.ogd.flow = true ∧ x = .flowFilteredChange s.pins.flow) ∨
      (s.rct.roundTimer = some 0 ∧ x = .roundTimerExpiry) ∨
      ((s.rct.listenTimer = some 0 ∧ s.rct.membership = .listen) ∧ x = .listenTimerExpiry) ∨
      (retryDue s = true ∧ x = .attemptRetryDelayExpiry) ∨
      (gapDue s.lif = true ∧ x = .frameGapTimeout) ∨ (deferenceDue s = true ∧ x = .deferenceExpiry) := by
  unfold stationDue
  simp only [List.mem_append, mem_ite_singleton, Bool.and_eq_true, decide_eq_true_iff, or_assoc]

theorem mem_dueEvents (s : State) (x : Instr) : x ∈ dueEvents s ↔
    (∃ c, x ∈ circuitDue s c) ∨ (∃ o, x ∈ outputDue s o) ∨ x ∈ stationDue s := by
  unfold dueEvents
  simp only [List.mem_append, List.mem_flatMap, mem_sixIds, true_and, or_assoc]

theorem due_of_circuitDue {s : State} {c : Fin 6} {x : Instr} (h : x ∈ circuitDue s c) : Due s x := by
  rw [mem_circuitDue] at h
  rcases h with ⟨due, rfl⟩ | ⟨due, rfl⟩ | ⟨due, rfl⟩ | ⟨⟨counted, due⟩, rfl⟩
  · obtain ⟨o, bound, on, untested, passed⟩ := (onTimeDue_iff s c).mp due
    exact .onTime c o bound on untested passed
  · exact .windowStart c due
  · exact .settleTimer c due
  · exact .tripClear c counted due

theorem due_of_outputDue {s : State} {o : Fin 6} {x : Instr} (h : x ∈ outputDue s o) : Due s x := by
  rw [mem_outputDue] at h
  rcases h with ⟨due, rfl⟩ | ⟨due, rfl⟩ | ⟨⟨on, lasting, heavy⟩, rfl⟩ | ⟨due, rfl⟩
  · obtain ⟨l, k, level, held, wide⟩ := (filterDue_iff _ _).mp due
    exact .leakage o l k level held wide
  · obtain ⟨l, k, level, held, wide⟩ := (filterDue_iff _ _).mp due
    exact .limit o l k level held wide
  · exact .overload o on lasting heavy
  · exact .holdOff o due

theorem due_of_stationDue {s : State} {x : Instr} (h : x ∈ stationDue s) : Due s x := by
  rw [mem_stationDue] at h
  rcases h with ⟨due, rfl⟩ | ⟨due, rfl⟩ | ⟨due, rfl⟩ | ⟨⟨due, listen⟩, rfl⟩ | ⟨due, rfl⟩ | ⟨due, rfl⟩ |
    ⟨due, rfl⟩
  · obtain ⟨t, test, passed⟩ := (testDue_iff s).mp due
    exact .testDuration t test passed
  · obtain ⟨l, k, level, held, wide⟩ := (filterDue_iff _ _).mp due
    exact .flow l k level held wide
  · exact .roundTimer due
  · exact .listenTimer due listen
  · obtain ⟨k, a, progress⟩ := (retryDue_iff s).mp due
    exact .retry k a progress
  · obtain ⟨receiving, t, idle, long⟩ := (gapDue_iff s.lif).mp due
    exact .frameGap t receiving idle long
  · obtain ⟨n, contends⟩ := deferenceDue_contender due
    obtain ⟨silent, free, t, idle, passed⟩ := (deferenceDue_iff contends).mp due
    exact .deference n t contends silent free idle passed

theorem mem_dueEvents_iff (s : State) (x : Instr) : x ∈ dueEvents s ↔ Due s x := by
  constructor
  · intro h
    rcases (mem_dueEvents s x).mp h with ⟨c, h⟩ | ⟨o, h⟩ | h
    · exact due_of_circuitDue h
    · exact due_of_outputDue h
    · exact due_of_stationDue h
  · have circuit (c : Fin 6) {y : Instr} (h) : y ∈ dueEvents s :=
      (mem_dueEvents s y).mpr (.inl ⟨c, (mem_circuitDue s c y).mpr h⟩)
    have output (o : Fin 6) {y : Instr} (h) : y ∈ dueEvents s :=
      (mem_dueEvents s y).mpr (.inr (.inl ⟨o, (mem_outputDue s o y).mpr h⟩))
    have station {y : Instr} (h) : y ∈ dueEvents s :=
      (mem_dueEvents s y).mpr (.inr (.inr ((mem_stationDue s y).mpr h)))
    intro h
    cases h with
    | windowStart c h => exact circuit c (.inr (.inl ⟨h, rfl⟩))
    | onTime c o hb he ht hp =>
      exact circuit c (.inl ⟨(onTimeDue_iff s c).mpr ⟨o, hb, he, ht, hp⟩, rfl⟩)
    | settleTimer c h => exact circuit c (.inr (.inr (.inl ⟨h, rfl⟩)))
    | tripClear c h0 h => exact circuit c (.inr (.inr (.inr ⟨⟨h0, h⟩, rfl⟩)))
    | leakage o l k hl hk h =>
      exact output o (.inl ⟨(filterDue_iff _ _).mpr ⟨l, k, hl, hk, h⟩, rfl⟩)
    | limit o l k hl hk h =>
      exact output o (.inr (.inl ⟨(filterDue_iff _ _).mpr ⟨l, k, hl, hk, h⟩, rfl⟩))
    | overload o he hp h => exact output o (.inr (.inr (.inl ⟨⟨he, hp, h⟩, rfl⟩)))
    | holdOff o h => exact output o (.inr (.inr (.inr ⟨h, rfl⟩)))
    | testDuration t ht h => exact station (.inl ⟨(testDue_iff s).mpr ⟨t, ht, h⟩, rfl⟩)
    | flow l k hl hk h =>
      exact station (.inr (.inl ⟨(filterDue_iff _ _).mpr ⟨l, k, hl, hk, h⟩, rfl⟩))
    | roundTimer h => exact station (.inr (.inr (.inl ⟨h, rfl⟩)))
    | listenTimer h hm => exact station (.inr (.inr (.inr (.inl ⟨⟨h, hm⟩, rfl⟩))))
    | retry k a h =>
      exact station (.inr (.inr (.inr (.inr (.inl ⟨(retryDue_iff s).mpr ⟨k, a, h⟩, rfl⟩)))))
    | frameGap t hr hi h =>
      exact station (.inr (.inr (.inr (.inr (.inr (.inl
        ⟨(gapDue_iff s.lif).mpr ⟨hr, t, hi, h⟩, rfl⟩))))))
    | deference n t hn hs hr hi h =>
      exact station (.inr (.inr (.inr (.inr (.inr (.inr
        ⟨(deferenceDue_iff hn).mpr ⟨hs, hr, t, hi, h⟩, rfl⟩))))))

/-! ### One millisecond -/

theorem step_of_due {s : State} (queue : s.pending = []) {c : Instr} {l : List Instr}
    (due : dueEvents s = c :: l) : step s = .next { s with pending := [c] } := by
  unfold step idleStep
  rw [queue, due]

theorem step_of_idle {s : State} (queue : s.pending = []) (due : dueEvents s = []) :
    step s = .next (tick s) := by
  unfold step idleStep
  rw [queue, due]

theorem tickPlant_circuit (e : Env) (p : Plant) (c : Fin 6) :
    (tickPlant e p).cct[c] = { p.cct[c] with toNext := countDown p.cct[c].toNext } :=
  mapRows_get p.cct _ c

theorem tickPlant_output (e : Env) (p : Plant) (o : Fin 6) :
    (tickPlant e p).ogd.outputs[o] = tickOutput e o p.ogd.outputs[o] :=
  mapRows_get p.ogd.outputs _ o

theorem tickPlant_trip (e : Env) (p : Plant) (c : Fin 6) :
    (tickPlant e p).ogd.trips[c] = tickTrip p.ogd c p.ogd.trips[c] :=
  mapRows_get p.ogd.trips _ c

/-- What one millisecond does to the counts of an output row, on or off. -/
def timedRow (r : OutputRow) : OutputRow :=
  { r with
    leakage := tickFilter r.leakage, limit := tickFilter r.limit, holdOff := countDown r.holdOff }

theorem tickOutput_off (e : Env) (o : Fin 6) (r : OutputRow) (off : r.energized = false) :
    tickOutput e o r = timedRow r :=
  if_neg (by simp [off])

theorem tickOutput_on (e : Env) (o : Fin 6) (r : OutputRow) (on : r.energized = true) :
    tickOutput e o r = tickEnergized (e.loadNow o) (timedRow r) :=
  if_pos on

/-- A row on or off keeps its role, its rated load and its state, and its timers count. -/
theorem tickOutput_items (e : Env) (o : Fin 6) (r : OutputRow) :
    (tickOutput e o r).role = r.role ∧ (tickOutput e o r).rated = r.rated ∧
      (tickOutput e o r).energized = r.energized ∧ (tickOutput e o r).openCount = r.openCount ∧
      (tickOutput e o r).leakage = tickFilter r.leakage ∧
      (tickOutput e o r).limit = tickFilter r.limit ∧
      (tickOutput e o r).holdOff = countDown r.holdOff := by
  cases on : r.energized with
  | false =>
    rw [tickOutput_off e o r on]
    exact ⟨rfl, rfl, on, rfl, rfl, rfl, rfl⟩
  | true =>
    rw [tickOutput_on e o r on]
    exact ⟨rfl, rfl, on, rfl, rfl, rfl, rfl⟩

theorem tickSeconds_time {seconds remainder : Nat} (part : remainder < 1000)
    (room : seconds < 4294967295) :
    (tickSeconds seconds remainder).2 < 1000 ∧
      (tickSeconds seconds remainder).1 * 1000 + (tickSeconds seconds remainder).2 =
        seconds * 1000 + remainder + 1 := by
  unfold tickSeconds satAdd
  split
  · dsimp only
    omega
  · dsimp only
    omega

/-- R119: the load of an energized output, one millisecond on. -/
theorem tickEnergized_measured (load : Nat) (r : OutputRow) :
    LoadMeasured load r (tickEnergized (min 4000 load) r) := by
  have mean : IsMean (tickEnergized (min 4000 load) r).recent.sum
      (tickEnergized (min 4000 load) r).recent.length (tickEnergized (min 4000 load) r).measured :=
    meanLoad_isMean _ _ _ (by simp [tickEnergized])
  refine ⟨⟨rfl, rfl⟩, rfl, mean, tickEnergized_samples _ r, fun kept short => ?_⟩
  obtain ⟨length, sum⟩ := tickEnergized_samples (min 4000 load) r kept
  rw [← sum short, ← Nat.min_eq_right short, ← length]
  exact mean

theorem LoadMeasured.of_timed {load : Nat} {r u : OutputRow} (h : LoadMeasured load (timedRow r) u) :
    LoadMeasured load r u :=
  ⟨h.period, h.samples, h.last, h.kept, h.whole⟩

theorem circuitEnergized_of_bound {g : Ogd} {c o : Fin 6} (bound : g.boundTo c = some o) :
    circuitEnergized g c = g.outputs[o].energized := by
  unfold circuitEnergized
  rw [bound]

theorem tickTrip_off {g : Ogd} {c : Fin 6} (off : ∀ o, g.boundTo c = some o → g.outputs[o].energized = false)
    (t : TripRec) : tickTrip g c t = t := by
  have idle : circuitEnergized g c = false := by
    cases bound : g.boundTo c with
    | none =>
      unfold circuitEnergized
      rw [bound]
    | some o => rw [circuitEnergized_of_bound bound, off o bound]
  unfold tickTrip
  rw [idle]
  rfl

/-! ### The samples kept -/

theorem JustReset.allKept {s : State} (h : JustReset s) : AllKept s.plant := by
  intro o
  rw [h.output o]
  exact ⟨rfl, fun _ => rfl⟩

theorem periodsKept_iff (s : State) : PeriodsKept s ↔ HeldInReset s ∧ AllKept s.plant :=
  ⟨fun h => ⟨h.reset, h.samples⟩, fun ⟨held, kept⟩ => ⟨held, kept⟩⟩

theorem periodsKept_reset : PeriodsKept State.reset :=
  (periodsKept_iff _).mpr ⟨heldInReset_reset, justReset_reset.allKept⟩

theorem periodsKept_step {s t : State} (h : PeriodsKept s) (taken : step s = .next t) : PeriodsKept t := by
  rw [periodsKept_iff] at h ⊢
  exact step_keeps_reset (I := fun s => AllKept s.plant) (fun _ _ hs => hs) (fun _ hs => hs.allKept)
    (fun _ _ hs m => move_samples m hs) h.1 h.2 taken

/-- Settles O2: the due events one by one, the counts of a millisecond row by row, and the samples kept as an
invariant of the steps. -/
theorem idleStepsLetTimePass : Obligations.IdleStepsLetTimePass := by
  refine ⟨mem_dueEvents_iff, fun s queue => ⟨fun c l => step_of_due queue, fun due => ?time⟩, ?load,
    ⟨periodsKept_reset, fun s t => periodsKept_step⟩, ?trip⟩
  case time =>
    refine ⟨tick s, step_of_idle queue due, rfl, queue, rfl, ?_, rfl, rfl, rfl, rfl, rfl, rfl, rfl, rfl,
      rfl, tickPlant_circuit s.env s.plant, rfl, rfl, fun o => ?_⟩
    · show { s.sul with progress := tickProgress s.sul.progress } = _
      cases s.sul.progress <;> rfl
    · have row : (tick s).plant.ogd.outputs[o] = tickOutput s.env o s.plant.ogd.outputs[o] :=
        tickPlant_output s.env s.plant o
      rw [row]
      exact tickOutput_items s.env o s.plant.ogd.outputs[o]
  case load =>
    intro s o queue due part room
    have row : (tick s).plant.ogd.outputs[o] = tickOutput s.env o s.plant.ogd.outputs[o] :=
      tickPlant_output s.env s.plant o
    refine ⟨tick s, step_of_idle queue due, fun on => ?_, fun off => ?_⟩
    · rw [row, tickOutput_on _ _ _ on]
      exact ⟨(tickEnergized_measured s.pins.load[o] _).of_timed, tickSeconds_time part room⟩
    · rw [row, tickOutput_off _ _ _ off]
      exact ⟨rfl, rfl⟩
  case trip =>
    intro s c queue due part room
    have row : (tick s).plant.ogd.trips[c] = tickTrip s.plant.ogd c s.plant.ogd.trips[c] :=
      tickPlant_trip s.env s.plant c
    refine ⟨tick s, step_of_idle queue due, fun o bound on => ?_, fun off => ?_⟩
    · rw [row, tickTrip, circuitEnergized_of_bound bound, on]
      exact ⟨rfl, tickSeconds_time part room⟩
    · rw [row, tickTrip_off off]

end Sys2Proof.Machine
end

section
/-! PROOFS. Pin reset, the release of RESETN and the read of the image up to its judgement (R185 to R187,
R192). -/

namespace Sys2Proof.Machine

/-! ### Pin reset and its release -/

/-- Settles O4: pin reset leaves the reset values, and a release reads the straps. -/
theorem resetPinResetsAndReleases : Obligations.ResetPinResetsAndReleases := by
  refine ⟨fun s => ⟨pinReset s, rfl, fun o => replicate_get _ o, Fct.alarm_empty, rfl, rfl, rfl, rfl, rfl,
    rfl, rfl, rfl, rfl, rfl, rfl, rfl, rfl, rfl, rfl, rfl, rfl⟩, fun straps s => ⟨fun held => ?_, fun free => ?_⟩⟩
  · have release : resetnRelease straps s =
        enterStart { s with pins := { s.pins with resetnHeld := false, straps := straps } } := if_pos held
    exact ⟨_, congrArg Host.Outcome.next release, rfl, rfl, rfl, rfl, rfl, rfl, rfl⟩
  · have still : resetnRelease straps s = s := if_neg (by simp [free])
    exact congrArg Host.Outcome.next still

/-! ### The attempts of a transfer -/

theorem transferAttemptEnd_success {k a : Nat} {bytes : List Byte} {s : State}
    (reading : s.sul.progress = .reading k a none) (size : bytes.length = transferSize k) :
    transferAttemptEnd (.success bytes) s = transferDone k bytes s := by
  unfold transferAttemptEnd
  rw [reading]
  exact if_pos size

/-- Each of the three ways in which an attempt fails ends it so (R187). -/
theorem exec_attemptFailed {k a : Nat} {s : State} (reading : s.sul.progress = .reading k a none) {i : Instr}
    (fails : i ∈ [Instr.transferAttemptEnd .busHeld, .transferAttemptEnd .noAcknowledge,
      .clockHoldTimeout]) : exec i s = .next (attemptFailed k a s) := by
  have ended (x : TransferOutcome) (h : x = .busHeld ∨ x = .noAcknowledge) :
      transferAttemptEnd x s = attemptFailed k a s := by
    unfold transferAttemptEnd
    rw [reading]
    rcases h with rfl | rfl <;> rfl
  have held : clockHoldTimeout s = attemptFailed k a s := by
    unfold clockHoldTimeout
    rw [reading]
  simp only [List.mem_cons, List.not_mem_nil, or_false] at fails
  rcases fails with rfl | rfl | rfl
  · exact congrArg Host.Outcome.next (ended _ (.inl rfl))
  · exact congrArg Host.Outcome.next (ended _ (.inr rfl))
  · exact congrArg Host.Outcome.next held

theorem transferDone_next {k : Nat} {bytes : List Byte} {s : State} (before : k < 5)
    (good : k = 1 → (formatOk (readImage (s.sul.copy ++ bytes)) &&
      lengthOk (readImage (s.sul.copy ++ bytes))) = true) :
    transferDone k bytes s = { s with
      sul := { s.sul with copy := s.sul.copy ++ bytes, progress := .reading (k + 1) 1 none } } := by
  have header : (decide (k = 1) && !(formatOk (readImage (s.sul.copy ++ bytes)) &&
      lengthOk (readImage (s.sul.copy ++ bytes)))) = false := by
    by_cases h : k = 1
    · rw [good h, Bool.not_true, Bool.and_false]
    · rw [decide_eq_false h, Bool.false_and]
  refine (if_neg ?_).trans (if_pos before)
  exact Bool.eq_false_iff.mp header

theorem transferSize_middle {k : Nat} (first : 2 ≤ k) (last : k ≤ 4) : transferSize k = 32 := by
  interval_cases k <;> rfl

/-- Settles O5: a success goes on to the next transfer, a failure below the third waits, and the end of the
wait begins the next attempt. -/
theorem transferAttemptsProceed : Obligations.TransferAttemptsProceed := by
  refine ⟨fun k a bytes s reading stored => congrArg Host.Outcome.next ?success,
    fun k a s reading few i fails => (exec_attemptFailed reading fails).trans
      (congrArg Host.Outcome.next (if_pos few)),
    fun k a w s waiting => congrArg Host.Outcome.next ?wait⟩
  case success =>
    rcases stored with ⟨rfl, empty, rfl⟩ | ⟨first, last, length⟩
    · rw [transferAttemptEnd_success reading rfl]
      exact transferDone_next (by decide) fun _ => by rw [empty]; decide
    · rw [transferAttemptEnd_success reading (length.trans (transferSize_middle first last).symm)]
      exact transferDone_next (by omega) fun h => by omega
  case wait =>
    unfold attemptRetryDelayExpiry
    rw [waiting]
    rfl

/-! ### The entry to BLOCKED -/

theorem compute_untested_first (e : Env) (round : Option RoundNo) (x : Computation) (p : Plant)
    (untested : p.ogd.test = none) :
    compute e round false x p = handGrants e (grantsByKind e { p with alu := allotTable e round x })
      { p with alu := allotTable e round x } := by
  unfold compute
  dsimp only
  rw [untested]
  rfl

theorem AtStart.disabled {s : State} (h : AtStart s) (c : Fin 6) : Disabled s.plant c := by
  unfold Disabled
  rw [h.1, replicate_get]
  exact ⟨rfl, rfl, rfl⟩

/-- The computation of a station that grants nothing: the table is the NONE one, and every DISABLED circuit
stays so with a grant of 0 (R64). -/
theorem compute_noAllot_disabled (e : Env) {p : Plant} (disabled : ∀ c, Disabled p c)
    (untested : p.ogd.test = none) :
    (compute e none false .noAllot p).alu = ⟨.noAllot, none, none, 0, none, none⟩ ∧
      ∀ c : Fin 6, (compute e none false .noAllot p).cct[c].grant = 0 ∧
        (compute e none false .noAllot p).cct[c].state = .disabled := by
  rw [compute_untested_first e none .noAllot p untested]
  let q : Plant := { p with alu := allotTable e none .noAllot }
  obtain ⟨eq, rows⟩ := handGrantsWith_disabled tripOutput e (grantsByKind e q) q disabled
  refine ⟨(congrArg Plant.alu eq).trans rfl, fun c => ?_⟩
  obtain ⟨⟨state, -, -⟩, grant⟩ := rows c
  rw [show (handGrants e (grantsByKind e q) q).cct = _ from congrArg Plant.cct eq]
  exact ⟨grant.trans (grantsByKind_zero e q rfl rfl c), state⟩

/-- R192: what the entry to BLOCKED leaves of a station in START. -/
theorem enterBlocked_atStart {s : State} (h : AtStart s) :
    (enterBlocked s).plant.alu = ⟨.noAllot, none, none, 0, none, none⟩ ∧
      Held (enterBlocked s) .configBad ∧
      ∀ c : Fin 6, (enterBlocked s).plant.cct[c].grant = 0 ∧
        (enterBlocked s).plant.cct[c].state = .disabled := by
  obtain ⟨e, -, -, -, -, plant⟩ := enterBlocked_computes s
  obtain ⟨alu, rows⟩ := compute_noAllot_disabled e (p := s.plant.raise .configBad) h.disabled h.2
  unfold Held
  rw [plant, compute_held _ _ _ _ _ _ (by decide)]
  refine ⟨alu, ?_, rows⟩
  rw [Plant.raise_fct, Fct.held_raise]
  simp

theorem AtStart.of_plant {s t : State} (h : AtStart s) (plant : t.plant = s.plant) : AtStart t := by
  unfold AtStart
  rw [plant]
  exact h

/-- The header of another format or length is not accepted (R187). -/
theorem transferDone_badHeader {s : State} {x y z : Byte} (empty : s.sul.copy = [])
    (other : [x, y, z] ≠ ([1, 0, 116] : List Byte)) :
    transferDone 1 [x, y, z] s = enterBlocked { s with sul := { s.sul with copy := [x, y, z] } } := by
  have fields : (formatOk (readImage [x, y, z]) && lengthOk (readImage [x, y, z])) = false := by
    rw [Bool.eq_false_iff]
    intro good
    refine other ?_
    simp only [formatOk, lengthOk, Config.imageLength, readImage, wordAt, byteAt, Bool.and_eq_true,
      decide_eq_true_iff, List.getD_cons_zero, List.getD_cons_succ] at good
    obtain ⟨format, length⟩ := good
    have hy := y.isLt
    have hz := z.isLt
    have ex : x = 1 := BitVec.eq_of_toNat_eq format
    have ey : y = 0 := BitVec.eq_of_toNat_eq (by show y.toNat = 0; omega)
    have ez : z = 116 := BitVec.eq_of_toNat_eq (by show z.toNat = 116; omega)
    rw [ex, ey, ez]
  have copied : updSul (fun u => { u with copy := u.copy ++ [x, y, z] }) s =
      { s with sul := { s.sul with copy := [x, y, z] } } := by
    simp only [updSul, empty, List.nil_append]
  unfold transferDone
  dsimp only
  rw [copied]
  refine if_pos ?_
  show (decide (1 = 1) && !(formatOk (readImage [x, y, z]) && lengthOk (readImage [x, y, z]))) = true
  rw [fields]
  rfl

/-- Settles O6: both ways lead to the entry to BLOCKED. -/
theorem unreadableImageBlocks : Obligations.UnreadableImageBlocks := by
  intro i k s start way
  have blocked : ∃ u : Sul, exec i s = .next (enterBlocked { s with sul := u }) := by
    rcases way with ⟨reading, fails⟩ | ⟨a, x, y, z, reading, empty, other, rfl⟩
    · exact ⟨s.sul, exec_attemptFailed reading fails⟩
    · exact ⟨_, congrArg Host.Outcome.next
        ((transferAttemptEnd_success reading rfl).trans (transferDone_badHeader empty other))⟩
  obtain ⟨u, taken⟩ := blocked
  have atStart : AtStart { s with sul := u } := start.of_plant rfl
  obtain ⟨alu, held, rows⟩ := enterBlocked_atStart atStart
  exact ⟨_, taken, rfl, rfl, rfl, rfl, held, alu, rows, rfl⟩

end Sys2Proof.Machine
end

section
/-! PROOFS. The rounds: the timers, the adoption of received and own OPENs, and the swap that settles the
closed round (R3 to R9, R18, R19, R41 to R45). -/

namespace Sys2Proof.Machine

/-! ### The timers -/

theorem stationTerms : StationTerms where
  own _ := rfl
  image _ := rfl
  env _ := ⟨rfl, rfl, rfl⟩
  follows m := by cases m <;> simp [Membership.follows]
  bids m := by cases m <;> simp [Membership.bids]
  buffers r := by
    refine ⟨fun h => ?_, fun h => ?_⟩ <;> simp [Rst.collecting, Rst.settledBuf, h]
  reply _ _ := rfl

theorem placeOpen_empty {s : State} (empty : s.lif.openSlot = .empty) :
    placeOpen s = { s with lif := { s.lif with openSlot := .pending (), openFailures := 0 } } := by
  unfold placeOpen
  rw [empty]
  rfl

/-- Settles O8: each expiry by the membership it meets. -/
theorem timersPlaceOwnOpen : Obligations.TimersPlaceOwnOpen := by
  refine ⟨stationTerms, fun s => ⟨fun running bids empty => congrArg Host.Outcome.next ?_,
    fun running listen => congrArg Host.Outcome.next ?_,
    fun running listen empty => congrArg Host.Outcome.next ?_⟩⟩
  · refine (if_pos running).trans ((if_pos bids).trans ?_)
    exact placeOpen_empty (s := updRct (fun r => { r with roundTimer := none }) s) empty
  · refine (if_pos running).trans (if_neg ?_)
    show ¬s.rct.membership.bids = true
    rw [listen]
    decide
  · refine (if_pos (by simp [running, listen])).trans ?_
    exact placeOpen_empty
      (s := updRct (fun r => { r with listenTimer := none, membership := .joining }) s) empty

/-! ### The verdict of an adoption -/

theorem roundOrder_eq_newerByOne_iff (r c : RoundNo) : roundOrder r c = .newerByOne ↔ c + 1 = r := by
  unfold roundOrder
  have next : (r - c).toNat = 1 ↔ c + 1 = r := by bv_omega
  rw [← next]
  grind

/-- An OPEN newer by one is put to the completeness test, and no other is (R7). -/
theorem degradedAlready_received_eq_false_iff (s : State) (f : OpenFrame) (round : RoundNo) :
    degradedAlready s (.received f) round = false ↔ s.rct.round.map (· + 1) = some round := by
  unfold degradedAlready
  cases s.rct.round with
  | none => simp
  | some c => simp [roundOrder_eq_newerByOne_iff]

theorem degradedAlready_own_eq_false_iff (s : State) (f : OpenFrame) (round : RoundNo) :
    degradedAlready s (.own f) round = false ↔ s.rct.round.isSome = true := by
  unfold degradedAlready
  cases s.rct.round <;> simp

theorem adopt_degraded (kind : AdoptKind) (round : RoundNo) (opener : Nat) (s : State) :
    (adopt kind round opener s).rct.degraded =
      !swapVerdict (atSwap kind s) kind (degradedAlready s kind round) := by
  rw [adopt_rct]

theorem adopt_degraded_of_already {kind : AdoptKind} {round : RoundNo} (opener : Nat) {s : State}
    (already : degradedAlready s kind round = true) :
    (adopt kind round opener s).rct.degraded = true := by
  rw [adopt_degraded, already, swapVerdict_degraded]
  rfl

theorem adopt_membership (kind : AdoptKind) (round : RoundNo) (opener : Nat) (s : State) :
    (adopt kind round opener s).rct.membership = (atSwap kind s).rct.membership := by
  rw [adopt_rct]

theorem atSwap_blocks (kind : AdoptKind) (s : State) :
    (atSwap kind s).rst = s.rst ∧ (atSwap kind s).sul = s.sul ∧ (atSwap kind s).lck = s.lck ∧
      (atSwap kind s).plant = s.plant := by
  obtain ⟨rct, eq⟩ := atSwap_eq kind s
  rw [eq]
  exact ⟨rfl, rfl, rfl, rfl⟩

/-- The verdict on the own OPEN: its heard set is that of the collected bids, so each of these decides by its
digest alone (R42). -/
theorem swapVerdict_own (s : State) (f : OpenFrame) :
    swapVerdict s (.own f) false = true ↔ s.rct.membership = .member ∧
      ∀ (a : Fin 32) (b : BidFrame), s.rst.collecting[a] = some b → s.sul.digest = some b.digest := by
  unfold swapVerdict roundComplete
  simp only [swapBuffers_settledBuf, Bool.not_false, Bool.true_and, Bool.and_eq_true,
    decide_eq_true_eq, heardSettled_iff, inSet_heldSet]
  refine and_congr_right fun _ => forall_congr' fun a => ?_
  cases s.rst.collecting[a] <;> simp

theorem adopt_own_degraded_eq_false_iff (f : OpenFrame) (round : RoundNo) (opener : Nat) (s : State) :
    (adopt (.own f) round opener s).rct.degraded = false ↔
      s.rct.round.isSome = true ∧ (adopt (.own f) round opener s).rct.membership = .member ∧
        ∀ (a : Fin 32) (b : BidFrame), s.rst.collecting[a] = some b →
          s.sul.digest = some b.digest := by
  rw [← degradedAlready_own_eq_false_iff s f round, adopt_membership, adopt_degraded, Bool.not_eq_false']
  obtain ⟨rst, sul, -, -⟩ := atSwap_blocks (.own f) s
  cases degradedAlready s (.own f) round with
  | true => simp [swapVerdict_degraded]
  | false => rw [swapVerdict_own, rst, sul, eq_self, true_and]

/-! ### What an adoption leaves elsewhere -/

theorem adopt_samePeriphery (kind : AdoptKind) (round : RoundNo) (opener : Nat) (s : State) :
    SamePeriphery s (adopt kind round opener s) := by
  obtain ⟨pins, sul, ssc, srv, now, pending, -⟩ := adopt_periphery kind round opener s
  exact ⟨pins, sul, ssc, srv, now, pending⟩

theorem adopt_collecting (kind : AdoptKind) (round : RoundNo) (opener : Nat) (s : State) (a : Fin 32) :
    (adopt kind round opener s).rst.collecting[a] = none := by
  rw [adopt_rst, (rstAfterSwap_items _ _ _).2.1]
  exact replicate_get _ a

/-- Only the adoption of a received OPEN counts missed bids (R43). -/
theorem adopt_lck_of_none {kind : AdoptKind} (round : RoundNo) (opener : Nat) (s : State)
    (none : ∀ degraded, missedBids (atSwap kind s) kind s.rst.collecting degraded = []) :
    (adopt kind round opener s).lck = s.lck := by
  rw [adopt_lck, none]
  exact (atSwap_blocks kind s).2.2.1

theorem mem_missedBids (s : State) (f : OpenFrame) (b : BidBuffer) (degraded : Bool) (a : Fin 32) :
    a.val + 1 ∈ missedBids s (.received f) b degraded ↔
      degraded = false ∧ inSet f.heard (a.val + 1) = true ∧ a.val + 1 ≠ s.own ∧ b[a] = none := by
  have station : a.val + 1 ∈ stationAddresses := (mem_stationAddresses _).mpr ⟨by omega, by omega⟩
  cases degraded with
  | true => simp [missedBids]
  | false =>
    have listed : missedBids s (.received f) b false = stationAddresses.filter fun x =>
        inSet f.heard x && decide (x ≠ s.own) && (bidOf b x).isNone := rfl
    rw [listed, List.mem_filter, bidOf_succ]
    simp only [station, Bool.and_eq_true, decide_eq_true_eq, Option.isNone_iff_eq_none, true_and, and_assoc]

/-- R43: each bid that the opener heard and the station did not is counted as missed, once. -/
theorem adopt_received_quality (f : OpenFrame) (opener : Nat) (s : State) (a : Fin 32) :
    (adopt (.received f) f.round opener s).lck.rows[a] = { s.lck.rows[a] with
      bidsMissed :=
        if s.rct.round.map (· + 1) = some f.round ∧ inSet f.heard (a.val + 1) = true ∧
          a.val + 1 ≠ s.own ∧ s.rst.collecting[a] = none then
          min 65535 (s.lck.rows[a].bidsMissed + 1)
        else s.lck.rows[a].bidsMissed } := by
  let missed := missedBids (atSwap (.received f) s) (.received f) s.rst.collecting
    (degradedAlready s (.received f) f.round)
  have inside : ∀ x ∈ missed, x ∈ stationAddresses := fun x hx => by
    simp only [missed, missedBids] at hx
    split at hx
    · cases hx
    · exact (List.mem_filter.mp hx).1
  have nodup : missed.Nodup := by
    simp only [missed, missedBids]
    split
    · exact List.nodup_nil
    · exact List.Nodup.filter _ (List.nodup_range' ..)
  obtain ⟨-, sul, lck, -⟩ := atSwap_blocks (.received f) s
  have own : (atSwap (.received f) s).own = s.own := by
    unfold State.own
    rw [sul]
  have member : a.val + 1 ∈ missed ↔ s.rct.round.map (· + 1) = some f.round ∧
      inSet f.heard (a.val + 1) = true ∧ a.val + 1 ≠ s.own ∧ s.rst.collecting[a] = none := by
    rw [← degradedAlready_received_eq_false_iff s f f.round, ← own]
    exact mem_missedBids _ f _ _ a
  rw [adopt_lck, countMissedBids_row missed nodup
    (fun x hx => (mem_stationAddresses x).mp (inside x hx)), lck, if_congr member rfl rfl]
  split <;> rfl

/-! ### The adoption of a received OPEN -/

/-- A received OPEN of a newer round is adopted by the station that has counted it (R9, R140). -/
theorem exec_openReceived_newer {f : OpenFrame} {i : Fin 32} {s : State} (receives : canReceive s = true)
    (follows : s.rct.membership.follows = true) (opener : f.opener = i.val + 1)
    (inside : f.opener ≤ s.img.stations) (other : f.opener ≠ s.own) (newer : Newer s f.round) :
    exec (.openReceived f) s =
      .next (adopt (.received f) f.round f.opener (afterStation i false s)) :=
  calc exec (.openReceived f) s
      = .next (receive (.openFrame f) s) := exec_frameCommand (.openFrame f) s
    _ = .next (openReceived f (afterStation i false s)) := by
        rw [receive_open f i s receives opener]
    _ = .next (adopt (.received f) f.round f.opener (afterStation i false s)) := by
        rw [openReceived_newer f (afterStation i false s) follows ⟨by omega, inside⟩ other newer]

/-- The count of a received frame leaves the missed bids of every row. -/
theorem afterStation_bidsMissed (i : Fin 32) (isBid : Bool) (s : State) (a : Fin 32) :
    (afterStation i isBid s).lck.rows[a].bidsMissed = s.lck.rows[a].bidsMissed := by
  show (s.lck.rows.set i _)[a].bidsMissed = _
  rw [Fin.getElem_fin, Vector.getElem_set]
  split
  · rename_i same
    obtain rfl : i = a := Fin.ext same
    rfl
  · rfl

/-- Settles O9: the adoption is that of the counted station, whose rounds and slots are those it had. -/
theorem newerOpenIsAdopted : Obligations.NewerOpenIsAdopted := by
  intro f i s receives follows opener inside other newer
  obtain ⟨openSlot, bidSlot, -, -⟩ := not_sending s receives
  have already (h : s.rct.round.map (· + 1) ≠ some f.round) :
      degradedAlready (afterStation i false s) (.received f) f.round = true :=
    Bool.eq_true_of_not_eq_false fun e => h ((degradedAlready_received_eq_false_iff _ _ _).mp e)
  refine ⟨_, exec_openReceived_newer receives follows opener inside other newer,
    adopt_samePeriphery _ _ _ (afterStation i false s),
    Adopted.of_eq (u := afterStation i false s) rfl rfl rfl rfl
      (adopt_adopted (.received f) f.round f.opener (afterStation i false s) openSlot (.inr bidSlot)),
    fun c held skipped => adopt_degraded_of_already _ (already fun next => ?_),
    fun none => adopt_degraded_of_already _ (already (by simp [none]))⟩
  rw [held, Option.map_some, Option.some.injEq] at next
  rw [← next] at skipped
  simp at skipped

/-- Settles O11: the swap of the counted station, with the missed bids counted row by row. -/
theorem swapSettlesTheRound : Obligations.SwapSettlesTheRound := by
  intro f i s receives follows opener inside other newer
  refine ⟨_, exec_openReceived_newer receives follows opener inside other newer,
    SwapSettles.of_eq (u := afterStation i false s) rfl rfl rfl rfl
      (adopt_settles (.received f) f.round f.opener (afterStation i false s)),
    adopt_collecting _ _ _ _, fun a => ?_⟩
  rw [adopt_received_quality f f.opener (afterStation i false s) a, afterStation_bidsMissed]
  rfl

/-! ### The own OPEN -/

/-- The station whose own OPEN has passed its check (R5, R143). -/
def openPassed (s : State) : State :=
  { s with lif := { s.lif with openSlot := .empty, openFailures := 0, idle := some 0 } }

theorem openCheckEnd_passed {f : OpenFrame} {s : State} (sending : s.lif.openSlot = .sending f) :
    openCheckEnd true s = adopt (.own f) f.round s.own (openPassed s) := by
  unfold openCheckEnd
  rw [sending]
  rfl

theorem openCheckEnd_failed {f : OpenFrame} {s : State} (sending : s.lif.openSlot = .sending f) :
    openCheckEnd false s =
      if s.lif.openFailures + 1 < 3 then
        { s with
          plant := s.plant.raise .txFail,
          lif :=
            { s.lif with
              openSlot := .pending (), openFailures := s.lif.openFailures + 1, idle := some 0 } }
      else
        { s with
          plant := s.plant.raise .txFail,
          rct := { s.rct with roundTimer := some (s.img.period * 1000 + s.sul.rank.val * 40) },
          lif := { s.lif with openSlot := .empty, openFailures := 0, idle := some 0 } } := by
  unfold openCheckEnd
  rw [sending]
  rfl

/-- Settles O17: a passed check adopts the own OPEN, and a failed one counts. -/
theorem ownOpenCheckEnds : Obligations.OwnOpenCheckEnds := by
  refine ⟨fun f s sending bids => ?_, fun f s sending => ⟨fun few => congrArg Host.Outcome.next ?_,
    fun last => congrArg Host.Outcome.next ?_⟩⟩
  · obtain ⟨-, -, -, -, -, -, -, -, -, idle⟩ :=
      adopt_periphery (.own f) f.round s.own (openPassed s)
    exact ⟨_, congrArg Host.Outcome.next (openCheckEnd_passed sending),
      adopt_samePeriphery _ _ _ (openPassed s),
      Adopted.of_eq (u := openPassed s) rfl rfl rfl rfl
        (adopt_adopted (.own f) f.round s.own (openPassed s) rfl (.inl bids)),
      idle,
      SwapSettles.of_eq (u := openPassed s) rfl rfl rfl rfl
        (adopt_settles (.own f) f.round s.own (openPassed s)),
      adopt_collecting _ _ _ _, adopt_lck_of_none _ _ _ fun _ => rfl,
      adopt_own_degraded_eq_false_iff f f.round s.own (openPassed s)⟩
  · rw [openCheckEnd_failed sending, if_pos (by omega)]
  · rw [openCheckEnd_failed sending, if_neg (by omega)]

end Sys2Proof.Machine
end

section
/-! PROOFS. Received bids and conflicts: which bids are collected, discarded or adopted late, and what an
opener's conflict leaves (R11 to R15, R30 to R33, R62). -/

namespace Sys2Proof.Machine

/-! ### Where a received bid goes -/

theorem exec_bidReceived {b : BidFrame} {i : Fin 32} {s : State} (receives : canReceive s = true)
    (wf : b.wf = true) (sender : b.sender = i.val + 1) :
    exec (.bidReceived b) s = .next (bidReceived b (afterStation i true s)) :=
  (exec_frameCommand (.bid b) s).trans (by rw [receive_bid b i s receives wf sender])

theorem configuredAddr_eq (s : State) (a : Nat) : s.configuredAddr a = decide (1 ≤ a ∧ a ≤ s.img.stations) :=
  rfl

theorem bidReceived_screened {b : BidFrame} {s : State}
    (h : s.rct.membership.follows = false ∨ s.configuredAddr b.sender = false ∨
      s.configuredAddr b.opener = false) : bidReceived b s = offerBid b s := by
  unfold bidReceived
  rw [if_pos]
  rcases h with h | h | h <;> simp [h]

theorem bidReceived_inside {b : BidFrame} {s : State} (follows : s.rct.membership.follows = true)
    (sender : s.configuredAddr b.sender = true) (opener : s.configuredAddr b.opener = true) :
    bidReceived b s =
      match s.orderOf b.round with
      | .newerByOne => offerBid b (adopt .late b.round b.opener s)
      | .newerByMore => offerBid b (adopt .late b.round b.opener s)
      | .current => if s.rct.opener = some b.opener then offerBid b s else conflict s
      | .older => s := by
  unfold bidReceived
  exact (if_neg (by simp [follows, sender, opener])).trans rfl

theorem offerBid_idle {b : BidFrame} {s : State} (idle : s.rct.membership.follows = false) :
    offerBid b s = s :=
  if_pos (by simp [idle])

theorem offerBid_outside {b : BidFrame} {s : State} (follows : s.rct.membership.follows = true)
    (outside : s.configuredAddr b.sender = false ∨ s.configuredAddr b.opener = false) :
    offerBid b s = countOutOfRange s := by
  refine (if_neg (by simp [follows])).trans (if_pos ?_)
  rcases outside with h | h <;> simp [h]

/-- A bid of the current round and opener, from inside 1…N, at the Roster (R30, R31). -/
theorem offerBid_current {b : BidFrame} {i : Fin 32} {s : State} (follows : s.rct.membership.follows = true)
    (sender : s.configuredAddr b.sender = true) (opener : s.configuredAddr b.opener = true)
    (place : b.sender = i.val + 1) (round : s.rct.round = some b.round)
    (named : s.rct.opener = some b.opener) :
    offerBid b s = if b.sender = s.own ∨ (s.rst.collecting[i]).isSome = true then s.raise .duplicateBid
      else acceptBid b s := by
  have held : bidOf s.rst.collecting b.sender = s.rst.collecting[i] := by rw [place, bidOf_succ]
  unfold offerBid
  rw [if_neg (by simp [follows]), if_neg (by simp [sender, opener]), held]
  by_cases own : b.sender = s.own
  · simp [own]
  · rw [if_neg own, if_neg (by simp [round, named])]
    exact if_congr (by simp [own]) rfl rfl

theorem markReturn_get (i : Fin 32) (rows : Vector PeerRow 32) (a : Fin 32) :
    (markReturn (i.val + 1) rows)[a] =
      if a = i ∧ rows[a].status = .retired then { rows[a] with returnMark := true } else rows[a] := by
  unfold markReturn
  rw [place_succ]
  dsimp only
  rw [updAt_get]
  by_cases same : i = a
  · subst same
    simp only [if_true, true_and]
  · rw [if_neg same, if_neg fun h => same h.1.symm]

/-- What the Roster and the plant hold after a bid is accepted (R30, R33). -/
theorem acceptBid_eq (b : BidFrame) (s : State) : acceptBid b s = { s with
    rst := { s.rst.collect b with rows := markReturn b.sender s.rst.rows },
    plant := if s.sul.digest = some b.digest then s.plant else s.plant.raise .mismatch } := by
  have foreign : s.foreign b.digest = decide (s.sul.digest ≠ some b.digest) := by
    unfold State.foreign
    exact decide_eq_decide.mpr (not_congr eq_comm)
  show { s with
    rst := { s.rst.collect b with rows := markReturn b.sender s.rst.rows },
    plant := s.plant.raiseIf (s.foreign b.digest) .mismatch } = _
  rw [foreign]
  by_cases own : s.sul.digest = some b.digest <;> simp only [own, if_true, if_false, ne_eq, not_true_eq_false,
    not_false_eq_true, decide_true, decide_false] <;> rfl

theorem acceptBid_rst (b : BidFrame) {i : Fin 32} (s : State) (place : b.sender = i.val + 1) :
    (∀ a : Fin 32, (acceptBid b s).rst.collecting[a] =
        if a = i then some b else s.rst.collecting[a]) ∧
      (acceptBid b s).rst.settledBuf = s.rst.settledBuf ∧ (acceptBid b s).rst.silent = s.rst.silent ∧
      (acceptBid b s).rst.line = s.rst.line ∧
      ∀ a : Fin 32, (acceptBid b s).rst.rows[a] =
        if a = i ∧ s.rst.rows[a].status = .retired then { s.rst.rows[a] with returnMark := true }
        else s.rst.rows[a] := by
  obtain ⟨collecting, settled, -, silent, line⟩ := collect_collecting s.rst b i place
  rw [acceptBid_eq]
  refine ⟨fun a => ?_, settled, silent, line, fun a => ?_⟩
  · show (s.rst.collect b).collecting[a] = _
    rw [collecting, Fin.getElem_fin, Vector.getElem_set]
    exact if_congr (by rw [Fin.ext_iff, eq_comm]) rfl rfl
  · rw [place]
    exact markReturn_get i s.rst.rows a

/-! ### Bids of the current round -/

theorem bidReceived_older {b : BidFrame} {s : State} {c : RoundNo} (follows : s.rct.membership.follows = true)
    (sender : s.configuredAddr b.sender = true) (opener : s.configuredAddr b.opener = true)
    (held : s.rct.round = some c) (older : 128 ≤ (b.round - c).toNat) : bidReceived b s = s := by
  have order : s.orderOf b.round = .older := by
    unfold State.orderOf
    rw [held]
    exact roundOrder_older _ _ older
  rw [bidReceived_inside follows sender opener, order]

theorem bidReceived_current {b : BidFrame} {s : State} (follows : s.rct.membership.follows = true)
    (sender : s.configuredAddr b.sender = true) (opener : s.configuredAddr b.opener = true)
    (round : s.rct.round = some b.round) :
    bidReceived b s = if s.rct.opener = some b.opener then offerBid b s else conflict s := by
  rw [bidReceived_inside follows sender opener, orderOf_current s b.round round]

/-- Settles O15: the bid of the counted station's current round is accepted. -/
theorem firstBidIsCollected : Obligations.FirstBidIsCollected := by
  intro b i s receives follows wf place senderIn openerIn other round named empty
  obtain ⟨sender, -, opener, -⟩ := bid_addresses b wf
  have senderOk : (afterStation i true s).configuredAddr b.sender = true := decide_eq_true ⟨sender, senderIn⟩
  have openerOk : (afterStation i true s).configuredAddr b.opener = true := decide_eq_true ⟨opener, openerIn⟩
  have free : ¬(b.sender = (afterStation i true s).own ∨
      ((afterStation i true s).rst.collecting[i]).isSome = true) := by
    rintro (own | taken)
    · exact other own
    · rw [show (afterStation i true s).rst.collecting[i] = none from empty] at taken
      cases taken
  have taken : exec (.bidReceived b) s = .next (acceptBid b (afterStation i true s)) := by
    rw [exec_bidReceived receives wf place,
      bidReceived_current (s := afterStation i true s) follows senderOk openerOk round, if_pos (by exact named),
      offerBid_current (s := afterStation i true s) follows senderOk openerOk place round named, if_neg free]
  obtain ⟨collecting, settled, silent, line, rows⟩ := acceptBid_rst b (afterStation i true s) place
  refine ⟨_, taken, ?_⟩
  refine ⟨?_, ?_, collecting, settled, silent, line, rows, ?_⟩
  · rw [acceptBid_eq]
    exact ⟨rfl, rfl, rfl, rfl, rfl, rfl⟩
  · rw [acceptBid_eq]
    rfl
  · rw [acceptBid_eq]
    exact ⟨rfl, rfl, rfl⟩

/-- Settles O16: each bid that the Roster does not collect, by the reason it is not. -/
theorem otherBidsAreDiscarded : Obligations.OtherBidsAreDiscarded := by
  intro b i s receives wf place
  obtain ⟨sender, -, opener, -⟩ := bid_addresses b wf
  rw [exec_bidReceived receives wf place]
  refine ⟨fun idle => congrArg Host.Outcome.next ?_, fun follows senderIn openerIn => ?_,
    fun follows outside => congrArg Host.Outcome.next ?_⟩
  · have idle : (afterStation i true s).rct.membership.follows = false := idle
    rw [bidReceived_screened (.inl idle), offerBid_idle idle]
  · have senderOk : (afterStation i true s).configuredAddr b.sender = true :=
      decide_eq_true ⟨sender, senderIn⟩
    have openerOk : (afterStation i true s).configuredAddr b.opener = true :=
      decide_eq_true ⟨opener, openerIn⟩
    refine ⟨fun c held older => congrArg Host.Outcome.next
      (bidReceived_older (s := afterStation i true s) follows senderOk openerOk held older),
      fun round named again => congrArg Host.Outcome.next ?_⟩
    have again : b.sender = (afterStation i true s).own ∨
      ((afterStation i true s).rst.collecting[i]).isSome = true := again
    rw [bidReceived_current (s := afterStation i true s) follows senderOk openerOk round,
      if_pos (by exact named),
      offerBid_current (s := afterStation i true s) follows senderOk openerOk place round named, if_pos again]
  · have outsideAddr : (afterStation i true s).configuredAddr b.sender = false ∨
        (afterStation i true s).configuredAddr b.opener = false := by
      rcases outside with h | h
      · exact .inl (decide_eq_false fun k => absurd h (Nat.not_lt.mpr k.2))
      · exact .inr (decide_eq_false fun k => absurd h (Nat.not_lt.mpr k.2))
    rw [bidReceived_screened (.inr outsideAddr), offerBid_outside (by exact follows) outsideAddr]
    rfl

/-! ### Late adoption -/

theorem memberAfter_follows {m : Membership} (n : Nat) (heard : Bool) (h : m.follows = true) :
    (memberAfter m n heard).follows = true := by
  cases m with
  | listen =>
    show (if 1 ≤ n then Membership.joining else .listen).follows = true
    split <;> rfl
  | joining => cases heard <;> rfl
  | member => rfl
  | start => cases h
  | blocked => cases h
  | retired => cases h

theorem adopt_late_degraded (round : RoundNo) (opener : Nat) (s : State) :
    (adopt .late round opener s).rct.degraded = true := by
  refine adopt_degraded_of_already opener ?_
  unfold degradedAlready
  cases s.rct.round <;> rfl

theorem Adopted.to_eq {heard : Option AddrSet} {round : RoundNo} {opener : Nat} {s t u : State}
    (h : Adopted heard round opener s t) (rct : u.rct = t.rct) (lif : u.lif = t.lif) :
    Adopted heard round opener s u := by
  obtain ⟨h1, h2, h3, h4, h5, h6, h7, h8, h9⟩ := h
  rw [← rct] at h1 h2 h3 h4 h5 h6 h8
  rw [← lif] at h7 h8 h9
  exact ⟨h1, h2, h3, h4, h5, h6, h7, h8, h9⟩

/-- What a late adoption settles stands where the bid is then offered: of what the swap speaks of, that
changes no more than MISMATCH, which the bid's digest may raise (R33). -/
theorem SwapSettles.offered {heard : Option AddrSet} {round : RoundNo} {rows : Vector PeerRow 32}
    {s t u : State} {digests : List Word16} (h : SwapSettles heard [] round rows s t) (rct : u.rct = t.rct)
    (env : u.env = t.env) (settled : u.rst.settledBuf = t.rst.settledBuf)
    (silent : u.rst.silent = t.rst.silent) (line : u.rst.line = t.rst.line)
    (cct : u.plant.cct = t.plant.cct) (alu : u.plant.alu = t.plant.alu)
    (held : ∀ x, x ≠ .mismatch → x ≠ .duplicateBid → (Held u x ↔ Held t x))
    (mismatch : Held u .mismatch ↔ Held t .mismatch ∨ ∃ d ∈ digests, s.sul.digest ≠ some d) :
    SwapSettles heard digests round rows s u := by
  obtain ⟨h1, h2, h3, h4, ⟨r1, r2, r3, r4, r5⟩, ⟨a1, a2, a3, a4, a5⟩, h7⟩ := h
  have flow (r : FlowReport) : FlowUsed heard s u r ↔ FlowUsed heard s t r := by
    unfold FlowUsed
    rw [rct]
  refine ⟨settled.trans h1, h2, silent.trans h3, ?_, ⟨?_, ?_, ?_, ?_, ?_⟩, ?_, fun n => ?_⟩
  · rw [line, flow, flow]
    exact h4
  · exact (held _ (by decide) (by decide)).trans r1
  · rw [held _ (by decide) (by decide), rct, silent]
    exact r2
  · rw [mismatch, r3]
    simp only [List.not_mem_nil, false_and, exists_false, false_or]
    exact or_right_comm.trans or_assoc
  · exact (held _ (by decide) (by decide)).trans r4
  · rw [held _ (by decide) (by decide), rct]
    exact r5
  · rw [← alu, ← rct] at a2 a3 a4 a5
    rw [← alu] at a1
    rw [← env] at a2
    exact ⟨a1, a2, a3, a4, a5⟩
  · obtain ⟨⟨d, g⟩, st, ra⟩ := h7 n
    refine ⟨⟨by rw [alu]; exact d, ?_⟩, ?_, ?_⟩
    · rw [cct, alu, env]
      exact g
    · rw [cct]
      exact st
    · rw [held _ (by decide) (by decide), cct]
      exact ra

theorem held_raise_iff (s : State) (x y : Factor) :
    (s.plant.raise x).fct.held y = true ↔ Held s y ∨ x = y := by
  rw [Plant.raise_fct, Fct.held_raise, Bool.or_eq_true, decide_eq_true_iff]
  rfl

/-- The bid of a late adoption is of the round just adopted, and no bid of that round is held yet (R12). -/
theorem offerBid_adopted {b : BidFrame} {i : Fin 32} {s : State} (follows : s.rct.membership.follows = true)
    (sender : s.configuredAddr b.sender = true) (opener : s.configuredAddr b.opener = true)
    (place : b.sender = i.val + 1) :
    offerBid b (adopt .late b.round b.opener s) =
      if b.sender = s.own then (adopt .late b.round b.opener s).raise .duplicateBid
      else acceptBid b (adopt .late b.round b.opener s) := by
  obtain ⟨-, sul, -⟩ := adopt_samePeriphery .late b.round b.opener s
  have rct := adopt_rct .late b.round b.opener s
  have membership : (adopt .late b.round b.opener s).rct.membership.follows = true := by
    rw [adopt_membership, (atSwap_rct .late s).1]
    exact memberAfter_follows _ _ follows
  have inside (a : Nat) : (adopt .late b.round b.opener s).configuredAddr a = s.configuredAddr a := by
    unfold State.configuredAddr State.img
    rw [sul]
  have own : (adopt .late b.round b.opener s).own = s.own := by
    unfold State.own
    rw [sul]
  rw [offerBid_current membership (by rw [inside, sender]) (by rw [inside, opener]) place (by rw [rct])
    (by rw [rct]), adopt_collecting, own]
  exact if_congr (by simp) rfl rfl

/-- Settles O14: the late adoption of the counted station, and then the bid offered to the Roster. -/
theorem newerBidIsLateAdopted : Obligations.NewerBidIsLateAdopted := by
  intro b i s receives follows wf place senderIn openerIn newer
  obtain ⟨sender, -, opener, -⟩ := bid_addresses b wf
  obtain ⟨openSlot, bidSlot, -, -⟩ := not_sending s receives
  let u := afterStation i true s
  let v := adopt .late b.round b.opener u
  have offered : exec (.bidReceived b) s = .next (offerBid b v) := by
    rw [exec_bidReceived receives wf place, bidReceived_newer b u follows ⟨sender, senderIn⟩
      ⟨opener, openerIn⟩ newer]
  rw [offerBid_adopted (s := u) follows (decide_eq_true ⟨sender, senderIn⟩)
    (decide_eq_true ⟨opener, openerIn⟩) place] at offered
  have adopted : Adopted none b.round b.opener s v :=
    Adopted.of_eq (u := u) rfl rfl rfl rfl (adopt_adopted .late b.round b.opener u openSlot (.inr bidSlot))
  have settles : SwapSettles none [] b.round v.rst.rows s v :=
    SwapSettles.of_eq (u := u) rfl rfl rfl rfl (adopt_settles .late b.round b.opener u)
  have periphery : SamePeriphery s v := adopt_samePeriphery .late b.round b.opener u
  have degraded : v.rct.degraded = true := adopt_late_degraded b.round b.opener u
  have lck : v.lck = u.lck := adopt_lck_of_none _ _ _ fun _ => rfl
  have digest : v.sul.digest = s.sul.digest := by rw [periphery.2.1]
  have collecting (a : Fin 32) : v.rst.collecting[a] = none := adopt_collecting _ _ _ u a
  by_cases own : b.sender = s.own
  · rw [if_pos (show b.sender = u.own from own)] at offered
    have settled : SwapSettles none [] b.round v.rst.rows s (v.raise .duplicateBid) :=
      settles.offered rfl rfl rfl rfl rfl rfl rfl
        (fun x _ other => (held_raise_iff v _ x).trans (or_iff_left other.symm))
        ((held_raise_iff v _ _).trans (by simp))
    refine ⟨_, v.rst.rows, offered, periphery, adopted.to_eq rfl rfl, degraded, ?_, lck,
      fun other => absurd own other, fun _ => ⟨collecting, rfl, (held_raise_iff v _ _).mpr (.inr rfl)⟩⟩
    rw [if_pos own]
    exact settled
  · rw [if_neg (show ¬b.sender = u.own from own)] at offered
    obtain ⟨bids, buffer, silent, line, rows⟩ := acceptBid_rst b v place
    have raised (x : Factor) : Held (acceptBid b v) x ↔
        Held v x ∨ s.sul.digest ≠ some b.digest ∧ .mismatch = x := by
      rw [acceptBid_eq, ← digest]
      unfold Held
      dsimp only
      by_cases same : v.sul.digest = some b.digest
      · simp [same]
      · rw [if_neg same, held_raise_iff]
        simp [same, Held]
    have env : (acceptBid b v).env = v.env := by
      have reads : (acceptBid b v).env = { v.env with line := (acceptBid b v).rst.line } := by
        rw [acceptBid_eq]
        rfl
      rw [reads, line]
      rfl
    have cct : (acceptBid b v).plant.cct = v.plant.cct := by rw [acceptBid_eq]; dsimp only; split <;> rfl
    have alu : (acceptBid b v).plant.alu = v.plant.alu := by rw [acceptBid_eq]; dsimp only; split <;> rfl
    have rct : (acceptBid b v).rct = v.rct := by rw [acceptBid_eq]
    have lif : (acceptBid b v).lif = v.lif := by rw [acceptBid_eq]
    refine ⟨_, v.rst.rows, offered, ?_, adopted.to_eq rct lif, rct ▸ degraded, ?_, ?_, fun _ => ⟨fun a => ?_, rows⟩,
      fun h => absurd h own⟩
    · rw [acceptBid_eq]
      exact periphery
    · rw [if_neg own]
      refine settles.offered rct env buffer silent line cct alu (fun x other _ => ?_) ?_
      · rw [raised, or_iff_left fun h => other h.2.symm]
      · rw [raised]
        simp
    · rw [acceptBid_eq]
      exact lck
    · rw [bids, collecting]

end Sys2Proof.Machine
end

section
/-! PROOFS. A conflict of openers: the current round becomes DEGRADED, and a MEMBER takes the degraded cap
(R14, R15, R61, R62). -/

namespace Sys2Proof.Machine

/-! ### Computations while no test is in progress -/

theorem grantsByKind_congr (e : Env) {p q : Plant} (cct : p.cct = q.cct) (alu : p.alu = q.alu) :
    grantsByKind e p = grantsByKind e q := by
  unfold grantsByKind
  rw [alu, localSpread_congr p q q.alu.own cct]

/-- A computation outside a swap, with no test in progress: its table stands, each circuit holds its grant of
it, and the starved counts stay (R50, R92). -/
theorem compute_untested_items (e : Env) (round : Option RoundNo) (x : Computation) {p : Plant}
    (untested : p.ogd.test = none) :
    (compute e round false x p).alu = allotTable e round x ∧
      ∀ c : Fin 6, (compute e round false x p).cct[c].grant =
          (grantsByKind e { p with alu := allotTable e round x })[c] ∧
        (compute e round false x p).cct[c].starved = p.cct[c].starved := by
  have hand := handGrantsWith_untested respread e
    (grantsByKind e { p with alu := allotTable e round x })
    (p := { p with alu := allotTable e round x }) untested
  rw [compute_untested_first e round x p untested]
  refine ⟨hand.alu, fun c => ⟨(hand.grant c).trans ?_, (hand.starved c).trans ?_⟩⟩
  · exact congrArg CircuitRow.grant (mapRows_get _ _ _)
  · exact (congrArg CircuitRow.starved (mapRows_get _ _ _)).trans rfl

/-! ### Conflicts -/

theorem conflict_of_degraded {s : State} (degraded : s.rct.degraded = true) :
    conflict s = { s with plant := s.plant.raise .openConflict } :=
  if_pos degraded

theorem conflict_of_other {s : State} (complete : s.rct.degraded = false)
    (other : s.rct.membership ≠ .member) : conflict s = { s with
      plant := s.plant.raise .openConflict, rct := { s.rct with degraded := true } } :=
  (if_neg (by simp [complete])).trans (if_neg other)

/-- The factors that a MEMBER raises as its round is degraded by a conflict (R15). -/
def conflictRaised (p : Plant) : Plant := (p.raise .openConflict).raise .degraded

theorem conflict_of_member {s : State} (complete : s.rct.degraded = false)
    (member : s.rct.membership = .member) : conflict s = { s with
      rct := { s.rct with degraded := true },
      plant := compute s.env s.plant.alu.round false (.degraded false) (conflictRaised s.plant) } :=
  (if_neg (by simp [complete])).trans (if_pos member)

/-- The degraded cap of a conflict (R61): the share, or the need declared for the closed round. -/
theorem allotTable_conflict (e : Env) (round : Option RoundNo) :
    (allotTable e round (.degraded false)).own =
      match e.declaredClosed with
      | none => e.share e.own
      | some n => min (e.share e.own) n := by
  show capAmount e (degradedCap e false) = _
  unfold degradedCap
  cases e.declaredClosed <;> rfl

theorem conflict_member_allotment {s : State} (complete : s.rct.degraded = false)
    (member : s.rct.membership = .member) :
    { (conflict s).plant.alu with deduction := none } =
      allotTable s.env s.plant.alu.round (.degraded false) := by
  rw [conflict_of_member complete member]
  exact (compute_reach s.env s.plant.alu.round false (.degraded false) (conflictRaised s.plant)).table

theorem conflict_member_held {s : State} (complete : s.rct.degraded = false)
    (member : s.rct.membership = .member) {x : Factor}
    (outside : plantCodes.getLsbD (x.code - 1) = false) :
    Held (conflict s) x ↔ (conflictRaised s.plant).fct.held x = true := by
  rw [conflict_of_member complete member]
  unfold Held
  rw [compute_held _ _ _ _ _ _ outside]

theorem conflict_member_grants {s : State} (complete : s.rct.degraded = false)
    (member : s.rct.membership = .member) (untested : s.plant.ogd.test = none) :
    GrantsFound s (conflict s) ∧
      ∀ c : Fin 6, (conflict s).plant.cct[c].starved = s.plant.cct[c].starved := by
  obtain ⟨table, rows⟩ := compute_untested_items s.env s.plant.alu.round (.degraded false)
    (p := conflictRaised s.plant) untested
  rw [conflict_of_member complete member]
  refine ⟨⟨by rw [table]; rfl, fun c => (rows c).1.trans ?_⟩, fun c => (rows c).2⟩
  refine congrArg (·[c]) (grantsByKind_congr s.env ?_ ?_)
  · rfl
  · exact table.symm

/-- An OPEN or a BID of the current round, from another opener, is a conflict for the station that has counted
it (R14). -/
theorem exec_conflict {x : Instr} {i : Fin 32} {s : State} (receives : canReceive s = true)
    (follows : s.rct.membership.follows = true) (inside : i.val + 1 ≤ s.img.stations)
    (named : (∃ f : OpenFrame, x = .openReceived f ∧ f.opener = i.val + 1 ∧ f.opener ≠ s.own ∧
        s.rct.round = some f.round ∧ s.rct.opener ≠ some f.opener) ∨
      (∃ b : BidFrame, x = .bidReceived b ∧ b.wf = true ∧ b.sender = i.val + 1 ∧
        b.opener ≤ s.img.stations ∧ s.rct.round = some b.round ∧ s.rct.opener ≠ some b.opener)) :
    ∃ isBid, exec x s = .next (conflict (afterStation i isBid s)) := by
  rcases named with ⟨f, rfl, opener, notOwn, round, other⟩ | ⟨b, rfl, wf, place, openerIn, round, other⟩
  · let u := afterStation i false s
    have screened : (!u.rct.membership.follows || !u.configuredAddr f.opener ||
        decide (f.opener = u.own)) = false := by
      have addr : u.configuredAddr f.opener = true := decide_eq_true ⟨by omega, opener ▸ inside⟩
      have other : decide (f.opener = u.own) = false := decide_eq_false notOwn
      have follows : u.rct.membership.follows = true := follows
      rw [addr, other, follows]
      rfl
    have received : openReceived f u = conflict u := by
      unfold openReceived
      rw [screened, orderOf_current u f.round round]
      exact if_neg other
    refine ⟨false, (exec_frameCommand (.openFrame f) s).trans (congrArg Host.Outcome.next ?_)⟩
    exact (receive_open f i s receives opener).trans received
  · obtain ⟨sender, -, opener, -⟩ := bid_addresses b wf
    refine ⟨true, (exec_bidReceived receives wf place).trans (congrArg Host.Outcome.next ?_)⟩
    refine (bidReceived_current (s := afterStation i true s) follows ?_ ?_ round).trans (if_neg other)
    · exact decide_eq_true ⟨sender, place ▸ inside⟩
    · exact decide_eq_true ⟨opener, openerIn⟩

/-- Settles O13: the conflict of the counted station, by its verdict and its membership. -/
theorem conflictDegradesTheRound : Obligations.ConflictDegradesTheRound := by
  intro x i s receives follows inside named
  obtain ⟨isBid, taken⟩ := exec_conflict receives follows inside named
  let u := afterStation i isBid s
  refine ⟨conflict u, taken, ?_⟩
  have raised : Held { u with plant := u.plant.raise .openConflict } .openConflict :=
    (held_raise_iff u _ _).mpr (.inr rfl)
  cases verdict : s.rct.degraded with
  | true =>
    have rct : ({ s.rct with degraded := true } : Rct) = s.rct := by rw [← verdict]
    rw [conflict_of_degraded (s := u) verdict, rct]
    exact ⟨⟨rfl, rfl, rfl, rfl, rfl, rfl⟩, rfl, rfl, raised, fun _ => rfl, nofun⟩
  | false =>
    by_cases member : s.rct.membership = .member
    · have held (y : Factor) (one : y = .openConflict ∨ y = .degraded) : Held (conflict u) y := by
        have outside : plantCodes.getLsbD (y.code - 1) = false := by rcases one with rfl | rfl <;> decide
        rw [conflict_member_held (s := u) verdict member outside]
        unfold conflictRaised
        rw [Plant.raise_fct, Fct.held_raise, Plant.raise_fct, Fct.held_raise]
        rcases one with rfl | rfl <;> simp
      have table := conflict_member_allotment (s := u) verdict member
      have grants := conflict_member_grants (s := u) verdict member
      refine ⟨?_, ?_, ?_, held _ (.inl rfl), nofun, fun _ _ => ⟨held _ (.inr rfl),
        congrArg Alu.kind table, congrArg Alu.division table, (congrArg Alu.round table).trans rfl,
        (congrArg Alu.own table).trans (allotTable_conflict u.env _), fun untested => ?_⟩⟩
      · rw [conflict_of_member (s := u) verdict member]
        exact ⟨rfl, rfl, rfl, rfl, rfl, rfl⟩
      · rw [conflict_of_member (s := u) verdict member]
        rfl
      · rw [conflict_of_member (s := u) verdict member]
        rfl
      · obtain ⟨⟨deduction, grant⟩, starved⟩ := grants untested
        exact ⟨⟨deduction, grant⟩, starved⟩
    · rw [conflict_of_other (s := u) verdict member]
      exact ⟨⟨rfl, rfl, rfl, rfl, rfl, rfl⟩, rfl, rfl, raised, nofun,
        fun _ h => absurd h member⟩

end Sys2Proof.Machine
end

section
/-! PROOFS. How a request is judged, answered and served, addressed, broadcast and to another station
(R161 to R164), and the statements about queries, bad requests and refused requests. -/

namespace Sys2Proof.Machine

/-! ### Judgement -/

theorem judgeRequest_badForm {s : State} {r : Request} (h : formOk s r = false) :
    judgeRequest r s = (.badRequest, s) := by
  simp [judgeRequest, h]

theorem judgeRequest_addressedRetire {d tag a : Byte} {s : State} (hd : d ≠ 255) (h1 : 1 ≤ a.toNat)
    (h32 : a.toNat ≤ 32) : judgeRequest (.command ⟨d, tag, 5, [a]⟩) s = (.refused, s) := by
  have form : formOk s (.command ⟨d, tag, 5, [a]⟩) = true := commandFormOk_retire a ⟨h1, h32⟩
  have retire : addressedRetire (.command ⟨d, tag, 5, [a]⟩) = true := decide_eq_true ⟨rfl, hd⟩
  unfold judgeRequest
  rw [form, retire]
  rfl

theorem judgeRequest_query (q : QueryFrame) (s : State) :
    judgeRequest (.query q) s =
      (if formOk s (.query q) = false then .badRequest
        else if servedIn s.rct.membership (.query q) = false then .refused else .done, s) := by
  cases hf : formOk s (.query q) <;> cases hs : servedIn s.rct.membership (.query q) <;>
    simp [judgeRequest, hf, hs, addressedRetire]

/-- No query changes the station. -/
theorem judgeRequest_query_state (q : QueryFrame) (s : State) : (judgeRequest (.query q) s).2 = s := by
  rw [judgeRequest_query]

/-! ### Reception -/

theorem pageCountOf_afterRequest (s : State) (k : Nat) :
    pageCountOf (afterRequest s) k = pageCountOf s k := rfl

theorem NoRestartDue.afterRequest {s : State} (h : NoRestartDue s) : NoRestartDue (afterRequest s) := h

theorem query_wf (d tag k page : Byte) (h : isDestination d = true) :
    Request.wf (.query ⟨d, tag, k, page⟩) = true := h

/-- A query addressed to the station is answered with what its judgement says, and changes nothing
else. -/
theorem receive_query {d tag k page : Byte} {s : State} (hr : canReceive s = true)
    (hd : d.toNat = s.own) :
    receive (queryFrame d tag k page) s =
      placeReply (replyTo (afterRequest s) (.query ⟨d, tag, k, page⟩)
        (judgeRequest (.query ⟨d, tag, k, page⟩) (afterRequest s)).1) (afterRequest s) := by
  unfold queryFrame
  rw [receive_addressed _ s hr (query_wf d tag k page (isDestination_own d s hd)) hd,
    judgeRequest_query_state]

/-- A broadcast query does nothing further (R163). -/
theorem receive_query_broadcast {tag k page : Byte} {s : State} (hr : canReceive s = true)
    (due : NoRestartDue s) : receive (queryFrame 255 tag k page) s = afterRequest s := by
  unfold queryFrame
  rw [receive_broadcast _ s hr (query_wf 255 tag k page rfl) rfl, judgeRequest_query_state,
    takeRestart_notDue _ due.afterRequest]

/-- A request to another station is only counted (R140). -/
theorem receive_elsewhere {r : Request} {s : State} (hr : canReceive s = true) (wf : r.wf = true)
    (own : (requestDest r).toNat ≠ s.own) (all : requestDest r ≠ 255) :
    receive (.request r) s = afterRequest s := by
  have off : (addressedTo s r || isBroadcast r) = false := by
    rw [addressedTo, isBroadcast, decide_eq_false own, decide_eq_false all]
    rfl
  rw [receive_request r s hr wf, off]
  rfl

/-- A broadcast request of bad form does nothing further (R163). -/
theorem receive_badForm_broadcast {r : Request} {s : State} (hr : canReceive s = true)
    (wf : r.wf = true) (all : requestDest r = 255) (form : formOk (afterRequest s) r = false)
    (due : NoRestartDue s) : receive (.request r) s = afterRequest s := by
  rw [receive_broadcast r s hr wf all, judgeRequest_badForm form, takeRestart_notDue _ due.afterRequest]

/-! ### The form of a command -/

/-- The arguments that the table of R161 gives a command of kind `k`. -/
def ArgumentsFit (k : Nat) (args : List Byte) : Prop :=
  match k with
  | 1 | 2 => args.length = 3 ∧ factorSetAt args 0 &&& unnamedCodes = 0
  | 3 => args.length = 2 ∧ 1 ≤ byteAt args 0 ∧ byteAt args 0 ≤ 6 ∧ 1 ≤ byteAt args 1 ∧ byteAt args 1 ≤ 60
  | 4 => args.length = 3 ∧ byteAt args 0 ≠ 0
  | 5 => args.length = 1 ∧ 1 ≤ byteAt args 0 ∧ byteAt args 0 ≤ 32
  | 6 | 7 => args = []
  | _ => False

theorem commandFormOk_clearFactors : ∀ args : List Byte, commandFormOk 1 args = true ↔
    args.length = 3 ∧ factorSetAt args 0 &&& unnamedCodes = 0
  | [] | [_] | [_, _] | _ :: _ :: _ :: _ :: _ => iff_of_false Bool.false_ne_true (by simp)
  | [_, _, _] => decide_eq_true_iff.trans (and_iff_right rfl).symm

theorem commandFormOk_setMask : ∀ args : List Byte, commandFormOk 2 args = true ↔
    args.length = 3 ∧ factorSetAt args 0 &&& unnamedCodes = 0
  | [] | [_] | [_, _] | _ :: _ :: _ :: _ :: _ => iff_of_false Bool.false_ne_true (by simp)
  | [_, _, _] => decide_eq_true_iff.trans (and_iff_right rfl).symm

theorem commandFormOk_testOutput : ∀ args : List Byte, commandFormOk 3 args = true ↔
    args.length = 2 ∧ 1 ≤ byteAt args 0 ∧ byteAt args 0 ≤ 6 ∧ 1 ≤ byteAt args 1 ∧ byteAt args 1 ≤ 60
  | [] | [_] | _ :: _ :: _ :: _ => iff_of_false Bool.false_ne_true (by simp)
  | [_, _] => decide_eq_true_iff.trans (and_iff_right rfl).symm

theorem commandFormOk_check : ∀ args : List Byte, commandFormOk 4 args = true ↔
    args.length = 3 ∧ byteAt args 0 ≠ 0
  | [] | [_] | [_, _] | _ :: _ :: _ :: _ :: _ => iff_of_false Bool.false_ne_true (by simp)
  | [_, _, _] => decide_eq_true_iff.trans
      ((not_congr BitVec.toNat_eq).trans (and_iff_right rfl).symm)

theorem commandFormOk_address : ∀ args : List Byte, commandFormOk 5 args = true ↔
    args.length = 1 ∧ 1 ≤ byteAt args 0 ∧ byteAt args 0 ≤ 32
  | [] | _ :: _ :: _ => iff_of_false Bool.false_ne_true (by simp)
  | [_] => decide_eq_true_iff.trans (and_iff_right rfl).symm

theorem commandFormOk_restart : ∀ args : List Byte, commandFormOk 6 args = true ↔ args = []
  | [] => iff_of_true rfl rfl
  | _ :: _ => iff_of_false Bool.false_ne_true (by simp)

theorem commandFormOk_clearQuality : ∀ args : List Byte, commandFormOk 7 args = true ↔ args = []
  | [] => iff_of_true rfl rfl
  | _ :: _ => iff_of_false Bool.false_ne_true (by simp)

theorem commandFormOk_iff {k : Nat} (hk : 1 ≤ k ∧ k ≤ 7) (args : List Byte) :
    commandFormOk k args = true ↔ ArgumentsFit k args := by
  obtain ⟨low, high⟩ := hk
  interval_cases k
  · exact commandFormOk_clearFactors args
  · exact commandFormOk_setMask args
  · exact commandFormOk_testOutput args
  · exact commandFormOk_check args
  · exact commandFormOk_address args
  · exact commandFormOk_restart args
  · exact commandFormOk_clearQuality args

theorem commandFormOk_eq_false {k : Nat} {args : List Byte} (hk : 1 ≤ k ∧ k ≤ 7)
    (h : ¬ArgumentsFit k args) : commandFormOk k args = false := by
  rw [← Bool.not_eq_true, commandFormOk_iff hk]
  exact h

/-! ### The instructions of queries and commands -/

/-- The query instructions with their kinds (R165). -/
def queryInstrs (d tag page : Byte) : List (Nat × Instr) :=
  [(1, .queryStation d tag page), (2, .queryCircuits d tag page), (3, .queryOutputs d tag page),
    (4, .querySensors d tag page), (5, .queryRoster d tag page), (6, .queryAllotment d tag page),
    (7, .queryFactors d tag page), (8, .queryQuality d tag page)]

/-- The command instructions with their kinds (R170 to R175). -/
def commandInstrs (d tag : Byte) (args : List Byte) : List (Nat × Instr) :=
  [(1, .clearFactors d tag args), (2, .setMask d tag args), (3, .testOutput d tag args),
    (4, .linecheck d tag args), (5, .retire d tag args), (6, .restart d tag args),
    (7, .clearQuality d tag args)]

/-- Each query instruction receives the QUERY of its kind. -/
theorem exec_query {d tag page : Byte} {k : Nat} {x : Instr} (h : (k, x) ∈ queryInstrs d tag page)
    (s : State) :
    (1 ≤ k ∧ k ≤ 8) ∧ exec x s = .next (receive (queryFrame d tag (byteOf k) page) s) := by
  have kinds : ∀ p ∈ queryInstrs d tag page, (1 ≤ p.1 ∧ p.1 ≤ 8) ∧
      exec p.2 s = .next (receive (queryFrame d tag (byteOf p.1) page) s) := by
    simp only [queryInstrs, List.forall_mem_cons, List.not_mem_nil, false_implies, implies_true]
    refine ⟨⟨by decide, rfl⟩, ⟨by decide, rfl⟩, ⟨by decide, rfl⟩, ⟨by decide, rfl⟩,
      ⟨by decide, rfl⟩, ⟨by decide, rfl⟩, ⟨by decide, rfl⟩, ⟨by decide, rfl⟩, trivial⟩
  exact kinds _ h

/-- Each command instruction receives the COMMAND of its kind. -/
theorem exec_command {d tag : Byte} {args : List Byte} {k : Nat} {x : Instr}
    (h : (k, x) ∈ commandInstrs d tag args) (s : State) :
    (1 ≤ k ∧ k ≤ 7) ∧ exec x s = .next (receive (commandFrame d tag (byteOf k) args) s) := by
  have kinds : ∀ p ∈ commandInstrs d tag args, (1 ≤ p.1 ∧ p.1 ≤ 7) ∧
      exec p.2 s = .next (receive (commandFrame d tag (byteOf p.1) args) s) := by
    simp only [commandInstrs, List.forall_mem_cons, List.not_mem_nil, false_implies, implies_true]
    refine ⟨⟨by decide, rfl⟩, ⟨by decide, rfl⟩, ⟨by decide, rfl⟩, ⟨by decide, rfl⟩,
      ⟨by decide, rfl⟩, ⟨by decide, rfl⟩, ⟨by decide, rfl⟩, trivial⟩
  exact kinds _ h

theorem byteOf_kind {k : Nat} (h : k ≤ 8) : (byteOf k).toNat = k := by
  rw [byteOf_toNat]
  omega

/-! ### Queries -/

/-- A query of a page at or above its kind's count has no form. -/
theorem formOk_query_page {d tag page : Byte} {k : Nat} {s : State} (hk : k ≤ 8)
    (h : pageCountOf s k ≤ page.toNat) : formOk s (.query ⟨d, tag, byteOf k, page⟩) = false := by
  simp only [formOk, byteOf_kind hk, decide_eq_false_iff_not]
  omega

theorem formOk_query {d tag page : Byte} {k : Nat} {s : State} (hk : 1 ≤ k ∧ k ≤ 8)
    (h : page.toNat < pageCountOf s k) : formOk s (.query ⟨d, tag, byteOf k, page⟩) = true := by
  simp only [formOk, byteOf_kind hk.2, decide_eq_true_eq]
  exact ⟨hk.1, hk.2, h⟩

/-- R164: which queries are served. -/
theorem servedIn_query {m : Membership} {d tag page : Byte} {k : Nat} (hk : k ≤ 8) :
    servedIn m (.query ⟨d, tag, byteOf k, page⟩) = true ↔ m ≠ .blocked ∨ k = 1 ∨ k = 7 := by
  have one : byteOf k = 1 ↔ k = 1 := by
    rw [BitVec.toNat_eq, byteOf_kind hk]
    rfl
  have seven : byteOf k = 7 ↔ k = 7 := by
    rw [BitVec.toNat_eq, byteOf_kind hk]
    rfl
  rw [servedIn, Bool.or_eq_true, Bool.or_eq_true, decide_eq_true_eq, decide_eq_true_eq,
    decide_eq_true_eq, one, seven, or_assoc]

/-- The answer to a query without a body (R162). -/
theorem replyTo_query_refused {d tag k page : Byte} {s : State} {r : Result} (h : r ≠ .done) :
    replyTo (afterRequest s) (.query ⟨d, tag, k, page⟩) r =
      refusedQuery s tag k page r (pageCountOf s k.toNat) := by
  have body : replyBody (afterRequest s) r (.query ⟨d, tag, k, page⟩) = [] := if_neg h
  unfold replyTo
  rw [body]
  rfl

/-- The answer to a query that is served (R162, R165). -/
theorem replyTo_query_done {d tag page : Byte} {k : Nat} {s : State} (hk : k ≤ 8) :
    replyTo (afterRequest s) (.query ⟨d, tag, byteOf k, page⟩) .done =
      ⟨s.own, tag, 3, byteOf k, .done, page, byteOf (pageCountOf s k),
        pageBody (afterRequest s) k page.toNat⟩ := by
  have answer : replyTo (afterRequest s) (.query ⟨d, tag, byteOf k, page⟩) .done =
      ⟨s.own, tag, 3, byteOf k, .done, page, byteOf (pageCountOf s (byteOf k).toNat),
        pageBody (afterRequest s) (byteOf k).toNat page.toNat⟩ := by
    simp only [replyTo, replyBody, if_true]
    rfl
  rwa [byteOf_kind hk] at answer

/-- Settles O27. -/
theorem queriesAreAnswered : Obligations.QueriesAreAnswered := by
  unfold Obligations.QueriesAreAnswered
  refine ⟨fun s => ⟨rfl, ?_, ?_⟩, ?_⟩
  · intro none
    simp [pageCountOf, allotmentPages, none]
  · intro d some
    simp [pageCountOf, allotmentPages, some, ceilDiv]
  · intro d tag page k x s hr hd listed served page_lt
    obtain ⟨hk, run⟩ := exec_query listed s
    rw [run, receive_query hr hd, judgeRequest_query,
      if_neg (by rw [formOk_query (s := afterRequest s) hk page_lt]; decide),
      if_neg (by rw [(servedIn_query (m := (afterRequest s).rct.membership) hk.2).mpr served]; decide)]
    rw [replyTo_query_done hk.2]
    rfl

/-! ### Requests of bad form, and requests to others -/

/-- A query of bad form is answered BAD_REQUEST with the page count in force. -/
theorem receive_query_bad {d tag k page : Byte} {s : State} (hr : canReceive s = true)
    (hd : d.toNat = s.own) (form : formOk (afterRequest s) (.query ⟨d, tag, k, page⟩) = false) :
    receive (queryFrame d tag k page) s =
      placeReply (refusedQuery s tag k page .badRequest (pageCountOf s k.toNat)) (afterRequest s) := by
  rw [receive_query hr hd, judgeRequest_query, if_pos form, replyTo_query_refused (by simp)]

/-- A command of bad form is answered BAD_REQUEST. -/
theorem receive_command_bad {d tag k : Byte} {args : List Byte} {s : State}
    (hr : canReceive s = true) (hd : d.toNat = s.own) (short : args.length ≤ 56)
    (form : commandFormOk k.toNat args = false) :
    receive (commandFrame d tag k args) s =
      placeReply (commandReply s tag k .badRequest) (afterRequest s) :=
  receive_command d tag k args s hr hd short _ _ (judgeRequest_badForm form)

theorem pageCountOf_unknown (s : State) {k : Nat} (h : k = 0 ∨ 8 < k) : pageCountOf s k = 1 := by
  unfold pageCountOf
  split <;> omega

/-- A command of a kind of the table with other arguments, and its instruction. -/
theorem bad_command_listed {d tag : Byte} {args : List Byte} {k : Nat} {x : Instr}
    (h : k = 1 ∧ x = .clearFactors d tag args ∧
         ¬(args.length = 3 ∧ factorSetAt args 0 &&& unnamedCodes = 0) ∨
       k = 2 ∧ x = .setMask d tag args ∧
         ¬(args.length = 3 ∧ factorSetAt args 0 &&& unnamedCodes = 0) ∨
       k = 3 ∧ x = .testOutput d tag args ∧
         ¬(args.length = 2 ∧ 1 ≤ byteAt args 0 ∧ byteAt args 0 ≤ 6 ∧ 1 ≤ byteAt args 1 ∧
           byteAt args 1 ≤ 60) ∨
       k = 4 ∧ x = .linecheck d tag args ∧ ¬(args.length = 3 ∧ byteAt args 0 ≠ 0) ∨
       k = 5 ∧ x = .retire d tag args ∧
         ¬(args.length = 1 ∧ 1 ≤ byteAt args 0 ∧ byteAt args 0 ≤ 32) ∨
       k = 6 ∧ x = .restart d tag args ∧ args ≠ [] ∨
       k = 7 ∧ x = .clearQuality d tag args ∧ args ≠ []) :
    (k, x) ∈ commandInstrs d tag args ∧ ¬ArgumentsFit k args := by
  rcases h with ⟨rfl, rfl, h⟩ | ⟨rfl, rfl, h⟩ | ⟨rfl, rfl, h⟩ | ⟨rfl, rfl, h⟩ | ⟨rfl, rfl, h⟩ |
    ⟨rfl, rfl, h⟩ | ⟨rfl, rfl, h⟩ <;> exact ⟨by simp [commandInstrs], h⟩

/-- The fifteen instructions of the queries and the commands. -/
def requestInstrs (d tag page : Byte) (args : List Byte) : List Instr :=
  (queryInstrs d tag page ++ commandInstrs d tag args).map Prod.snd

theorem exec_elsewhere {d tag page : Byte} {args : List Byte} {s : State} (hr : canReceive s = true)
    (dest : isDestination d = true) (own : d.toNat ≠ s.own) (all : d ≠ 255)
    (short : args.length ≤ 56) :
    ∀ x ∈ requestInstrs d tag page args, exec x s = .next (afterRequest s) := by
  intro x hx
  obtain ⟨⟨k, _⟩, listed, rfl⟩ := List.mem_map.mp hx
  rcases List.mem_append.mp listed with h | h
  · rw [(exec_query h s).2]
    exact congrArg Host.Outcome.next (receive_elsewhere hr (query_wf d tag _ page dest) own all)
  · rw [(exec_command h s).2]
    exact congrArg Host.Outcome.next (receive_elsewhere hr (command_wf d tag _ args dest short) own all)

theorem exec_query_broadcast {tag page : Byte} {s : State} (hr : canReceive s = true)
    (due : NoRestartDue s) :
    ∀ x ∈ (queryInstrs 255 tag page).map Prod.snd, exec x s = .next (afterRequest s) := by
  intro x hx
  obtain ⟨⟨k, _⟩, listed, rfl⟩ := List.mem_map.mp hx
  rw [(exec_query listed s).2, receive_query_broadcast hr due]

/-- Settles O29. -/
theorem badAndOtherRequests : Obligations.BadAndOtherRequests := by
  unfold Obligations.BadAndOtherRequests
  refine ⟨fun d tag page s hr hd => ⟨?_, ?_, ?_⟩, ?_, ?_, ?_⟩
  · intro k x listed above
    obtain ⟨hk, run⟩ := exec_query listed s
    rw [run, receive_query_bad hr hd (formOk_query_page (s := afterRequest s) hk.2 above), byteOf_kind hk.2]
  · intro k hk
    have unknown : Request.unknown (.query ⟨d, tag, k, page⟩) = true := by
      simp only [Request.unknown, decide_eq_true_eq]
      omega
    have answered := receive_query_bad (page := page) hr hd (formOk_unknown _ _ unknown)
    rw [pageCountOf_unknown s hk] at answered
    exact congrArg Host.Outcome.next answered
  · intro k args short hk
    exact congrArg Host.Outcome.next (receive_command_bad hr hd short (commandFormOk_unknown _ args hk))
  · intro d tag args k x s hr short bad
    obtain ⟨listed, unfit⟩ := bad_command_listed bad
    obtain ⟨hk, run⟩ := exec_command listed s
    have form : commandFormOk (byteOf k).toNat args = false := by
      rw [byteOf_kind (by omega)]
      exact commandFormOk_eq_false hk unfit
    rw [run]
    refine ⟨fun hd => congrArg Host.Outcome.next (receive_command_bad hr hd short form), ?_⟩
    rintro rfl due
    exact congrArg Host.Outcome.next
      (receive_badForm_broadcast hr (command_wf 255 tag _ args rfl short) rfl form due)
  · intro d tag page args s hr dest own all short
    exact exec_elsewhere hr dest own all short
  · intro r s hr wf unknown due
    refine ⟨fun own => congrArg Host.Outcome.next ?_, fun tag page => exec_query_broadcast hr due⟩
    by_cases all : requestDest r = 255
    · exact receive_badForm_broadcast hr wf all (formOk_unknown _ r unknown) due
    · exact receive_elsewhere hr wf own all

/-! ### Requests that are refused -/

theorem receive_query_refused {d tag page : Byte} {k : Nat} {s : State} (hr : canReceive s = true)
    (hd : d.toNat = s.own) (hk : 1 ≤ k ∧ k ≤ 8) (blocked : s.rct.membership = .blocked)
    (other : k ≠ 1 ∧ k ≠ 7) (page_lt : page.toNat < pageCountOf s k) :
    receive (queryFrame d tag (byteOf k) page) s =
      placeReply (refusedQuery s tag (byteOf k) page .refused (pageCountOf s k)) (afterRequest s) := by
  have refused : servedIn (afterRequest s).rct.membership (.query ⟨d, tag, byteOf k, page⟩) = false := by
    rw [← Bool.not_eq_true, servedIn_query hk.2]
    exact fun h => h.elim (fun h => h blocked) fun h => h.elim other.1 other.2
  rw [receive_query hr hd, judgeRequest_query, if_neg (by rw [formOk_query (s := afterRequest s) hk page_lt]; decide),
    if_pos refused, replyTo_query_refused (by simp), byteOf_kind hk.2]

theorem receive_command_blocked {d tag k : Byte} {args : List Byte} {s : State}
    (hr : canReceive s = true) (hd : d.toNat = s.own) (short : args.length ≤ 56)
    (blocked : s.rct.membership = .blocked) (form : commandFormOk k.toNat args = true) (hk : k ≠ 6) :
    receive (commandFrame d tag k args) s =
      placeReply (commandReply s tag k .refused) (afterRequest s) :=
  receive_command d tag k args s hr hd short _ _ (judgeRequest_blocked d tag k args _ form blocked hk)

theorem blocked_query_listed {d tag page : Byte} {k : Nat} {x : Instr}
    (h : (k, x) ∈ [(2, Instr.queryCircuits d tag page), (3, .queryOutputs d tag page),
      (4, .querySensors d tag page), (5, .queryRoster d tag page),
      (6, .queryAllotment d tag page), (8, .queryQuality d tag page)]) :
    (k, x) ∈ queryInstrs d tag page ∧ k ≠ 1 ∧ k ≠ 7 := by
  simp only [List.mem_cons, List.not_mem_nil, or_false, Prod.mk.injEq] at h
  rcases h with ⟨rfl, rfl⟩ | ⟨rfl, rfl⟩ | ⟨rfl, rfl⟩ | ⟨rfl, rfl⟩ | ⟨rfl, rfl⟩ | ⟨rfl, rfl⟩ <;>
    exact ⟨by simp [queryInstrs], by decide, by decide⟩

/-- Settles O30. -/
theorem refusedRequestsChangeNothing : Obligations.RefusedRequestsChangeNothing := by
  unfold Obligations.RefusedRequestsChangeNothing
  intro d tag s hr hd
  refine ⟨fun blocked => ⟨?_, ?_, ?_, ?_, ?_⟩, ?_⟩
  · intro page k x listed page_lt
    obtain ⟨listed, other⟩ := blocked_query_listed listed
    obtain ⟨hk, run⟩ := exec_query listed s
    rw [run, receive_query_refused hr hd hk blocked other page_lt]
  · intro a b c named
    exact ⟨congrArg Host.Outcome.next
        (receive_command_blocked (k := 1) hr hd (by simp) blocked (commandFormOk_clear a b c named) (by decide)),
      congrArg Host.Outcome.next
        (receive_command_blocked (k := 2) hr hd (by simp) blocked (commandFormOk_mask a b c named) (by decide))⟩
  · intro o n range
    exact congrArg Host.Outcome.next
      (receive_command_blocked (k := 3) hr hd (by simp) blocked (commandFormOk_test o n range) (by decide))
  · intro k a b nonzero
    exact congrArg Host.Outcome.next (receive_command_blocked (k := 4) hr hd (by simp) blocked
      (commandFormOk_linecheck k a b nonzero) (by decide))
  · exact congrArg Host.Outcome.next (receive_command_blocked (k := 7) hr hd (by simp) blocked rfl (by decide))
  · intro a h1 h32
    exact congrArg Host.Outcome.next (receive_command d tag 5 [a] s hr hd (by simp) _ _
      (judgeRequest_addressedRetire (not_broadcast_own d s hd) h1 h32))

end Sys2Proof.Machine
end

section
/-! PROOFS. What the commands of the service tool do once they are served (R163, R170 to R175, R179, R180),
and how a TEST_OUTPUT is judged (R128). -/

namespace Sys2Proof.Machine

/-! ### A command that is served -/

theorem receive_command_served {d tag k : Byte} {args : List Byte} {s : State}
    (hr : canReceive s = true) (hd : d.toNat = s.own) (short : args.length ≤ 56)
    (form : commandFormOk k.toNat args = true) (retire : k ≠ 5)
    (served : s.rct.membership ≠ .blocked ∨ k = 6) :
    receive (commandFrame d tag k args) s =
      placeReply (commandReply s tag k (serveCommand k.toNat args (afterRequest s)).1)
        (serveCommand k.toNat args (afterRequest s)).2 :=
  receive_command d tag k args s hr hd short _ _
    (judgeRequest_served d tag k args (afterRequest s) form (.inl retire) served)

theorem receive_broadcast_served {tag k : Byte} {args : List Byte} {s : State}
    (hr : canReceive s = true) (short : args.length ≤ 56)
    (form : commandFormOk k.toNat args = true) (served : s.rct.membership ≠ .blocked ∨ k = 6)
    (due : NoRestartDue (serveCommand k.toNat args (afterRequest s)).2) :
    receive (commandFrame 255 tag k args) s = (serveCommand k.toNat args (afterRequest s)).2 :=
  receive_command_broadcast tag k args s hr short _ _
    (judgeRequest_served 255 tag k args (afterRequest s) form (.inr rfl) served) due

theorem receive_broadcast_blocked {tag k : Byte} {args : List Byte} {s : State}
    (hr : canReceive s = true) (short : args.length ≤ 56)
    (form : commandFormOk k.toNat args = true) (blocked : s.rct.membership = .blocked) (hk : k ≠ 6)
    (due : NoRestartDue s) : receive (commandFrame 255 tag k args) s = afterRequest s :=
  receive_command_broadcast tag k args s hr short _ _
    (judgeRequest_blocked 255 tag k args (afterRequest s) form blocked hk) due

/-! ### Addressed and broadcast -/

/-- A TEST_OUTPUT or a LINECHECK starts at most a test or an emission; no command but RESTART and RETIRE
touches the restart or the REPLY slot. -/
theorem serveCommand_keeps {k : Nat} (retire : k ≠ 5) (restart : k ≠ 6) (args : List Byte) (s : State) :
    (serveCommand k args s).2.srv = s.srv ∧
      (serveCommand k args s).2.lif.replySlot = s.lif.replySlot := by
  unfold serveCommand
  split
  case h_3 =>
    cases outputOf (byteAt args 0) with
    | none => exact ⟨rfl, rfl⟩
    | some o =>
      dsimp only [serveTest]
      split <;> exact ⟨rfl, rfl⟩
  case h_4 =>
    unfold serveLinecheck
    split <;> exact ⟨rfl, rfl⟩
  case h_5 => exact absurd rfl retire
  case h_6 => exact absurd rfl restart
  all_goals exact ⟨rfl, rfl⟩

theorem judgeRequest_keeps {d tag k : Byte} (retire : k ≠ 5) (restart : k ≠ 6) (args : List Byte)
    (s : State) :
    (judgeRequest (.command ⟨d, tag, k, args⟩) s).2.srv = s.srv ∧
      (judgeRequest (.command ⟨d, tag, k, args⟩) s).2.lif.replySlot = s.lif.replySlot := by
  have kind : ∀ n : Byte, k ≠ n → k.toNat ≠ n.toNat := fun n h e => h (BitVec.eq_of_toNat_eq e)
  have keeps := serveCommand_keeps (kind 5 retire) (kind 6 restart) args s
  unfold judgeRequest
  split
  · exact ⟨rfl, rfl⟩
  split
  · exact ⟨rfl, rfl⟩
  split
  · exact ⟨rfl, rfl⟩
  · exact keeps

/-- The judgement of a command other than RETIRE does not look at its destination. -/
theorem judgeRequest_dest {d e tag k : Byte} (retire : k ≠ 5) (args : List Byte) (s : State) :
    judgeRequest (.command ⟨d, tag, k, args⟩) s = judgeRequest (.command ⟨e, tag, k, args⟩) s := by
  have addressed : ∀ x : Byte, addressedRetire (.command ⟨x, tag, k, args⟩) = false := fun x =>
    decide_eq_false fun h => retire h.1
  unfold judgeRequest
  rw [addressed d, addressed e]
  rfl

/-- R162, R163: a command other than RETIRE and RESTART, addressed and broadcast. -/
theorem receive_both_forms {d tag k : Byte} {args : List Byte} {s : State} (hr : canReceive s = true)
    (hd : d.toNat = s.own) (short : args.length ≤ 56) (due : NoRestartDue s) (retire : k ≠ 5)
    (restart : k ≠ 6) :
    ∃ t, receive (commandFrame d tag k args) s = t ∧
      receive (commandFrame 255 tag k args) s =
        { t with lif := { t.lif with replySlot := s.lif.replySlot } } := by
  obtain ⟨srv, reply⟩ := judgeRequest_keeps (d := 255) (tag := tag) retire restart args (afterRequest s)
  have due' : NoRestartDue (judgeRequest (.command ⟨255, tag, k, args⟩) (afterRequest s)).2 := by
    unfold NoRestartDue
    rw [srv, reply]
    exact due
  refine ⟨_, receive_command d tag k args s hr hd short _ _
    (judgeRequest_dest (d := d) (e := 255) retire args (afterRequest s)), ?_⟩
  rw [receive_command_broadcast tag k args s hr short _ _ rfl due']
  have slot : s.lif.replySlot =
      (judgeRequest (.command ⟨255, tag, k, args⟩) (afterRequest s)).2.lif.replySlot := reply.symm
  rw [slot]
  rfl

/-- Settles O31. -/
theorem broadcastsActWithoutReply : Obligations.BroadcastsActWithoutReply := by
  unfold Obligations.BroadcastsActWithoutReply
  intro d tag args s hr hd short due
  have both : ∀ (k : Byte) (x : Byte → Byte → List Byte → Instr), k ≠ 5 → k ≠ 6 →
      (∀ e, exec (x e tag args) s = .next (receive (commandFrame e tag k args) s)) →
      ∃ t, exec (x d tag args) s = .next t ∧
        exec (x 255 tag args) s =
          .next { t with lif := { t.lif with replySlot := s.lif.replySlot } } := by
    intro k x retire restart run
    obtain ⟨t, addressed, broadcast⟩ := receive_both_forms (tag := tag) hr hd short due retire restart
    exact ⟨t, by rw [run, addressed], by rw [run, broadcast]⟩
  simp only [List.forall_mem_cons, List.not_mem_nil, false_implies, implies_true, and_true]
  exact ⟨both 1 _ (by decide) (by decide) fun _ => rfl, both 2 _ (by decide) (by decide) fun _ => rfl,
    both 3 _ (by decide) (by decide) fun _ => rfl, both 4 _ (by decide) (by decide) fun _ => rfl,
    both 7 _ (by decide) (by decide) fun _ => rfl⟩

/-! ### Factors -/

/-- The bits of a number of several bytes, its lowest byte first. -/
theorem testBit_bytes (a : Byte) (m i : Nat) :
    (a.toNat + 256 * m).testBit i = if i < 8 then a.getLsbD i else m.testBit (i - 8) := by
  rw [Nat.add_comm, show 256 = 2 ^ 8 from rfl, Nat.testBit_two_pow_mul_add m a.isLt i,
    BitVec.testBit_toNat]

theorem factorSetAt_getLsbD (l : List Byte) (i : Fin 24) :
    (factorSetAt l 0).getLsbD i.val = (l.getD (i.val / 8) 0).getLsbD (i.val % 8) := by
  unfold factorSetAt byteAt
  rw [BitVec.getLsbD_ofNat, testBit_bytes, testBit_bytes, BitVec.testBit_toNat, decide_eq_true i.isLt,
    Bool.true_and]
  have hi := i.isLt
  by_cases first : i.val < 8
  · rw [if_pos first, Nat.div_eq_of_lt first, Nat.mod_eq_of_lt first]
  by_cases second : i.val < 16
  · rw [if_neg first, if_pos (by omega), show i.val / 8 = 1 by omega, show i.val % 8 = i.val - 8 by omega]
  · rw [if_neg first, if_neg (by omega), show i.val / 8 = 2 by omega,
      show i.val % 8 = i.val - 8 - 8 by omega]

theorem factorTerms : FactorTerms where
  codes := by decide
  held _ _ := rfl
  unnamed := by decide
  set := factorSetAt_getLsbD
  raised _ _ := ⟨rfl, rfl⟩

/-- Settles O32. -/
theorem factorCommandsAct : Obligations.FactorCommandsAct := by
  unfold Obligations.FactorCommandsAct
  refine ⟨factorTerms, ?_, ?_⟩
  · intro d tag a b c s hr member named
    have form := commandFormOk_clear a b c named
    refine ⟨fun hd => congrArg Host.Outcome.next
      (receive_command_served (k := 1) hr hd (by simp) form (by decide) (.inl member)), ?_⟩
    rintro rfl due
    exact congrArg Host.Outcome.next
      (receive_broadcast_served (k := 1) hr (by simp) form (.inl member) due)
  · intro d tag a b c s hr member named
    have form := commandFormOk_mask a b c named
    refine ⟨fun hd => congrArg Host.Outcome.next
      (receive_command_served (k := 2) hr hd (by simp) form (by decide) (.inl member)), ?_⟩
    rintro rfl due
    exact congrArg Host.Outcome.next
      (receive_broadcast_served (k := 2) hr (by simp) form (.inl member) due)

/-! ### Line quality and the emission -/

/-- Settles O33. -/
theorem clearQualityClearsTheTable : Obligations.ClearQualityClearsTheTable := by
  unfold Obligations.ClearQualityClearsTheTable
  intro d tag s hr
  refine ⟨fun member => ⟨fun hd => congrArg Host.Outcome.next
    (receive_command_served (k := 7) hr hd (by simp) rfl (by decide) (.inl member)), ?_⟩,
    fun blocked => ⟨fun hd => congrArg Host.Outcome.next
      (receive_command_blocked (k := 7) hr hd (by simp) blocked rfl (by decide)), ?_⟩⟩
  · rintro rfl due
    exact congrArg Host.Outcome.next
      (receive_broadcast_served (k := 7) hr (by simp) rfl (.inl member) due)
  · rintro rfl due
    exact congrArg Host.Outcome.next
      (receive_broadcast_blocked (k := 7) hr (by simp) rfl blocked (by decide) due)

/-- A LINECHECK that starts nothing is answered with its judgement (R153). -/
theorem serveLinecheck_turnedAway {count : Nat} {seed : Word16} {s : State} {r : Result}
    (judged : judgeLinecheck s = r) (other : r ≠ .accepted) : serveLinecheck count seed s = (r, s) := by
  unfold serveLinecheck
  rw [judged]
  cases r <;> simp_all

theorem receive_linecheck {d tag k a b : Byte} {s : State} (hr : canReceive s = true)
    (hd : d.toNat = s.own) (nonzero : k ≠ 0) (member : s.rct.membership ≠ .blocked) {r : Result}
    {t : State}
    (served : serveLinecheck k.toNat (BitVec.ofNat 16 (a.toNat * 256 + b.toNat)) (afterRequest s) = (r, t)) :
    exec (.linecheck d tag [k, a, b]) s = .next (placeReply (commandReply s tag 4 r) t) :=
  congrArg Host.Outcome.next (receive_command d tag 4 [k, a, b] s hr hd (by simp) r t
    ((judgeRequest_served d tag 4 [k, a, b] (afterRequest s) (commandFormOk_linecheck k a b nonzero)
      (.inl (by decide)) (.inl member)).trans served))

/-- Settles O34. -/
theorem linecheckStartsEmission : Obligations.LinecheckStartsEmission := by
  unfold Obligations.LinecheckStartsEmission
  intro d tag k a b s hr hd nonzero member
  refine ⟨fun bids idle => ?_, fun bids runs => ?_, fun silent => ?_⟩
  · have judged : judgeLinecheck (afterRequest s) = .accepted := by
      simp [judgeLinecheck, afterRequest, bids, idle]
    refine ⟨_, receive_linecheck hr hd nonzero member (by unfold serveLinecheck; rw [judged]), ?_⟩
    exact ⟨rfl, rfl, rfl, rfl, rfl, rfl, rfl, rfl, rfl, rfl, rfl, rfl⟩
  · exact receive_linecheck hr hd nonzero member
      (serveLinecheck_turnedAway (by simp [judgeLinecheck, afterRequest, bids, runs]) (by decide))
  · exact receive_linecheck hr hd nonzero member
      (serveLinecheck_turnedAway (by simp [judgeLinecheck, afterRequest, silent]) (by decide))

/-! ### Tests that are turned away -/

/-- R128: the output is a free spare, or bound to a circuit in an energizable state. -/
def testableRole (p : Plant) (o : Fin 6) : Bool :=
  match p.ogd.outputs[o].role with
  | .primary c => p.cct[c].state.energizable
  | .spareBound c => p.cct[c].state.energizable
  | .spareFree => true
  | .unused => false
  | .bad => false

theorem testableRole_iff (p : Plant) (o : Fin 6) :
    testableRole p o = true ↔ p.ogd.outputs[o].role = .spareFree ∨
      ∃ c, p.ogd.outputs[o].role.circuit = some c ∧ p.cct[c].state.energizable = true := by
  unfold testableRole
  cases p.ogd.outputs[o].role <;> simp [Role.circuit]

theorem judgeTest_busy {e : Env} {p : Plant} {o : Fin 6} (h : p.ogd.test ≠ none) :
    judgeTest e p o = .busy :=
  if_pos (Option.isSome_iff_ne_none.mpr h)

/-- R128: the judgement of a test while none is in progress. -/
theorem judgeTest_idle {e : Env} {p : Plant} {o : Fin 6} (h : p.ogd.test = none) :
    judgeTest e p o =
      if e.membership.bids && testableRole p o && decide (p.ogd.outputs[o].limit.level = some false) &&
          testHasRoom e p o then .accepted
      else .refused :=
  (if_neg (by simp [h])).trans rfl

theorem serveTest_turnedAway {o : Fin 6} {seconds : Nat} {s : State} {r : Result}
    (judged : judgeTest s.env s.plant o = r) (other : r ≠ .accepted) :
    serveTest o seconds s = (r, s) := by
  unfold serveTest
  rw [judged]
  cases r <;> simp_all

theorem byteOf_output (o : Fin 6) : (byteOf (o.val + 1)).toNat = o.val + 1 :=
  byteOf_kind (by omega)

/-- A TEST_OUTPUT in range is handed to the Output Guard (R171). -/
theorem exec_testOutput {d tag n : Byte} {o : Fin 6} {s : State} (hr : canReceive s = true)
    (hd : d.toNat = s.own) (duration : 1 ≤ n.toNat ∧ n.toNat ≤ 60)
    (member : s.rct.membership ≠ .blocked) {r : Result} {t : State}
    (served : serveTest o n.toNat (afterRequest s) = (r, t)) :
    exec (.testOutput d tag [byteOf (o.val + 1), n]) s =
      .next (placeReply (commandReply s tag 3 r) t) := by
  have number := byteOf_output o
  have form := commandFormOk_test (byteOf (o.val + 1)) n (by rw [number]; omega)
  have handed : serveCommand 3 [byteOf (o.val + 1), n] (afterRequest s) = (r, t) := by
    have output : outputOf (byteAt [byteOf (o.val + 1), n] 0) = some o :=
      (outputOf_eq_some_iff _ _).mpr number
    unfold serveCommand
    rw [output]
    exact served
  exact congrArg Host.Outcome.next (receive_command d tag 3 _ s hr hd (by simp) r t
    ((judgeRequest_served d tag 3 _ (afterRequest s) form (.inl (by decide)) (.inl member)).trans handed))

/-- Settles O38. -/
theorem otherTestsAreTurnedAway : Obligations.OtherTestsAreTurnedAway := by
  unfold Obligations.OtherTestsAreTurnedAway
  intro d tag o n s hr hd low high member
  refine ⟨fun running => ?_, fun idle unfit => ?_⟩
  · exact exec_testOutput hr hd ⟨low, high⟩ member
      (serveTest_turnedAway (judgeTest_busy (p := (afterRequest s).plant) running) (by decide))
  · have judged : judgeTest (afterRequest s).env (afterRequest s).plant o = .refused := by
      rw [judgeTest_idle (p := (afterRequest s).plant) idle]
      refine if_neg ?_
      rw [Bool.and_eq_true, Bool.and_eq_true, Bool.and_eq_true, testableRole_iff, decide_eq_true_eq]
      rintro ⟨⟨⟨bids, role⟩, limit⟩, room⟩
      rcases unfit with h | h | ⟨c, hc, h⟩ | h | h | h
      · exact role.elim (fun r => nomatch h.symm.trans r) fun ⟨c, hc, _⟩ => nomatch
          (congrArg Role.circuit h).symm.trans hc
      · exact role.elim (fun r => nomatch h.symm.trans r) fun ⟨c, hc, _⟩ => nomatch
          (congrArg Role.circuit h).symm.trans hc
      · refine role.elim (fun r => nomatch (congrArg Role.circuit r).symm.trans hc) fun ⟨b, hb, on⟩ => ?_
        cases hb.symm.trans hc
        exact absurd (on.symm.trans h) (by decide)
      · exact h limit
      · exact absurd (bids.symm.trans h) (by decide)
      · exact absurd (of_decide_eq_true room) (Nat.not_le.mpr h)
    exact exec_testOutput hr hd ⟨low, high⟩ member (serveTest_turnedAway judged (by decide))

/-! ### Restart -/

theorem receive_restart_broadcast {tag : Byte} {s : State} (hr : canReceive s = true) :
    receive (commandFrame 255 tag 6 []) s = takeRestart { afterRequest s with srv := ⟨true⟩ } := by
  unfold commandFrame
  rw [receive_broadcast _ s hr (command_wf 255 tag 6 [] rfl (by simp)) rfl,
    judgeRequest_served 255 tag 6 [] (afterRequest s) rfl (.inr rfl) (.inr rfl)]
  rfl

theorem restartTaken_output (s : State) (o : Fin 6) :
    (restartTaken s).plant.ogd.outputs[o].energized = false ∧
      ((restartTaken s).plant.ogd.outputs[o].role = .bad ↔ s.plant.ogd.outputs[o].role = .bad) := by
  obtain ⟨n, row⟩ := allOff_row s.plant o
  have role : (allOff s.plant).ogd.outputs[o].role = s.plant.ogd.outputs[o].role := by
    rw [row]
    split <;> rfl
  have kept : (restartTaken s).plant.ogd.outputs[o] = restartRow (allOff s.plant).ogd.outputs[o] :=
    mapRows_get (allOff s.plant).ogd.outputs (fun _ r => restartRow r) o
  rw [kept, restartRow, role]
  refine ⟨rfl, ?_⟩
  by_cases bad : s.plant.ogd.outputs[o].role = .bad <;> simp [bad, -Fin.getElem_fin]

/-- Settles O36. -/
theorem restartWaitsForTheReply : Obligations.RestartWaitsForTheReply := by
  unfold Obligations.RestartWaitsForTheReply
  intro d tag s hr
  refine ⟨fun hd => ?_, fun waits => ?_, fun empty => ?_⟩
  · exact congrArg Host.Outcome.next
      (receive_command_served (k := 6) hr hd (by simp) rfl (by decide) (.inr rfl))
  · exact congrArg Host.Outcome.next
      ((receive_restart_broadcast hr).trans (takeRestart_notDue _ (.inr waits)))
  · have taken : takeRestart { afterRequest s with srv := ⟨true⟩ } =
        restartTaken { afterRequest s with srv := ⟨true⟩ } := if_pos (by simp [afterRequest, empty])
    refine ⟨_, congrArg Host.Outcome.next ((receive_restart_broadcast hr).trans taken),
      rfl, rfl, rfl, rfl, rfl, fun o => ?_⟩
    exact restartTaken_output { afterRequest s with srv := ⟨true⟩ } o

end Sys2Proof.Machine
end

section
/-! PROOFS. The commands of the circuits, outputs and pins that take no trip: the settle timer (R74), the
filters (R115 to R117), the limits (R116), the overload (R121), the hold-off and the trip-clear time (R79,
R124, R125). -/

namespace Sys2Proof.Machine

/-! ### Row updates -/

/-- Two plants that are the same leave the same station. -/
theorem plant_next {s : State} {p q : Plant} (h : p = q) :
    (Host.Outcome.next { s with plant := p } : Answer) = .next { s with plant := q } := by
  rw [h]

theorem ratedOf_updOut (p : Plant) (o c : Fin 6) (f : OutputRow → OutputRow)
    (role : (f p.ogd.outputs[o]).role = p.ogd.outputs[o].role)
    (rated : (f p.ogd.outputs[o]).rated = p.ogd.outputs[o].rated) :
    (p.updOut o f).ogd.ratedOf c = p.ogd.ratedOf c := by
  have row : ∀ j : Fin 6, (p.updOut o f).ogd.outputs[j].role = p.ogd.outputs[j].role ∧
      (p.updOut o f).ogd.outputs[j].rated = p.ogd.outputs[j].rated := by
    intro j
    by_cases h : j = o
    · rw [h, updOut_row]
      exact ⟨role, rated⟩
    · rw [updOut_other p o j f h]
      exact ⟨rfl, rfl⟩
  exact ratedOf_congr (boundTo_congr _ _ c fun j => (row j).1) fun j => (row j).2

theorem updAt_updAt {α : Type} {n : Nat} (v : Vector α n) (i : Fin n) (f g : α → α) :
    updAt (updAt v i f) i g = updAt v i fun x => g (f x) := by
  refine Vector.ext fun k hk => ?_
  simp only [updAt_getElem]
  split
  · exact congrArg g ((updAt_get v i i f).trans (if_pos rfl))
  · rfl

theorem updOut_updOut (p : Plant) (o : Fin 6) (f g : OutputRow → OutputRow) :
    (p.updOut o f).updOut o g = p.updOut o fun r => g (f r) := by
  unfold Plant.updOut
  rw [updAt_updAt]

/-! ### The settle timer -/

theorem settleExpiry_running {e : Env} {c : Fin 6} {p : Plant} (running : p.cct[c].settle ≠ .stopped) :
    settleExpiry e c p =
      (let lost := decide (p.cct[c].state = .settling) && (formTemperature e c).1.isNone
       (p.updCct c fun r =>
         { r with settle := .stopped, state := if lost then .sensorLost else r.state }).raiseIf lost
           .sensorLost) :=
  if_neg running

/-- Settles O44. -/
theorem settleTimerExpires : Obligations.SettleTimerExpires := by
  unfold Obligations.SettleTimerExpires
  intro c s running
  have expiry := settleExpiry_running (e := s.env) running
  refine ⟨fun ⟨settling, unformed⟩ => plant_next ?_, fun other => plant_next ?_⟩
  · rw [expiry, settling, unformed]
    rfl
  · have stays : (decide (s.plant.cct[c].state = .settling) && (formTemperature s.env c).1.isNone) =
        false := by
      rw [Bool.and_eq_false_iff, decide_eq_false_iff_not, ← Bool.not_eq_true, Option.isNone_iff_eq_none]
      exact Classical.not_and_iff_not_or_not.mp other
    rw [expiry, stays]
    rfl

/-! ### Levels and filters -/

theorem rawMoved_eq (raw : Bool) (f : Filter) : rawMoved raw f = rawChange raw f := by
  obtain ⟨level, held⟩ := f
  cases level <;> rfl

theorem filterTo_running {x l : Bool} {f : Filter} (h : f.level = some l) :
    filterTo x f = ⟨some x, none⟩ := by
  unfold filterTo
  rw [h]

/-- A pin whose level is set to what it is moves no filter. -/
theorem rawStep_same (x : Bool) (f : Filter) : rawStep x x f = f := if_pos rfl

theorem rawStep_moved {old new : Bool} (h : new ≠ old) (f : Filter) : rawStep old new f = rawMoved new f :=
  (if_neg h).trans (rawMoved_eq new f).symm

theorem limit_input (o : Fin 6) (x : Bool) (s : State) :
    (x = s.pins.limitOpen[o] → exec (.rawInputChange (.limit o x)) s = .next s) ∧
    (x ≠ s.pins.limitOpen[o] → exec (.rawInputChange (.limit o x)) s = .next { s with
      pins := { s.pins with limitOpen := s.pins.limitOpen.set o x },
      plant := s.plant.updOut o fun r => { r with limit := rawMoved x r.limit } }) := by
  have run : exec (.rawInputChange (.limit o x)) s = .next { s with
      pins := { s.pins with limitOpen := s.pins.limitOpen.set o x },
      plant := s.plant.updOut o fun r => { r with limit := rawStep s.pins.limitOpen[o] x r.limit } } := rfl
  rw [run]
  refine ⟨fun same => ?_, fun moved => ?_⟩
  · have level : s.pins.limitOpen.set o s.pins.limitOpen[o] = s.pins.limitOpen :=
      Vector.set_getElem_self o.isLt
    rw [same, level, updOut_self s.plant o _ (by rw [rawStep_same])]
  · have filter : s.plant.updOut o (fun r => { r with limit := rawStep s.pins.limitOpen[o] x r.limit }) =
        s.plant.updOut o fun r => { r with limit := rawMoved x r.limit } :=
      updOut_congr s.plant o _ _ (by rw [rawStep_moved moved])
    rw [filter]

theorem flow_input (x : Bool) (s : State) :
    (x = s.pins.flow → exec (.rawInputChange (.flow x)) s = .next s) ∧
    (x ≠ s.pins.flow → exec (.rawInputChange (.flow x)) s = .next { s with
      pins := { s.pins with flow := x },
      plant := { s.plant with ogd := { s.plant.ogd with flow := rawMoved x s.plant.ogd.flow } } }) := by
  have run : exec (.rawInputChange (.flow x)) s = .next { s with
      pins := { s.pins with flow := x },
      plant := { s.plant with ogd :=
        { s.plant.ogd with flow := rawStep s.pins.flow x s.plant.ogd.flow } } } := rfl
  rw [run]
  refine ⟨fun same => ?_, fun moved => ?_⟩
  · rw [same, rawStep_same]
  · rw [rawStep_moved moved]

theorem underTest_some {g : Ogd} {t : TestRecord} (h : g.test = some t) (o : Fin 6) :
    g.underTest o = decide (t.output = o) := by
  unfold Ogd.underTest
  rw [h]

/-- The leakage current of the moment on an output that is on (R127, R129). -/
theorem notePeak_on {e : Env} {o : Fin 6} {p : Plant} (on : p.ogd.outputs[o].energized = true) :
    notePeak e o p =
      (p.updOut o fun r =>
        { r with health := { r.health with peak := max r.health.peak (e.leakageNow o) } }).setTest
          (p.ogd.test.map fun t =>
            if t.output = o then { t with peak := max t.peak (e.leakageNow o) } else t) := by
  have under (f : OutputRow → OutputRow) : (p.updOut o f).ogd.underTest o = p.ogd.underTest o := rfl
  unfold notePeak
  rw [if_pos on]
  dsimp only
  rw [under]
  cases test : p.ogd.test with
  | none =>
    rw [not_underTest test, if_neg Bool.false_ne_true, Option.map_none, ← test]
    rfl
  | some t =>
    rw [underTest_some test]
    by_cases this : t.output = o
    · rw [if_pos (decide_eq_true this), Plant.updOut_test, test]
      simp only [Option.map_some, if_pos this]
    · rw [if_neg (by simp [this]), Option.map_some, if_neg this, ← test]
      rfl

theorem leakage_input (o : Fin 6) (mA : Nat) (s : State) :
    let old := decide (s.img.leakThreshold ≤ s.pins.leakage[o])
    let new := decide (s.img.leakThreshold ≤ mA)
    let f := s.plant.ogd.outputs[o].leakage
    ∃ u : Filter, (new = old → u = f) ∧ (new ≠ old → u = rawMoved new f) ∧
      (s.plant.ogd.outputs[o].energized = false →
        exec (.rawInputChange (.leakage o mA)) s = .next { s with
          pins := { s.pins with leakage := s.pins.leakage.set o mA },
          plant := s.plant.updOut o fun r => { r with leakage := u } }) ∧
      (s.plant.ogd.outputs[o].energized = true →
        exec (.rawInputChange (.leakage o mA)) s = .next { s with
          pins := { s.pins with leakage := s.pins.leakage.set o mA },
          plant := (s.plant.updOut o fun r =>
            { r with
              leakage := u,
              health := { r.health with peak := max r.health.peak (min 1000 mA) } }).setTest
                (s.plant.ogd.test.map fun t =>
                  if t.output = o then { t with peak := max t.peak (min 1000 mA) } else t) }) := by
  intro old new f
  let t : State := { s with pins := { s.pins with leakage := s.pins.leakage.set o mA } }
  have set : (s.pins.leakage.set o mA)[o] = mA := Vector.getElem_set_self o.isLt
  have raw : t.env.rawLeakage o = new := by
    show decide (s.img.leakThreshold ≤ (s.pins.leakage.set o mA)[o]) = _
    rw [set]
  have now : t.env.leakageNow o = min 1000 mA := by
    show min 1000 (s.pins.leakage.set o mA)[o] = _
    rw [set]
  have filter : s.plant.updOut o (fun r =>
      { r with leakage := rawStep (s.env.rawLeakage o) (t.env.rawLeakage o) r.leakage }) =
      s.plant.updOut o fun r => { r with leakage := rawStep old new f } :=
    updOut_congr s.plant o _ _ (by rw [raw]; rfl)
  have run : exec (.rawInputChange (.leakage o mA)) s = .next { t with
      plant := notePeak t.env o
        (s.plant.updOut o fun r => { r with leakage := rawStep old new f }) } :=
    plant_next (s := t) (congrArg (notePeak t.env o) filter)
  have level : (s.plant.updOut o fun r =>
      { r with leakage := rawStep old new f }).ogd.outputs[o].energized =
        s.plant.ogd.outputs[o].energized := by rw [updOut_row]
  refine ⟨rawStep old new f, fun same => if_pos same, fun moved => rawStep_moved moved f, fun off => ?_,
    fun on => ?_⟩
  · rw [run, notePeak, if_neg (by rw [level, off]; decide)]
  · rw [run, notePeak_on (level.trans on), updOut_updOut, now]
    rfl

theorem strap_input (b : Fin 5) (x : Bool) (s : State) :
    ∃ n : BitVec 5, exec (.rawInputChange (.strap b x)) s =
        .next { s with pins := { s.pins with straps := n } } ∧
      ∀ j : Fin 5, n.getLsbD j.val = if j = b then x else s.pins.straps.getLsbD j.val := by
  refine ⟨_, rfl, fun j => ?_⟩
  have mask : (BitVec.ofNat 5 (2 ^ b.val)).getLsbD j.val = decide (j = b) := by
    rw [BitVec.getLsbD_ofNat, decide_eq_true j.isLt, Bool.true_and, Nat.testBit_two_pow]
    exact decide_eq_decide.mpr (eq_comm.trans Fin.ext_iff.symm)
  cases x with
  | true =>
    rw [if_pos rfl, BitVec.getLsbD_or, mask]
    by_cases h : j = b <;> simp [h]
  | false =>
    rw [if_neg Bool.false_ne_true, BitVec.getLsbD_and, BitVec.getLsbD_not, mask, decide_eq_true j.isLt]
    by_cases h : j = b <;> simp [h]

/-- Settles O46. -/
theorem levelsAreFilteredAndRecorded : Obligations.LevelsAreFilteredAndRecorded := by
  unfold Obligations.LevelsAreFilteredAndRecorded
  refine ⟨fun s => ⟨fun o x => limit_input o x s, fun x => flow_input x s,
    fun o mA => leakage_input o mA s, fun b x => strap_input b x s, fun _ _ => rfl⟩,
    fun s => ⟨fun o l x running quiet => ?_, fun l x running => ?_⟩⟩
  · have recorded : s.plant.updOut o (fun r => { r with leakage := filterTo x r.leakage }) =
        s.plant.updOut o fun r => { r with leakage := ⟨some x, none⟩ } :=
      updOut_congr s.plant o _ _ (by rw [filterTo_running running])
    have still : leakageChange o x s.env s.plant =
        s.plant.updOut o fun r => { r with leakage := filterTo x r.leakage } := by
      unfold leakageChange
      dsimp only
      split
      · rename_i tripped
        rcases quiet with off | released
        · exact tripWith_still respread s.env o .leakage _ (by rw [updOut_row]; exact off)
        · rw [released, Bool.and_false] at tripped
          cases tripped
      · rfl
    exact plant_next (still.trans recorded)
  · have recorded : flowChange x s.plant =
        { s.plant with ogd := { s.plant.ogd with flow := ⟨some x, none⟩ } } := by
      unfold flowChange
      rw [filterTo_running running]
    exact plant_next recorded

/-! ### Limits -/

theorem limitChange_recorded {o : Fin 6} {l x : Bool} {p : Plant}
    (running : p.ogd.outputs[o].limit.level = some l) :
    p.updOut o (fun r => { r with limit := filterTo x r.limit }) =
      p.updOut o fun r => { r with limit := ⟨some x, none⟩ } :=
  updOut_congr p o _ _ (by rw [filterTo_running running])

/-- R116: a limit that changes is recorded, and what follows from it comes after. -/
theorem limitChange_opens {e : Env} {o : Fin 6} {p : Plant}
    (closed : p.ogd.outputs[o].limit.level = some false) :
    limitChange o true e p =
      limitOpened e o (p.updOut o fun r => { r with limit := ⟨some true, none⟩ }) := by
  have change : isChange true p.ogd.outputs[o].limit = true := decide_eq_true closed
  rw [← limitChange_recorded closed]
  unfold limitChange
  rw [change]
  rfl

theorem limitChange_closes {e : Env} {o : Fin 6} {p : Plant}
    (opened : p.ogd.outputs[o].limit.level = some true) :
    limitChange o false e p =
      limitClosed e o (p.updOut o fun r => { r with limit := ⟨some false, none⟩ }) := by
  have change : isChange false p.ogd.outputs[o].limit = true := decide_eq_true opened
  rw [← limitChange_recorded opened]
  unfold limitChange
  rw [change]
  rfl

/-- A limit that opens on an output of a circuit, which is not under test, ends no test (R116, R76). -/
theorem limitOpened_bound {e : Env} {o c : Fin 6} {p : Plant}
    (bound : p.ogd.outputs[o].role.circuit = some c) (untested : p.ogd.underTest o = false) :
    limitOpened e o p =
      (let q := switchOff o (p.raiseIf (decide (p.cct[c].state ≠ .disabled)) .limitOpen)
       if q.cct[c].state.energizable then q.updCct c inhibitedRow else q) := by
  have under : (p.raiseIf (decide (p.cct[c].state ≠ .disabled)) .limitOpen).ogd.underTest o = false :=
    untested
  unfold limitOpened
  rw [bound]
  dsimp only
  rw [if_neg (by rw [under]; decide)]

theorem limitOpened_unbound {e : Env} {o : Fin 6} {p : Plant}
    (unbound : p.ogd.outputs[o].role.circuit = none) (untested : p.ogd.underTest o = false) :
    limitOpened e o p = p := by
  unfold limitOpened
  rw [unbound]
  dsimp only
  rw [if_neg (by rw [untested]; decide)]

theorem limitClosed_unbound {e : Env} {o : Fin 6} {p : Plant}
    (unbound : p.ogd.outputs[o].role.circuit = none) : limitClosed e o p = p := by
  unfold limitClosed
  rw [unbound]

theorem limitClosed_bound {e : Env} {o c : Fin 6} {p : Plant}
    (bound : p.ogd.outputs[o].role.circuit = some c) :
    limitClosed e o p = if p.cct[c].state = .inhibited then enterSettling e c p else p := by
  unfold limitClosed
  rw [bound]

theorem held_raiseIf_true (p : Plant) {b : Bool} (h : b = true) (x : Factor) :
    (p.raiseIf b x).fct.held x = true := by
  rw [Plant.held_raiseIf, h]
  simp

/-- A limit that opens on an output of a circuit (R116, R76). -/
theorem limitChange_opens_bound {e : Env} {o c : Fin 6} {p : Plant}
    (bound : p.ogd.outputs[o].role.circuit = some c) (untested : p.ogd.underTest o = false)
    (closed : p.ogd.outputs[o].limit.level = some false) (enabled : p.cct[c].state ≠ .disabled) :
    ∃ q, limitChange o true e p = q ∧ q.fct.held .limitOpen = true ∧ q.alu = p.alu ∧
      q.ogd.outputs[o].limit.level = some true ∧ q.ogd.outputs[o].energized = false ∧
      q.cct[c] = (if p.cct[c].state.energizable then
        { p.cct[c] with state := .inhibited, onTime := 0, need := 0, settle := .stopped }
        else p.cct[c]) ∧
      (∀ j : Fin 6, j ≠ o → q.ogd.outputs[j] = p.ogd.outputs[j]) ∧
      ∀ j : Fin 6, j ≠ c → q.cct[j] = p.cct[j] := by
  have row := updOut_row p o fun r => { r with limit := ⟨some true, none⟩ }
  have others := fun j => updOut_other p o j fun r => { r with limit := ⟨some true, none⟩ }
  have shape := limitChange_opens (e := e) closed
  generalize hu : p.updOut o (fun r => { r with limit := ⟨some true, none⟩ }) = u at row others shape
  have cct : u.cct = p.cct := by rw [← hu]; rfl
  have alu : u.alu = p.alu := by rw [← hu]; rfl
  have under : u.ogd.underTest o = false := by rw [← hu]; exact untested
  rw [limitOpened_bound (c := c) (by rw [row]; exact bound) under, cct, decide_eq_true enabled] at shape
  obtain ⟨cct', -, off, fct', alu'⟩ := switchOff_facts o (u.raiseIf true .limitOpen)
  have rows := switchOff_row o (u.raiseIf true .limitOpen)
  have held := held_raiseIf_true u rfl .limitOpen
  rw [Plant.raiseIf_outputs] at rows
  rw [Plant.raiseIf_cct, cct] at cct'
  rw [Plant.raiseIf_alu, alu] at alu'
  rw [← fct'] at held
  generalize switchOff o (u.raiseIf true .limitOpen) = v at *
  have limit : v.ogd.outputs[o].limit.level = some true := by
    rw [rows, row]
    split <;> rfl
  have rest : ∀ j : Fin 6, j ≠ o → v.ogd.outputs[j] = p.ogd.outputs[j] := fun j h => by
    rw [rows, if_neg fun k => h k.1, others j h]
  dsimp only at shape
  rw [cct'] at shape
  refine ⟨_, shape, ?_⟩
  by_cases warm : p.cct[c].state.energizable = true
  · rw [if_pos warm, if_pos warm]
    exact ⟨held, alu', limit, off, (updCct_row v c _).trans (by rw [cct']; rfl), rest,
      fun j h => (updCct_other v c j _ h).trans (by rw [cct'])⟩
  · rw [if_neg warm, if_neg warm]
    exact ⟨held, alu', limit, off, by rw [cct'], rest, fun j _ => by rw [cct']⟩

/-- A circuit that enters SETTLING with its fallback need (R70, R73). -/
theorem enterSettling_row (e : Env) (c : Fin 6) (p : Plant) :
    (enterSettling e c p).cct[c] =
      { p.cct[c] with
        state := .settling, cls := some .p1, margin := none, temp := none, source := .noSource,
        setpoint := none, onTime := 0, settle := .running 0,
        need := min e.img.circuits[c].fallback (p.ogd.ratedOf c) } :=
  updCct_row p c _

theorem enterSettling_other (e : Env) {c j : Fin 6} (p : Plant) (h : j ≠ c) :
    (enterSettling e c p).cct[j] = p.cct[j] :=
  updCct_other p c j _ h

/-- Settles O47. -/
theorem limitChangesMoveTheCircuit : Obligations.LimitChangesMoveTheCircuit := by
  unfold Obligations.LimitChangesMoveTheCircuit
  refine ⟨fun o l x s unbound untested running => ?_, fun o c s bound untested =>
    ⟨fun closed enabled => ?_, fun opened => ?_⟩⟩
  · have recorded : limitChange o x s.env s.plant =
        s.plant.updOut o fun r => { r with limit := ⟨some x, none⟩ } := by
      have still : (s.plant.updOut o fun r =>
          { r with limit := filterTo x r.limit }).ogd.outputs[o].role.circuit = none := by
        rw [updOut_row]
        exact unbound
      rw [← limitChange_recorded running]
      unfold limitChange
      dsimp only
      rw [limitOpened_unbound still untested, limitClosed_unbound still, ite_self, ite_self]
    exact plant_next recorded
  · obtain ⟨q, run, facts⟩ := limitChange_opens_bound (e := s.env) bound untested closed enabled
    exact ⟨{ s with plant := q }, plant_next run, rfl,
      facts⟩
  · have row := updOut_row s.plant o fun r => { r with limit := ⟨some false, none⟩ }
    have others := fun j => updOut_other s.plant o j fun r => { r with limit := ⟨some false, none⟩ }
    have rated := ratedOf_updOut s.plant o c (fun r => { r with limit := ⟨some false, none⟩ }) rfl rfl
    have shape := limitChange_closes (e := s.env) opened
    generalize hu : s.plant.updOut o (fun r => { r with limit := ⟨some false, none⟩ }) = u
      at row others rated shape
    have cct : u.cct = s.plant.cct := by rw [← hu]; rfl
    have alu : u.alu = s.plant.alu := by rw [← hu]; rfl
    have fct : u.fct = s.plant.fct := by rw [← hu]; rfl
    rw [limitClosed_bound (c := c) (by rw [row]; exact bound), cct] at shape
    refine ⟨{ s with plant := _ }, plant_next shape, rfl,
      ?_⟩
    dsimp only
    by_cases inhibited : s.plant.cct[c].state = .inhibited
    · rw [if_pos inhibited]
      refine ⟨alu, others, fun j h => (enterSettling_other s.env u h).trans (by rw [cct]), row,
        fun _ => ?_, fun h => absurd inhibited h, fct⟩
      rw [enterSettling_row, cct, rated]
      rfl
    · rw [if_neg inhibited]
      exact ⟨alu, others, fun j _ => by rw [cct], row, fun h => absurd h inhibited, fun _ => cct, fct⟩

/-! ### Overload, hold-off and trip-clear time -/

theorem overloaded_iff (rated load : Nat) : overloaded rated load = true ↔ 5 * (10 * rated) < 4 * load := by
  rw [overloaded, decide_eq_true_eq]
  omega

/-- Settles O48. -/
theorem overloadIsExact : Obligations.OverloadIsExact := by
  unfold Obligations.OverloadIsExact
  refine ⟨overloaded_iff, fun o load s quiet => ?_⟩
  have still : overloadDetected o load s.env s.plant = s.plant := by
    refine if_neg ?_
    rw [Bool.and_eq_true, Bool.and_eq_true, decide_eq_true_eq]
    rintro ⟨⟨on, period⟩, heavy⟩
    rcases quiet with off | short | light
    · exact absurd (on.symm.trans off) (by decide)
    · omega
    · exact absurd (heavy.symm.trans light) (by decide)
  exact plant_next still

/-- The end of the hold-off of a TRIPPED circuit's output (R79, R124). -/
theorem holdOffExpiry_tripped {e : Env} {o c : Fin 6} {p : Plant}
    (runs : p.ogd.outputs[o].holdOff.isSome = true) (bound : p.ogd.outputs[o].role.circuit = some c)
    (tripped : p.cct[c].state = .tripped) :
    holdOffExpiry o e p =
      (let q := p.updOut o fun r => { r with holdOff := none }
       if q.ogd.outputs[o].limit.level = some true then q.updCct c inhibitedRow
       else enterSettling e c q) := by
  have role : (p.updOut o fun r => { r with holdOff := none }).ogd.outputs[o].role.circuit = some c := by
    rw [updOut_row]
    exact bound
  unfold holdOffExpiry
  rw [if_pos runs]
  dsimp only
  rw [role]
  exact if_pos tripped

/-- Settles O51. -/
theorem holdOffAndTripCountEnd : Obligations.HoldOffAndTripCountEnd := by
  unfold Obligations.HoldOffAndTripCountEnd
  refine ⟨fun o c s runs bound tripped => ?_, fun c s => ⟨fun reached => ?_, fun short => ?_⟩⟩
  · have row := updOut_row s.plant o fun r => { r with holdOff := none }
    have others := fun j => updOut_other s.plant o j fun r => { r with holdOff := none }
    have rated := ratedOf_updOut s.plant o c (fun r => { r with holdOff := none }) rfl rfl
    have shape := holdOffExpiry_tripped (e := s.env) runs bound tripped
    generalize hu : s.plant.updOut o (fun r => { r with holdOff := none }) = u
      at row others rated shape
    have cct : u.cct = s.plant.cct := by rw [← hu]; rfl
    have trips : u.ogd.trips = s.plant.ogd.trips := by rw [← hu]; rfl
    have fct : u.fct = s.plant.fct := by rw [← hu]; rfl
    dsimp only at shape
    rw [row] at shape
    refine ⟨{ s with plant := _ }, plant_next shape, rfl,
      ?_⟩
    dsimp only
    by_cases opened : s.plant.ogd.outputs[o].limit.level = some true
    · rw [if_pos opened]
      exact ⟨row, fun _ => (updCct_row u c _).trans (by rw [cct]; rfl), fun h => absurd opened h, trips, fct,
        others, fun j h => (updCct_other u c j _ h).trans (by rw [cct])⟩
    · rw [if_neg opened]
      refine ⟨row, fun h => absurd h opened, fun _ => ?_, trips, fct, others,
        fun j h => (enterSettling_other s.env u h).trans (by rw [cct])⟩
      rw [enterSettling_row, cct, rated]
      rfl
  · exact plant_next (if_pos reached)
  · exact plant_next (if_neg (Nat.not_le.mpr short))

end Sys2Proof.Machine
end

section
/-! PROOFS. The scan of the sensor channels and the judgement of a conversion (R96, R97, R100 to R104). -/

namespace Sys2Proof.Machine

/-! ### The order of the channels -/

theorem eightIds_getElem (k : Nat) (h : k < eightIds.length) : eightIds[k] = ⟨k, h⟩ := by
  have each : ∀ j : Fin 8, eightIds[j.val]'(by simp [eightIds]) = j := by decide
  exact each ⟨k, h⟩

/-- A search of the channels finds the lowest one that fits. -/
theorem find_eightIds (fits : Fin 8 → Bool) (j : Fin 8) :
    eightIds.find? fits = some j ↔ fits j = true ∧ ∀ k : Fin 8, k < j → fits k = false := by
  rw [List.find?_eq_some_iff_getElem]
  refine and_congr_right fun _ => ⟨?_, fun below => ⟨j.val, j.isLt, ?_, fun k hk => ?_⟩⟩
  · rintro ⟨i, hi, at', below⟩ k hk
    rw [eightIds_getElem] at at'
    subst at'
    have := below k.val hk
    rw [eightIds_getElem] at this
    simpa using this
  · exact eightIds_getElem j.val j.isLt
  · rw [eightIds_getElem]
    simpa using below ⟨k, by omega⟩ hk

theorem nextChannel_some {m : Image} {ch j : Fin 8} (after : ch < j) (enabled : isEnabled m j = true)
    (skipped : ∀ k : Fin 8, ch < k → k < j → isEnabled m k = false) : nextChannel m ch = some j := by
  refine (find_eightIds _ j).mpr ⟨by simp [after, enabled], fun k hk => ?_⟩
  by_cases h : ch < k
  · simp [skipped k h hk]
  · simp [h]

theorem nextChannel_none {m : Image} {ch : Fin 8} (last : ∀ j : Fin 8, ch < j → isEnabled m j = false) :
    nextChannel m ch = none := by
  refine List.find?_eq_none.mpr fun j _ => ?_
  by_cases h : ch < j
  · simp [last j h]
  · simp [h]

/-! ### The judgement -/

theorem within_iff (rate : Nat) (v : Int) (x : Option Int) :
    within rate v x = true ↔ ∃ g, x = some g ∧ (v - g).natAbs ≤ rate := by
  cases x <;> simp [within]

/-- The result of a conversion in range is accepted where no reading was GOOD before it, where it is near the
last GOOD one, or where it confirms a suspect one (R101 to R104). -/
theorem judgedRow_inRange {rate now : Nat} {y : Int} {r : Channel} (wf : -60000 ≤ y ∧ y ≤ 250000) :
    let v := (y + 50) / 100
    let good := r.lastGood = none ∨ (∃ g, r.lastGood = some g ∧ (v - g).natAbs ≤ rate) ∨
      r.quality = .suspect ∧ ∃ w, r.suspect = some w ∧ (v - w).natAbs ≤ rate
    (good → judgedRow rate now (.inRange y) r = ⟨.good, some v, some v, none, some now⟩) ∧
      (¬good → judgedRow rate now (.inRange y) r = ⟨.suspect, some v, r.lastGood, some v, some now⟩) := by
  intro v good
  have outcome : outcomeOf (.inRange y) = (some v, .good) :=
    (if_neg (show ¬250000 < y by omega)).trans (if_neg (show ¬y < -60000 by omega))
  have row : judgedRow rate now (.inRange y) r =
      if r.lastGood = none then goodRow v now
      else if within rate v r.lastGood then goodRow v now
      else if r.quality = .suspect && within rate v r.suspect then goodRow v now
      else suspectRow v now r := by
    unfold judgedRow
    rw [outcome]
  have iff : good ↔ (r.lastGood = none ∨ within rate v r.lastGood = true ∨
      (r.quality = .suspect && within rate v r.suspect) = true) := by
    rw [Bool.and_eq_true, within_iff, within_iff, decide_eq_true_eq]
  rw [row, iff]
  refine ⟨fun accepted => ?_, fun rejected => ?_⟩
  · by_cases first : r.lastGood = none
    · rw [if_pos first]
      rfl
    by_cases near : within rate v r.lastGood = true
    · rw [if_neg first, if_pos near]
      rfl
    · rw [if_neg first, if_neg near, if_pos ((accepted.resolve_left first).resolve_left near)]
      rfl
  · rw [if_neg fun h => rejected (.inl h), if_neg fun h => rejected (.inr (.inl h)),
      if_neg fun h => rejected (.inr (.inr h))]
    rfl

/-! ### The end of a conversion -/

/-- A conversion that ends writes the row of its channel and begins the next, or ends the scan. -/
theorem conversionEnd_running {ch : Fin 8} {ms : Nat} {m : Conversion} {s : State}
    (running : s.ssc.conv = some (ch, ms)) :
    ∃ conv plant, conversionEnd m s =
        { s with
          ssc := ⟨updAt s.ssc.rows ch (judgedRow s.img.rate s.now m), conv⟩, plant := plant } ∧
      (∀ j, nextChannel s.img ch = some j → conv = some (j, 80) ∧ plant = s.plant) ∧
      (nextChannel s.img ch = none →
        conv = (firstChannel s.img).map (fun j => (j, 80)) ∧ plant = scanEnd s.plant) := by
  unfold conversionEnd
  rw [running]
  dsimp only
  cases nextChannel s.img ch with
  | some j => exact ⟨_, _, rfl, fun k h => by cases h; exact ⟨rfl, rfl⟩, nofun⟩
  | none => exact ⟨_, _, rfl, nofun, fun _ => ⟨rfl, rfl⟩⟩

/-- Settles O45. -/
theorem conversionIsJudged : Obligations.ConversionIsJudged := by
  unfold Obligations.ConversionIsJudged
  refine ⟨fun m j => find_eightIds _ j, fun ch ms m s running wf => ?_⟩
  obtain ⟨conv, plant, ended, goesOn, ends⟩ := conversionEnd_running (m := m) running
  have row : (updAt s.ssc.rows ch (judgedRow s.img.rate s.now m))[ch] =
      judgedRow s.img.rate s.now m s.ssc.rows[ch] := (updAt_get _ _ _ _).trans (if_pos rfl)
  have kept : plant.ogd = s.plant.ogd ∧ plant.alu = s.plant.alu ∧ plant.fct = s.plant.fct := by
    cases next : nextChannel s.img ch with
    | some j =>
      rw [(goesOn j next).2]
      exact ⟨rfl, rfl, rfl⟩
    | none =>
      rw [(ends next).2]
      exact ⟨rfl, rfl, rfl⟩
  obtain ⟨ogd, alu, fct⟩ := kept
  refine ⟨_, congrArg Host.Outcome.next ended, rfl, ogd, alu, fct,
    fun j h => (updAt_get _ _ _ _).trans (if_neg (Ne.symm h)), ?_, ?_, ?_, ?_, ?_⟩
  · rintro rfl
    exact row
  · rintro rfl
    exact row
  · rintro y rfl
    obtain ⟨good, suspect⟩ := judgedRow_inRange (rate := s.img.rate) (now := s.now)
      (r := s.ssc.rows[ch]) (of_decide_eq_true wf)
    exact ⟨fun h => row.trans (good h), fun h => row.trans (suspect h)⟩
  · intro j after enabled skipped
    exact goesOn j (nextChannel_some after enabled skipped)
  · intro last
    obtain ⟨next, scanned⟩ := ends (nextChannel_none last)
    refine ⟨next, fun c => ?_⟩
    show plant.cct[c] = _
    rw [scanned]
    exact mapRows_get _ _ _

end Sys2Proof.Machine
end

section
/-! PROOFS. The line: which waiting frame takes it (R142, R143) and with what contents (R4, R24, R25, R154),
the ends of the own-frame checks (R145, R146, R174), the check of received TEST frames (R155 to R157). -/

namespace Sys2Proof.Machine

/-! ### Own bids -/

/-- Settles O21. -/
theorem bidDeclaresEveryNeed : Obligations.BidDeclaresEveryNeed := by
  unfold Obligations.BidDeclaresEveryNeed
  intro p
  have of : ∀ (c : Fin 6) (r : DemandRecord), demandOf p c = some r ↔
      ((p.cct[c].state = .settling ∨ p.cct[c].state = .regulating ∨ p.cct[c].state = .sensorLost) ∧
        0 < p.cct[c].need) ∧
      r = ⟨c.val + 1, p.cct[c].cls.getD .p1, p.cct[c].margin.getD (-128), p.cct[c].need⟩ := by
    intro c r
    have state : p.cct[c].state.energizable = true ↔
        p.cct[c].state = .settling ∨ p.cct[c].state = .regulating ∨ p.cct[c].state = .sensorLost := by
      cases p.cct[c].state <;> decide
    unfold demandOf
    rw [Option.ite_none_right_eq_some, Bool.and_eq_true, state, decide_eq_true_eq, Option.some.injEq,
      eq_comm (a := r)]
  have number : ∀ (c : Fin 6) (r : DemandRecord), demandOf p c = some r → r.circuit = c.val + 1 :=
    fun c r h => by rw [((of c r).mp h).2]
  refine ⟨fun c r => ⟨fun ⟨mem, numbered⟩ => ?_, fun h => ?_⟩, ?_⟩
  · obtain ⟨d, -, declared⟩ := List.mem_filterMap.mp mem
    have same : d = c := Fin.ext (by have := number d r declared; omega)
    exact (of c r).mp (same ▸ declared)
  · have declared := (of c r).mpr h
    exact ⟨List.mem_filterMap.mpr ⟨c, mem_sixIds c, declared⟩, number c r declared⟩
  · have rising : sixIds.Pairwise fun c d => c < d := by decide
    refine rising.filterMap _ fun c d less x hx y hy => ?_
    rw [number c x hx, number d y hy]
    exact Nat.succ_lt_succ less

theorem appliedLoad_bounds (e : Env) (p : Plant) (h : 0 < e.windowMs) :
    (sixIds.map (weightedLoad p)).sum + testLoad p * e.windowMs ≤ appliedLoad e p * e.windowMs ∧
      appliedLoad e p * e.windowMs <
        (sixIds.map (weightedLoad p)).sum + testLoad p * e.windowMs + e.windowMs :=
  ceilDiv_bounds _ h

/-! ### The frame that takes the line -/

theorem deferenceExpiry_still {s : State}
    (h : s.lif.sending = true ∨ s.lif.receiver = .receiving ∨ s.lif.idle = none) :
    deferenceExpiry s = s := by
  refine if_neg ?_
  unfold lineFree
  rcases h with h | h | h <;> simp [h]

theorem deferenceExpiry_free {s : State} (quiet : s.lif.sending = false)
    (hunts : s.lif.receiver ≠ .receiving) (idle : s.lif.idle.isSome = true) {n : SlotName}
    (contends : contender s.lif = some n) : deferenceExpiry s = winLine n s := by
  have free : lineFree s.lif = true := by
    unfold lineFree
    rw [quiet, idle, decide_eq_true hunts]
    rfl
  unfold deferenceExpiry
  rw [if_pos free, contends]

theorem contender_bid {l : Lif} {p : RoundNo × Nat} (openSlot : l.openSlot = .empty)
    (reply : l.replySlot = .empty) (bid : l.bidSlot = .pending p) : contender l = some .bidSlot := by
  unfold contender
  rw [openSlot, reply, bid]
  rfl

/-- Settles O20. -/
theorem shortestDeferenceTakesTheLine : Obligations.ShortestDeferenceTakesTheLine := by
  unfold Obligations.ShortestDeferenceTakesTheLine
  refine ⟨fun b a => inSet_heldSet b a, fun s busy => congrArg Host.Outcome.next (deferenceExpiry_still busy),
    fun s quiet hunts idle => ⟨fun opens => ?_, fun f opens reply => ?_, fun p opens reply bid => ?_,
      fun opens reply bid tests => ?_⟩⟩
  · have contends : contender s.lif = some .openSlot := by
      unfold contender
      rw [opens]
      rfl
    have won := deferenceExpiry_free quiet hunts idle contends
    have frame : ownOpen s = ⟨s.own, (s.rct.round.map (· + 1)).getD 1, heldSet s.rst.collecting,
        s.sul.digest.getD 0⟩ := by
      unfold ownOpen
      cases s.rct.round <;> rfl
    rw [← frame]
    exact congrArg Host.Outcome.next won
  · have contends : contender s.lif = some .replySlot := by
      unfold contender
      rw [opens, reply]
      rfl
    have won := deferenceExpiry_free quiet hunts idle contends
    unfold winLine at won
    dsimp only [updLif] at won
    rw [reply] at won
    exact congrArg Host.Outcome.next won
  · have won := deferenceExpiry_free quiet hunts idle (contender_bid opens reply bid)
    unfold winLine at won
    dsimp only [updLif] at won
    rw [bid] at won
    refine ⟨_, congrArg Host.Outcome.next won, rfl, rfl, rfl, decide_eq_true_iff, rfl, rfl,
      fun positive => appliedLoad_bounds s.env s.plant positive, rfl, rfl⟩
  · have contends : contender s.lif = some .testSlot := by
      unfold contender
      rw [opens, reply, bid, tests]
      rfl
    exact congrArg Host.Outcome.next (deferenceExpiry_free quiet hunts idle contends)

/-! ### The ends of the own checks -/

/-- R146, R174: the REPLY slot empties, and a pending restart is taken. -/
theorem replyCheckEnd_sending {equal : Bool} {f : ReplyFrame} {s : State}
    (sending : s.lif.replySlot = .sending f) :
    replyCheckEnd equal s = takeRestart { s with
      plant := if equal then s.plant else s.plant.raise .txFail,
      lif := { s.lif with replySlot := .empty, idle := some 0 } } := by
  unfold replyCheckEnd
  rw [sending]
  cases equal <;> rfl

theorem testCheckEnd_sending {equal : Bool} {f : TestFrame} {s : State}
    (sending : s.lif.testSlot = .sending f) :
    testCheckEnd equal s = { s with
      plant := if equal then s.plant else s.plant.raise .txFail,
      lif :=
        { s.lif with
          idle := some 0,
          testSlot := if (emissionAfter equal s.lck.emission).running then .pending () else .empty },
      lck := { s.lck with emission := emissionAfter equal s.lck.emission } } := by
  unfold testCheckEnd
  rw [sending]
  cases equal <;> rfl

theorem satAdd_one {cap x : Nat} (h : x < cap) : satAdd cap x 1 = x + 1 := Nat.min_eq_right h

/-- Settles O26. -/
theorem emissionCountsItsFrames : Obligations.EmissionCountsItsFrames := by
  unfold Obligations.EmissionCountsItsFrames
  intro equal f s sending index passed failed
  have after : emissionAfter equal s.lck.emission =
      { s.lck.emission with
        running := decide (s.lck.emission.nextIndex + 1 ≠ s.lck.emission.count),
        nextIndex := s.lck.emission.nextIndex + 1,
        passed := if equal then s.lck.emission.passed + 1 else s.lck.emission.passed,
        failed := if equal then s.lck.emission.failed else s.lck.emission.failed + 1 } := by
    unfold emissionAfter
    rw [satAdd_one index, satAdd_one passed, satAdd_one failed]
  have slot : (if (emissionAfter equal s.lck.emission).running = true then (.pending () : Slot Unit TestFrame)
      else .empty) =
        if s.lck.emission.nextIndex + 1 = s.lck.emission.count then .empty else .pending () := by
    rw [after]
    by_cases last : s.lck.emission.nextIndex + 1 = s.lck.emission.count <;> simp [last]
  refine congrArg Host.Outcome.next ?_
  rw [testCheckEnd_sending sending, slot, after]

/-- R193: what a RESTART leaves of an output (log entry 28). -/
theorem restartTaken_row (s : State) (o : Fin 6) :
    let u := (restartTaken s).plant.ogd.outputs[o]
    u = { OutputRow.reset with
        role := if s.plant.ogd.outputs[o].role = .bad then .bad else .unused, health := u.health } ∧
      (s.plant.ogd.outputs[o].energized = false → u.health = s.plant.ogd.outputs[o].health) ∧
      (s.plant.ogd.outputs[o].energized = true →
        u.health = { s.plant.ogd.outputs[o].health with lastLoad := u.health.lastLoad } ∧
        (0 < s.plant.ogd.outputs[o].periodMs → IsMean s.plant.ogd.outputs[o].loadSum
          s.plant.ogd.outputs[o].periodMs u.health.lastLoad)) := by
  obtain ⟨n, row⟩ := allOff_row s.plant o
  have role : (allOff s.plant).ogd.outputs[o].role = s.plant.ogd.outputs[o].role := by
    rw [row]
    split <;> rfl
  have kept : (restartTaken s).plant.ogd.outputs[o] = restartRow (allOff s.plant).ogd.outputs[o] :=
    mapRows_get (allOff s.plant).ogd.outputs (fun _ r => restartRow r) o
  dsimp only
  rw [kept]
  refine ⟨by rw [restartRow, role], fun off => ?_, fun on => ?_⟩
  · rw [row, if_neg (by rw [off]; decide)]
    rfl
  · rw [row, if_pos on]
    exact ⟨rfl, meanLoad_isMean n _ _⟩

/-! ### The bytes on the line -/

theorem lineBytes_open {s : State} {f : OpenFrame} (h : s.lif.openSlot = .sending f) :
    s.lineBytes = some (frameBytes (.openFrame f)) := by
  unfold State.lineBytes
  rw [h]

/-- The bytes on the line are those of the frame in SENDING. -/
theorem lineBytes_eq (s : State) :
    (∀ f, s.lif.openSlot = .sending f → s.lineBytes = some (frameBytes (.openFrame f))) ∧
     (s.lif.openSlot.isSending = false →
       (∀ f, s.lif.bidSlot = .sending f → s.lineBytes = some (frameBytes (.bid f))) ∧
       (s.lif.bidSlot.isSending = false →
         (∀ f, s.lif.replySlot = .sending f → s.lineBytes = some (frameBytes (.reply f))) ∧
         (s.lif.replySlot.isSending = false →
           (∀ f, s.lif.testSlot = .sending f → s.lineBytes = some (frameBytes (.test f))) ∧
           (s.lif.testSlot.isSending = false → s.lineBytes = none)))) := by
  unfold State.lineBytes
  generalize s.lif.openSlot = a
  generalize s.lif.bidSlot = b
  generalize s.lif.replySlot = c
  generalize s.lif.testSlot = d
  refine ⟨fun f h => by rw [h], fun ha => ⟨fun f h => ?_, fun hb => ⟨fun f h => ?_, fun hc =>
    ⟨fun f h => ?_, fun hd => ?_⟩⟩⟩⟩
  · cases a <;> simp_all [Slot.isSending]
  · cases a <;> cases b <;> simp_all [Slot.isSending]
  · cases a <;> cases b <;> cases c <;> simp_all [Slot.isSending]
  · cases a <;> cases b <;> cases c <;> cases d <;> simp_all [Slot.isSending]

/-- The end of the own check is that of the slot in SENDING (R146). -/
theorem exec_ownCheckEnd (equal : Bool) (s : State) :
    exec (ownCheckEnd s.lif equal) s = .next (checkEnd equal s) := by
  unfold ownCheckEnd checkEnd
  split
  · rfl
  split
  · rfl
  split <;> rfl

/-- A character of the own frame ends its check, or goes on to the next (R145). -/
theorem lineCharacter_own {s : State} {bytes : List Byte} (sends : s.lineBytes = some bytes)
    (c : LineChar) : lineCharacter c s = ownCharacter bytes c s := by
  unfold lineCharacter
  rw [sends]

theorem ownCharacter_ends {bytes : List Byte} {c : LineChar} {s : State} {equal : Bool}
    (h : checkCharacter bytes s.lif.checked c = some equal) :
    ownCharacter bytes c s = checkEnd equal s := by
  unfold ownCharacter
  rw [h]

theorem ownCharacter_goesOn {bytes : List Byte} {c : LineChar} {s : State}
    (h : checkCharacter bytes s.lif.checked c = none) :
    ownCharacter bytes c s = { s with lif := { s.lif with checked := s.lif.checked + 1 } } := by
  unfold ownCharacter
  rw [h]
  rfl

theorem checkCharacter_differs {bytes : List Byte} {n : Nat} {c : LineChar}
    (h : c.stop = false ∨ bytes[n]? ≠ some c.data) : checkCharacter bytes n c = some false := by
  refine if_neg ?_
  rcases h with h | h <;> simp [h]

theorem checkCharacter_equal {bytes : List Byte} {n : Nat} {c : LineChar} (stop : c.stop = true)
    (data : bytes[n]? = some c.data) :
    checkCharacter bytes n c = if bytes.length ≤ n + 1 then some true else none :=
  if_pos (by rw [stop, decide_eq_true data]; rfl)

/-- Settles O25. -/
theorem replyCheckEnds : Obligations.ReplyCheckEnds := by
  unfold Obligations.ReplyCheckEnds
  refine ⟨lineBytes_eq, fun equal f s sending => ⟨fun idle => ?_, fun due => ?_⟩,
    fun c bytes s sends => ⟨fun differs => ?_, fun stop data last => ?_, fun stop data more => ?_⟩⟩
  · exact congrArg Host.Outcome.next
      ((replyCheckEnd_sending sending).trans (takeRestart_none _ idle))
  · let u : State := { s with
      plant := if equal then s.plant else s.plant.raise .txFail,
      lif := { s.lif with replySlot := .empty, idle := some 0 } }
    have taken : takeRestart u = restartTaken u := if_pos (by simp [u, due])
    have outputs : u.plant.ogd = s.plant.ogd := by cases equal <;> rfl
    refine ⟨_, congrArg Host.Outcome.next ((replyCheckEnd_sending sending).trans taken),
      rfl, rfl, rfl, rfl, rfl, rfl, rfl, rfl, rfl, rfl, rfl, rfl, rfl, rfl, rfl, rfl, fun o => ?_⟩
    have row := restartTaken_row u o
    rw [outputs] at row
    exact row
  · rw [exec_ownCheckEnd]
    exact congrArg Host.Outcome.next
      ((lineCharacter_own sends c).trans (ownCharacter_ends (checkCharacter_differs differs)))
  · rw [exec_ownCheckEnd]
    exact congrArg Host.Outcome.next ((lineCharacter_own sends c).trans (ownCharacter_ends
      ((checkCharacter_equal stop data).trans (if_pos last.ge))))
  · exact congrArg Host.Outcome.next ((lineCharacter_own sends c).trans (ownCharacter_goesOn
      ((checkCharacter_equal stop data).trans (if_neg (Nat.not_le.mpr more)))))

/-! ### Received TEST frames -/

/-- The register after `n` single steps from its load (R155). -/
def lfsrAfter (r : Word16) : Nat → Word16
  | 0 => r
  | n + 1 => lfsrStep (lfsrAfter r n)

theorem lfsrEight_after (r : Word16) (n : Nat) : lfsrEight (lfsrAfter r n) = lfsrAfter r (n + 8) := rfl

theorem payloadFrom_length (r : Word16) (n : Nat) : (payloadFrom r n).length = n := by
  induction n generalizing r with
  | zero => rfl
  | succ n ih => exact congrArg (· + 1) (ih _)

theorem payloadFrom_getElem (r : Word16) (n m k : Nat) (h : k < n) :
    (payloadFrom (lfsrAfter r m) n)[k]? = some ((lfsrAfter r (m + 8 * (k + 1))).setWidth 8) := by
  induction n generalizing m k with
  | zero => omega
  | succ n ih =>
    unfold payloadFrom
    rw [lfsrEight_after]
    cases k with
    | zero => rfl
    | succ k =>
      rw [List.getElem?_cons_succ, ih (m + 8) k (by omega)]
      congr 3
      omega

/-- R155: the payload of a seed and an index is made by the shift register. -/
theorem testPayload_of (seed : Word16) (index : Nat) :
    PayloadOf seed index (testPayload seed index) := by
  refine ⟨payloadFrom_length _ _, lfsrAfter (lfsrLoad seed index), rfl, fun n => ?_, fun k hk => ?_⟩
  · show lfsrStep (lfsrAfter (lfsrLoad seed index) n) = _
    unfold lfsrStep
    rw [Bool.xor_assoc]
  · have byte := payloadFrom_getElem (lfsrLoad seed index) 32 0 k hk
    rw [Nat.zero_add] at byte
    exact byte

/-- R156, R157: a TEST frame of the station at place `i` is checked into its row. -/
theorem checkTest_row {f : TestFrame} {i : Fin 32} (sender : f.sender = i.val + 1) (s : State) :
    checkTest f s = { s with
      lck := { s.lck with rows := s.lck.rows.set i (checkedRow f s.lck.rows[i]) },
      plant := if !s.lck.rows[i].latch && (checkedRow f s.lck.rows[i]).latch then
        s.plant.raise .lineErrors else s.plant } := by
  have updated : updQuality f.sender (checkedRow f) s =
      { s with lck := { s.lck with rows := s.lck.rows.set i (checkedRow f s.lck.rows[i]) } } := by
    unfold updQuality
    rw [sender, place_succ]
    rfl
  have latch (t : State) : latchOf t f.sender = t.lck.rows[i].latch := by
    unfold latchOf
    rw [sender, place_succ]
  have set : (s.lck.rows.set i (checkedRow f s.lck.rows[i]))[i] = checkedRow f s.lck.rows[i] :=
    Vector.getElem_set_self i.isLt
  unfold checkTest
  dsimp only
  rw [latch, latch, updated]
  dsimp only
  rw [set]
  cases !s.lck.rows[i].latch && (checkedRow f s.lck.rows[i]).latch <;> rfl

/-- Settles O24. -/
theorem testFramesAreChecked : Obligations.TestFramesAreChecked := by
  unfold Obligations.TestFramesAreChecked
  refine ⟨testPayload_of, fun i s receives => ⟨fun f wf source => ?_, fun f wf sender => ?_⟩⟩
  · exact congrArg Host.Outcome.next (receive_reply f i s receives wf source)
  · have received : exec (.testFrameReceived f) s = .next (checkTest f (afterStation i false s)) :=
      congrArg Host.Outcome.next (receive_test f i s receives wf sender)
    have heard : (afterStation i false s).lck.rows[i] =
        { s.lck.rows[i] with heard := min 65535 (s.lck.rows[i].heard + 1) } :=
      Vector.getElem_set_self i.isLt
    have twice (a b : QualityRow) : (s.lck.rows.set i a).set i b = s.lck.rows.set i b :=
      Vector.set_set a i.isLt
    rw [received, checkTest_row sender, heard]
    refine congrArg Host.Outcome.next ?_
    dsimp only [afterStation]
    rw [twice]
    rfl

end Sys2Proof.Machine
end

section
/-! PROOFS. Reception on the line: frames that are not taken, broken and bad frames, and the line character by
character (R133, R138, R139, R151). -/

namespace Sys2Proof.Machine

/-! ### What is received, and when -/

theorem canReceive_iff (s : State) :
    canReceive s = true ↔ s.lif.sending = false ∧
      (s.lif.receiver = .receiving ∨ s.lif.receiver = .hunting ∧ s.lif.idle.isSome) := by
  unfold canReceive
  cases s.lif.sending <;> cases s.lif.receiver <;> simp

theorem receive_off {f : Frame} {s : State} (h : canReceive s = false) : receive f s = s :=
  if_neg (by rw [h]; decide)

theorem receiveBytes_off {bytes : List Byte} {s : State} (h : canReceive s = false) :
    receiveBytes bytes s = s :=
  if_neg (by rw [h]; decide)

theorem brokenFrame_off {idle : Nat} {s : State} (h : canReceive s = false) : brokenFrame idle s = s :=
  if_neg (by rw [h]; decide)

theorem brokenFrame_on {idle : Nat} {s : State} (h : canReceive s = true) :
    brokenFrame idle s = { s with
      lif := { s.lif with receiver := .hunting, buffer := [], idle := some idle },
      lck :=
        { s.lck with
          totals := { s.lck.totals with crcFailures := min 65535 (s.lck.totals.crcFailures + 1) } } } :=
  if_pos h

theorem receiveBytes_crcFailed {bytes : List Byte} {s : State} (h : canReceive s = true)
    (judged : judgeBytes bytes = .crcFailed) : receiveBytes bytes s = brokenFrame 0 s := by
  unfold receiveBytes brokenFrame
  rw [if_pos h, if_pos h, judged]

theorem receiveBytes_rejected {bytes : List Byte} {s : State} (h : canReceive s = true)
    (judged : judgeBytes bytes = .rejected) :
    receiveBytes bytes s = { s with
      lif := { s.lif with receiver := .hunting, buffer := [], idle := some 0 },
      lck :=
        { s.lck with
          totals := { s.lck.totals with rejected := min 65535 (s.lck.totals.rejected + 1) } } } := by
  unfold receiveBytes
  rw [if_pos h, judged]
  rfl

/-- The commands that take something from the line do nothing where it cannot be received (R138). -/
theorem exec_off {s : State} (h : canReceive s = false) (bytes : List Byte) (f : OpenFrame)
    (b : BidFrame) (t : TestFrame) (r : ReplyFrame) (d tag page : Byte) (args : List Byte)
    (q : Request) :
    ∀ x ∈ [Instr.badFrameReceived bytes, .brokenFrame, .frameGapTimeout, .openReceived f,
      .bidReceived b, .testFrameReceived t, .replyFrameReceived r, .queryStation d tag page,
      .queryCircuits d tag page, .queryOutputs d tag page, .querySensors d tag page,
      .queryRoster d tag page, .queryAllotment d tag page, .queryFactors d tag page,
      .queryQuality d tag page, .clearFactors d tag args, .setMask d tag args,
      .testOutput d tag args, .linecheck d tag args, .retire d tag args, .restart d tag args,
      .clearQuality d tag args, .unknownRequest q], exec x s = .next s := by
  have frame : ∀ (x : Instr) (g : Frame), exec x s = .next (receive g s) → exec x s = .next s :=
    fun _ _ run => run.trans (congrArg Host.Outcome.next (receive_off h))
  have broken : ∀ idle : Nat, (Host.Outcome.next (brokenFrame idle s) : Answer) = .next s :=
    fun _ => congrArg Host.Outcome.next (brokenFrame_off h)
  simp only [List.forall_mem_cons, List.not_mem_nil, false_implies, implies_true, and_true]
  exact ⟨congrArg Host.Outcome.next (receiveBytes_off h), broken _, broken _, frame _ _ rfl,
    frame _ _ rfl, frame _ _ rfl, frame _ _ rfl, frame _ _ rfl, frame _ _ rfl, frame _ _ rfl,
    frame _ _ rfl, frame _ _ rfl, frame _ _ rfl, frame _ _ rfl, frame _ _ rfl, frame _ _ rfl,
    frame _ _ rfl, frame _ _ rfl, frame _ _ rfl, frame _ _ rfl, frame _ _ rfl, frame _ _ rfl,
    frame _ _ rfl⟩

/-! ### Start bits -/

theorem gapIdle_eq (l : Lif) :
    gapIdle l = match l.receiver, l.idle with
      | .receiving, some t => max 2 t
      | _, _ => 2 := by
  unfold gapIdle
  cases l.receiver <;> cases l.idle <;> rfl

/-- A start bit of another talker where no gap is due (R133, R143). -/
theorem lineStart_noGap {s : State} {t : Nat} (quiet : s.lif.sending = false)
    (idle : s.lif.idle = some t) (noGap : ¬(s.lif.receiver = .receiving ∧ 2 < t)) :
    (s.lif.receiver = .hunting → lineStart s = { s with lif :=
      { s.lif with idle := none, receiver := if 2 ≤ t then .receiving else .hunting } }) ∧
    (s.lif.receiver = .receiving → lineStart s = { s with lif := { s.lif with idle := none } }) := by
  have noBreak : breakAtGap s = s := by
    refine if_neg ?_
    rw [gapDue, idle, Option.any_some, Bool.and_eq_true, decide_eq_true_eq, decide_eq_true_eq]
    exact noGap
  unfold lineStart startBit
  rw [noBreak, quiet, idle]
  refine ⟨fun hunts => ?_, fun receives => ?_⟩
  · rw [hunts]
    rfl
  · rw [receives]
    rfl

/-- A start bit after a gap of more than 2 ms in a frame breaks it and begins the next (R133). -/
theorem lineStart_gap {s : State} {t : Nat} (quiet : s.lif.sending = false)
    (idle : s.lif.idle = some t) (receives : s.lif.receiver = .receiving) (gap : 2 < t) :
    lineStart s = { s with
      lif := { s.lif with receiver := .receiving, buffer := [], idle := none },
      lck :=
        { s.lck with
          totals :=
            { s.lck.totals with crcFailures := min 65535 (s.lck.totals.crcFailures + 1) } } } := by
  have due : gapDue s.lif = true := by
    rw [gapDue, idle, receives, Option.any_some, decide_eq_true (show Config.frameGap < t from gap)]
    rfl
  have length : gapIdle s.lif = max 2 t := by
    rw [gapIdle_eq, receives, idle]
  have on : canReceive s = true := (canReceive_iff s).mpr ⟨quiet, .inl receives⟩
  have broken := brokenFrame_on (idle := max 2 t) on
  have free : (brokenFrame (max 2 t) s).lif.sending = false := by
    rw [broken]
    exact quiet
  have hunts : (brokenFrame (max 2 t) s).lif.receiver = .hunting := by rw [broken]
  have idle' : (brokenFrame (max 2 t) s).lif.idle = some (max 2 t) := by rw [broken]
  unfold lineStart breakAtGap
  rw [if_pos due, length]
  unfold startBit
  rw [free, hunts, idle', broken]
  have reached : Config.frameGap ≤ max 2 t := Nat.le_max_left 2 t
  simp only [Bool.false_eq_true, if_false, updLif, if_pos reached]

/-! ### Characters -/

theorem lineBytes_quiet {s : State} (quiet : s.lif.sending = false) : s.lineBytes = none := by
  simp only [Lif.sending, Bool.or_eq_false_iff] at quiet
  obtain ⟨⟨⟨opens, bid⟩, reply⟩, tests⟩ := quiet
  exact ((((lineBytes_eq s).2 opens).2 bid).2 reply).2 tests

theorem lineCharacter_other {s : State} (quiet : s.lif.sending = false) (c : LineChar) :
    lineCharacter c s = otherCharacter c s := by
  unfold lineCharacter
  rw [lineBytes_quiet quiet]

theorem otherCharacter_hunting {s : State} (c : LineChar) (idle : s.lif.idle = none)
    (hunts : s.lif.receiver = .hunting) :
    otherCharacter c s = { s with lif := { s.lif with idle := some 0 } } := by
  unfold otherCharacter
  rw [idle, hunts]
  rfl

theorem otherCharacter_receiving {s : State} (c : LineChar) (idle : s.lif.idle = none)
    (receives : s.lif.receiver = .receiving) : otherCharacter c s = frameCharacter c s := by
  unfold otherCharacter
  rw [idle, receives]

theorem lengthBroken_iff (bytes : List Byte) :
    lengthBroken bytes = true ↔
      bytes.length = 2 ∧ ¬(8 ≤ byteAt bytes 1 ∧ byteAt bytes 1 ≤ 64) := by
  rw [lengthBroken, Bool.and_eq_true, decide_eq_true_eq, Bool.not_eq_true', decide_eq_false_iff_not]

theorem frameCharacter_breaks {c : LineChar} {s : State}
    (h : c.stop = false ∨ lengthBroken (s.lif.buffer ++ [c.data]) = true) :
    frameCharacter c s = brokenFrame 0 s := by
  refine if_pos ?_
  rcases h with h | h <;> simp [h]

theorem frameCharacter_joins {c : LineChar} {s : State} (stop : c.stop = true)
    (whole : lengthBroken (s.lif.buffer ++ [c.data]) = false) :
    frameCharacter c s =
      if frameComplete (s.lif.buffer ++ [c.data]) then receiveBytes (s.lif.buffer ++ [c.data]) s
      else { s with lif := { s.lif with buffer := s.lif.buffer ++ [c.data], idle := some 0 } } :=
  if_neg (by rw [stop, whole]; decide)

/-- Settles O23. -/
theorem badFramesAreOnlyCounted : Obligations.BadFramesAreOnlyCounted := by
  unfold Obligations.BadFramesAreOnlyCounted
  refine ⟨fun s => ⟨canReceive_iff s, fun h bytes f b t r d tag page args q =>
    exec_off h bytes f b t r d tag page args q⟩, fun bytes s receives => ⟨fun judged => ?_,
      fun judged => ?_, ?_, ?_⟩, fun bytes f s _ judged => ?_, fun t s quiet idle => ⟨fun hunts => ?_,
      fun receives short => ?_, fun receives gap => ?_⟩, fun c s quiet idle => ⟨fun hunts => ?_,
      fun receives => ?_⟩⟩
  · exact congrArg Host.Outcome.next
      ((receiveBytes_crcFailed receives judged).trans (brokenFrame_on receives))
  · exact congrArg Host.Outcome.next (receiveBytes_rejected receives judged)
  · exact congrArg Host.Outcome.next (brokenFrame_on receives)
  · have gap := brokenFrame_on (idle := gapIdle s.lif) receives
    rw [gapIdle_eq] at gap
    exact congrArg Host.Outcome.next gap
  · exact (congrArg Host.Outcome.next (receiveBytes_good judged s)).trans (exec_frameCommand f s).symm
  · exact congrArg Host.Outcome.next
      ((lineStart_noGap quiet idle fun h => nomatch hunts.symm.trans h.1).1 hunts)
  · exact congrArg Host.Outcome.next
      ((lineStart_noGap quiet idle fun h => absurd h.2 (Nat.not_lt.mpr short)).2 receives)
  · exact congrArg Host.Outcome.next (lineStart_gap quiet idle receives gap)
  · exact congrArg Host.Outcome.next
      ((lineCharacter_other quiet c).trans (otherCharacter_hunting c idle hunts))
  · intro bytes length
    have taken : exec (.rawInputChange (.lineCharacter c)) s = .next (frameCharacter c s) :=
      congrArg Host.Outcome.next
        ((lineCharacter_other quiet c).trans (otherCharacter_receiving c idle receives))
    rw [taken]
    refine ⟨fun breaks => ?_, fun stop more => ?_, fun stop low high last => ?_⟩
    · exact congrArg Host.Outcome.next
        (frameCharacter_breaks (breaks.imp_right (lengthBroken_iff bytes).mpr))
    · have whole : lengthBroken bytes = false := by
        rw [← Bool.not_eq_true, lengthBroken_iff]
        rintro ⟨two, bad⟩
        rcases more with one | ⟨low, high, -⟩
        · omega
        · exact bad ⟨low, high⟩
      have partly : frameComplete bytes = false := by
        refine decide_eq_false ?_
        rintro ⟨two, last⟩
        rcases more with one | ⟨-, -, less⟩ <;> omega
      exact congrArg Host.Outcome.next ((frameCharacter_joins stop whole).trans
        (if_neg (by rw [partly]; decide)))
    · have whole : lengthBroken bytes = false := by
        rw [← Bool.not_eq_true, lengthBroken_iff]
        exact fun h => h.2 ⟨low, high⟩
      have complete : frameComplete bytes = true := decide_eq_true ⟨by omega, last.symm⟩
      exact congrArg Host.Outcome.next ((frameCharacter_joins stop whole).trans (if_pos complete))

end Sys2Proof.Machine
end

section
/-! PROOFS. The bytes of a frame (R134, R135) and their judgement (R133, R139): every well-formed frame reads
back, and bytes are GOOD exactly where the checks of their kind hold. -/

namespace Sys2Proof.Machine

/-! ### Bytes of a list -/

theorem byteOf_toNat_small {n : Nat} (h : n < 256) : (byteOf n).toNat = n := by
  rw [byteOf_toNat]
  omega

theorem byteAt_append_left {a b : List Byte} {i : Nat} (h : i < a.length) :
    byteAt (a ++ b) i = byteAt a i := by
  rw [byteAt, byteAt, List.getD_append a b 0 i h]

theorem byteAt_lt (l : List Byte) (i : Nat) : byteAt l i < 256 := (l.getD i 0).isLt

/-! ### The judgement of closed bytes -/

/-- The body of a frame with a length byte that counts it and its CRC. -/
structure Closable (body : List Byte) : Prop where
  length : byteAt body 1 = body.length + 2
  short : 6 ≤ body.length ∧ body.length ≤ 62

theorem closedByCrc_length (body : List Byte) : (closedByCrc body).length = body.length + 2 := by
  simp [closedByCrc]

theorem closedByCrc_take (body : List Byte) :
    (closedByCrc body).take ((closedByCrc body).length - 2) = body := by
  rw [closedByCrc_length, Nat.add_sub_cancel, closedByCrc, List.take_left]

theorem closedByCrc_crc (body : List Byte) :
    wordAt (closedByCrc body) ((closedByCrc body).length - 2) = (crc16 body).toNat := by
  have first := byteAt_append body
    [byteOf ((crc16 body).toNat / 256), byteOf (crc16 body).toNat] 0
  have second := byteAt_append body
    [byteOf ((crc16 body).toNat / 256), byteOf (crc16 body).toNat] 1
  rw [Nat.add_zero] at first
  rw [closedByCrc_length, Nat.add_sub_cancel, wordAt, closedByCrc, first, second]
  exact twoBytes_back _ (crc16 body).isLt

theorem wordAt_eq (l : List Byte) (i : Nat) : wordAt l i = byteAt l i * 256 + byteAt l (i + 1) := rfl

theorem bytesSound_iff (l : List Byte) :
    BytesSound l ↔ ¬(byteAt l 1 ≠ l.length ∨ l.length < 8 ∨ 64 < l.length) ∧
      (crc16 (l.take (l.length - 2))).toNat = wordAt l (l.length - 2) := by
  unfold BytesSound
  refine ⟨fun ⟨low, high, length, crc⟩ => ⟨by omega, ?_⟩, fun ⟨fit, crc⟩ =>
    ⟨by omega, by omega, by omega, ?_⟩⟩
  · rw [crc, wordAt_eq, show l.length - 2 + 1 = l.length - 1 by omega]
  · rw [crc, wordAt_eq, show l.length - 2 + 1 = l.length - 1 by omega]

/-- The frame that sound bytes carry, where their fields allow one (R139). -/
def judgedFrame (l : List Byte) : Verdict :=
  match readFrame l with
  | some f => if f.wf then .good f else .rejected
  | none => .rejected

theorem judgeBytes_eq (l : List Byte) [Decidable (BytesSound l)] :
    judgeBytes l = if BytesSound l then judgedFrame l else .crcFailed := by
  have unsound (h : ¬BytesSound l) : judgeBytes l = .crcFailed := by
    rw [bytesSound_iff] at h
    unfold judgeBytes
    by_cases fit : byteAt l 1 ≠ l.length ∨ l.length < 8 ∨ 64 < l.length
    · exact if_pos fit
    · exact (if_neg fit).trans (if_pos fun crc => h ⟨fit, crc⟩)
  by_cases sound : BytesSound l
  · obtain ⟨fit, crc⟩ := (bytesSound_iff l).mp sound
    rw [if_pos sound]
    exact (if_neg fit).trans (if_neg (not_not_intro crc))
  · rw [if_neg sound, unsound sound]

theorem judgedFrame_ne_crcFailed (l : List Byte) : judgedFrame l ≠ .crcFailed := by
  unfold judgedFrame
  split
  · split <;> nofun
  · nofun

theorem judgedFrame_good (l : List Byte) (f : Frame) :
    judgedFrame l = .good f ↔ readFrame l = some f ∧ f.wf = true := by
  unfold judgedFrame
  cases readFrame l with
  | none => exact ⟨nofun, nofun⟩
  | some g =>
    by_cases wf : g.wf = true
    · simp only [if_pos wf, Verdict.good.injEq, Option.some.injEq]
      exact ⟨fun h => ⟨h, h ▸ wf⟩, fun h => h.1⟩
    · simp only [if_neg wf, reduceCtorEq, Option.some.injEq, false_iff]
      rintro ⟨rfl, h⟩
      exact wf h

theorem judgeBytes_crcFailed (l : List Byte) : judgeBytes l = .crcFailed ↔ ¬BytesSound l := by
  classical
  rw [judgeBytes_eq]
  by_cases sound : BytesSound l
  · rw [if_pos sound]
    exact iff_of_false (judgedFrame_ne_crcFailed l) (not_not_intro sound)
  · rw [if_neg sound]
    exact iff_of_true rfl sound

theorem judgeBytes_good (l : List Byte) (f : Frame) :
    judgeBytes l = .good f ↔ BytesSound l ∧ readFrame l = some f ∧ f.wf = true := by
  classical
  rw [judgeBytes_eq]
  by_cases sound : BytesSound l
  · rw [if_pos sound, judgedFrame_good]
    exact (and_iff_right sound).symm
  · rw [if_neg sound]
    exact iff_of_false nofun fun h => sound h.1

/-- A body with its length byte, closed by its CRC, is sound (R133, R135). -/
theorem Closable.sound {body : List Byte} (h : Closable body) : BytesSound (closedByCrc body) := by
  obtain ⟨length, low, high⟩ := h
  have first : byteAt (closedByCrc body) 1 = byteAt body 1 := byteAt_append_left (by omega)
  refine (bytesSound_iff _).mpr ⟨?_, ?_⟩
  · rw [first, closedByCrc_length]
    omega
  · rw [closedByCrc_take, closedByCrc_crc]

/-! ### Reading by kind -/

section
variable {l : List Byte}

theorem readFrame_open (kind : byteAt l 0 = 1) :
    readFrame l = if l.length = 12 then
      some (.openFrame ⟨byteAt l 2, byteOf (byteAt l 3), addrSetAt l 4, BitVec.ofNat 16 (wordAt l 8)⟩)
    else none := by
  unfold readFrame
  dsimp only
  rw [kind]
  rfl

/-- The BID that bytes of its kind and length spell (R134). -/
def readBid (l : List Byte) : Option Frame :=
  match flowOf (byteAt l 5 / 2 % 4), recordsAt l 11 (byteAt l 10) with
  | some fl, some rs =>
    some (.bid ⟨byteAt l 2, byteOf (byteAt l 3), byteAt l 4, decide (byteAt l 5 % 2 = 1), fl,
      decide (byteAt l 5 / 8 % 2 = 1), BitVec.ofNat 16 (wordAt l 6), wordAt l 8, rs⟩)
  | _, _ => none

theorem readFrame_bid (kind : byteAt l 0 = 2) :
    readFrame l = if l.length = 13 + 4 * byteAt l 10 then readBid l else none := by
  unfold readFrame
  dsimp only
  rw [kind]
  rfl

theorem readFrame_query (kind : byteAt l 0 = 3) :
    readFrame l = if l.length = 9 ∧ byteAt l 2 = 0 then
      some (.request (.query ⟨byteOf (byteAt l 3), byteOf (byteAt l 4), byteOf (byteAt l 5),
        byteOf (byteAt l 6)⟩))
    else none := by
  unfold readFrame
  dsimp only
  rw [kind]
  rfl

theorem readFrame_command (kind : byteAt l 0 = 4) :
    readFrame l = if byteAt l 2 = 0 then
      some (.request (.command ⟨byteOf (byteAt l 3), byteOf (byteAt l 4), byteOf (byteAt l 5),
        (l.drop 6).take (l.length - 8)⟩))
    else none := by
  unfold readFrame
  dsimp only
  rw [kind]
  rfl

theorem readFrame_reply (kind : byteAt l 0 = 5) :
    readFrame l = if 12 ≤ l.length ∧ byteAt l 3 = 0 then
      (resultOf (byteAt l 7)).map fun r =>
        .reply ⟨byteAt l 2, byteOf (byteAt l 4), byteOf (byteAt l 5), byteOf (byteAt l 6), r,
          byteOf (byteAt l 8), byteOf (byteAt l 9), (l.drop 10).take (l.length - 12)⟩
    else none := by
  unfold readFrame
  dsimp only
  rw [kind]
  rfl

theorem readFrame_test (kind : byteAt l 0 = 6) :
    readFrame l = if l.length = 40 then
      some (.test ⟨byteAt l 2, BitVec.ofNat 16 (wordAt l 3), byteOf (byteAt l 5),
        (l.drop 6).take 32⟩)
    else none := by
  unfold readFrame
  dsimp only
  rw [kind]
  rfl

theorem readFrame_other (low : byteAt l 0 < 1 ∨ 6 < byteAt l 0) : readFrame l = none := by
  unfold readFrame
  dsimp only
  split
  case h_7 => rfl
  all_goals omega

end

/-! ### The field conditions of a kind -/

theorem isStation_iff (a : Nat) : isStation a = true ↔ 1 ≤ a ∧ a ≤ 32 := decide_eq_true_iff

theorem isDestination_byte {b : Nat} (h : b < 256) :
    isDestination (byteOf b) = true ↔ (1 ≤ b ∧ b ≤ 32) ∨ b = 255 := by
  have all : byteOf b = 255 ↔ b = 255 := by
    rw [BitVec.toNat_eq, byteOf_toNat_small h]
    rfl
  rw [isDestination, Bool.or_eq_true, isStation_iff, decide_eq_true_eq, all, byteOf_toNat_small h]

theorem resultOf_isSome : ∀ n : Nat, (resultOf n).isSome = true ↔ 1 ≤ n ∧ n ≤ 5
  | 0 => by decide
  | 1 | 2 | 3 | 4 | 5 => by decide
  | _ + 6 => iff_of_false nofun (by omega)

theorem flowOf_isSome : ∀ n : Nat, (flowOf n).isSome = true ↔ n ≤ 2
  | 0 | 1 | 2 => by decide
  | _ + 3 => iff_of_false nofun (by omega)

/-- A class byte names one of the three classes that a BID carries. -/
theorem classOf_iff : ∀ n : Nat, (∃ c, classOf n = some c) ↔ n ≤ 2
  | 0 | 1 | 2 => iff_of_true ⟨_, rfl⟩ (by decide)
  | _ + 3 => iff_of_false nofun (by omega)

theorem classOf_ne_p3 {n : Nat} {c : Cls} (h : classOf n = some c) : c ≠ .p3 := by
  unfold classOf at h
  split at h <;> cases h <;> decide

/-- The conditions of R139 on the `k` demand records that begin at byte `i`. -/
def RecordsHold (l : List Byte) (i k : Nat) : Prop :=
  ∀ j < k, (1 ≤ byteAt l (i + 4 * j) ∧ byteAt l (i + 4 * j) ≤ 6) ∧ byteAt l (i + 1 + 4 * j) ≤ 2 ∧
    (1 ≤ byteAt l (i + 3 + 4 * j) ∧ byteAt l (i + 3 + 4 * j) ≤ 200) ∧
    (j + 1 < k → byteAt l (i + 4 * j) < byteAt l (i + 4 + 4 * j))

theorem recordsHold_succ (l : List Byte) (i k : Nat) :
    RecordsHold l i (k + 1) ↔
      ((1 ≤ byteAt l i ∧ byteAt l i ≤ 6) ∧ byteAt l (i + 1) ≤ 2 ∧
        (1 ≤ byteAt l (i + 3) ∧ byteAt l (i + 3) ≤ 200) ∧ (0 < k → byteAt l i < byteAt l (i + 4))) ∧
      RecordsHold l (i + 4) k := by
  unfold RecordsHold
  rw [Nat.forall_lt_succ_left]
  refine and_congr (by simp) (forall₂_congr fun j _ => ?_)
  rw [show i + 4 * (j + 1) = i + 4 + 4 * j by omega, show i + 1 + 4 * (j + 1) = i + 4 + 1 + 4 * j by omega,
    show i + 3 + 4 * (j + 1) = i + 4 + 3 + 4 * j by omega,
    show i + 4 + 4 * (j + 1) = i + 4 + 4 + 4 * j by omega, Nat.add_lt_add_iff_right]

/-- The demand record at byte `i`, of class `c`. -/
def recordAt (l : List Byte) (i : Nat) (c : Cls) : DemandRecord :=
  ⟨byteAt l i, c, (BitVec.ofNat 8 (byteAt l (i + 2))).toInt, byteAt l (i + 3)⟩

theorem recordsAt_succ (l : List Byte) (i k : Nat) (rs : List DemandRecord) :
    recordsAt l i (k + 1) = some rs ↔
      ∃ c rest, classOf (byteAt l (i + 1)) = some c ∧ recordsAt l (i + 4) k = some rest ∧
        rs = recordAt l i c :: rest := by
  rw [recordsAt]
  cases classOf (byteAt l (i + 1)) with
  | none => simp
  | some c =>
    cases recordsAt l (i + 4) k with
    | none => simp
    | some rest => simp [recordAt, eq_comm]

theorem recordsAt_length {l : List Byte} {k : Nat} : ∀ {i : Nat} {rs : List DemandRecord},
    recordsAt l i k = some rs → rs.length = k := by
  induction k with
  | zero =>
    intro i rs h
    cases h
    rfl
  | succ k ih =>
    intro i rs h
    obtain ⟨c, rest, -, tail, rfl⟩ := (recordsAt_succ l i k rs).mp h
    rw [List.length_cons, ih tail]

theorem recordAt_wf {l : List Byte} {i : Nat} {c : Cls} (named : c ≠ .p3) :
    (recordAt l i c).wf = true ↔ (1 ≤ byteAt l i ∧ byteAt l i ≤ 6) ∧
      1 ≤ byteAt l (i + 3) ∧ byteAt l (i + 3) ≤ 200 := by
  have margin : -128 ≤ (recordAt l i c).margin ∧ (recordAt l i c).margin ≤ 127 := by
    have low := BitVec.le_toInt (BitVec.ofNat 8 (byteAt l (i + 2)))
    have high := BitVec.toInt_lt (x := BitVec.ofNat 8 (byteAt l (i + 2)))
    exact ⟨low, Int.le_of_lt_add_one high⟩
  simp only [DemandRecord.wf, Bool.and_eq_true, decide_eq_true_eq, margin, and_true]
  exact ⟨fun ⟨⟨a, _⟩, b⟩ => ⟨a, b⟩, fun ⟨a, b⟩ => ⟨⟨a, named⟩, b⟩⟩

/-- A record before the others rises in circuit id where it is below the first of them. -/
theorem ascending_recordAt {l : List Byte} {i k : Nat} {c : Cls} {rest : List DemandRecord}
    (tail : recordsAt l (i + 4) k = some rest) :
    ascending (recordAt l i c :: rest) = true ↔
      (0 < k → byteAt l i < byteAt l (i + 4)) ∧ ascending rest = true := by
  cases k with
  | zero =>
    cases tail
    simp [ascending]
  | succ k =>
    obtain ⟨d, rest', -, -, rfl⟩ := (recordsAt_succ l (i + 4) k rest).mp tail
    rw [ascending, Bool.and_eq_true, decide_eq_true_eq]
    exact and_congr_left fun _ => ⟨fun h _ => h, fun h => h (Nat.succ_pos k)⟩

/-- The demand records of a BID can be read, and are as R139 asks, where their bytes are. -/
theorem recordsAt_holds (l : List Byte) (k : Nat) : ∀ i : Nat,
    (∃ rs, recordsAt l i k = some rs ∧ rs.all DemandRecord.wf = true ∧ ascending rs = true) ↔
      RecordsHold l i k := by
  induction k with
  | zero => exact fun i => iff_of_true ⟨[], rfl, rfl, rfl⟩ nofun
  | succ k ih =>
    intro i
    rw [recordsHold_succ, ← ih (i + 4)]
    constructor
    · rintro ⟨rs, read, wf, rising⟩
      obtain ⟨c, rest, cls, tail, rfl⟩ := (recordsAt_succ l i k rs).mp read
      rw [List.all_cons, Bool.and_eq_true, recordAt_wf (classOf_ne_p3 cls)] at wf
      rw [ascending_recordAt tail] at rising
      obtain ⟨⟨circuit, need⟩, others⟩ := wf
      exact ⟨⟨circuit, (classOf_iff _).mp ⟨c, cls⟩, need, rising.1⟩, rest, tail, others, rising.2⟩
    · rintro ⟨⟨circuit, cls, need, less⟩, rest, tail, others, rising⟩
      obtain ⟨c, cls⟩ := (classOf_iff _).mpr cls
      refine ⟨recordAt l i c :: rest, (recordsAt_succ l i k _).mpr ⟨c, rest, cls, tail, rfl⟩, ?_, ?_⟩
      · rw [List.all_cons, Bool.and_eq_true, recordAt_wf (classOf_ne_p3 cls)]
        exact ⟨⟨circuit, need⟩, others⟩
      · rw [ascending_recordAt tail]
        exact ⟨less, rising⟩

/-- The bytes spell a frame whose fields are as R139 asks. -/
def Spells (l : List Byte) : Prop := ∃ f, readFrame l = some f ∧ f.wf = true

theorem exists_ite_some {p : Prop} [Decidable p] {g : Frame} :
    (∃ f, (if p then some g else none) = some f ∧ f.wf = true) ↔ p ∧ g.wf = true := by
  by_cases h : p
  · simp [h]
  · simp [h]

theorem spells_open {l : List Byte} (kind : byteAt l 0 = 1) :
    Spells l ↔ l.length = 12 ∧ 1 ≤ byteAt l 2 ∧ byteAt l 2 ≤ 32 := by
  unfold Spells
  rw [readFrame_open kind, exists_ite_some, Frame.wf, OpenFrame.wf, isStation_iff]

theorem spells_query {l : List Byte} (kind : byteAt l 0 = 3) :
    Spells l ↔ l.length = 9 ∧ byteAt l 2 = 0 ∧
      ((1 ≤ byteAt l 3 ∧ byteAt l 3 ≤ 32) ∨ byteAt l 3 = 255) := by
  unfold Spells
  rw [readFrame_query kind, exists_ite_some, Frame.wf, Request.wf, isDestination_byte (byteAt_lt l 3),
    and_assoc]

theorem spells_command {l : List Byte} (kind : byteAt l 0 = 4) (short : l.length ≤ 64) :
    Spells l ↔ byteAt l 2 = 0 ∧ ((1 ≤ byteAt l 3 ∧ byteAt l 3 ≤ 32) ∨ byteAt l 3 = 255) := by
  have args : ((l.drop 6).take (l.length - 8)).length ≤ 56 := by
    rw [List.length_take]
    omega
  unfold Spells
  rw [readFrame_command kind, exists_ite_some, Frame.wf, Request.wf, decide_eq_true args, Bool.and_true,
    isDestination_byte (byteAt_lt l 3)]

theorem spells_reply {l : List Byte} (kind : byteAt l 0 = 5) (short : l.length ≤ 64) :
    Spells l ↔ 12 ≤ l.length ∧ (1 ≤ byteAt l 2 ∧ byteAt l 2 ≤ 32) ∧ byteAt l 3 = 0 ∧
      1 ≤ byteAt l 7 ∧ byteAt l 7 ≤ 5 := by
  unfold Spells
  rw [readFrame_reply kind, ← resultOf_isSome, ← isStation_iff]
  by_cases fits : 12 ≤ l.length ∧ byteAt l 3 = 0
  · obtain ⟨long, other⟩ := fits
    rw [if_pos ⟨long, other⟩]
    cases resultOf (byteAt l 7) with
    | none => simp
    | some r => simp [Frame.wf, ReplyFrame.wf, short, long, other]
  · rw [if_neg fits]
    exact iff_of_false (by simp) fun ⟨long, _, other, _⟩ => fits ⟨long, other⟩

theorem spells_test {l : List Byte} (kind : byteAt l 0 = 6) :
    Spells l ↔ l.length = 40 ∧ 1 ≤ byteAt l 2 ∧ byteAt l 2 ≤ 32 := by
  unfold Spells
  rw [readFrame_test kind, exists_ite_some, Frame.wf, TestFrame.wf, Bool.and_eq_true, isStation_iff,
    decide_eq_true_eq]
  refine and_congr_right fun length => and_iff_left ?_
  rw [List.length_take, List.length_drop, length]
  rfl

theorem spells_bid {l : List Byte} (kind : byteAt l 0 = 2) :
    Spells l ↔ l.length = 13 + 4 * byteAt l 10 ∧ byteAt l 10 ≤ 6 ∧
      (1 ≤ byteAt l 2 ∧ byteAt l 2 ≤ 32) ∧ (1 ≤ byteAt l 4 ∧ byteAt l 4 ≤ 32) ∧
      byteAt l 5 / 2 % 4 ≤ 2 ∧ byteAt l 8 * 256 + byteAt l 9 ≤ 1200 ∧
      RecordsHold l 11 (byteAt l 10) := by
  unfold Spells
  rw [readFrame_bid kind, ← recordsAt_holds, ← flowOf_isSome]
  by_cases length : l.length = 13 + 4 * byteAt l 10
  · rw [if_pos length]
    unfold readBid
    cases flowOf (byteAt l 5 / 2 % 4) with
    | none => simp
    | some fl =>
      cases records : recordsAt l 11 (byteAt l 10) with
      | none => simp
      | some rs =>
        simp [Frame.wf, BidFrame.wf, isStation_iff, recordsAt_length records, wordAt_eq, length,
          and_assoc, and_left_comm]
  · rw [if_neg length]
    exact iff_of_false (by simp) fun h => length h.1

end Sys2Proof.Machine
end

section
/-! PROOFS. Frames read back from their bytes, the layouts of the frames and the rule of the CRC (R134, R135,
R139). -/

namespace Sys2Proof.Machine

/-! ### Fields and conditions of all kinds -/

/-- R139: sound bytes spell a frame exactly where the conditions of their kind hold. -/
theorem spells_iff {l : List Byte} (short : l.length ≤ 64) : Spells l ↔ FieldsHold l := by
  unfold FieldsHold
  dsimp only
  by_cases k1 : byteAt l 0 = 1
  · simp only [spells_open k1, k1, OfNat.one_ne_ofNat, true_and, false_and, or_false]
  by_cases k2 : byteAt l 0 = 2
  · simp only [spells_bid k2, k2, Nat.reduceEqDiff, OfNat.ofNat_ne_one, true_and, false_and, or_false,
      false_or]
    exact Iff.rfl
  by_cases k3 : byteAt l 0 = 3
  · simp only [spells_query k3, k3, Nat.reduceEqDiff, OfNat.ofNat_ne_one, true_and, false_and, or_false,
      false_or]
  by_cases k4 : byteAt l 0 = 4
  · simp only [spells_command k4 short, k4, Nat.reduceEqDiff, OfNat.ofNat_ne_one, true_and, false_and,
      or_false, false_or]
  by_cases k5 : byteAt l 0 = 5
  · simp only [spells_reply k5 short, k5, Nat.reduceEqDiff, OfNat.ofNat_ne_one, true_and, false_and,
      or_false, false_or]
  by_cases k6 : byteAt l 0 = 6
  · simp only [spells_test k6, k6, Nat.reduceEqDiff, OfNat.ofNat_ne_one, true_and, false_and, false_or]
  · have unread := readFrame_other (l := l) (by omega)
    refine iff_of_false (fun ⟨f, read, _⟩ => nomatch unread.symm.trans read) ?_
    simp only [k1, k2, k3, k4, k5, k6, false_and, or_self, not_false_eq_true]

theorem judgeBytes_good_iff (l : List Byte) :
    (∃ f, judgeBytes l = .good f) ↔ BytesSound l ∧ FieldsHold l := by
  simp only [judgeBytes_good, exists_and_left]
  exact and_congr_right fun sound => spells_iff sound.2.1

/-! ### Reading back -/

/-- The bytes of a frame before its CRC. -/
def frameBody (f : Frame) : List Byte := [kindByte f, byteOf ((fieldBytes f).length + 4)] ++ fieldBytes f

theorem frameBytes_eq (f : Frame) : frameBytes f = closedByCrc (frameBody f) := rfl

theorem frameBody_length (f : Frame) : (frameBody f).length = (fieldBytes f).length + 2 := by
  rw [frameBody, List.length_append, Nat.add_comm]
  rfl

theorem frameBytes_length (f : Frame) : (frameBytes f).length = (fieldBytes f).length + 4 := by
  rw [frameBytes_eq, closedByCrc_length, frameBody_length]

theorem frameBody_closable {f : Frame} (low : 4 ≤ (fieldBytes f).length)
    (high : (fieldBytes f).length ≤ 60) : Closable (frameBody f) where
  length := by
    rw [frameBody_length]
    exact byteOf_toNat_small (by omega)
  short := by
    rw [frameBody_length]
    omega

theorem fieldBytes_bid_length (f : BidFrame) :
    (fieldBytes (.bid f)).length = 9 + 4 * f.records.length := by
  rw [← recordBytes_length]
  simp only [fieldBytes, twoBytes, List.length_append, List.length_cons, List.length_nil]

theorem isStation_small {a : Nat} (h : isStation a = true) : (byteOf a).toNat = a :=
  byteOf_toNat_small (by have := (isStation_iff a).mp h; omega)

/-- The bits of the flags byte of a BID give back what it was made of (R134). -/
theorem bidFlags_back (f : BidFrame) :
    flowOf ((bidFlags f).toNat / 2 % 4) = some f.flow ∧
      decide ((bidFlags f).toNat % 2 = 1) = f.member ∧
      decide ((bidFlags f).toNat / 8 % 2 = 1) = f.alarm := by
  unfold bidFlags
  cases f.member <;> cases f.flow <;> cases f.alarm <;> decide

section
variable (f : BidFrame)

/-- The eleven bytes of a BID before its demand records. -/
def bidHead : List Byte :=
  [2, byteOf ((fieldBytes (.bid f)).length + 4), byteOf f.sender, f.round, byteOf f.opener, bidFlags f] ++
    twoBytes f.digest.toNat ++ twoBytes f.load ++ [byteOf f.records.length]

theorem frameBytes_bid :
    frameBytes (.bid f) =
      bidHead f ++ ((f.records.map recordBytes).flatten ++ twoBytes (crc16 (frameBody (.bid f))).toNat) :=
  rfl

theorem readFrame_bid_back (wf : f.wf = true) : readFrame (frameBytes (.bid f)) = some (.bid f) := by
  simp only [BidFrame.wf, Bool.and_eq_true, decide_eq_true_eq] at wf
  obtain ⟨⟨⟨⟨⟨sender, opener⟩, load⟩, few⟩, all⟩, -⟩ := wf
  have count : (byteOf f.records.length).toNat = f.records.length := byteOf_toNat_small (by omega)
  have records := recordsAt_back f.records (bidHead f) (twoBytes (crc16 (frameBody (.bid f))).toNat)
    (List.all_eq_true.mp all)
  have length : (frameBytes (.bid f)).length = 13 + 4 * byteAt (frameBytes (.bid f)) 10 := by
    have tenth : byteAt (frameBytes (.bid f)) 10 = (byteOf f.records.length).toNat := rfl
    rw [frameBytes_length, fieldBytes_bid_length, tenth, count]
    omega
  obtain ⟨flow, member, alarm⟩ := bidFlags_back f
  rw [readFrame_bid rfl, if_pos length]
  unfold readBid
  have bytes : byteAt (frameBytes (.bid f)) 5 = (bidFlags f).toNat ∧
      byteAt (frameBytes (.bid f)) 10 = (byteOf f.records.length).toNat ∧
      byteAt (frameBytes (.bid f)) 2 = (byteOf f.sender).toNat ∧
      byteAt (frameBytes (.bid f)) 3 = f.round.toNat ∧
      byteAt (frameBytes (.bid f)) 4 = (byteOf f.opener).toNat := ⟨rfl, rfl, rfl, rfl, rfl⟩
  have digest : BitVec.ofNat 16 (wordAt (frameBytes (.bid f)) 6) = f.digest := word_back f.digest
  have loads : wordAt (frameBytes (.bid f)) 8 = f.load := twoBytes_back f.load (by omega)
  obtain ⟨b5, b10, b2, b3, b4⟩ := bytes
  have read : recordsAt (frameBytes (.bid f)) 11 f.records.length = some f.records := by
    rw [frameBytes_bid]
    exact records
  rw [b5, b10, b2, b3, b4, digest, loads, flow, member, alarm, count, read, isStation_small sender,
    isStation_small opener, byteOf_self]

end

theorem readFrame_open_back {f : OpenFrame} (wf : f.wf = true) :
    readFrame (frameBytes (.openFrame f)) = some (.openFrame f) := by
  have opener : byteAt (frameBytes (.openFrame f)) 2 = f.opener := isStation_small wf
  have round : byteOf (byteAt (frameBytes (.openFrame f)) 3) = f.round := byteOf_self f.round
  have heard : addrSetAt (frameBytes (.openFrame f)) 4 = f.heard := addrSet_back f.heard
  have digest : BitVec.ofNat 16 (wordAt (frameBytes (.openFrame f)) 8) = f.digest := word_back f.digest
  rw [readFrame_open rfl, if_pos (by rfl), opener, round, heard, digest]

theorem readFrame_query_back (q : QueryFrame) :
    readFrame (frameBytes (.request (.query q))) = some (.request (.query q)) := by
  have dest : byteOf (byteAt (frameBytes (.request (.query q))) 3) = q.dest := byteOf_self q.dest
  have tag : byteOf (byteAt (frameBytes (.request (.query q))) 4) = q.tag := byteOf_self q.tag
  have kind : byteOf (byteAt (frameBytes (.request (.query q))) 5) = q.kind := byteOf_self q.kind
  have page : byteOf (byteAt (frameBytes (.request (.query q))) 6) = q.page := byteOf_self q.page
  rw [readFrame_query rfl, if_pos ⟨rfl, rfl⟩, dest, tag, kind, page]

theorem readFrame_command_back (c : CommandFrame) :
    readFrame (frameBytes (.request (.command c))) = some (.request (.command c)) := by
  have dest : byteOf (byteAt (frameBytes (.request (.command c))) 3) = c.dest := byteOf_self c.dest
  have tag : byteOf (byteAt (frameBytes (.request (.command c))) 4) = c.tag := byteOf_self c.tag
  have kind : byteOf (byteAt (frameBytes (.request (.command c))) 5) = c.kind := byteOf_self c.kind
  have length : (frameBytes (.request (.command c))).length - 8 = c.args.length := by
    rw [frameBytes_length]
    simp [fieldBytes]
  have rest : (frameBytes (.request (.command c))).drop 6 =
      c.args ++ twoBytes (crc16 (frameBody (.request (.command c)))).toNat := rfl
  rw [readFrame_command rfl, if_pos (by rfl), dest, tag, kind, length, rest, List.take_left]

theorem readFrame_reply_back {f : ReplyFrame} (wf : f.wf = true) :
    readFrame (frameBytes (.reply f)) = some (.reply f) := by
  simp only [ReplyFrame.wf, Bool.and_eq_true] at wf
  have source : byteAt (frameBytes (.reply f)) 2 = f.source := isStation_small wf.1
  have tag : byteOf (byteAt (frameBytes (.reply f)) 4) = f.tag := byteOf_self f.tag
  have type : byteOf (byteAt (frameBytes (.reply f)) 5) = f.reqType := byteOf_self f.reqType
  have kind : byteOf (byteAt (frameBytes (.reply f)) 6) = f.reqKind := byteOf_self f.reqKind
  have page : byteOf (byteAt (frameBytes (.reply f)) 8) = f.page := byteOf_self f.page
  have count : byteOf (byteAt (frameBytes (.reply f)) 9) = f.pageCount := byteOf_self f.pageCount
  have result : resultOf (byteAt (frameBytes (.reply f)) 7) = some f.result := resultOf_back f.result
  have fields : (fieldBytes (.reply f)).length = 8 + f.body.length := by
    rw [fieldBytes, List.length_append]
    rfl
  have length : (frameBytes (.reply f)).length - 12 = f.body.length := by
    rw [frameBytes_length, fields]
    omega
  have long : 12 ≤ (frameBytes (.reply f)).length := by
    rw [frameBytes_length, fields]
    omega
  have rest : (frameBytes (.reply f)).drop 10 =
      f.body ++ twoBytes (crc16 (frameBody (.reply f))).toNat := rfl
  rw [readFrame_reply rfl, if_pos ⟨long, rfl⟩, result, source, tag, type, kind, page, count, length, rest,
    List.take_left]
  rfl

theorem readFrame_test_back {f : TestFrame} (wf : f.wf = true) :
    readFrame (frameBytes (.test f)) = some (.test f) := by
  simp only [TestFrame.wf, Bool.and_eq_true, decide_eq_true_eq] at wf
  obtain ⟨station, payload⟩ := wf
  have sender : byteAt (frameBytes (.test f)) 2 = f.sender := isStation_small station
  have seed : BitVec.ofNat 16 (wordAt (frameBytes (.test f)) 3) = f.seed := word_back f.seed
  have index : byteOf (byteAt (frameBytes (.test f)) 5) = f.index := byteOf_self f.index
  have length : (frameBytes (.test f)).length = 40 := by
    rw [frameBytes_length]
    simp [fieldBytes, twoBytes, payload]
  have rest : (frameBytes (.test f)).drop 6 =
      f.payload ++ twoBytes (crc16 (frameBody (.test f))).toNat := rfl
  rw [readFrame_test rfl, if_pos length, sender, seed, index, rest, List.take_left' payload]

/-- Every well-formed frame has 8 to 64 bytes (R134, R139). -/
theorem fieldBytes_length {f : Frame} (wf : f.wf = true) :
    4 ≤ (fieldBytes f).length ∧ (fieldBytes f).length ≤ 60 := by
  cases f with
  | openFrame f => exact ⟨by simp [fieldBytes, addrSetBytes, twoBytes],
      by simp [fieldBytes, addrSetBytes, twoBytes]⟩
  | bid f =>
    simp only [Frame.wf, BidFrame.wf, Bool.and_eq_true, decide_eq_true_eq] at wf
    rw [fieldBytes_bid_length]
    omega
  | request r =>
    cases r with
    | query q => exact ⟨by simp [fieldBytes], by simp [fieldBytes]⟩
    | command c =>
      simp only [Frame.wf, Request.wf, Bool.and_eq_true, decide_eq_true_eq] at wf
      simp only [fieldBytes, List.length_append, List.length_cons, List.length_nil]
      omega
  | reply f =>
    simp only [Frame.wf, ReplyFrame.wf, Bool.and_eq_true, decide_eq_true_eq] at wf
    simp only [fieldBytes, List.length_append, List.length_cons, List.length_nil]
    omega
  | test f =>
    simp only [Frame.wf, TestFrame.wf, Bool.and_eq_true, decide_eq_true_eq] at wf
    simp only [fieldBytes, twoBytes, List.length_append, List.length_cons, List.length_nil]
    omega

theorem readFrame_back {f : Frame} (wf : f.wf = true) : readFrame (frameBytes f) = some f := by
  cases f with
  | openFrame f => exact readFrame_open_back wf
  | bid f => exact readFrame_bid_back f wf
  | request r =>
    cases r with
    | query q => exact readFrame_query_back q
    | command c => exact readFrame_command_back c
  | reply f => exact readFrame_reply_back wf
  | test f => exact readFrame_test_back wf

/-- The bytes of every well-formed frame are judged GOOD and give back that frame. -/
theorem judgeBytes_back {f : Frame} (wf : f.wf = true) : judgeBytes (frameBytes f) = .good f := by
  obtain ⟨low, high⟩ := fieldBytes_length wf
  exact (judgeBytes_good _ f).mpr ⟨(frameBody_closable low high).sound, readFrame_back wf, wf⟩

/-! ### The CRC and the layouts -/

theorem crcBit_eq (crc : Word16) (bit : Bool) :
    crcBit crc bit = (crc <<< 1) ^^^ (if crc.msb = bit then 0 else 0x1021) := by
  unfold crcBit
  by_cases h : crc.msb = bit
  · rw [if_pos (by simpa using h), if_pos h]
    simp
  · rw [if_neg (by simpa using h), if_neg h]

theorem crcRule : CrcRule where
  start := rfl
  byte l b := by
    have bits : (fun (c : Word16) (i : Nat) => crcBit c (b.getLsbD i)) =
        fun (c : Word16) i => (c <<< 1) ^^^ (if c.msb = b.getLsbD i then 0 else 0x1021) :=
      funext₂ fun c i => crcBit_eq c (b.getLsbD i)
    rw [crc16, List.foldl_append, ← bits]
    rfl
  check := by decide +kernel

theorem addrSetBytes_getLsbD (h : AddrSet) (i : Fin 32) :
    ((addrSetBytes h).getD (i.val / 8) 0).getLsbD (i.val % 8) = inSet h (i.val + 1) := by
  have member : inSet h (i.val + 1) = h.getLsbD i.val := by simp [inSet]
  have bit (k : Nat) (inByte : i.val / 8 = k) :
      (h.extractLsb' (8 * k) 8).getLsbD (i.val % 8) = h.getLsbD i.val := by
    rw [BitVec.getLsbD_extractLsb', decide_eq_true (Nat.mod_lt _ (by decide)), Bool.true_and,
      ← inByte, Nat.div_add_mod]
  have byte : i.val / 8 < 4 := by omega
  rw [member]
  generalize hk : i.val / 8 = k at byte
  have bit := bit k hk
  interval_cases k <;> exact bit

/-- The bytes of a demand record (R134). -/
theorem recordBytes_eq (r : DemandRecord) :
    recordBytes r =
      [byteOf r.circuit,
        match r.cls with
        | .p0 => 0
        | .p1 => 1
        | .p2 => 2
        | .p3 => 3,
        BitVec.ofInt 8 r.margin, byteOf r.need] := by
  unfold recordBytes
  cases r.cls <;> rfl

theorem bidFlags_bits (f : BidFrame) :
    (bidFlags f).getLsbD 0 = f.member ∧
      ((bidFlags f).extractLsb' 1 2).toNat =
        (match f.flow with
          | .noReport => 0
          | .flow => 1
          | .stop => 2) ∧
      (bidFlags f).getLsbD 3 = f.alarm ∧ (bidFlags f).extractLsb' 4 4 = 0 := by
  unfold bidFlags
  cases f.member <;> cases f.flow <;> cases f.alarm <;> decide

theorem frameLayouts : FrameLayouts where
  numbers _ := rfl
  addresses h := ⟨rfl, addrSetBytes_getLsbD h⟩
  openFrame _ := rfl
  bid f _ := by
    obtain ⟨member, flow, alarm, rest⟩ := bidFlags_bits f
    refine ⟨bidFlags f, member, flow, alarm, rest, ?_⟩
    have length : (fieldBytes (.bid f)).length + 4 = 13 + 4 * f.records.length := by
      rw [fieldBytes_bid_length]
      omega
    rw [frameBytes_eq, frameBody, length]
    simp only [fieldBytes, kindByte, funext recordBytes_eq, List.flatMap_def, List.cons_append, List.nil_append,
      List.append_assoc] <;> rfl
  query _ := rfl
  command c := by
    have length : (fieldBytes (.request (.command c))).length + 4 = 8 + c.args.length := by
      simp only [fieldBytes, List.length_append, List.length_cons, List.length_nil]
      omega
    rw [frameBytes_eq, frameBody, length]
    rfl
  reply f := by
    have length : (fieldBytes (.reply f)).length + 4 = 12 + f.body.length := by
      simp only [fieldBytes, List.length_append, List.length_cons, List.length_nil]
      omega
    rw [frameBytes_eq, frameBody, length]
    obtain ⟨source, tag, type, kind, result, page, count, body⟩ := f
    cases result <;> rfl
  test f payload := by
    have length : (fieldBytes (.test f)).length + 4 = 40 := by
      simp [fieldBytes, twoBytes, payload]
    rw [frameBytes_eq, frameBody, length]
    rfl

/-- Settles O22. -/
theorem frameBytesReadBack : Obligations.FrameBytesReadBack := by
  unfold Obligations.FrameBytesReadBack
  exact ⟨fun _ wf => judgeBytes_back wf, crcRule, frameLayouts,
    fun l => ⟨judgeBytes_crcFailed l, judgeBytes_good_iff l⟩⟩

end Sys2Proof.Machine
end

section
/-! PROOFS. The temperature of a circuit (R82) and its window start: the evaluation, said once, and what the
request for its output comes to (R75, R83 to R89, R118). -/

namespace Sys2Proof.Machine

/-! ### Terms and temperature -/

theorem channelOf_eq_some_iff (b : Nat) (t : Fin 8) : channelOf b = some t ↔ b = t.val + 1 := by
  unfold channelOf
  split
  · rw [Option.some.injEq, Fin.ext_iff]
    exact ⟨fun h => by dsimp only at h; omega, fun h => by dsimp only; omega⟩
  · rename_i outside
    exact iff_of_false nofun fun h => outside (by omega)

theorem goodReading_counts (s : State) (b : Nat) (v : Int) :
    goodReading s.env b = some v ↔ Counts s b v := by
  unfold goodReading Counts
  simp only [← channelOf_eq_some_iff]
  cases channelOf b with
  | none => simp
  | some t =>
    have rows : s.env.channels = s.ssc.rows := rfl
    simp only [rows, Option.ite_none_right_eq_some, Option.some.injEq, exists_eq_left']

theorem formTemperature_formed (s : State) (c : Fin 6) :
    TemperatureFormed s c (formTemperature s.env c) := by
  have absent : ∀ b : Nat, (∀ v, ¬Counts s b v) → goodReading s.env b = none := fun b h =>
    Option.eq_none_iff_forall_ne_some.mpr fun v k => h v ((goodReading_counts s b v).mp k)
  have found := fun b v => (goodReading_counts s b v).mpr
  refine ⟨fun a b ha hb => ?_, fun a ha hb => ?_, fun b ha hb => ?_, fun ha hb => ?_⟩ <;>
    unfold formTemperature
  · rw [show s.env.img = s.img from rfl, found _ a ha, found _ b hb]
  · rw [show s.env.img = s.img from rfl, found _ a ha, absent _ hb]
  · rw [show s.env.img = s.img from rfl, absent _ ha, found _ b hb]
  · rw [show s.env.img = s.img from rfl, absent _ ha, absent _ hb]

theorem ratedOf_bound {g : Ogd} {c o : Fin 6} (h : g.boundTo c = some o) :
    g.ratedOf c = g.outputs[o].rated := by
  unfold Ogd.ratedOf
  rw [h]

theorem ratedOf_none {g : Ogd} {c : Fin 6} (h : g.boundTo c = none) : g.ratedOf c = 0 := by
  unfold Ogd.ratedOf
  rw [h]

theorem energizable_iff (x : CState) :
    x.energizable = true ↔ x ∈ [CState.settling, .regulating, .sensorLost] := by
  cases x <;> decide

theorem plantTerms : PlantTerms where
  energizable := energizable_iff
  roles _ := rfl
  bound _ _ _ h := ⟨boundTo_role h, ratedOf_bound h⟩
  unbound g c h := ⟨ratedOf_none h, boundTo_none (p := { Plant.reset with ogd := g }) h⟩
  tested g o := by
    cases test : g.test with
    | none => simp [Ogd.underTest, test]
    | some t => simp [Ogd.underTest, test]
  outputRow p o j f := by
    refine ⟨?_, rfl⟩
    by_cases h : j = o
    · rw [if_pos h, h, updOut_row]
    · rw [if_neg h, updOut_other p o j f h]
  circuitRow p c j f := by
    refine ⟨?_, rfl⟩
    by_cases h : j = c
    · rw [if_pos h, h, updCct_row]
    · rw [if_neg h, updCct_other p c j f h]
  tripRecord p c j f := by
    refine ⟨?_, rfl⟩
    by_cases h : j = c
    · rw [if_pos h, h, updTrip_row]
    · rw [if_neg h, updTrip_other p c j f h]

/-! ### The evaluation of a window start -/

/-- The row of circuit `c` after the evaluation of its window start (R88, steps 1 to 5). -/
def windowRow (e : Env) (c : Fin 6) (p : Plant) : CircuitRow :=
  evaluatedRow e p c { p.cct[c] with toNext := some e.windowMs }

/-- The factors that the Output Guard raises at a window start (R116, R126). -/
def guardFactors (c : Fin 6) (p : Plant) : Fct :=
  match p.ogd.boundTo c with
  | some o => p.fct.raiseIf (decide (p.ogd.outputs[o].limit.level = some true)) .limitOpen
  | none =>
    (p.fct.raiseIf (decide (p.cct[c].state = .failed)) .circuitFailed).raiseIf
      (decide (p.cct[c].state = .failed)) .spareExhausted

/-- The factors after the evaluation of a window start (R93, R116, R126). -/
def windowFactors (e : Env) (c : Fin 6) (p : Plant) : Fct :=
  ((guardFactors c p).raiseIf (decide ((windowRow e c p).margin.any (· < 0))) .belowPour).raiseIf
    (decide ((windowRow e c p).state = .sensorLost)) .sensorLost

/-- The plant after the evaluation of a window start, before the request for the output. -/
def windowJudged (e : Env) (c : Fin 6) (p : Plant) : Plant :=
  { p.updCct c (fun _ => windowRow e c p) with fct := windowFactors e c p }

/-- Where no period of the circuit's output is in progress, a window start has none to end. -/
theorem endPeriod_none {e : Env} {c : Fin 6} {p : Plant}
    (quiet : ∀ o, p.ogd.boundTo c = some o → p.ogd.outputs[o].energized = false ∨ p.ogd.underTest o = true) :
    endPeriod e c p = p := by
  unfold endPeriod endPeriodWith
  cases bound : p.ogd.boundTo c with
  | none => rfl
  | some o =>
    refine if_neg ?_
    rcases quiet o bound with h | h <;> simp [h, -Fin.getElem_fin]

theorem windowRaises_begun (e : Env) (c : Fin 6) (p : Plant) :
    windowRaises c (p.updCct c fun r => { r with toNext := some e.windowMs }) =
      { p.updCct c (fun r => { r with toNext := some e.windowMs }) with fct := guardFactors c p } := by
  have state : (p.updCct c fun r => { r with toNext := some e.windowMs }).cct[c].state = p.cct[c].state := by
    rw [updCct_row]
  have ogd : (p.updCct c fun r => { r with toNext := some e.windowMs }).ogd = p.ogd := rfl
  unfold windowRaises guardFactors
  rw [ogd, state]
  cases p.ogd.boundTo c <;> rfl

theorem evaluate_begun (e : Env) (c : Fin 6) (p : Plant) (f : Fct) :
    evaluate e c { p.updCct c (fun r => { r with toNext := some e.windowMs }) with fct := f } =
      { p.updCct c (fun _ => windowRow e c p) with
        fct := (f.raiseIf (decide ((windowRow e c p).margin.any (· < 0))) .belowPour).raiseIf
          (decide ((windowRow e c p).state = .sensorLost)) .sensorLost } := by
  have rows : updAt (updAt p.cct c fun r => { r with toNext := some e.windowMs }) c (evaluatedRow e p c) =
      updAt p.cct c fun _ => windowRow e c p := updAt_updAt _ _ _ _
  have row : (updAt p.cct c fun _ => windowRow e c p)[c] = windowRow e c p :=
    (updAt_get _ _ _ _).trans (if_pos rfl)
  show ((({ p with cct := updAt (updAt p.cct c _) c (evaluatedRow e p c), fct := f } : Plant).raiseIf
    (decide ((updAt (updAt p.cct c _) c (evaluatedRow e p c))[c].margin.any (· < 0))) .belowPour).raiseIf
    (decide ((updAt (updAt p.cct c _) c (evaluatedRow e p c))[c].state = .sensorLost)) .sensorLost) = _
  rw [rows, row]
  rfl

/-- R88: a window start of a circuit in service, with no period to end, evaluates the circuit and then requests
its output. -/
theorem windowStart_judged {e : Env} {c : Fin 6} {p : Plant} (runs : p.cct[c].toNext.isSome = true)
    (configured : isConfigured e.img c = true) (enabled : p.cct[c].state ≠ .disabled)
    (quiet : ∀ o, p.ogd.boundTo c = some o →
      p.ogd.outputs[o].energized = false ∨ p.ogd.underTest o = true) :
    windowStart e c p = requestOutput e c (windowJudged e c p) := by
  have state : (p.updCct c fun r => { r with toNext := some e.windowMs }).cct[c].state = p.cct[c].state := by
    rw [updCct_row]
  have none' := endPeriod_none (e := e) (c := c)
    (p := p.updCct c fun r => { r with toNext := some e.windowMs }) quiet
  unfold windowStart
  rw [if_pos runs]
  dsimp only
  rw [state, configured, decide_eq_true enabled, none', windowRaises_begun, evaluate_begun]
  rfl

/-! ### The request for the output -/

/-- What circuit `c` asks of its output `o` can be met (R118). -/
def requestMet (e : Env) (c o : Fin 6) (p : Plant) : Bool :=
  decide (0 < (windowRow e c p).onTime) && e.membership.follows && (windowRow e c p).state.energizable &&
    decide (p.ogd.outputs[o].limit.level = some false)

theorem requestOutput_judged {e : Env} {c o : Fin 6} {p : Plant} (bound : p.ogd.boundTo c = some o) :
    requestOutput e c (windowJudged e c p) =
      if requestMet e c o p then energize e o (windowJudged e c p) else windowJudged e c p := by
  have row : (windowJudged e c p).cct[c] = windowRow e c p := updCct_row p c _
  have ogd : (windowJudged e c p).ogd = p.ogd := rfl
  unfold requestOutput
  rw [ogd, bound]
  dsimp only
  rw [row]
  rfl

/-- A window start whose request is not met drives nothing. -/
theorem requestOutput_unmet {e : Env} {c : Fin 6} {p : Plant}
    (unmet : ∀ o, p.ogd.boundTo c = some o → requestMet e c o p = false) :
    requestOutput e c (windowJudged e c p) = windowJudged e c p := by
  cases bound : p.ogd.boundTo c with
  | none =>
    have ogd : (windowJudged e c p).ogd = p.ogd := rfl
    unfold requestOutput
    rw [ogd, bound]
  | some o => rw [requestOutput_judged bound, unmet o bound, if_neg Bool.false_ne_true]

/-- What a window start of a circuit whose output may be driven leaves of the plant (R88, R118, R119). -/
theorem windowStart_drives {e : Env} {c o : Fin 6} {p : Plant} (runs : p.cct[c].toNext.isSome = true)
    (configured : isConfigured e.img c = true) (enabled : p.cct[c].state.energizable = true)
    (follows : e.membership.follows = true) (bound : p.ogd.boundTo c = some o)
    (off : p.ogd.outputs[o].energized = false) (closed : p.ogd.outputs[o].limit.level = some false)
    (dry : p.ogd.outputs[o].leakage.level ≠ some true)
    (stays : (windowRow e c p).state.energizable = true) :
    ∃ q, windowStart e c p = q ∧ q.cct[c] = windowRow e c p ∧
      q.ogd.outputs[o].energized = decide (0 < (windowRow e c p).onTime) ∧
      (q.ogd.outputs[o].energized = true → PeriodBegun q.ogd.outputs[o]) ∧
      (∀ j : Fin 6, j ≠ c → q.cct[j] = p.cct[j]) ∧
      (∀ j : Fin 6, j ≠ o → q.ogd.outputs[j] = p.ogd.outputs[j]) ∧
      q.fct = windowFactors e c p ∧ q.alu = p.alu := by
  have notDisabled : p.cct[c].state ≠ .disabled := fun h => by
    rw [h] at enabled
    cases enabled
  have quiet : ∀ j, p.ogd.boundTo c = some j →
      p.ogd.outputs[j].energized = false ∨ p.ogd.underTest j = true := by
    intro j hj
    cases bound.symm.trans hj
    exact .inl off
  have met : requestMet e c o p = decide (0 < (windowRow e c p).onTime) := by
    rw [requestMet, follows, stays, decide_eq_true closed, Bool.and_true, Bool.and_true, Bool.and_true]
  have row : (windowJudged e c p).cct[c] = windowRow e c p := updCct_row p c _
  have others : ∀ j : Fin 6, j ≠ c → (windowJudged e c p).cct[j] = p.cct[j] := fun j h =>
    updCct_other p c j _ h
  rw [windowStart_judged runs configured notDisabled quiet, requestOutput_judged bound, met]
  refine ⟨_, rfl, ?_⟩
  by_cases heats : 0 < (windowRow e c p).onTime
  · obtain ⟨cct, fct, alu, -, begun, rest, -⟩ := energize_on e o (windowJudged e c p) dry
    rw [if_pos (decide_eq_true heats), begun, cct, fct, alu, decide_eq_true heats]
    exact ⟨row, rfl, fun _ => ⟨rfl, rfl, rfl⟩, others, rest, rfl, rfl⟩
  · rw [if_neg (by simp [heats]), decide_eq_false heats]
    exact ⟨row, off, fun on => absurd (off.symm.trans on) (by decide), others, fun _ _ => rfl, rfl, rfl⟩

/-! ### Windows with a temperature, and without one -/

theorem guardFactors_closed {c o : Fin 6} {p : Plant} (bound : p.ogd.boundTo c = some o)
    (closed : p.ogd.outputs[o].limit.level ≠ some true) : guardFactors c p = p.fct := by
  unfold guardFactors
  rw [bound]
  dsimp only
  rw [decide_eq_false closed]
  rfl

theorem movedState_formed {x : CState} (settle : Settle) (h : x.energizable = true) :
    movedState x settle true = .regulating := by
  have heats := (energizable_iff x).mp h
  simp only [List.mem_cons, List.not_mem_nil, or_false] at heats
  rcases heats with rfl | rfl | rfl <;> rfl

theorem movedState_unformed {x : CState} (settle : Settle) (h : x.energizable = true) :
    movedState x settle false =
      if x = .settling ∧ settle ≠ .stopped then .settling else .sensorLost := by
  have heats := (energizable_iff x).mp h
  simp only [List.mem_cons, List.not_mem_nil, or_false] at heats
  rcases heats with rfl | rfl | rfl
  · by_cases stopped : settle = .stopped <;> simp [movedState, stopped]
  · rfl
  · rfl

theorem setpointOf_eq (s : State) (c : Fin 6) :
    setpointOf s.env c = if s.rst.line = .flowing then s.img.circuits[c].spFlowing
      else s.img.circuits[c].spStandstill := by
  have line : s.env.line = s.rst.line := rfl
  unfold setpointOf
  rw [line]
  cases s.rst.line <;> rfl

/-- R88: the row that the evaluation of a window start leaves, by the state it moves to. -/
theorem windowRow_eq {e : Env} {p : Plant} {c : Fin 6} {temp : Option Int} {src : TempSource}
    {st : CState} (formed : formTemperature e c = (temp, src))
    (moved : movedState p.cct[c].state p.cct[c].settle temp.isSome = st) :
    windowRow e c p =
      { p.cct[c] with
        state := st, settle := if st = .settling then p.cct[c].settle else .stopped, temp := temp,
        source := src, setpoint := temp.map fun _ => setpointOf e c, need := needIn e p c st temp,
        margin := temp.map fun x => marginOf x e.img.pourPoint,
        cls := some (classFor (temp.map fun x => marginOf x e.img.pourPoint) e.img.lowMargin
          (needIn e p c st temp)),
        onTime :=
          if st.energizable then onTimeFor e.windowMs p.cct[c].grant (needIn e p c st temp)
            (p.ogd.ratedOf c)
          else 0,
        toNext := some e.windowMs } := by
  subst moved
  unfold windowRow evaluatedRow
  rw [formed]

/-- R75, R83 to R89: the row of a circuit whose temperature is formed. -/
theorem windowRow_formed {c o : Fin 6} {x : Int} {src : TempSource} {s : State}
    (warm : s.plant.cct[c].state.energizable = true) (bound : s.plant.ogd.boundTo c = some o)
    (formed : formTemperature s.env c = (some x, src)) :
    let k := s.img.circuits[c]
    let sp := if s.rst.line = .flowing then k.spFlowing else k.spStandstill
    let rated := s.plant.ogd.outputs[o].rated
    let need := if sp ≤ x then 0 else min rated (ceilDiv (rated * (sp - x).toNat) k.band.toNat)
    let m : Int := max (-128) (min 127 ((x - s.img.pourPoint) / 10))
    let w := s.img.window * 1000
    windowRow s.env c s.plant =
      { s.plant.cct[c] with
        state := .regulating, settle := .stopped, temp := some x, source := src,
        setpoint := some sp, need := need, margin := some m,
        cls := some (if m < 0 then .p0 else if m < s.img.lowMargin then .p1
          else if 0 < need then .p2 else .p3),
        onTime := w * min s.plant.cct[c].grant need / rated, toNext := some w } := by
  intro k sp rated need m w
  have moved := movedState_formed s.plant.cct[c].settle warm
  have needed : regulatedNeed rated (setpointOf s.env c) x k.band = need := by
    rw [setpointOf_eq]
    rfl
  have need' : needIn s.env s.plant c .regulating (some x) = need := by
    unfold needIn
    rw [ratedOf_bound bound]
    exact needed
  rw [windowRow_eq formed moved, need', ratedOf_bound bound, Option.map_some,
    setpointOf_eq]
  rfl

/-- R75, R84 to R86: the row of a circuit whose temperature cannot be formed. -/
theorem windowRow_unformed {c o : Fin 6} {src : TempSource} {s : State}
    (warm : s.plant.cct[c].state.energizable = true) (bound : s.plant.ogd.boundTo c = some o)
    (unformed : formTemperature s.env c = (none, src)) :
    let settling := s.plant.cct[c].state = .settling ∧ s.plant.cct[c].settle ≠ .stopped
    let rated := s.plant.ogd.outputs[o].rated
    let need := min s.img.circuits[c].fallback rated
    let w := s.img.window * 1000
    windowRow s.env c s.plant =
      { s.plant.cct[c] with
        state := if settling then .settling else .sensorLost,
        settle := if settling then s.plant.cct[c].settle else .stopped,
        temp := none, source := src, setpoint := none, need := need, margin := none,
        cls := some .p1, onTime := w * min s.plant.cct[c].grant need / rated, toNext := some w } := by
  intro settling rated need w
  have moved := movedState_unformed s.plant.cct[c].settle warm
  have fallback : fallbackInUse s.env s.plant c = need := by
    rw [fallbackInUse, ratedOf_bound bound]
    rfl
  by_cases still : settling
  · have need' : needIn s.env s.plant c .settling none = need := fallback
    rw [if_pos still, if_pos still, windowRow_eq unformed (moved.trans (if_pos still)), need',
      ratedOf_bound bound]
    rfl
  · have need' : needIn s.env s.plant c .sensorLost none = need := fallback
    rw [if_neg still, if_neg still, windowRow_eq unformed (moved.trans (if_neg still)), need',
      ratedOf_bound bound]
    rfl

/-- Settles O39. -/
theorem windowStartRegulates : Obligations.WindowStartRegulates := by
  unfold Obligations.WindowStartRegulates
  refine ⟨fun c s => formTemperature_formed s c, plantTerms, ?_⟩
  intro c o x src s runs configured warm follows bound off closed dry formed
  have row := windowRow_formed warm bound formed
  dsimp only at row
  have stays : (windowRow s.env c s.plant).state.energizable = true := by
    rw [row]
    rfl
  obtain ⟨q, run, cct, on, begun, circuits, outputs, fct, alu⟩ :=
    windowStart_drives (e := s.env) runs configured warm follows bound off closed dry stays
  rw [row] at cct on
  refine ⟨{ s with plant := q }, plant_next run, rfl, cct, on, begun, circuits, outputs, ?_, alu⟩
  refine fct.trans ?_
  unfold windowFactors
  rw [guardFactors_closed bound (by rw [closed]; decide), row]
  simp

/-- Settles O40. -/
theorem windowStartWithoutTemperature : Obligations.WindowStartWithoutTemperature := by
  unfold Obligations.WindowStartWithoutTemperature
  intro c o src s runs configured warm follows bound off closed dry unformed
  have row := windowRow_unformed warm bound unformed
  dsimp only at row
  have stays : (windowRow s.env c s.plant).state.energizable = true := by
    rw [row]
    dsimp only
    split <;> rfl
  obtain ⟨q, run, cct, on, begun, circuits, outputs, fct, alu⟩ :=
    windowStart_drives (e := s.env) runs configured warm follows bound off closed dry stays
  have factors : q.fct = s.plant.fct.raiseIf (decide ((windowRow s.env c s.plant).state = .sensorLost))
      .sensorLost := by
    rw [fct, windowFactors, guardFactors_closed bound (by rw [closed]; decide), row]
    rfl
  rw [row] at cct on factors
  refine ⟨{ s with plant := q }, plant_next run, rfl, cct, on, begun, fun lost => ?_, fun settling => ?_,
    circuits, outputs, alu⟩
  · show q.fct.held .sensorLost = true
    rw [factors]
    exact held_raiseIf_true s.plant (decide_eq_true (if_neg lost)) .sensorLost
  · rw [factors]
    dsimp only
    rw [if_pos settling]
    rfl

end Sys2Proof.Machine
end

section
/-! PROOFS. Window starts that heat nothing (R87, R88, R116, R126). -/

namespace Sys2Proof.Machine

theorem Fct.held_raiseIf (u : Fct) (b : Bool) (x y : Factor) :
    (u.raiseIf b x).held y = (u.held y || (b && decide (x = y))) :=
  Plant.held_raiseIf { Plant.reset with fct := u } b x y

theorem Plant.with_fct {p q : Plant} {f : Fct} (h : p = q) :
    ({ p with fct := f } : Plant) = { q with fct := f } := by
  rw [h]

theorem windowStart_stopped {e : Env} {c : Fin 6} {p : Plant} (stopped : p.cct[c].toNext = none) :
    windowStart e c p = p :=
  if_neg (by rw [stopped]; decide)

/-- A window start of a circuit out of service only starts its next window (R87). -/
theorem windowStart_outOfService {e : Env} {c : Fin 6} {p : Plant} (runs : p.cct[c].toNext.isSome = true)
    (out : isConfigured e.img c = false ∨ p.cct[c].state = .disabled) :
    windowStart e c p = p.updCct c fun r => { r with toNext := some e.windowMs } := by
  have state : (p.updCct c fun r => { r with toNext := some e.windowMs }).cct[c].state = p.cct[c].state := by
    rw [updCct_row]
  unfold windowStart
  rw [if_pos runs]
  dsimp only
  rw [state]
  refine if_neg ?_
  rcases out with h | h <;> simp [h, -Fin.getElem_fin]

/-- R75: a circuit in a state that heats nothing keeps it. -/
theorem movedState_idle {x : CState} (settle : Settle) (temp : Bool)
    (h : x ∈ [CState.inhibited, .tripped, .failed, .testing]) : movedState x settle temp = x := by
  simp only [List.mem_cons, List.not_mem_nil, or_false] at h
  rcases h with rfl | rfl | rfl | rfl <;> rfl

theorem needIn_idle {e : Env} {p : Plant} {c : Fin 6} {x : CState} (temp : Option Int)
    (h : x ∈ [CState.inhibited, .tripped, .failed, .testing]) : needIn e p c x temp = 0 := by
  simp only [List.mem_cons, List.not_mem_nil, or_false] at h
  rcases h with rfl | rfl | rfl | rfl <;> rfl

/-- The row that a window start leaves of a circuit in a state that heats nothing (R88). -/
theorem windowRow_idle {e : Env} {c : Fin 6} {p : Plant}
    (idle : p.cct[c].state ∈ [CState.inhibited, .tripped, .failed, .testing]) :
    windowRow e c p =
      { p.cct[c] with
        settle := .stopped, temp := (formTemperature e c).1, source := (formTemperature e c).2,
        setpoint := (formTemperature e c).1.map fun _ => setpointOf e c, need := 0,
        margin := (formTemperature e c).1.map fun x => marginOf x e.img.pourPoint,
        cls := some (classFor ((formTemperature e c).1.map fun x => marginOf x e.img.pourPoint)
          e.img.lowMargin 0),
        onTime := 0, toNext := some e.windowMs } := by
  have row := windowRow_eq (p := p) (c := c) (Prod.eta (formTemperature e c)).symm
    (movedState_idle p.cct[c].settle (formTemperature e c).1.isSome idle)
  have cold : p.cct[c].state.energizable = false ∧ p.cct[c].state ≠ .settling := by
    simp only [List.mem_cons, List.not_mem_nil, or_false] at idle
    rcases idle with h | h | h | h <;> rw [h] <;> decide
  rw [needIn_idle _ idle, cold.1, if_neg cold.2, if_neg Bool.false_ne_true] at row
  exact row

/-- The factors that the Output Guard raises at a window start, as one chain of raises. -/
theorem guardFactors_eq (c : Fin 6) (p : Plant) :
    guardFactors c p =
      ((p.fct.raiseIf ((p.ogd.boundTo c).any fun o =>
          decide (p.ogd.outputs[o].limit.level = some true)) .limitOpen).raiseIf
        (decide (p.cct[c].state = .failed ∧ p.ogd.boundTo c = none)) .circuitFailed).raiseIf
        (decide (p.cct[c].state = .failed ∧ p.ogd.boundTo c = none)) .spareExhausted := by
  unfold guardFactors
  cases p.ogd.boundTo c with
  | some o => simp [-Fin.getElem_fin]
  | none => simp [-Fin.getElem_fin]

theorem requestMet_cold {e : Env} {c o : Fin 6} {p : Plant} (cold : (windowRow e c p).onTime = 0) :
    requestMet e c o p = false := by
  rw [requestMet, cold]
  rfl

theorem requestMet_open {e : Env} {c o : Fin 6} {p : Plant}
    (opened : p.ogd.outputs[o].limit.level = some true) : requestMet e c o p = false := by
  rw [requestMet, opened, Bool.and_eq_false_iff]
  exact .inr rfl

theorem windowStart_idle {c : Fin 6} {s : State} (runs : s.plant.cct[c].toNext.isSome = true)
    (configured : isConfigured s.img c = true)
    (idle : s.plant.cct[c].state ∈ [CState.inhibited, .tripped, .failed, .testing])
    (quiet : ∀ o, s.plant.ogd.boundTo c = some o →
      s.plant.ogd.outputs[o].energized = false ∨ s.plant.ogd.underTest o = true) :
    let k := s.img.circuits[c]
    let temp := (formTemperature s.env c).1
    let margin := temp.map fun x => max (-128) (min 127 ((x - s.img.pourPoint) / 10))
    let unbound := decide (s.plant.cct[c].state = .failed ∧ s.plant.ogd.boundTo c = none)
    windowStart s.env c s.plant =
      { s.plant.updCct c (fun r =>
          { r with
            settle := .stopped, temp := temp, source := (formTemperature s.env c).2,
            setpoint := temp.map fun _ =>
              if s.rst.line = .flowing then k.spFlowing else k.spStandstill,
            need := 0, margin := margin,
            cls := some (
              match margin with
              | none => .p1
              | some m =>
                if m < 0 then .p0 else if m < s.img.lowMargin then .p1 else .p3),
            onTime := 0, toNext := some (s.img.window * 1000) }) with
        fct := (((s.plant.fct.raiseIf ((s.plant.ogd.boundTo c).any fun o =>
            decide (s.plant.ogd.outputs[o].limit.level = some true)) .limitOpen).raiseIf
          unbound .circuitFailed).raiseIf unbound .spareExhausted).raiseIf
            (margin.any fun m => decide (m < 0)) .belowPour } := by
  intro k temp margin unbound
  have enabled : s.plant.cct[c].state ≠ .disabled ∧ s.plant.cct[c].state ≠ .sensorLost := by
    simp only [List.mem_cons, List.not_mem_nil, or_false] at idle
    rcases idle with h | h | h | h <;> rw [h] <;> decide
  have row := windowRow_idle (e := s.env) idle
  have state : (windowRow s.env c s.plant).state = s.plant.cct[c].state := by rw [row]
  have margins : (windowRow s.env c s.plant).margin = margin := by
    rw [row]
    rfl
  rw [windowStart_judged runs configured enabled.1 quiet,
    requestOutput_unmet fun _ _ => requestMet_cold (by rw [row]), windowJudged, windowFactors,
    guardFactors_eq, state, margins, decide_eq_false enabled.2, Bool.decide_eq_true, Fct.raiseIf_false]
  refine Plant.with_fct (updCct_congr s.plant c _ _ ?_)
  refine row.trans ?_
  rw [setpointOf_eq]
  dsimp only [margin, temp]
  cases (formTemperature s.env c).1 <;> rfl

/-- Settles O41. -/
theorem windowStartWithoutHeat : Obligations.WindowStartWithoutHeat := by
  unfold Obligations.WindowStartWithoutHeat
  intro c s
  refine ⟨fun stopped => plant_next (windowStart_stopped stopped),
    fun runs out => plant_next (windowStart_outOfService runs out),
    fun runs configured idle quiet => plant_next (windowStart_idle runs configured idle quiet),
    fun o runs configured enabled bound off opened => ?_⟩
  have only : ∀ j, s.plant.ogd.boundTo c = some j → j = o := fun j hj =>
    Option.some.inj (hj.symm.trans bound)
  have judged : windowStart s.env c s.plant = windowJudged s.env c s.plant := by
    rw [windowStart_judged runs configured enabled fun j hj => .inl (by rw [only j hj]; exact off)]
    exact requestOutput_unmet fun j hj => requestMet_open (by rw [only j hj]; exact opened)
  have limit : (guardFactors c s.plant).held .limitOpen = true := by
    unfold guardFactors
    rw [bound]
    exact held_raiseIf_true s.plant (decide_eq_true opened) .limitOpen
  refine ⟨{ s with plant := _ }, plant_next judged, rfl, ?_, rfl, fun j h => updCct_other s.plant c j _ h,
    fun _ => rfl⟩
  show (windowFactors s.env c s.plant).held .limitOpen = true
  rw [windowFactors, Fct.held_raiseIf, Fct.held_raiseIf, limit]
  rfl

end Sys2Proof.Machine
end

section
/-! PROOFS. Trips: what a trip leaves of the plant below the trip limit and at it (R78, R80, R123, R126), and the
commands that take one (R118, R120 to R122). -/

namespace Sys2Proof.Machine

/-! ### The row of a tripped output -/

/-- What a trip of kind `k` leaves of the row `r` of its output (R123, steps 1 to 3). -/
structure TrippedRow (k : FaultKind) (r u : OutputRow) : Prop where
  off : u.energized = false
  openCount : u.openCount = 0
  total : u.health.tripTotal = min 65535 (r.health.tripTotal + 1)
  fault : u.health.lastFault = some k
  peak : u.health.peak = r.health.peak

theorem tripRecorded_row (o : Fin 6) (k : FaultKind) (p : Plant) :
    TrippedRow k p.ogd.outputs[o] (tripRecorded o k p).ogd.outputs[o] := by
  have row : (tripRecorded o k p).ogd.outputs[o] =
      (fun r : OutputRow =>
        { r with
          openCount := 0,
          health :=
            { r.health with
              tripTotal := satAdd 65535 r.health.tripTotal 1, lastFault := some k } })
        (switchOff o p).ogd.outputs[o] := updOut_row (switchOff o p) o _
  have off := (switchOff_facts o p).2.2.1
  have health : (switchOff o p).ogd.outputs[o].health.tripTotal = p.ogd.outputs[o].health.tripTotal ∧
      (switchOff o p).ogd.outputs[o].health.peak = p.ogd.outputs[o].health.peak := by
    rw [switchOff_row]
    split <;> exact ⟨rfl, rfl⟩
  rw [row]
  exact ⟨off, rfl, congrArg (fun n => min 65535 (n + 1)) health.1, rfl, health.2⟩

/-- A later change of the row that keeps what a trip writes. -/
theorem TrippedRow.kept {k : FaultKind} {r u v : OutputRow} (h : TrippedRow k r u)
    (off : v.energized = u.energized) (openCount : v.openCount = u.openCount)
    (total : v.health.tripTotal = u.health.tripTotal) (fault : v.health.lastFault = u.health.lastFault)
    (peak : v.health.peak = u.health.peak) : TrippedRow k r v :=
  ⟨off.trans h.off, openCount.trans h.openCount, total.trans h.total, fault.trans h.fault, peak.trans h.peak⟩

/-- R123: a tripped row is what the statements ask of every trip. -/
theorem TrippedRow.taken {k : FaultKind} {o : Fin 6} {s t : State} {r : OutputRow}
    (h : TrippedRow k r t.plant.ogd.outputs[o])
    (total : r.health.tripTotal = s.plant.ogd.outputs[o].health.tripTotal)
    (raised : Held t .circuitTrip) : TripTaken k o s t :=
  ⟨h.off, h.openCount, by rw [h.total, total], h.fault, raised⟩

/-! ### The counted trip -/

theorem tripCounted_items (o c : Fin 6) (k : FaultKind) (p : Plant) :
    (tripCounted o c k p).ogd.test = p.ogd.test ∧ (tripCounted o c k p).cct = p.cct ∧
      (tripCounted o c k p).alu = p.alu ∧
      (tripCounted o c k p).fct = p.fct.raise .circuitTrip ∧
      (tripCounted o c k p).ogd.trips[c] = ⟨p.ogd.trips[c].count + 1, 0, 0⟩ ∧
      (∀ j : Fin 6, j ≠ c → (tripCounted o c k p).ogd.trips[j] = p.ogd.trips[j]) ∧
      TrippedRow k p.ogd.outputs[o] (tripCounted o c k p).ogd.outputs[o] ∧
      (∀ j : Fin 6, (tripCounted o c k p).ogd.outputs[j].role = p.ogd.outputs[j].role) ∧
      ∀ j : Fin 6, j ≠ o → (tripCounted o c k p).ogd.outputs[j] = p.ogd.outputs[j] := by
  obtain ⟨test, cct, trips, alu, fct, -, role, others⟩ := tripRecorded_items o k p
  exact ⟨test, cct, alu, fct, updTrip_row _ _ _,
    fun j h => (updTrip_other _ _ _ _ h).trans (by rw [trips]), tripRecorded_row o k p, role, others⟩

/-! ### Below the trip limit -/

/-- The plant of a trip below the trip limit, before the end of a test (R123, R78). -/
def tripHeld (e : Env) (o c : Fin 6) (k : FaultKind) (p : Plant) : Plant :=
  ((tripCounted o c k p).updOut o fun r => { r with holdOff := some (e.img.holdOff * 1000) }).updCct c
    (idleRow .tripped)

theorem tripHeld_items (e : Env) (o c : Fin 6) (k : FaultKind) (p : Plant) :
    (tripHeld e o c k p).ogd.test = p.ogd.test ∧ (tripHeld e o c k p).alu = p.alu ∧
      (tripHeld e o c k p).fct = p.fct.raise .circuitTrip ∧
      (tripHeld e o c k p).cct[c] = idleRow .tripped p.cct[c] ∧
      (∀ j : Fin 6, j ≠ c → (tripHeld e o c k p).cct[j] = p.cct[j]) ∧
      (tripHeld e o c k p).ogd.trips[c] = ⟨p.ogd.trips[c].count + 1, 0, 0⟩ ∧
      (∀ j : Fin 6, j ≠ c → (tripHeld e o c k p).ogd.trips[j] = p.ogd.trips[j]) ∧
      TrippedRow k p.ogd.outputs[o] (tripHeld e o c k p).ogd.outputs[o] ∧
      (tripHeld e o c k p).ogd.outputs[o].holdOff = some (e.img.holdOff * 1000) ∧
      (tripHeld e o c k p).ogd.outputs[o].role = p.ogd.outputs[o].role ∧
      ∀ j : Fin 6, j ≠ o → (tripHeld e o c k p).ogd.outputs[j] = p.ogd.outputs[j] := by
  obtain ⟨test, cct, alu, fct, trip, trips, row, role, others⟩ := tripCounted_items o c k p
  have held : (tripHeld e o c k p).ogd.outputs[o] =
      { (tripCounted o c k p).ogd.outputs[o] with holdOff := some (e.img.holdOff * 1000) } :=
    updOut_row (tripCounted o c k p) o _
  have cct' : ((tripCounted o c k p).updOut o fun r =>
      { r with holdOff := some (e.img.holdOff * 1000) }).cct = p.cct := cct
  refine ⟨test, alu, fct, (updCct_row _ c _).trans (by rw [cct']),
    fun j h => (updCct_other _ c j _ h).trans (by rw [cct']), trip, trips, ?_, by rw [held],
    by rw [held, ← role], fun j h => (updOut_other (tripCounted o c k p) o j _ h).trans (others j h)⟩
  rw [held]
  exact row.kept rfl rfl rfl rfl rfl

theorem tripOutput_below {e : Env} {o c : Fin 6} {k : FaultKind} {p : Plant}
    (on : p.ogd.outputs[o].energized = true) (bound : p.ogd.outputs[o].role.circuit = some c)
    (untested : p.ogd.underTest o = false) (below : p.ogd.trips[c].count + 1 < e.img.tripLimit) :
    tripOutput e o k p = tripHeld e o c k p := by
  rw [tripOutput, tripWith_bound respread e o k p on bound, if_pos below, untested]
  rfl

/-! ### At the trip limit -/

theorem lowestSpare_eq_none {g : Ogd} (h : ∀ q : Fin 6, g.outputs[q].role ≠ .spareFree) :
    g.lowestSpare = none :=
  List.find?_eq_none.mpr fun q _ => by simpa using h q

/-- A search of the circuits or outputs finds the lowest one that fits. -/
theorem find_sixIds {fits : Fin 6 → Bool} {q : Fin 6} (found : fits q = true)
    (below : ∀ j : Fin 6, j < q → fits j = false) : sixIds.find? fits = some q := by
  have each : ∀ j : Fin 6, sixIds[j.val]'(by simp [sixIds]) = j := by decide
  refine List.find?_eq_some_iff_getElem.mpr ⟨found, q.val, by simp [sixIds], each q, fun j hj => ?_⟩
  have := below ⟨j, by omega⟩ hj
  rw [← each ⟨j, by omega⟩] at this
  simpa using this

theorem lowestSpare_eq_some {g : Ogd} {q : Fin 6} (spare : g.outputs[q].role = .spareFree)
    (below : ∀ j : Fin 6, j < q → g.outputs[j].role ≠ .spareFree) : g.lowestSpare = some q :=
  find_sixIds (decide_eq_true spare) fun j h => decide_eq_false (below j h)

/-- R126: what the failure of circuit `c` on output `o` leaves, while no test is in progress. -/
structure FailedOver (o c : Fin 6) (p q : Plant) : Prop where
  row : q.ogd.outputs[o] = { p.ogd.outputs[o] with role := .bad }
  raised : q.fct.held .circuitFailed = true
  held : ∀ x, p.fct.held x = true → q.fct.held x = true
  test : q.ogd.test = none
  alu : q.alu = p.alu
  circuits : ∀ j : Fin 6, j ≠ c → q.cct[j] = p.cct[j] ∧ q.ogd.trips[j] = p.ogd.trips[j]
  spare : ∀ d : Fin 6, p.ogd.outputs[d].role = .spareFree →
    (∀ j : Fin 6, j < d → p.ogd.outputs[j].role ≠ .spareFree) →
    q.ogd.outputs[d] = { p.ogd.outputs[d] with role := .spareBound c, openCount := 0 } ∧
    q.ogd.trips[c] = ⟨0, 0, 0⟩ ∧
    q.cct[c].state = (if p.ogd.outputs[d].limit.level = some true then .inhibited else .settling) ∧
    ∀ j : Fin 6, j ≠ o → j ≠ d → q.ogd.outputs[j] = p.ogd.outputs[j]
  exhausted : (∀ d : Fin 6, p.ogd.outputs[d].role ≠ .spareFree) →
    q.fct.held .spareExhausted = true ∧ q.cct[c] = p.cct[c] ∧ q.ogd.trips[c] = p.ogd.trips[c] ∧
    ∀ j : Fin 6, j ≠ o → q.ogd.outputs[j] = p.ogd.outputs[j]

/-- The output of a failed circuit is BAD (R126, step 1). -/
def failedOutput (o : Fin 6) (p : Plant) : Plant :=
  (p.updOut o fun r => { r with role := .bad }).raise .circuitFailed

theorem failedOutput_role (o : Fin 6) {p : Plant} (j : Fin 6) (bound : p.ogd.outputs[o].role ≠ .spareFree) :
    (failedOutput o p).ogd.outputs[j].role = .spareFree ↔ p.ogd.outputs[j].role = .spareFree := by
  by_cases h : j = o
  · subst h
    have row : (failedOutput j p).ogd.outputs[j].role = .bad :=
      congrArg OutputRow.role (updOut_row p j fun r => { r with role := .bad })
    rw [row]
    exact iff_of_false (by decide) bound
  · have row : (failedOutput o p).ogd.outputs[j] = p.ogd.outputs[j] := updOut_other p o j _ h
    rw [row]

theorem failWith_untested_eq (respread : Env → Plant → Plant) (e : Env) (c o : Fin 6) {p : Plant}
    (untested : p.ogd.test = none) : failWith respread e c o p = takeSpare e c (failedOutput o p) := by
  have cleared : clearSpare respread e (failedOutput o p) = failedOutput o p := by
    unfold clearSpare
    split
    · exact if_neg (by rw [not_underTest (p := failedOutput o p) untested]; decide)
    · rfl
  exact congrArg (takeSpare e c) cleared

theorem failedOutput_held (o : Fin 6) (p : Plant) (x : Factor) :
    (failedOutput o p).fct.held x = (p.fct.held x || decide (Factor.circuitFailed = x)) :=
  Fct.held_raise p.fct .circuitFailed x

theorem settleBound_state (e : Env) (c q : Fin 6) (p : Plant) :
    (settleBound e c q p).cct[c].state =
      if p.ogd.outputs[q].limit.level = some true then .inhibited else .settling := by
  have ogd : (enterSettling e c p).ogd = p.ogd := rfl
  unfold settleBound
  dsimp only
  rw [ogd]
  split
  · rw [updCct_row]
    rfl
  · exact congrArg CircuitRow.state (enterSettling_row e c p)

theorem settleBound_rest (e : Env) (c q : Fin 6) (p : Plant) :
    (settleBound e c q p).fct = p.fct ∧ (settleBound e c q p).alu = p.alu := by
  unfold settleBound
  dsimp only
  split <;> exact ⟨rfl, rfl⟩

theorem failWith_over (respread : Env → Plant → Plant) (e : Env) {c o : Fin 6} {p : Plant}
    (untested : p.ogd.test = none) (bound : p.ogd.outputs[o].role.circuit = some c) :
    FailedOver o c p (failWith respread e c o p) := by
  have notSpare : p.ogd.outputs[o].role ≠ .spareFree := fun h => by
    rw [h] at bound
    cases bound
  have held : ∀ x, p.fct.held x = true → (failedOutput o p).fct.held x = true := fun x h => by
    rw [failedOutput_held, h]
    rfl
  have raised : (failedOutput o p).fct.held .circuitFailed = true := by
    rw [failedOutput_held, decide_eq_true rfl, Bool.or_true]
  have row : (failedOutput o p).ogd.outputs[o] = { p.ogd.outputs[o] with role := .bad } :=
    updOut_row p o _
  have others : ∀ j : Fin 6, j ≠ o → (failedOutput o p).ogd.outputs[j] = p.ogd.outputs[j] :=
    fun j h => updOut_other p o j _ h
  have role := fun j => failedOutput_role o j notSpare
  have test : (failedOutput o p).ogd.test = none := untested
  have rest : (failedOutput o p).cct = p.cct ∧ (failedOutput o p).ogd.trips = p.ogd.trips ∧
      (failedOutput o p).alu = p.alu := ⟨rfl, rfl, rfl⟩
  obtain ⟨cct, trips, alu⟩ := rest
  rw [failWith_untested_eq respread e c o untested]
  generalize failedOutput o p = b at *
  unfold takeSpare
  split
  · rename_i d lowest
    have spare := lowestSpare_role lowest
    have apart : o ≠ d := fun h => notSpare ((role o).mp (by rw [h]; exact spare))
    have ogd := settleBound_ogd e c d (bindSpare c d b)
    obtain ⟨fct', alu'⟩ := settleBound_rest e c d (bindSpare c d b)
    obtain ⟨-, others'⟩ := settleBound_idle e c d (bindSpare c d b)
    have taken : (bindSpare c d b).ogd.outputs[d] =
        { b.ogd.outputs[d] with role := .spareBound c, openCount := 0 } := updOut_row b d _
    have kept : ∀ j : Fin 6, j ≠ d → (bindSpare c d b).ogd.outputs[j] = b.ogd.outputs[j] :=
      fun j h => updOut_other b d j _ h
    have limit : (bindSpare c d b).ogd.outputs[d].limit = b.ogd.outputs[d].limit := by rw [taken]
    have state := settleBound_state e c d (bindSpare c d b)
    have trip : (bindSpare c d b).ogd.trips[c] = ⟨0, 0, 0⟩ := updTrip_row _ c _
    have trips' : ∀ j : Fin 6, j ≠ c → (bindSpare c d b).ogd.trips[j] = b.ogd.trips[j] :=
      fun j h => updTrip_other _ c j _ h
    rw [limit, others d (Ne.symm apart)] at state
    refine ⟨by rw [ogd, kept o apart, row], by rw [fct']; exact raised, fun x h => by rw [fct']; exact held x h,
      by rw [ogd]; exact test, alu'.trans alu, fun j h => ⟨(others' j h).trans (by rw [← cct]; rfl), ?_⟩,
      fun f free lower => ?_, fun none => absurd ((role d).mp spare) (none d)⟩
    · rw [ogd, trips' j h, trips]
    · have same : d = f := by
        have found := lowestSpare_eq_some (g := b.ogd) ((role f).mpr free)
          fun j h k => lower j h ((role j).mp k)
        exact Option.some.inj (lowest.symm.trans found)
      subst same
      refine ⟨by rw [ogd, taken, others d (Ne.symm apart)], by rw [ogd]; exact trip, state, fun j hj hd => ?_⟩
      rw [ogd, kept j hd, others j hj]
  · rename_i lowest
    have held' : ∀ x, b.fct.held x = true → (b.raise .spareExhausted).fct.held x = true := fun x h => by
      rw [Plant.raise_fct, Fct.held_raise, h]
      rfl
    have exhausted : (b.raise .spareExhausted).fct.held .spareExhausted = true := by
      rw [Plant.raise_fct, Fct.held_raise, decide_eq_true rfl, Bool.or_true]
    refine ⟨row, held' _ raised, fun x h => held' x (held x h), test, alu,
      fun j _ => ⟨by rw [← cct]; rfl, by rw [← trips]; rfl⟩, fun f free lower => ?_,
      fun _ => ⟨exhausted, by rw [← cct]; rfl, by rw [← trips]; rfl, others⟩⟩
    have found := lowestSpare_eq_some (g := b.ogd) ((role f).mpr free)
      fun j h k => lower j h ((role j).mp k)
    cases lowest.symm.trans found

end Sys2Proof.Machine
end

section
/-! PROOFS. Trips: the commands that take one (R118, R120 to R122) and the trips below the limit and at it
(R78, R80, R123, R126). -/

namespace Sys2Proof.Machine

/-! ### The plant that a trip is taken on -/

/-- Of `p`, the plant `q` on which the trip of output `o` is taken has changed no more than the row of `o`. -/
structure TripReady (o : Fin 6) (p q : Plant) : Prop where
  on : q.ogd.outputs[o].energized = true
  trips : q.ogd.trips = p.ogd.trips
  alu : q.alu = p.alu
  role : q.ogd.outputs[o].role = p.ogd.outputs[o].role
  total : q.ogd.outputs[o].health.tripTotal = p.ogd.outputs[o].health.tripTotal
  others : ∀ j : Fin 6, j ≠ o → q.ogd.outputs[j] = p.ogd.outputs[j]

theorem TripReady.refl {o : Fin 6} {p : Plant} (on : p.ogd.outputs[o].energized = true) : TripReady o p p :=
  ⟨on, rfl, rfl, rfl, rfl, fun _ _ => rfl⟩

theorem tripReady_updOut {o : Fin 6} {p : Plant} (f : OutputRow → OutputRow)
    (on : (f p.ogd.outputs[o]).energized = true) (role : (f p.ogd.outputs[o]).role = p.ogd.outputs[o].role)
    (health : (f p.ogd.outputs[o]).health = p.ogd.outputs[o].health) : TripReady o p (p.updOut o f) := by
  have row : (p.updOut o f).ogd.outputs[o] = f p.ogd.outputs[o] := updOut_row p o f
  exact ⟨by rw [row]; exact on, rfl, rfl, by rw [row]; exact role, by rw [row, health],
    fun j h => updOut_other p o j f h⟩

/-! ### Commands that trip an output which is on -/

theorem leakageChange_trips {o : Fin 6} {p : Plant} (e : Env)
    (released : p.ogd.outputs[o].leakage.level = some false) :
    leakageChange o true e p =
      tripOutput e o .leakage (p.updOut o fun r => { r with leakage := filterTo true r.leakage }) := by
  have change : isChange true p.ogd.outputs[o].leakage = true := by
    unfold isChange
    rw [released]
    rfl
  exact if_pos (by rw [change]; rfl)

theorem overloadDetected_trips {o : Fin 6} {load : Nat} {p : Plant} (e : Env)
    (on : p.ogd.outputs[o].energized = true) (judged : 100 ≤ p.ogd.outputs[o].periodMs)
    (over' : 125 * (p.ogd.outputs[o].rated * 10) < 100 * load) :
    overloadDetected o load e p = tripOutput e o .overload p :=
  if_pos (by rw [on, decide_eq_true judged]; exact decide_eq_true over')

theorem endPeriod_trips {c o : Fin 6} {p : Plant} (e : Env) (bound : p.ogd.boundTo c = some o)
    (on : p.ogd.outputs[o].energized = true) (untested : p.ogd.underTest o = false)
    (judged : 1000 ≤ p.ogd.outputs[o].periodMs)
    (low : 2 * p.ogd.outputs[o].loadSum < 10 * p.ogd.outputs[o].rated * p.ogd.outputs[o].periodMs)
    (third : 2 ≤ p.ogd.outputs[o].openCount) :
    endPeriod e c p =
      tripOutput e o .openElement (p.updOut o fun r => { r with openCount := r.openCount + 1 }) := by
  unfold endPeriod endPeriodWith
  rw [bound]
  dsimp only
  rw [on, untested, if_pos (by rfl), if_neg (by omega), if_pos low, if_pos (by omega)]

/-- R120 to R122: a command of `Trips` trips its output. -/
theorem exec_trips {s : State} {o : Fin 6} {x : Instr} {k : FaultKind} (h : Trips s o x k)
    (on : s.plant.ogd.outputs[o].energized = true)
    (judged : (∀ c, x ≠ .onTimeElapsed c) ∨ s.plant.ogd.underTest o = false) :
    ∃ q, exec x s = .next { s with plant := tripOutput s.env o k q } ∧ TripReady o s.plant q ∧
      q.ogd.test = s.plant.ogd.test ∧ q.cct = s.plant.cct ∧ q.fct = s.plant.fct := by
  cases h with
  | leakage released =>
    exact ⟨_, plant_next (leakageChange_trips s.env released), tripReady_updOut _ on rfl rfl, rfl, rfl, rfl⟩
  | overload load hp hl =>
    exact ⟨_, plant_next (overloadDetected_trips s.env on hp hl), .refl on, rfl, rfl, rfl⟩
  | openElement c bound hp hl hc =>
    have untested : s.plant.ogd.underTest o = false := judged.resolve_left fun h => h c rfl
    exact ⟨_, plant_next (endPeriod_trips s.env bound on untested hp hl hc),
      tripReady_updOut _ on rfl rfl, rfl, rfl, rfl⟩

/-! ### The window start that energizes an output whose leakage is asserted -/

/-- R88: the window start of `LeaksAtStart` leaves a state that may be energized and an on-time. -/
theorem windowRow_heats {s : State} {c o : Fin 6} (h : LeaksAtStart s c o) :
    (windowRow s.env c s.plant).state.energizable = true ∧ 0 < (windowRow s.env c s.plant).onTime := by
  have heats := h.heats
  unfold needAtStart at heats
  obtain ⟨temp, src, formed⟩ : ∃ temp src, formTemperature s.env c = (temp, src) := ⟨_, _, rfl⟩
  rw [formed] at heats
  cases temp with
  | none =>
    rw [windowRow_unformed h.state h.bound formed]
    refine ⟨?_, heats⟩
    dsimp only
    split <;> rfl
  | some x =>
    rw [windowRow_formed h.state h.bound formed]
    exact ⟨rfl, heats⟩

theorem switchOn_ready {o : Fin 6} (e : Env) (p : Plant) :
    TripReady o p (switchOn e o p) ∧ (switchOn e o p).cct = p.cct ∧ (switchOn e o p).fct = p.fct ∧
      (switchOn e o p).ogd.outputs[o].leakage = p.ogd.outputs[o].leakage ∧
      (switchOn e o p).ogd.outputs[o].health.peak = max p.ogd.outputs[o].health.peak (e.leakageNow o) ∧
      (p.ogd.underTest o = false → (switchOn e o p).ogd.test = p.ogd.test) := by
  obtain ⟨q, hq⟩ : ∃ q, q = p.updOut o fun r =>
      { r with energized := true, periodMs := 0, loadSum := 0, recent := [] } := ⟨_, rfl⟩
  have row : q.ogd.outputs[o] =
      { p.ogd.outputs[o] with energized := true, periodMs := 0, loadSum := 0, recent := [] } := by
    rw [hq]
    exact updOut_row p o _
  have others : ∀ j : Fin 6, j ≠ o → q.ogd.outputs[j] = p.ogd.outputs[j] := fun j h => by
    rw [hq]
    exact updOut_other p o j _ h
  have rest : q.ogd.trips = p.ogd.trips ∧ q.alu = p.alu ∧ q.cct = p.cct ∧ q.fct = p.fct ∧
      q.ogd.test = p.ogd.test := by
    rw [hq]
    exact ⟨rfl, rfl, rfl, rfl, rfl⟩
  obtain ⟨trips, alu, cct, fct, test⟩ := rest
  have noted := notePeak_on (e := e) (o := o) (p := q) (by rw [row])
  have on : switchOn e o p = notePeak e o q := by
    rw [hq]
    rfl
  have peaked : (switchOn e o p).ogd.outputs[o] =
      { q.ogd.outputs[o] with
        health := { q.ogd.outputs[o].health with
          peak := max q.ogd.outputs[o].health.peak (e.leakageNow o) } } := by
    rw [on, noted]
    exact updOut_row q o _
  have kept : ∀ j : Fin 6, j ≠ o → (switchOn e o p).ogd.outputs[j] = q.ogd.outputs[j] := fun j h => by
    rw [on, noted]
    exact updOut_other q o j _ h
  refine ⟨⟨by rw [peaked, row], ?_, ?_, by rw [peaked, row], by rw [peaked, row],
    fun j h => (kept j h).trans (others j h)⟩, ?_, ?_, by rw [peaked, row], by rw [peaked, row], fun untested => ?_⟩
  · rw [on, noted]
    exact trips
  · rw [on, noted]
    exact alu
  · rw [on, noted]
    exact cct
  · rw [on, noted]
    exact fct
  · have under := (underTest_eq_false_iff p.ogd o).mp untested
    rw [on, noted]
    show q.ogd.test.map _ = p.ogd.test
    rw [test]
    cases running : p.ogd.test with
    | none => rfl
    | some t => exact congrArg some (if_neg (under t running))

/-- R118, R120: the window start of `LeaksAtStart` trips its output, once the circuit is evaluated. -/
theorem exec_windowStart_trips {s : State} {c o : Fin 6} (h : LeaksAtStart s c o)
    (untested : s.plant.ogd.underTest o = false) :
    ∃ q, exec (.windowStart c) s = .next { s with plant := tripOutput s.env o .leakage q } ∧
      TripReady o s.plant q ∧ q.ogd.test = s.plant.ogd.test ∧
      (∀ j : Fin 6, j ≠ c → q.cct[j] = s.plant.cct[j]) ∧
      q.cct[c] = windowRow s.env c s.plant ∧ q.fct = windowFactors s.env c s.plant ∧
      q.ogd.outputs[o].health.peak =
        max s.plant.ogd.outputs[o].health.peak (min 1000 s.pins.leakage[o]) := by
  obtain ⟨stays, heats⟩ := windowRow_heats h
  have enabled : s.plant.cct[c].state ≠ .disabled := fun k => by
    have := h.state
    rw [k] at this
    cases this
  have quiet : ∀ j, s.plant.ogd.boundTo c = some j →
      s.plant.ogd.outputs[j].energized = false ∨ s.plant.ogd.underTest j = true := fun j hj => by
    cases h.bound.symm.trans hj
    exact .inl h.off
  have met : requestMet s.env c o s.plant = true := by
    have follows : s.env.membership.follows = true := h.follows
    rw [requestMet, decide_eq_true heats, follows, stays, decide_eq_true h.limit]
    rfl
  have judged : windowStart s.env c s.plant = energize s.env o (windowJudged s.env c s.plant) := by
    rw [windowStart_judged h.window h.configured enabled quiet, requestOutput_judged h.bound, if_pos met]
  obtain ⟨ready, cct, fct, leakage, peak, test⟩ := switchOn_ready (o := o) s.env (windowJudged s.env c s.plant)
  have trips : energize s.env o (windowJudged s.env c s.plant) =
      tripOutput s.env o .leakage (switchOn s.env o (windowJudged s.env c s.plant)) :=
    if_pos (by rw [leakage]; exact h.leakage)
  exact ⟨_, plant_next (judged.trans trips), ⟨ready.on, ready.trips, ready.alu, ready.role, ready.total,
    ready.others⟩, test untested, fun j hj => by rw [cct]; exact updCct_other _ c j _ hj,
    by rw [cct]; exact updCct_row _ c _, fct, peak⟩

/-- R118, R120 to R122: a command that is due to trip an output not under test trips it. -/
theorem exec_tripDue {s : State} {o c : Fin 6} {x : Instr} {k : FaultKind} (h : TripDue s o c x k)
    (untested : s.plant.ogd.underTest o = false) :
    ∃ q, exec x s = .next { s with plant := tripOutput s.env o k q } ∧ TripReady o s.plant q ∧
      q.ogd.test = s.plant.ogd.test ∧ (∀ j : Fin 6, j ≠ c → q.cct[j] = s.plant.cct[j]) ∧
      (x ≠ .windowStart c → q.cct[c] = s.plant.cct[c] ∧ q.fct = s.plant.fct) ∧
      (x = .windowStart c → LeaksAtStart s c o ∧ q.cct[c] = windowRow s.env c s.plant ∧
        q.fct = windowFactors s.env c s.plant ∧
        q.ogd.outputs[o].health.peak =
          max s.plant.ogd.outputs[o].health.peak (min 1000 s.pins.leakage[o])) := by
  rcases h with ⟨trips, on⟩ | ⟨leaks, rfl, rfl⟩
  · obtain ⟨q, run, ready, test, cct, fct⟩ := exec_trips trips on (.inr untested)
    refine ⟨q, run, ready, test, fun j _ => by rw [cct], fun _ => ⟨by rw [cct], fct⟩, fun start => ?_⟩
    subst start
    cases trips
  · obtain ⟨q, run, ready, test, others, row, fct, peak⟩ := exec_windowStart_trips leaks untested
    exact ⟨q, run, ready, test, others, fun start => absurd rfl start, fun _ => ⟨leaks, row, fct, peak⟩⟩

/-! ### Below the trip limit -/

/-- R88, R78: the row and the factors of a circuit tripped by its own window start. -/
theorem windowRow_tripped {s : State} {c o : Fin 6} (h : LeaksAtStart s c o) :
    let cfg := s.img.circuits[c]
    let temp := (formTemperature s.env c).1
    let margin := temp.map fun y => max (-128) (min 127 ((y - s.img.pourPoint) / 10))
    let settling := s.plant.cct[c].state = .settling ∧ s.plant.cct[c].settle ≠ .stopped
    idleRow .tripped (windowRow s.env c s.plant) =
      { s.plant.cct[c] with
        state := .tripped, settle := .stopped, temp := temp,
        source := (formTemperature s.env c).2,
        setpoint := temp.map fun _ =>
          if s.rst.line = .flowing then cfg.spFlowing else cfg.spStandstill,
        need := 0, margin := margin,
        cls := some (
          match margin with
          | none => .p1
          | some m => if m < 0 then .p0 else if m < s.img.lowMargin then .p1 else .p2),
        onTime := 0, toNext := some (s.img.window * 1000) } ∧
    windowFactors s.env c s.plant =
      (s.plant.fct.raiseIf (margin.any fun m => decide (m < 0)) .belowPour).raiseIf
        (decide (temp = none ∧ ¬settling)) .sensorLost := by
  have heats := h.heats
  unfold needAtStart at heats
  have guarded := guardFactors_closed h.bound (p := s.plant) (by rw [h.limit]; decide)
  unfold windowFactors
  rw [guarded]
  obtain ⟨temp, src, formed⟩ : ∃ temp src, formTemperature s.env c = (temp, src) := ⟨_, _, rfl⟩
  rw [formed] at heats ⊢
  cases temp with
  | none =>
    rw [windowRow_unformed h.state h.bound formed]
    refine ⟨rfl, ?_⟩
    by_cases still : s.plant.cct[c].state = .settling ∧ s.plant.cct[c].settle ≠ .stopped <;>
      simp [still, -Fin.getElem_fin]
  | some x =>
    have row := windowRow_formed h.state h.bound formed
    dsimp only at row heats
    generalize (if (if s.rst.line = .flowing then s.img.circuits[c].spFlowing
      else s.img.circuits[c].spStandstill) ≤ x then 0 else min s.plant.ogd.outputs[o].rated _) = need at row heats
    have needs : 0 < need := by
      refine Nat.pos_of_ne_zero fun none' => ?_
      rw [none', Nat.min_zero, Nat.mul_zero, Nat.zero_div] at heats
      exact absurd heats (by decide)
    rw [row, if_pos needs]
    refine ⟨rfl, ?_⟩
    simp

theorem trippedBelow {s : State} {o c : Fin 6} {k : FaultKind} {q : Plant} (ready : TripReady o s.plant q)
    (tested : q.ogd.test = s.plant.ogd.test) (bound : s.plant.ogd.outputs[o].role.circuit = some c)
    (untested : s.plant.ogd.underTest o = false) (below : s.plant.ogd.trips[c].count + 1 < s.img.tripLimit) :
    tripOutput s.env o k q = tripHeld s.env o c k q := by
  refine tripOutput_below ready.on (by rw [ready.role]; exact bound) ?_ (by rw [ready.trips]; exact below)
  unfold Ogd.underTest at untested ⊢
  rw [tested]
  exact untested

/-- Settles O49. -/
theorem tripBelowTheLimit : Obligations.TripBelowTheLimit := by
  unfold Obligations.TripBelowTheLimit
  intro x k o c s due bound untested below
  obtain ⟨q, run, ready, tested, others, command, window⟩ := exec_tripDue due untested
  rw [trippedBelow ready tested bound untested below] at run
  obtain ⟨test, alu, fct, cct, circuits, trip, trips, row, holdOff, role, outputs⟩ :=
    tripHeld_items s.env o c k q
  have raised : (q.fct.raise .circuitTrip).held .circuitTrip = true := by
    rw [Fct.held_raise, decide_eq_true rfl, Bool.or_true]
  refine ⟨_, run, rfl, alu.trans ready.alu, test.trans tested, row.taken ready.total ?_,
    ⟨role.trans ready.role, holdOff, by rw [trip, ready.trips], by rw [cct]; rfl, by rw [cct]; exact ⟨rfl, rfl, rfl⟩⟩,
    fun other => ?_, fun start => ?_, fun j h => (outputs j h).trans (ready.others j h),
    fun j h => ⟨(circuits j h).trans (others j h), (trips j h).trans (by rw [ready.trips])⟩⟩
  · exact (congrArg (fun f => Fct.held f .circuitTrip) fct).trans raised
  · obtain ⟨cct', fct'⟩ := command other
    exact ⟨by rw [cct, cct']; rfl, by rw [fct, fct']⟩
  · obtain ⟨leaks, row', fct', peak⟩ := window start
    obtain ⟨idle, factors⟩ := windowRow_tripped leaks
    have tripped := cct.trans (congrArg (idleRow .tripped) row')
    have factors' := fct.trans (congrArg (fun f => Fct.raise f .circuitTrip) fct')
    exact ⟨(tripped.trans idle).trans rfl,
      factors'.trans (congrArg (fun f => Fct.raise f .circuitTrip) factors), row.peak.trans peak⟩

/-! ### At the trip limit -/

/-- The plant of a trip at the trip limit, before the failure of the circuit (R126). -/
def tripLimit (o c : Fin 6) (k : FaultKind) (p : Plant) : Plant :=
  (tripCounted o c k p).updCct c (idleRow .failed)

theorem tripLimit_items (o c : Fin 6) (k : FaultKind) (p : Plant) :
    (tripLimit o c k p).ogd.test = p.ogd.test ∧ (tripLimit o c k p).alu = p.alu ∧
      (tripLimit o c k p).fct = p.fct.raise .circuitTrip ∧
      (tripLimit o c k p).cct[c] = idleRow .failed p.cct[c] ∧
      (∀ j : Fin 6, j ≠ c → (tripLimit o c k p).cct[j] = p.cct[j]) ∧
      (tripLimit o c k p).ogd.trips[c] = ⟨p.ogd.trips[c].count + 1, 0, 0⟩ ∧
      (∀ j : Fin 6, j ≠ c → (tripLimit o c k p).ogd.trips[j] = p.ogd.trips[j]) ∧
      TrippedRow k p.ogd.outputs[o] (tripLimit o c k p).ogd.outputs[o] ∧
      (∀ j : Fin 6, (tripLimit o c k p).ogd.outputs[j].role = p.ogd.outputs[j].role) ∧
      ∀ j : Fin 6, j ≠ o → (tripLimit o c k p).ogd.outputs[j] = p.ogd.outputs[j] := by
  obtain ⟨test, cct, alu, fct, trip, trips, row, role, others⟩ := tripCounted_items o c k p
  refine ⟨test, alu, fct, (updCct_row _ c _).trans (by rw [cct]),
    fun j h => (updCct_other _ c j _ h).trans (by rw [cct]), trip, trips, row, role, others⟩

theorem tripOutput_atLimit {e : Env} {o c : Fin 6} {k : FaultKind} {p : Plant}
    (on : p.ogd.outputs[o].energized = true) (bound : p.ogd.outputs[o].role.circuit = some c)
    (reached : e.img.tripLimit ≤ p.ogd.trips[c].count + 1) :
    tripOutput e o k p =
      if p.ogd.underTest o then
        respread e (failWith respread e c o (endTest (.tripped k) (tripLimit o c k p)))
      else failWith respread e c o (tripLimit o c k p) := by
  rw [tripOutput, tripWith_bound respread e o k p on bound, if_neg (by omega)]
  cases p.ogd.underTest o <;> rfl

/-- The plant `b` on which circuit `c` fails, of a trip of output `o` at the limit from the plant `p`. -/
structure AtLimit (k : FaultKind) (o c : Fin 6) (limit : Nat) (p b : Plant) : Prop where
  off : b.ogd.outputs[o].energized = false
  openCount : b.ogd.outputs[o].openCount = 0
  total : b.ogd.outputs[o].health.tripTotal = min 65535 (p.ogd.outputs[o].health.tripTotal + 1)
  fault : b.ogd.outputs[o].health.lastFault = some k
  role : b.ogd.outputs[o].role = p.ogd.outputs[o].role
  raised : b.fct.held .circuitTrip = true
  failed : b.cct[c].state = .failed
  trips : b.ogd.trips[c] = ⟨limit, 0, 0⟩
  others : ∀ j : Fin 6, j ≠ o → b.ogd.outputs[j] = p.ogd.outputs[j]

/-- R123, R126: a failure at the trip limit is what the statements ask of it. The plant `t.plant` may further
have new grants, but it has the outputs, trips, factors and circuit states of the failure `q`. -/
theorem FailedOver.tripFails {k : FaultKind} {o c : Fin 6} {n : Nat} {s t : State} {b q : Plant}
    (h : FailedOver o c b q) (limit : AtLimit k o c n s.plant b)
    (bound : s.plant.ogd.outputs[o].role.circuit = some c) (ogd : t.plant.ogd = q.ogd)
    (fct : t.plant.fct = q.fct) (state : t.plant.cct[c].state = q.cct[c].state) :
    TripTaken k o s t ∧ (s.img.tripLimit = n → TripFails o c s t) := by
  have role : ∀ j : Fin 6, b.ogd.outputs[j].role = s.plant.ogd.outputs[j].role := fun j => by
    by_cases same : j = o
    · rw [same, limit.role]
    · rw [limit.others j same]
  have apart : ∀ j : Fin 6, s.plant.ogd.outputs[j].role = .spareFree → j ≠ o := fun j free same => by
    rw [← same, free] at bound
    cases bound
  have row : t.plant.ogd.outputs[o] = { b.ogd.outputs[o] with role := .bad } := by rw [ogd, h.row]
  have held : ∀ x, q.fct.held x = true → Held t x := fun x hx =>
    (congrArg (fun f => Fct.held f x) fct).trans hx
  refine ⟨⟨by rw [row]; exact limit.off, by rw [row]; exact limit.openCount, by rw [row]; exact limit.total,
    by rw [row]; exact limit.fault, held _ (h.held _ limit.raised)⟩,
    fun reached => ⟨by rw [row], held _ h.raised, fun d free lower => ?_, fun none' => ?_⟩⟩
  · obtain ⟨taken, trips, circuit, rest⟩ := h.spare d ((role d).trans free) fun j hj => by
      rw [role j]
      exact lower j hj
    rw [limit.others d (apart d free)] at taken circuit
    rw [ogd, state]
    exact ⟨taken, trips, circuit, fun j hj hd => (rest j hj hd).trans (limit.others j hj)⟩
  · obtain ⟨raised, circuit, trips, rest⟩ := h.exhausted fun d => by
      rw [role d]
      exact none' d
    rw [ogd, state, circuit, trips, reached]
    exact ⟨held _ raised, limit.failed, limit.trips, fun j hj => (rest j hj).trans (limit.others j hj)⟩

theorem TripReady.atLimit {s : State} {o c : Fin 6} {q : Plant} (k : FaultKind)
    (ready : TripReady o s.plant q) :
    AtLimit k o c (s.plant.ogd.trips[c].count + 1) s.plant (tripLimit o c k q) := by
  obtain ⟨-, -, fct, cct, -, trip, -, row, role, others⟩ := tripLimit_items o c k q
  have raised : (q.fct.raise .circuitTrip).held .circuitTrip = true := by
    rw [Fct.held_raise, decide_eq_true rfl, Bool.or_true]
  exact ⟨row.off, row.openCount, by rw [row.total, ready.total], row.fault, (role o).trans ready.role,
    by rw [fct]; exact raised, by rw [cct]; rfl, by rw [trip, ready.trips],
    fun j h => (others j h).trans (ready.others j h)⟩

/-- Settles O50. -/
theorem tripAtTheLimit : Obligations.TripAtTheLimit := by
  unfold Obligations.TripAtTheLimit
  intro x k o c s due bound quiet reached
  have untested := not_underTest quiet o
  obtain ⟨q, run, ready, tested, others, -, -⟩ := exec_tripDue due untested
  have bound' : q.ogd.outputs[o].role.circuit = some c := by rw [ready.role]; exact bound
  have none' : q.ogd.test = none := tested.trans quiet
  rw [tripOutput_atLimit ready.on bound' (by rw [ready.trips]; exact reached.le), not_underTest none' o,
    if_neg Bool.false_ne_true] at run
  obtain ⟨test, alu, -, -, circuits, -, trips, -, role, -⟩ := tripLimit_items o c k q
  have failed := failWith_over respread s.env (p := tripLimit o c k q) (o := o) (c := c) (test.trans none')
    (by rw [role o]; exact bound')
  obtain ⟨taken, fails⟩ := failed.tripFails (s := s)
    (t := { s with plant := failWith respread s.env c o (tripLimit o c k q) })
    (ready.atLimit k) bound rfl rfl rfl
  refine ⟨_, run, rfl, failed.alu.trans (alu.trans ready.alu), taken, fails reached, fun j h => ?_⟩
  obtain ⟨cct, trip⟩ := failed.circuits j h
  exact ⟨cct.trans ((circuits j h).trans (others j h)),
    trip.trans ((trips j h).trans (by rw [ready.trips]))⟩

end Sys2Proof.Machine
end

section
/-! PROOFS. The entry to RETIRED: the circuits disabled, the grants of 0 and the end of a test (R22, R37, R72,
R131). -/

namespace Sys2Proof.Machine

/-! ### The circuits disabled -/

theorem disableCircuit_holdOff (c : Fin 6) (p : Plant) (o : Fin 6)
    (h : p.ogd.boundTo c = some o ∨ p.ogd.outputs[o].holdOff = none) :
    (disableCircuit c p).ogd.outputs[o].holdOff = none := by
  have kept : ∀ j : Fin 6, (switchOff j p).ogd.outputs[o].holdOff = p.ogd.outputs[o].holdOff := fun j => by
    rw [switchOff_row]
    split
    · rename_i same
      obtain ⟨rfl, -⟩ := same
      rfl
    · rfl
  unfold disableCircuit
  dsimp only
  cases bound : p.ogd.boundTo c with
  | none => exact h.resolve_left fun k => nomatch bound.symm.trans k
  | some j =>
    show ((switchOff j p).updOut j fun r => { r with holdOff := none }).ogd.outputs[o].holdOff = none
    by_cases same : o = j
    · rw [same, updOut_row]
    · rw [updOut_other _ j o _ same, kept j]
      exact h.resolve_left fun k => same (Option.some.inj (k.symm.trans bound))

theorem disableEach_holdOff (l : List (Fin 6)) : ∀ (p : Plant) (c o : Fin 6),
    ((c ∈ l ∧ p.ogd.boundTo c = some o) ∨ p.ogd.outputs[o].holdOff = none) →
      (l.foldl (fun q c => disableCircuit c q) p).ogd.outputs[o].holdOff = none := by
  induction l with
  | nil => exact fun p c o h => h.resolve_left (by simp)
  | cons a l ih =>
    intro p c o h
    rw [List.foldl_cons]
    have roles := (disableCircuit_facts a p).2.1
    apply ih _ c o
    rcases h with ⟨h, bound⟩ | stopped
    · rcases List.mem_cons.1 h with rfl | h
      · exact .inr (disableCircuit_holdOff c p o (.inl bound))
      · exact .inl ⟨h, (boundTo_congr _ _ c roles).trans bound⟩
    · exact .inr (disableCircuit_holdOff a p o (.inr stopped))

theorem disableAll_holdOff {p : Plant} {c o : Fin 6} (bound : p.ogd.boundTo c = some o) :
    (disableAll p).ogd.outputs[o].holdOff = none := by
  have each := disableEach_holdOff sixIds p c o (.inl ⟨mem_sixIds c, bound⟩)
  unfold disableAll stopWindows
  generalize sixIds.foldl (fun q c => disableCircuit c q) p = q at each ⊢
  exact each

/-! ### Grants of 0 -/

/-- Every grant is 0, and nothing else is touched. -/
def ungranted (p : Plant) : Plant := { p with cct := mapRows p.cct fun _ r => { r with grant := 0 } }

theorem ungranted_row (p : Plant) (c : Fin 6) : (ungranted p).cct[c] = { p.cct[c] with grant := 0 } :=
  mapRows_get p.cct _ c

theorem handGrantsWith_ungranted (trip : Env → Fin 6 → FaultKind → Plant → Plant) (e : Env) {p : Plant}
    {g : Vector Nat 6} (disabled : ∀ c, Disabled p c) (zero : ∀ c : Fin 6, g[c] = 0) :
    handGrantsWith trip e g p = ungranted p := by
  rw [(handGrantsWith_disabled trip e g p disabled).1]
  refine congrArg (fun rows => { p with cct := rows }) (Vector.ext fun i hi => ?_)
  have row := fun f => mapRows_get p.cct f ⟨i, hi⟩
  refine (row _).trans (Eq.trans ?_ (row _).symm)
  obtain ⟨-, -, onTime⟩ := disabled ⟨i, hi⟩
  unfold grantedRow
  rw [zero, onTime]
  split
  · rw [Nat.zero_min]
  · rfl

theorem Disabled.congr {p q : Plant} {c : Fin 6} (h : Disabled p c) (state : q.cct[c].state = p.cct[c].state)
    (need : q.cct[c].need = p.cct[c].need) (onTime : q.cct[c].onTime = p.cct[c].onTime) : Disabled q c := by
  obtain ⟨h1, h2, h3⟩ := h
  exact ⟨state.trans h1, need.trans h2, onTime.trans h3⟩

theorem ungranted_disabled {p : Plant} (disabled : ∀ c, Disabled p c) (c : Fin 6) : Disabled (ungranted p) c :=
  (disabled c).congr (by rw [ungranted_row]) (by rw [ungranted_row]) (by rw [ungranted_row])

/-! ### The computation NONE with every circuit DISABLED -/

/-- The test that a station without allotment ends (R131). -/
def retiredTest (p : Plant) : Plant :=
  match p.ogd.test with
  | some t =>
    if p.ogd.outputs[t.output].rated = 0 then p
    else endTest (.aborted .allotment) (switchOff t.output p)
  | none => p

theorem retiredTest_untested {p : Plant} (h : p.ogd.test = none) : retiredTest p = p := by
  unfold retiredTest
  rw [h]

theorem retiredTest_unloaded {p : Plant} {t : TestRecord} (h : p.ogd.test = some t)
    (rated : p.ogd.outputs[t.output].rated = 0) : retiredTest p = p := by
  unfold retiredTest
  rw [h]
  exact if_pos rated

theorem retiredTest_ended {p : Plant} {t : TestRecord} (h : p.ogd.test = some t)
    (rated : p.ogd.outputs[t.output].rated ≠ 0) :
    retiredTest p = endTest (.aborted .allotment) (switchOff t.output p) := by
  unfold retiredTest
  rw [h]
  exact if_neg rated

/-- What the computation NONE leaves of a plant `p` with every circuit DISABLED (R64, R131). -/
structure RetiredFrom (p q : Plant) : Prop where
  rows : ∀ c : Fin 6, q.cct[c] = { p.cct[c] with grant := 0 }
  kind : q.alu.kind = .noAllot
  own : q.alu.own = 0
  division : q.alu.division = none
  ogd : q.ogd = (retiredTest p).ogd
  deduction : (∀ t, p.ogd.test = some t → p.ogd.outputs[t.output].rated ≠ 0) → q.alu.deduction = none

/-- R131: a computation whose own allotment still has room for the test in progress deducts its load. -/
theorem compute_fits {e : Env} {round : Option RoundNo} {swap : Bool} {x : Computation} {p : Plant}
    {t : TestRecord} (test : p.ogd.test = some t)
    (fits : p.ogd.outputs[t.output].rated ≤ (allotTable e round x).own) :
    let load := p.ogd.outputs[t.output].rated
    let a := allotTable e round x
    let q := { p with alu := { a with deduction := some (t.output, load) } }
    let u := handGrants e (deductGrants e q t.circuit (a.own - load) (grantsByKind e { p with alu := a })) q
    compute e round swap x p = if swap then starvedUpdate u else u := by
  unfold compute
  dsimp only
  rw [test]
  exact if_pos fits

/-- R131: a computation whose own allotment has no room for the test in progress ends it. -/
theorem compute_short {e : Env} {round : Option RoundNo} {swap : Bool} {x : Computation} {p : Plant}
    {t : TestRecord} (test : p.ogd.test = some t)
    (short : (allotTable e round x).own < p.ogd.outputs[t.output].rated) :
    let q := { p with alu := allotTable e round x }
    let u := handGrants e (grantsByKind e q) q
    compute e round swap x p = abortTest e .allotment (if swap then starvedUpdate u else u) := by
  unfold compute
  dsimp only
  rw [test]
  exact if_neg (Nat.not_le.mpr short)

/-- The own allotment and the division of a station that grants nothing. -/
structure Allotless (p : Plant) : Prop where
  disabled : ∀ c, Disabled p c
  own : p.alu.own = 0
  division : p.alu.division = none

theorem Allotless.handed (trip : Env → Fin 6 → FaultKind → Plant → Plant) (e : Env) {p : Plant}
    (h : Allotless p) : handGrantsWith trip e (grantsByKind e p) p = ungranted p :=
  handGrantsWith_ungranted trip e h.disabled (grantsByKind_zero e p h.division h.own)

theorem Allotless.regranted {p : Plant} (h : Allotless p) : Allotless (ungranted p) :=
  ⟨ungranted_disabled h.disabled, h.own, h.division⟩

theorem ungranted_ungranted_row (p : Plant) (c : Fin 6) :
    (ungranted (ungranted p)).cct[c] = { p.cct[c] with grant := 0 } := by
  rw [ungranted_row, ungranted_row]

theorem endTest_ogd_congr (x : TestOutcome) {p q : Plant} (ogd : p.ogd = q.ogd) :
    (endTest x p).ogd = (endTest x q).ogd := by
  cases p
  cases q
  cases ogd
  unfold endTest
  dsimp only
  split <;> rfl

theorem switchOff_ogd_congr (o : Fin 6) {p q : Plant} (ogd : p.ogd = q.ogd) (free : p.free = q.free) :
    (switchOff o p).ogd = (switchOff o q).ogd := by
  cases p
  cases q
  cases ogd
  cases free
  unfold switchOff
  dsimp only
  split <;> rfl

/-- A test ended on a plant without allotment: no circuit is in TESTING, and the grants stay 0 (R66, R131). -/
theorem Allotless.aborts (e : Env) {p : Plant} (h : Allotless p) {t : TestRecord} (test : p.ogd.test = some t) :
    ∃ q, abortTest e .allotment p = ungranted q ∧
      q.ogd = (endTest (.aborted .allotment) (switchOff t.output p)).ogd ∧ q.cct = p.cct ∧
      q.alu = { p.alu with deduction := none } := by
  obtain ⟨u, hu⟩ : ∃ u, u = endTest (.aborted .allotment) (switchOff t.output p) := ⟨_, rfl⟩
  have cct : u.cct = p.cct := by rw [hu, endTest_cct, (switchOff_facts t.output p).1]
  have alu : u.alu = p.alu := by
    have running : (switchOff t.output p).ogd.test = some t := by rw [(switchOff_rows t.output p).test, test]
    rw [hu, (endTest_items _ _ t running).2.2.1, (switchOff_facts t.output p).2.2.2.2]
  have settled : ∀ c, afterAbort e .allotment c u = u := fun c => by
    unfold afterAbort
    rw [cct, (h.disabled c).1]
    exact if_neg nofun
  have still : Allotless { u with alu := { u.alu with deduction := none } } :=
    ⟨fun c => (h.disabled c).congr (by rw [cct]) (by rw [cct]) (by rw [cct]),
      (congrArg Alu.own alu).trans h.own, (congrArg Alu.division alu).trans h.division⟩
  refine ⟨{ u with alu := { u.alu with deduction := none } }, ?_, by rw [← hu], cct,
    congrArg (fun a : Alu => { a with deduction := none }) alu⟩
  unfold abortTest abortWith
  rw [test]
  dsimp only
  rw [← hu, ← show respread e u = _ from still.handed tripUntested e]
  cases t.circuit with
  | none => rfl
  | some c => exact congrArg (respread e) (settled c)

theorem compute_retires (e : Env) {p : Plant} (disabled : ∀ c, Disabled p c) :
    RetiredFrom p (compute e none false .noAllot p) := by
  have still : ∀ a : Alu, a.own = 0 → a.division = none → Allotless { p with alu := a } := fun a own division =>
    ⟨disabled, own, division⟩
  have row : ∀ (a : Alu) (c : Fin 6),
      (ungranted { p with alu := a }).cct[c] = { p.cct[c] with grant := 0 } := fun a => ungranted_row _
  have kept := still (allotTable e none .noAllot) rfl rfl
  cases test : p.ogd.test with
  | none =>
    rw [compute_untested_first e none .noAllot p test, show handGrants e _ _ = _ from kept.handed tripOutput e]
    exact ⟨row _, rfl, rfl, rfl, by rw [retiredTest_untested test]; rfl, fun _ => rfl⟩
  | some t =>
    by_cases rated : p.ogd.outputs[t.output].rated = 0
    · have fits : p.ogd.outputs[t.output].rated ≤ (allotTable e none .noAllot).own := by
        rw [rated]
        exact Nat.zero_le _
      have zero := grantsByKind_zero e _ kept.division kept.own
      have kept' := still { allotTable e none .noAllot with
        deduction := some (t.output, p.ogd.outputs[t.output].rated) } rfl rfl
      rw [compute_fits (swap := false) test fits, if_neg Bool.false_ne_true,
        show handGrants e _ _ = _ from handGrantsWith_ungranted tripOutput e kept'.disabled fun c =>
        Nat.le_zero.mp (((deductGrants_bounds e _ t.circuit _ _).2.1 c).trans (zero c).le)]
      exact ⟨row _, rfl, rfl, rfl, by rw [retiredTest_unloaded test rated]; rfl,
        fun loaded => absurd rated (loaded t test)⟩
    · rw [compute_short (swap := false) (e := e) (round := none) (x := .noAllot) test
        (Nat.pos_of_ne_zero rated), if_neg Bool.false_ne_true,
        show handGrants e _ _ = _ from kept.handed tripOutput e]
      obtain ⟨q, run, ogd, cct, alu⟩ := kept.regranted.aborts e (t := t) test
      rw [run]
      refine ⟨fun c => ?_, congrArg Alu.kind alu, congrArg Alu.own alu, congrArg Alu.division alu, ?_,
        fun _ => congrArg Alu.deduction alu⟩
      · rw [ungranted_row, cct, row]
      · rw [retiredTest_ended test rated]
        exact ogd.trans (endTest_ogd_congr _ (switchOff_ogd_congr _ rfl rfl))

/-! ### The entry to RETIRED -/

theorem enterRetired_from (s : State) :
    RetiredFrom (disableAll (s.raise .retired).plant) (enterRetired s).plant ∧
      Held (enterRetired s) .retired ∧
      ∀ o : Fin 6, (disableAll (s.raise .retired).plant).ogd.outputs[o].energized = false →
        (enterRetired s).plant.ogd.outputs[o].energized = false := by
  obtain ⟨e, w, run, plant, -⟩ := enterRetired_computes s
  have plant' : (enterRetired s).plant = compute e none false .noAllot (disableAll (s.raise .retired).plant) := by
    rw [run, plant]
  have facts := disableAll_facts (s.raise .retired).plant
  obtain ⟨disabled, -, fct, -⟩ := facts
  have raised : (s.raise .retired).plant.fct.held .retired = true := by
    show (s.plant.fct.raise .retired).held .retired = true
    rw [Fct.held_raise, decide_eq_true rfl, Bool.or_true]
  unfold Held
  rw [plant']
  refine ⟨compute_retires e disabled, ?_, fun o off => ?_⟩
  · rw [compute_held _ _ _ _ _ _ (by decide), fct]
    exact raised
  · generalize disableAll (s.raise .retired).plant = d at off
    have reach := (compute_reach e none false .noAllot d).off o
    rw [← Bool.not_eq_true] at off ⊢
    exact fun on => off (reach on)

theorem retiredTest_holdOff (p : Plant) (o : Fin 6) :
    (retiredTest p).ogd.outputs[o].holdOff = p.ogd.outputs[o].holdOff := by
  cases test : p.ogd.test with
  | none => rw [retiredTest_untested test]
  | some t =>
    by_cases rated : p.ogd.outputs[t.output].rated = 0
    · rw [retiredTest_unloaded test rated]
    · have ended : ∀ q : Plant, (endTest (.aborted .allotment) q).ogd.outputs[o].holdOff =
          q.ogd.outputs[o].holdOff := fun q => by
        unfold endTest
        cases q.ogd.test with
        | none => rfl
        | some u =>
          show (q.updOut u.output fun r =>
            { r with health := { r.health with lastTest := _ } }).ogd.outputs[o].holdOff = _
          by_cases same : o = u.output
          · rw [same, updOut_row]
          · rw [updOut_other _ _ o _ same]
      rw [retiredTest_ended test rated, ended, switchOff_row]
      split
      · rename_i same
        rw [same.1]
        rfl
      · rfl

theorem own_range (s : State) : 1 ≤ s.own ∧ s.own ≤ 32 := by
  unfold State.own
  omega

/-- R37: a RETIRE of the station's own address leaves the stored row of that address. -/
theorem retireRow_own (s : State) : retireRow s.own s = s := by
  unfold retireRow
  rw [place_eq _ (own_range s)]
  exact if_pos rfl

theorem retireRow_other {a : Nat} {i : Fin 32} {s : State} (at' : a = i.val + 1) (other : a ≠ s.own) :
    retireRow a s = { s with
      rst :=
        { s.rst with
          rows := s.rst.rows.set i { s.rst.rows[i] with status := .retired, returnMark := false } } } := by
  subst at'
  unfold retireRow
  rw [place_succ]
  exact if_neg other

theorem receive_retire {tag a : Byte} {s : State} (hr : canReceive s = true) (range : 1 ≤ a.toNat ∧ a.toNat ≤ 32)
    (member : s.rct.membership ≠ .blocked) {t : State} (served : serveRetire a.toNat (afterRequest s) = t)
    (due : NoRestartDue t) : exec (.retire 255 tag [a]) s = .next t := by
  subst served
  exact congrArg Host.Outcome.next
    (receive_broadcast_served (k := 5) hr (by simp) (commandFormOk_retire a range) (.inl member) due)

theorem receive_retire_self {tag a : Byte} {s : State} (hr : canReceive s = true)
    (follows : s.rct.membership.follows = true) (due : NoRestartDue s) (own : a.toNat = s.own) :
    exec (.retire 255 tag [a]) s = .next (enterRetired (afterRequest s)) := by
  have member : s.rct.membership ≠ .blocked := fun h => by
    rw [h] at follows
    cases follows
  refine receive_retire hr (by rw [own]; exact own_range s) member ?_ due
  have same : (afterRequest s).own = s.own := rfl
  unfold serveRetire
  rw [own, ← same, retireRow_own, show (afterRequest s).rct.membership.follows = true from follows,
    decide_eq_true rfl]
  rfl

/-- Settles O35. -/
theorem retireActsOnPeerAndSelf : Obligations.RetireActsOnPeerAndSelf := by
  unfold Obligations.RetireActsOnPeerAndSelf
  refine ⟨fun tag a i s hr member due at' other => ?_, fun tag a s hr due low high still => ?_,
    fun tag a s hr follows due own => ?_⟩
  · refine receive_retire hr ⟨by omega, by have := i.isLt; omega⟩ member ?_ due
    have other' : a.toNat ≠ (afterRequest s).own := other
    unfold serveRetire
    rw [decide_eq_false other', retireRow_other at' other']
    rfl
  · rcases still with blocked | ⟨retired, own⟩
    · exact congrArg Host.Outcome.next (receive_broadcast_blocked (k := 5) hr (by simp)
        (commandFormOk_retire a ⟨low, high⟩) blocked (by decide) due)
    · refine receive_retire hr ⟨low, high⟩ (by rw [retired]; decide) ?_ due
      have same : (afterRequest s).own = s.own := rfl
      unfold serveRetire
      rw [own, ← same, retireRow_own, show (afterRequest s).rct.membership.follows = false by
        rw [show (afterRequest s).rct.membership = _ from retired]; rfl, Bool.and_false]
      rfl
  · obtain ⟨retired, held, off⟩ := enterRetired_from (afterRequest s)
    obtain ⟨-, drawn, -, -⟩ := disableAll_facts ((afterRequest s).raise .retired).plant
    refine ⟨_, receive_retire_self hr follows due own, ⟨rfl, rfl, rfl, rfl, rfl, rfl⟩, rfl, rfl, rfl, rfl, rfl, rfl,
      held, rfl, retired.kind, retired.own, fun c => ?_, fun c o bound => ⟨off o (drawn c o bound), ?_⟩⟩
    · rw [retired.rows, disableAll_row]
      exact ⟨rfl, rfl, rfl, rfl, rfl, rfl, rfl, rfl, rfl, rfl, rfl, rfl⟩
    · rw [retired.ogd, retiredTest_holdOff]
      exact disableAll_holdOff bound

end Sys2Proof.Machine
end

section
/-! PROOFS. The end of a test and the grants after it (R66, R127, R130, R131), with the further outputs off and
with them on. -/

namespace Sys2Proof.Machine

/-! ### The record of a test that has ended -/

theorem endTest_row (x : TestOutcome) {p : Plant} {t : TestRecord} (test : p.ogd.test = some t) :
    (endTest x p).ogd.outputs[t.output] =
      { p.ogd.outputs[t.output] with
        health := { p.ogd.outputs[t.output].health with
          lastTest := some ⟨x, t.energizedMs, testMean t, t.peak⟩ } } := by
  unfold endTest
  rw [test]
  exact updOut_row p t.output _

/-- R127, R130, R131: a test has ended where its record is gone, its output is off, the deduction has ended and
its result stands. -/
theorem testEnded_of {x : TestOutcome} {r : TestRecord} {t : State} (none' : t.plant.ogd.test = none)
    (off : t.plant.ogd.outputs[r.output].energized = false) (deduction : t.plant.alu.deduction = none)
    (result : t.plant.ogd.outputs[r.output].health.lastTest = some ⟨x, r.energizedMs, testMean r, r.peak⟩) :
    TestEnded x r t :=
  ⟨none', off, deduction, _, result, rfl, rfl, rfl, fun ran => freeQuot_isMean r.loadSum r.energizedMs ran⟩

/-! ### The grants found again with every output off -/

/-- What a re-spread with every output off leaves of the plant `p` (R66). -/
structure Respread (e : Env) (p q : Plant) : Prop where
  ogd : q.ogd = p.ogd
  fct : q.fct = p.fct
  alu : q.alu = { p.alu with deduction := none }
  row : ∀ c : Fin 6, ∃ g : Nat, q.cct[c] = grantedRow e p c g p.cct[c]
  grants : grantsInForce q = grantsByKind e q

theorem respread_quiet (e : Env) {p : Plant} (off : ∀ o : Fin 6, p.ogd.outputs[o].energized = false) :
    Respread e p (respread e p) := by
  refine ⟨?_, ?_, ?_, fun c => ⟨(grantsByKind e { p with alu := { p.alu with deduction := none } })[c], ?_⟩,
    respread_off_grants e p off⟩
  · rw [respread_off e p off]
  · rw [respread_off e p off]
  · rw [respread_off e p off]
  · rw [respread_off e p off]
    exact mapRows_get _ _ c

theorem Respread.kept {e : Env} {p q : Plant} (h : Respread e p q) (c : Fin 6) :
    q.cct[c].state = p.cct[c].state ∧ q.cct[c].need = p.cct[c].need ∧ q.cct[c].settle = p.cct[c].settle ∧
      (p.cct[c].onTime = 0 → q.cct[c].onTime = 0) := by
  obtain ⟨g, row⟩ := h.row c
  rw [row]
  refine ⟨rfl, rfl, rfl, fun zero => ?_⟩
  unfold grantedRow
  dsimp only
  split
  · rw [zero, Nat.zero_min]
  · exact zero

theorem Respread.grantsByKind {e : Env} {p : Plant} {t : State} (h : Respread e p t.plant) (env : t.env = e) :
    GrantsByKind t := by
  subst env
  exact ⟨congrArg Alu.deduction h.alu, h.grants⟩

/-! ### Trips of the output under test -/

theorem tripOutput_tested_below {e : Env} {o c : Fin 6} {k : FaultKind} {p : Plant}
    (on : p.ogd.outputs[o].energized = true) (bound : p.ogd.outputs[o].role.circuit = some c)
    (tested : p.ogd.underTest o = true) (below : p.ogd.trips[c].count + 1 < e.img.tripLimit) :
    tripOutput e o k p = respread e (endTest (.tripped k) (tripHeld e o c k p)) := by
  rw [tripOutput, tripWith_bound respread e o k p on bound, if_pos below, tested]
  rfl

/-- The plant of a trip of a free spare, before the end of its test (R123). -/
def tripBad (o : Fin 6) (k : FaultKind) (p : Plant) : Plant :=
  (tripRecorded o k p).updOut o fun r => { r with role := .bad }

theorem tripOutput_tested_spare {e : Env} {o : Fin 6} {k : FaultKind} {p : Plant}
    (on : p.ogd.outputs[o].energized = true) (free : p.ogd.outputs[o].role.circuit = none)
    (tested : p.ogd.underTest o = true) :
    tripOutput e o k p = respread e (endTest (.tripped k) (tripBad o k p)) := by
  rw [tripOutput, tripWith_unbound respread e o k p on free, tested]
  rfl

theorem tripBad_items (o : Fin 6) (k : FaultKind) (p : Plant) :
    (tripBad o k p).ogd.test = p.ogd.test ∧ (tripBad o k p).alu = p.alu ∧
      (tripBad o k p).ogd.trips = p.ogd.trips ∧ (tripBad o k p).cct = p.cct ∧
      (tripBad o k p).fct = p.fct.raise .circuitTrip ∧
      TrippedRow k p.ogd.outputs[o] (tripBad o k p).ogd.outputs[o] ∧
      (tripBad o k p).ogd.outputs[o].role = .bad ∧
      ∀ j : Fin 6, j ≠ o → (tripBad o k p).ogd.outputs[j] = p.ogd.outputs[j] := by
  obtain ⟨test, cct, trips, alu, fct, -, -, others⟩ := tripRecorded_items o k p
  have bad : (tripBad o k p).ogd.outputs[o] = { (tripRecorded o k p).ogd.outputs[o] with role := .bad } :=
    updOut_row (tripRecorded o k p) o _
  refine ⟨test, alu, trips, cct, fct, ?_, by rw [bad],
    fun j h => (updOut_other (tripRecorded o k p) o j _ h).trans (others j h)⟩
  rw [bad]
  exact (tripRecorded_row o k p).kept rfl rfl rfl rfl rfl

theorem raise_held (f : Fct) (x : Factor) : (f.raise x).held x = true := by
  rw [Fct.held_raise, decide_eq_true rfl, Bool.or_true]

/-- The end of the test of a tripped output: the result is written and the trip stays as it is. -/
structure TestTripped (k : FaultKind) (r : TestRecord) (p q : Plant) : Prop where
  none : q.ogd.test = none
  row : q.ogd.outputs[r.output] =
    { p.ogd.outputs[r.output] with
      health := { p.ogd.outputs[r.output].health with
        lastTest := some ⟨.tripped k, r.energizedMs, testMean r, r.peak⟩ } }
  others : ∀ j : Fin 6, j ≠ r.output → q.ogd.outputs[j] = p.ogd.outputs[j]
  cct : q.cct = p.cct
  trips : q.ogd.trips = p.ogd.trips
  fct : q.fct = p.fct
  alu : q.alu = p.alu

theorem endTest_tripped (k : FaultKind) {p : Plant} {r : TestRecord} (test : p.ogd.test = some r) :
    TestTripped k r p (endTest (.tripped k) p) := by
  obtain ⟨none', cct, alu, fct, trips, -, -, others⟩ := endTest_items (.tripped k) p r test
  exact ⟨none', endTest_row _ test, others, cct, trips, fct, alu⟩

/-- A trip with its test ended, every output off and the grants found again: what the statements ask of it. -/
theorem tested_trip_ends {k : FaultKind} {r : TestRecord} {s t : State} {b v : Plant} {u : OutputRow}
    (row : TrippedRow k u b.ogd.outputs[r.output])
    (total : u.health.tripTotal = s.plant.ogd.outputs[r.output].health.tripTotal)
    (raised : b.fct.held .circuitTrip = true) (ended : TestTripped k r b v) (again : Respread t.env v t.plant) :
    GrantsByKind t ∧ TripTaken k r.output s t ∧ TestEnded (.tripped k) r t := by
  have rest : t.plant.ogd.outputs[r.output] =
      { b.ogd.outputs[r.output] with
        health := { b.ogd.outputs[r.output].health with
          lastTest := some ⟨.tripped k, r.energizedMs, testMean r, r.peak⟩ } } := by
    rw [again.ogd, ended.row]
  have off : t.plant.ogd.outputs[r.output].energized = false := by
    rw [rest]
    exact row.off
  refine ⟨again.grantsByKind rfl, (row.kept ?_ ?_ ?_ ?_ ?_).taken total ?_,
    testEnded_of (by rw [again.ogd, ended.none]) off (congrArg Alu.deduction again.alu) (by rw [rest])⟩
  · rw [rest]
  · rw [rest]
  · rw [rest]
  · rw [rest]
  · rw [rest]
  · show t.plant.fct.held .circuitTrip = true
    rw [again.fct, ended.fct]
    exact raised

/-- Every output is off once the tripped one is, where it alone was on. -/
theorem TestTripped.off {k : FaultKind} {r : TestRecord} {b v : Plant} (h : TestTripped k r b v)
    (off : ∀ j : Fin 6, b.ogd.outputs[j].energized = false) (j : Fin 6) : v.ogd.outputs[j].energized = false := by
  by_cases same : j = r.output
  · rw [same, h.row]
    exact off r.output
  · rw [h.others j same]
    exact off j

theorem all_off {o : Fin 6} {p q : Plant} (off : q.ogd.outputs[o].energized = false)
    (others : ∀ j : Fin 6, j ≠ o → q.ogd.outputs[j] = p.ogd.outputs[j])
    (quiet : ∀ j : Fin 6, j ≠ o → p.ogd.outputs[j].energized = false) (j : Fin 6) :
    q.ogd.outputs[j].energized = false := by
  by_cases same : j = o
  · rw [same]
    exact off
  · rw [others j same]
    exact quiet j same

/-- The end of the test of an output tripped at the limit leaves the trip as it is. -/
theorem AtLimit.ended {k : FaultKind} {r : TestRecord} {c : Fin 6} {n : Nat} {p b v : Plant}
    (limit : AtLimit k r.output c n p b) (ended : TestTripped k r b v) : AtLimit k r.output c n p v := by
  refine ⟨?_, ?_, ?_, ?_, ?_, ?_, ?_, ?_, fun j h => (ended.others j h).trans (limit.others j h)⟩
  · rw [ended.row]
    exact limit.off
  · rw [ended.row]
    exact limit.openCount
  · rw [ended.row]
    exact limit.total
  · rw [ended.row]
    exact limit.fault
  · rw [ended.row]
    exact limit.role
  · rw [ended.fct]
    exact limit.raised
  · rw [ended.cct]
    exact limit.failed
  · rw [ended.trips]
    exact limit.trips

/-! ### A tested trip with no further output on -/

section
variable {e : Env} {k : FaultKind} {r : TestRecord} {s t : State} {q : Plant}

/-- R123, R130: a trip of the output under test below the trip limit. -/
theorem tested_trip_below {c : Fin 6} (ready : TripReady r.output s.plant q) (test : q.ogd.test = some r)
    (bound : s.plant.ogd.outputs[r.output].role.circuit = some c)
    (below : s.plant.ogd.trips[c].count + 1 < s.img.tripLimit)
    (quiet : ∀ j : Fin 6, j ≠ r.output → s.plant.ogd.outputs[j].energized = false)
    (t_eq : t = { s with plant := tripOutput s.env r.output k q }) :
    GrantsByKind t ∧ TripTaken k r.output s t ∧ TestEnded (.tripped k) r t ∧ TripHeldOff r.output c s t ∧
      (∀ j : Fin 6, t.plant.ogd.outputs[j].energized = false) ∧
      t.plant.alu = { s.plant.alu with deduction := none } ∧
      ∀ j : Fin 6, j ≠ r.output → t.plant.ogd.outputs[j] = s.plant.ogd.outputs[j] := by
  have tested : q.ogd.underTest r.output = true := underTest_of q.ogd r test
  have run := tripOutput_tested_below (e := s.env) (k := k) ready.on (by rw [ready.role]; exact bound) tested
    (by rw [ready.trips]; exact below)
  obtain ⟨running, alu, fct, cct, -, trip, -, row, holdOff, role, others⟩ := tripHeld_items s.env r.output c k q
  have ended := endTest_tripped k (running.trans test)
  have others' : ∀ j : Fin 6, j ≠ r.output →
      (tripHeld s.env r.output c k q).ogd.outputs[j] = s.plant.ogd.outputs[j] := fun j h =>
    (others j h).trans (ready.others j h)
  have off := ended.off (all_off row.off others' quiet)
  have again := respread_quiet s.env off
  rw [← run] at again
  subst t_eq
  obtain ⟨grants, taken, over'⟩ := tested_trip_ends (s := s)
    (t := { s with plant := tripOutput s.env r.output k q }) row ready.total
    (by rw [fct]; exact raise_held _ _) ended again
  obtain ⟨state, need, settle, onTime⟩ := again.kept c
  rw [ended.cct, cct] at state need settle onTime
  refine ⟨grants, taken, over', ⟨?_, ?_, ?_, state, onTime rfl, need, settle⟩, fun j => ?_, ?_, fun j h => ?_⟩
  · show (tripOutput s.env r.output k q).ogd.outputs[r.output].role = _
    rw [again.ogd, ended.row]
    exact role.trans ready.role
  · show (tripOutput s.env r.output k q).ogd.outputs[r.output].holdOff = _
    rw [again.ogd, ended.row]
    exact holdOff
  · show (tripOutput s.env r.output k q).ogd.trips[c] = _
    rw [again.ogd, ended.trips, trip, ready.trips]
  · show (tripOutput s.env r.output k q).ogd.outputs[j].energized = _
    rw [again.ogd]
    exact off j
  · show (tripOutput s.env r.output k q).alu = _
    rw [again.alu, ended.alu, alu, ready.alu]
  · show (tripOutput s.env r.output k q).ogd.outputs[j] = _
    rw [again.ogd, ended.others j h, others' j h]

/-- R123, R130: a trip of a free spare under test. -/
theorem tested_trip_spare (ready : TripReady r.output s.plant q) (test : q.ogd.test = some r)
    (free : s.plant.ogd.outputs[r.output].role = .spareFree)
    (quiet : ∀ j : Fin 6, j ≠ r.output → s.plant.ogd.outputs[j].energized = false)
    (t_eq : t = { s with plant := tripOutput s.env r.output k q }) :
    GrantsByKind t ∧ TripTaken k r.output s t ∧ TestEnded (.tripped k) r t ∧
      t.plant.ogd.outputs[r.output].role = .bad ∧ t.plant.ogd.trips = s.plant.ogd.trips ∧
      (∀ j : Fin 6, t.plant.ogd.outputs[j].energized = false) ∧
      t.plant.alu = { s.plant.alu with deduction := none } ∧
      ∀ j : Fin 6, j ≠ r.output → t.plant.ogd.outputs[j] = s.plant.ogd.outputs[j] := by
  have tested : q.ogd.underTest r.output = true := underTest_of q.ogd r test
  have run := tripOutput_tested_spare (e := s.env) (k := k) ready.on (by rw [ready.role, free]; rfl) tested
  obtain ⟨running, alu, trips, -, fct, row, bad, others⟩ := tripBad_items r.output k q
  have ended := endTest_tripped k (running.trans test)
  have others' : ∀ j : Fin 6, j ≠ r.output →
      (tripBad r.output k q).ogd.outputs[j] = s.plant.ogd.outputs[j] := fun j h =>
    (others j h).trans (ready.others j h)
  have off := ended.off (all_off row.off others' quiet)
  have again := respread_quiet s.env off
  rw [← run] at again
  subst t_eq
  obtain ⟨grants, taken, over'⟩ := tested_trip_ends (s := s)
    (t := { s with plant := tripOutput s.env r.output k q }) row ready.total
    (by rw [fct]; exact raise_held _ _) ended again
  refine ⟨grants, taken, over', ?_, ?_, fun j => ?_, ?_, fun j h => ?_⟩
  · show (tripOutput s.env r.output k q).ogd.outputs[r.output].role = _
    rw [again.ogd, ended.row]
    exact bad
  · show (tripOutput s.env r.output k q).ogd.trips = _
    rw [again.ogd, ended.trips, trips, ready.trips]
  · show (tripOutput s.env r.output k q).ogd.outputs[j].energized = _
    rw [again.ogd]
    exact off j
  · show (tripOutput s.env r.output k q).alu = _
    rw [again.alu, ended.alu, alu, ready.alu]
  · show (tripOutput s.env r.output k q).ogd.outputs[j] = _
    rw [again.ogd, ended.others j h, others' j h]

/-- R123, R126, R130: a trip of the output under test at the trip limit. -/
theorem tested_trip_fails {c : Fin 6} (ready : TripReady r.output s.plant q) (test : q.ogd.test = some r)
    (bound : s.plant.ogd.outputs[r.output].role.circuit = some c)
    (reached : s.img.tripLimit ≤ s.plant.ogd.trips[c].count + 1)
    (quiet : ∀ j : Fin 6, j ≠ r.output → s.plant.ogd.outputs[j].energized = false)
    (t_eq : t = { s with plant := tripOutput s.env r.output k q }) :
    GrantsByKind t ∧ TripTaken k r.output s t ∧ TestEnded (.tripped k) r t ∧
      (s.img.tripLimit = s.plant.ogd.trips[c].count + 1 → TripFails r.output c s t) ∧
      (∀ j : Fin 6, t.plant.ogd.outputs[j].energized = false) ∧
      t.plant.alu = { s.plant.alu with deduction := none } := by
  have tested : q.ogd.underTest r.output = true := underTest_of q.ogd r test
  have bound' : q.ogd.outputs[r.output].role.circuit = some c := by
    rw [ready.role]
    exact bound
  have run := tripOutput_atLimit (e := s.env) (k := k) ready.on bound' (by rw [ready.trips]; exact reached)
  rw [if_pos tested] at run
  obtain ⟨running, alu, -, -, -, -, -, -, role, -⟩ := tripLimit_items r.output c k q
  have limit := ready.atLimit (c := c) k
  have ended := endTest_tripped k (running.trans test)
  generalize tripLimit r.output c k q = b at *
  have limit' := limit.ended ended
  have off := all_off limit'.off limit'.others quiet
  have failed := failWith_over respread s.env (o := r.output) (c := c) ended.none (by
    rw [ended.row]
    exact (congrArg Role.circuit (role r.output)).trans bound')
  have reach := failWith_reach respread_reach s.env c r.output (endTest (.tripped k) b)
  have off' : ∀ j : Fin 6, (failWith respread s.env c r.output (endTest (.tripped k) b)).ogd.outputs[j].energized
      = false := fun j => by
    rw [← Bool.not_eq_true]
    exact fun on => Bool.false_ne_true ((off j).symm.trans (reach.off j on))
  have again := respread_quiet s.env off'
  rw [← run] at again
  subst t_eq
  obtain ⟨taken, fails⟩ := failed.tripFails (s := s)
    (t := { s with plant := tripOutput s.env r.output k q }) limit' bound again.ogd again.fct (again.kept c).1
  have row : (tripOutput s.env r.output k q).ogd.outputs[r.output] =
      { (endTest (.tripped k) b).ogd.outputs[r.output] with role := .bad } := by
    rw [again.ogd, failed.row]
  refine ⟨again.grantsByKind rfl, taken, testEnded_of ?_ taken.off (congrArg Alu.deduction again.alu) ?_, fails,
    fun j => ?_, ?_⟩
  · show (tripOutput s.env r.output k q).ogd.test = none
    rw [again.ogd, failed.test]
  · show (tripOutput s.env r.output k q).ogd.outputs[r.output].health.lastTest = _
    rw [row, ended.row]
  · show (tripOutput s.env r.output k q).ogd.outputs[j].energized = _
    rw [again.ogd]
    exact off' j
  · show (tripOutput s.env r.output k q).alu = _
    rw [again.alu, failed.alu, ended.alu, alu, ready.alu]

end

end Sys2Proof.Machine
end

section
/-! PROOFS. The start of a test (R118, R120, R128, R129) and the periods that a lower grant ends (R89, R90,
R122). -/

namespace Sys2Proof.Machine

/-! ### The order of a deduction -/

/-- A deduction by one order is one by another that agrees on the circuits of the untested outputs. -/
theorem Deducted.reordered {before after : Fin 6 → Fin 6 → Prop} {circuit : Option (Fin 6)} {room : Nat}
    {g h : Vector Nat 6} (d : Deducted before circuit room g h)
    (agree : ∀ x y : Fin 6, circuit ≠ some x → circuit ≠ some y → after x y → before x y) :
    Deducted after circuit room g h := by
  refine ⟨d.tested, d.lowered, d.fitting, d.total, fun c x later untested less => ?_⟩
  by_cases tested : circuit = some c
  · exact d.tested c tested
  · exact d.order c x (agree x c untested tested later) untested less

/-- The order of a deduction reads the division and the rows of the two circuits. -/
theorem deductBefore_congr {own : Nat} {p q : Plant} {d c : Fin 6}
    (division : q.alu.division = p.alu.division) (first : q.cct[d] = p.cct[d]) (second : q.cct[c] = p.cct[c]) :
    deductBefore own q d c ↔ deductBefore own p d c := by
  have localSame : localBefore q d c ↔ localBefore p d c := by
    unfold localBefore spreadTakes spreadBefore
    simp only [decide_eq_true_eq, decide_eq_false_iff_not]
    rw [first, second]
  unfold deductBefore
  rw [division]
  cases p.alu.division with
  | none => exact localSame
  | some v =>
    dsimp only
    split
    · rfl
    · exact localSame

/-! ### A test is accepted -/

/-- R128: the judgement of a test that is accepted. -/
theorem TestAccepted.judged {d n : Byte} {o : Fin 6} {s : State} (h : TestAccepted d o n s) :
    judgeTest s.env s.plant o = .accepted := by
  have bids : s.env.membership.bids = true := h.bids
  have room : testHasRoom s.env s.plant o = true := decide_eq_true h.room
  rw [judgeTest_idle h.idle, bids, (testableRole_iff _ _).mpr h.role, decide_eq_true h.limit, room]
  rfl

theorem TestAccepted.runs {d tag n : Byte} {o : Fin 6} {s : State} (h : TestAccepted d o n s) :
    exec (.testOutput d tag [byteOf (o.val + 1), n]) s = .next (placeReply (commandReply s tag 3 .accepted)
      { afterRequest s with plant := startTest s.env o n.toNat s.plant }) := by
  obtain ⟨hr, hd⟩ := h.received
  have member : s.rct.membership ≠ .blocked := fun blocked => by
    have bids := h.bids
    rw [blocked] at bids
    cases bids
  refine exec_testOutput hr hd h.duration member ?_
  have judged : judgeTest (afterRequest s).env (afterRequest s).plant o = .accepted := h.judged
  unfold serveTest
  rw [judged]
  rfl

/-! ### The grants that a test leaves to the other circuits -/

/-- R66, R90: a circuit takes its lower grant where a test starts. -/
theorem grantTaken_of {c : Fin 6} {s t : State} {g : Nat}
    (row : t.plant.cct[c] = grantedRow s.env s.plant c g s.plant.cct[c])
    (cut : ∀ j, s.plant.ogd.boundTo c = some j → s.plant.ogd.outputs[j].energized = true →
      cutNow s.env s.plant.cct[c] (grantedRow s.env s.plant c g s.plant.cct[c]) = true →
      PeriodEnded s.plant.ogd.outputs[j] t.plant.ogd.outputs[j])
    (uncut : ∀ j, s.plant.ogd.boundTo c = some j →
      cutNow s.env s.plant.cct[c] (grantedRow s.env s.plant c g s.plant.cct[c]) = false →
      t.plant.ogd.outputs[j] = s.plant.ogd.outputs[j]) : GrantTaken c s t := by
  rw [← row] at cut uncut
  have grant : t.plant.cct[c].grant = g := by
    rw [row]
    rfl
  have onTime : t.plant.cct[c].onTime = if g < s.plant.cct[c].grant then
      min s.plant.cct[c].onTime (s.img.window * 1000 * min g s.plant.cct[c].need / s.plant.ogd.ratedOf c)
      else s.plant.cct[c].onTime := by
    rw [row]
    rfl
  refine ⟨?_, fun kept => ?_, fun fallen => ?_, fun j bound on less passed => ?_, fun j bound runs => ?_⟩
  · rw [grant]
    exact row.trans (by rw [row]; rfl)
  · rw [grant] at kept
    rw [onTime, if_neg (Nat.not_lt.mpr kept)]
  · rw [grant] at fallen ⊢
    rw [onTime, if_pos fallen]
  · refine cut j bound on ?_
    unfold cutNow
    rw [decide_eq_true less]
    exact decide_eq_true passed
  · refine uncut j bound ?_
    unfold cutNow
    rw [Bool.and_eq_false_iff, decide_eq_false_iff_not, decide_eq_false_iff_not]
    rcases runs with same | later
    · exact .inl (by rw [same]; exact Nat.lt_irrefl _)
    · exact .inr (Nat.not_le.mpr later)

/-! ### The start of a test while the leakage of its output is asserted -/

theorem switchOn_test {e : Env} {o : Fin 6} {p : Plant} {t : TestRecord} (test : p.ogd.test = some t)
    (output : t.output = o) :
    (switchOn e o p).ogd.test = some { t with peak := max t.peak (e.leakageNow o) } := by
  obtain ⟨q, hq⟩ : ∃ q, q = p.updOut o fun r =>
      { r with energized := true, periodMs := 0, loadSum := 0, recent := [] } := ⟨_, rfl⟩
  have on : q.ogd.outputs[o].energized = true := by
    rw [hq, updOut_row]
  have run : switchOn e o p = notePeak e o q := by
    rw [hq]
    rfl
  have same : q.ogd.test = some t := by
    rw [hq]
    exact test
  rw [run, notePeak_on on, same]
  exact congrArg some (if_pos output)

/-- R118, R120, R129: with every output off, the start of a test of an output whose leakage is asserted trips
it. -/
theorem startTest_leaks {e : Env} {o : Fin 6} {seconds : Nat} {p : Plant}
    (leaks : p.ogd.outputs[o].leakage.level = some true)
    (quiet : ∀ j : Fin 6, p.ogd.outputs[j].energized = false) :
    ∃ q, startTest e o seconds p = tripOutput e o .leakage q ∧
      TripReady o { p with alu := { p.alu with deduction := some (o, p.ogd.outputs[o].rated) } } q ∧
      q.ogd.test = some ⟨o, p.ogd.outputs[o].role.circuit, seconds, e.now, 0, 0, e.leakageNow o⟩ := by
  obtain ⟨-, alu, test, trips, -, outputs⟩ := testBegun_items e o seconds p
  have same : ∀ j : Fin 6, (testBegun e o seconds p).ogd.outputs[j] = p.ogd.outputs[j] := fun j => by
    rw [outputs, if_neg fun h => Bool.false_ne_true ((quiet o).symm.trans h.2.1)]
  have run : startTest e o seconds p =
      (let u := handGrants e (deductGrants e (testBegun e o seconds p) p.ogd.outputs[o].role.circuit
          ((testBegun e o seconds p).alu.own - p.ogd.outputs[o].rated)
          (grantsInForce (testBegun e o seconds p))) (testBegun e o seconds p)
        if u.ogd.underTest o then energize e o u else u) := rfl
  generalize testBegun e o seconds p = b at *
  have off : ∀ j : Fin 6, b.ogd.outputs[j].energized = false := fun j => by rw [same j, quiet j]
  rw [run]
  dsimp only
  generalize deductGrants e b _ _ _ = g
  obtain ⟨u, handed, ogd, alu'⟩ : ∃ u, handGrants e g b = u ∧ u.ogd = b.ogd ∧ u.alu = b.alu :=
    ⟨_, handGrantsWith_off tripOutput e g b off, rfl, rfl⟩
  have tested : u.ogd.underTest o = true := underTest_of u.ogd _ (by rw [ogd]; exact test)
  rw [handed, if_pos tested]
  obtain ⟨ready, -, -, leakage, -, -⟩ := switchOn_ready (o := o) e u
  have record := switchOn_test (e := e) (o := o) (p := u) (by rw [ogd]; exact test) rfl
  refine ⟨switchOn e o u, if_pos (by rw [leakage, ogd, same o]; exact leaks), ?_, ?_⟩
  · refine ⟨ready.on, ?_, ?_, ?_, ?_, fun j h => ?_⟩
    · rw [ready.trips, ogd, trips]
    · rw [ready.alu, alu', alu]
    · rw [ready.role, ogd, same o]
    · rw [ready.total, ogd, same o]
    · rw [ready.others j h, ogd, same j]
  · rw [record]
    dsimp only
    rw [Nat.zero_max]

/-! ### Both starts -/

/-- What a trip leaves is told from the outputs and the trips before it, whatever else differs. -/
theorem TripTaken.since {k : FaultKind} {o : Fin 6} {s u t : State} (h : TripTaken k o s t)
    (ogd : u.plant.ogd = s.plant.ogd) : TripTaken k o u t :=
  ⟨h.off, h.openCount, by rw [ogd]; exact h.total, h.fault, h.raised⟩

theorem TripHeldOff.since {o c : Fin 6} {s u t : State} (h : TripHeldOff o c s t)
    (ogd : u.plant.ogd = s.plant.ogd) (img : u.img = s.img) : TripHeldOff o c u t :=
  ⟨by rw [ogd]; exact h.role, by rw [img]; exact h.holdOff, by rw [ogd]; exact h.count, h.tripped, h.idle⟩

theorem TripFails.since {o c : Fin 6} {s u t : State} (h : TripFails o c s t)
    (ogd : u.plant.ogd = s.plant.ogd) (img : u.img = s.img) : TripFails o c u t :=
  ⟨h.bad, h.raised, by rw [ogd]; exact h.spare, by rw [ogd, img]; exact h.exhausted⟩


/-- R66, R129: what the start of a test with no open-element trip and no leakage trip leaves. -/
theorem test_runs {d tag n : Byte} {o : Fin 6} {s : State} (h : TestAccepted d o n s)
    (dry : s.plant.ogd.outputs[o].leakage.level ≠ some true)
    (calm : ∀ c j : Fin 6, j ≠ o → s.plant.ogd.boundTo c = some j →
      s.plant.ogd.outputs[j].energized = true → ¬OpenElementDue s.plant.ogd.outputs[j]) :
    ∃ q g, exec (.testOutput d tag [byteOf (o.val + 1), n]) s =
        .next (placeReply (commandReply s tag 3 .accepted) { afterRequest s with plant := q }) ∧
      q.fct = s.plant.fct ∧
      q.alu = { s.plant.alu with deduction := some (o, s.plant.ogd.outputs[o].rated) } ∧
      q.ogd.test = some ⟨o, s.plant.ogd.outputs[o].role.circuit, n.toNat, s.now, 0, 0,
        min 1000 s.pins.leakage[o]⟩ ∧
      q.ogd.trips = s.plant.ogd.trips ∧
      Deducted (deductBefore s.own s.plant) s.plant.ogd.outputs[o].role.circuit
        (s.plant.alu.own - s.plant.ogd.outputs[o].rated) (grantsInForce s.plant) g ∧
      (∀ c : Fin 6, q.cct[c] = grantedRow s.env s.plant c g[c]
        (if s.plant.ogd.outputs[o].role.circuit = some c then idleRow .testing s.plant.cct[c]
        else s.plant.cct[c])) ∧
      q.ogd.outputs[o] = begunRow s.env o
        (if s.plant.ogd.outputs[o].energized = true ∧ s.plant.ogd.outputs[o].role.circuit.isSome = true
        then offRow s.plant.free s.plant.ogd.outputs[o] else s.plant.ogd.outputs[o]) ∧
      (∀ c j : Fin 6, s.plant.ogd.outputs[o].role.circuit ≠ some c → s.plant.ogd.boundTo c = some j →
        s.plant.ogd.outputs[j].energized = true →
        cutNow s.env s.plant.cct[c] (grantedRow s.env s.plant c g[c] s.plant.cct[c]) = true →
        PeriodEnded s.plant.ogd.outputs[j] q.ogd.outputs[j]) ∧
      ∀ j : Fin 6, j ≠ o → (∀ c : Fin 6, s.plant.ogd.outputs[o].role.circuit ≠ some c →
        s.plant.ogd.boundTo c = some j → s.plant.ogd.outputs[j].energized = true →
        cutNow s.env s.plant.cct[c] (grantedRow s.env s.plant c g[c] s.plant.cct[c]) = false) →
        q.ogd.outputs[j] = s.plant.ogd.outputs[j] := by
  obtain ⟨-, alu, -, -, rows, -⟩ := testBegun_items s.env o n.toNat s.plant
  obtain ⟨q, g, start, deduct, fct, alu', test, trips, cct, row, cut, uncut⟩ :=
    startTest_runs s.env o n.toNat s.plant dry calm
  have run := h.runs (tag := tag)
  rw [← start] at run
  rw [Nat.zero_max] at test
  refine ⟨q, g, run, fct, alu', test, trips, ?_, cct, row, cut, uncut⟩
  rw [deduct]
  refine (deductGrants_deducted s.env (testBegun s.env o n.toNat s.plant) _ _ _).reordered
    fun x y hx hy later => ?_
  exact (deductBefore_congr (by rw [alu]) (by rw [rows, if_neg hx]) (by rw [rows, if_neg hy])).mpr later

/-- The station with the reply to an accepted test placed and its deduction noted (R65, R128). -/
def testNoted (tag : Byte) (o : Fin 6) (s : State) : State :=
  placeReply (commandReply s tag 3 .accepted) { afterRequest s with
    plant := { s.plant with alu := { s.plant.alu with
      deduction := some (o, s.plant.ogd.outputs[o].rated) } } }

/-- Settles O37. -/
theorem acceptedTestRuns : Obligations.AcceptedTestRuns := by
  unfold Obligations.AcceptedTestRuns
  intro d tag o n s accepted
  refine ⟨fun dry calm => ?_, fun leaks quiet => ?_⟩
  · obtain ⟨q, g, run, fct, alu, test, trips, deducted, cct, row, cut, uncut⟩ := test_runs accepted dry calm
    have grant : grantsInForce q = g := by
      refine Vector.ext fun i hi => ?_
      unfold grantsInForce
      rw [Vector.getElem_ofFn]
      exact congrArg CircuitRow.grant (cct ⟨i, hi⟩)
    have other : ∀ c j : Fin 6, s.plant.ogd.outputs[o].role.circuit ≠ some c →
        s.plant.ogd.boundTo c = some j → j ≠ o := fun c j hc bound same =>
      hc (same ▸ boundTo_role bound)
    refine ⟨_, run, ⟨rfl, rfl, rfl, rfl, rfl, rfl⟩, rfl, rfl, fct, rfl, test, trips, alu, ?_, ?_, ?_, ?_, ?_, ?_,
      fun c untested => ?_, fun j hj off => uncut j hj fun c _ _ on => ?_⟩
    · exact (congrArg (Deducted (deductBefore s.own s.plant) s.plant.ogd.outputs[o].role.circuit
        (s.plant.alu.own - s.plant.ogd.outputs[o].rated) (grantsInForce s.plant)) grant).mpr deducted
    · exact congrArg OutputRow.energized row
    · show PeriodBegun q.ogd.outputs[o]
      rw [row]
      exact ⟨rfl, rfl, rfl⟩
    · refine (congrArg OutputRow.openCount row).trans ?_
      unfold begunRow
      split <;> rfl
    · refine fun off => (congrArg (fun r : OutputRow => r.health.lastLoad) row).trans ?_
      rw [if_neg fun h => Bool.false_ne_true (off.symm.trans h.1)]
      rfl
    · intro c bound
      have row' := cct c
      rw [if_pos bound] at row'
      have zero := deducted.tested c bound
      refine ⟨congrArg CircuitRow.state row', congrArg CircuitRow.need row',
        (congrArg CircuitRow.grant row').trans zero, (congrArg CircuitRow.onTime row').trans ?_, fun on ran => ?_⟩
      · unfold grantedRow
        dsimp only
        split
        · exact Nat.zero_min _
        · rfl
      · show IsMean _ _ q.ogd.outputs[o].health.lastLoad
        rw [row, if_pos ⟨on, by rw [bound]; rfl⟩]
        exact meanLoad_isMean _ _ _ ran
    · refine grantTaken_of (g := g[c]) ((cct c).trans (by rw [if_neg untested]))
        (fun j bound on due => cut c j untested bound on due)
        fun j bound kept => uncut j (other c j untested bound) fun x _ also _ => ?_
      cases (boundTo_role bound).symm.trans (boundTo_role also)
      exact kept
    · exact absurd (off.symm.trans on) Bool.false_ne_true
  · obtain ⟨q, start, ready, test⟩ := startTest_leaks (e := s.env) (seconds := n.toNat) leaks quiet
    have run := accepted.runs (tag := tag)
    rw [start] at run
    have quiet' : ∀ j : Fin 6, j ≠ o → (testNoted tag o s).plant.ogd.outputs[j].energized = false := fun j _ => quiet j
    refine ⟨_, run, ⟨rfl, rfl, rfl, rfl, rfl, rfl⟩, rfl, rfl, rfl, ?_⟩
    rcases accepted.role with free | ⟨c, bound, -⟩
    · obtain ⟨grants, taken, ended, bad, trips, off, alu, others⟩ :=
        tested_trip_spare (s := testNoted tag o s) ready test free quiet' rfl
      refine ⟨alu, grants, taken.since rfl, ended, off, fun _ => ⟨bad, trips, others⟩, fun c bound => ?_⟩
      rw [free] at bound
      cases bound
    · have notFree : s.plant.ogd.outputs[o].role ≠ .spareFree := fun free => by
        rw [free] at bound
        cases bound
      by_cases below : s.plant.ogd.trips[c].count + 1 < s.img.tripLimit
      · obtain ⟨grants, taken, ended, held, off, alu, others⟩ :=
          tested_trip_below (s := testNoted tag o s) ready test bound below quiet' rfl
        refine ⟨alu, grants, taken.since rfl, ended, off, fun free => absurd free notFree, fun x hx => ?_⟩
        cases bound.symm.trans hx
        exact ⟨fun _ => ⟨held.since rfl rfl, others⟩, fun reached => absurd below (by omega)⟩
      · obtain ⟨grants, taken, ended, fails, off, alu⟩ :=
          tested_trip_fails (s := testNoted tag o s) ready test bound (Nat.not_lt.mp below) quiet' rfl
        refine ⟨alu, grants, taken.since rfl, ended, off, fun free => absurd free notFree, fun x hx => ?_⟩
        cases bound.symm.trans hx
        exact ⟨fun less => absurd less below, fun reached => (fails reached).since rfl rfl⟩

end Sys2Proof.Machine
end

section
/-! PROOFS. Periods that end by their on-time or by a lower grant (R89, R90, R122). -/

namespace Sys2Proof.Machine

/-! ### One circuit of a plant whose grants are handed over -/

/-- R90: what a new grant of the circuit `c`, the only one whose output `o` draws, leaves of its row and of
its output. -/
structure CircuitHanded (e : Env) (c o : Fin 6) (p q : Plant) : Prop where
  row : ∃ g : Nat, q.cct[c] = grantedRow e p c g p.cct[c]
  ended : cutNow e p.cct[c] q.cct[c] = true → PeriodEnded p.ogd.outputs[o] q.ogd.outputs[o]
  runs : cutNow e p.cct[c] q.cct[c] = false → q.ogd.outputs[o] = p.ogd.outputs[o]

theorem handGrantsWith_circuit (trip : Env → Fin 6 → FaultKind → Plant → Plant) (e : Env) (g : Vector Nat 6)
    {p : Plant} {c o : Fin 6} (draws : Draws p c o) (quiet : ∀ j : Fin 6, j ≠ o → p.ogd.outputs[j].energized = false)
    (calm : ¬OpenElementDue p.ogd.outputs[o]) : CircuitHanded e c o p (handGrantsWith trip e g p) := by
  have alone : ∀ x j, Draws p x j → x = c ∧ j = o := fun x j h => by
    have same : j = o := Classical.byContradiction fun other =>
      Bool.false_ne_true ((quiet j other).symm.trans h.2.1)
    subst same
    exact ⟨Option.some.inj ((boundTo_role h.1).symm.trans (boundTo_role draws.1)), rfl⟩
  obtain ⟨rows, ended, runs⟩ := handGrantsWith_cuts trip e g p fun x j h => by
    rw [(alone x j h).2]
    exact calm
  have row : (handGrantsWith trip e g p).cct[c] = grantedRow e p c g[c] p.cct[c] := by
    rw [rows.cct]
    exact mapRows_get _ _ c
  refine ⟨⟨g[c], row⟩, fun cut => ended c o draws (by rw [← row]; exact cut), fun uncut => runs o fun x cut h => ?_⟩
  rw [(alone x o h).1, ← row, uncut] at cut
  exact Bool.false_ne_true cut

/-- R90: the row and the output of a circuit, by the grant it takes. -/
theorem CircuitHanded.byGrant {e : Env} {c o : Fin 6} {p q : Plant} (h : CircuitHanded e c o p q)
    (bound : p.ogd.boundTo c = some o) :
    let cut := min p.cct[c].onTime (e.windowMs * min q.cct[c].grant p.cct[c].need / p.ogd.outputs[o].rated)
    (p.cct[c].grant ≤ q.cct[c].grant →
      q.cct[c].onTime = p.cct[c].onTime ∧ q.ogd.outputs[o] = p.ogd.outputs[o]) ∧
    (q.cct[c].grant < p.cct[c].grant → q.cct[c].onTime = cut ∧
      (cut < p.cct[c].onTime → cut ≤ elapsedOf e p.cct[c] →
        PeriodEnded p.ogd.outputs[o] q.ogd.outputs[o]) ∧
      (p.cct[c].onTime ≤ cut ∨ elapsedOf e p.cct[c] < cut → q.ogd.outputs[o] = p.ogd.outputs[o])) := by
  intro cut
  obtain ⟨⟨g, row⟩, ended, runs⟩ := h
  have grant : q.cct[c].grant = g := by
    rw [row]
    rfl
  have onTime : q.cct[c].onTime = if q.cct[c].grant < p.cct[c].grant then cut else p.cct[c].onTime := by
    have rated := ratedOf_bound bound
    unfold cut
    rw [grant, row, ← rated]
    rfl
  have cutNow_eq : cutNow e p.cct[c] q.cct[c] =
      (decide (q.cct[c].onTime < p.cct[c].onTime) && decide (q.cct[c].onTime ≤ elapsedOf e p.cct[c])) := rfl
  refine ⟨fun kept => ?_, fun fallen => ?_⟩
  · rw [if_neg (Nat.not_lt.mpr kept)] at onTime
    exact ⟨onTime, runs (by rw [cutNow_eq, onTime, decide_eq_false (Nat.lt_irrefl _)]; rfl)⟩
  · rw [if_pos fallen] at onTime
    rw [cutNow_eq, onTime] at ended runs
    refine ⟨onTime, fun less passed => ended (by rw [decide_eq_true less, decide_eq_true passed]; rfl), fun kept => runs ?_⟩
    rw [Bool.and_eq_false_iff, decide_eq_false_iff_not, decide_eq_false_iff_not]
    exact kept.imp Nat.not_lt.mpr Nat.not_le.mpr

/-- Settles O43. -/
theorem onTimeEndsThePeriod : Obligations.OnTimeEndsThePeriod := by
  unfold Obligations.OnTimeEndsThePeriod
  refine ⟨fun c o s bound on untested calm => ?_, fun f i c o s receives member complete inside opener notOwn round
    other untested bound on quiet calm => ?_⟩
  · have draws : Draws s.plant c o := ⟨bound, on, untested⟩
    have alone : ∀ j, Draws s.plant c j → j = o := fun j h => Option.some.inj (h.1.symm.trans bound)
    obtain ⟨ended, -⟩ := endPeriodWith_ended tripOutput s.env c o s.plant bound on untested calm
    obtain ⟨rows, others⟩ := endPeriodWith_rows tripOutput s.env c s.plant fun j h => by
      rw [alone j h]
      exact calm
    exact ⟨_, rfl, rfl, rows.cct, rows.alu, rows.fct, fun j h => others j fun k => h (alone j k), ended⟩
  · have follows : s.rct.membership.follows = true := by
      rw [member]
      rfl
    obtain ⟨isBid, run⟩ := exec_conflict (x := .openReceived f) receives follows inside
      (.inl ⟨f, rfl, opener, notOwn, round, other⟩)
    rw [conflict_of_member (s := afterStation i isBid s) complete member] at run
    refine ⟨_, run, ?_⟩
    have handed : CircuitHanded s.env c o s.plant
        (compute s.env s.plant.alu.round false (.degraded false) (conflictRaised s.plant)) := by
      rw [compute_untested_first s.env s.plant.alu.round (.degraded false) (conflictRaised s.plant) untested]
      obtain ⟨row, ended, runs⟩ := handGrantsWith_circuit tripOutput s.env
        (grantsByKind s.env { conflictRaised s.plant with
          alu := allotTable s.env s.plant.alu.round (.degraded false) })
        (p := { conflictRaised s.plant with alu := allotTable s.env s.plant.alu.round (.degraded false) })
        ⟨bound, on, not_underTest untested o⟩ quiet calm
      exact ⟨row, ended, runs⟩
    exact handed.byGrant bound

end Sys2Proof.Machine
end

section
/-! PROOFS. The end of a test while further outputs are on: the cuts that follow it leave the circuits they do
not cut (R66, R130, R131). -/

namespace Sys2Proof.Machine

/-! ### Cuts and trips leave the other circuits -/

section
variable (respread : Env → Plant → Plant) (e : Env) {c : Fin 6}

theorem tripWith_elsewhere (o : Fin 6) (k : FaultKind) {p : Plant} (untested : p.ogd.test = none)
    (other : p.ogd.outputs[o].role.circuit ≠ some c) : (tripWith respread e o k p).cct[c] = p.cct[c] := by
  by_cases on : p.ogd.outputs[o].energized = true
  · cases bound : p.ogd.outputs[o].role.circuit with
    | none =>
      obtain ⟨-, cct, -⟩ := tripRecorded_items o k p
      rw [tripWith_unbound respread e o k p on bound, not_underTest untested]
      exact congrArg (fun rows : Vector CircuitRow 6 => rows[c]) cct
    | some d =>
      have apart : c ≠ d := fun h => other (by rw [bound, h])
      rw [tripWith_bound respread e o k p on bound, not_underTest untested]
      split
      · obtain ⟨-, -, -, -, circuits, -⟩ := tripHeld_items e o d k p
        exact circuits c apart
      · obtain ⟨test, -, -, -, circuits, -, -, -, role, -⟩ := tripLimit_items o d k p
        have failed := failWith_over respread e (o := o) (c := d) (p := tripLimit o d k p)
          (test.trans untested) (by rw [role]; exact bound)
        exact (failed.circuits c apart).1.trans (circuits c apart)
  · exact congrArg (fun q : Plant => q.cct[c]) (if_neg on)

theorem endPeriodWith_elsewhere {d : Fin 6} {p : Plant} (untested : p.ogd.test = none) (apart : c ≠ d) :
    (endPeriodWith (tripWith respread) e d p).cct[c] = p.cct[c] := by
  have off : ∀ (o : Fin 6) (q : Plant), (switchOff o q).cct[c] = q.cct[c] := fun o q => by
    rw [(switchOff_facts o q).1]
  unfold endPeriodWith
  split
  · rfl
  · rename_i o bound
    have role : ∀ f : OutputRow → OutputRow, (∀ r, (f r).role = r.role) →
        (p.updOut o f).ogd.outputs[o].role.circuit ≠ some c := fun f same h => by
      rw [updOut_row, same, boundTo_role bound] at h
      exact apart (Option.some.inj h).symm
    dsimp only
    split
    · split
      · exact off o p
      · split
        · split
          · exact tripWith_elsewhere respread e o .openElement untested (role _ fun _ => rfl)
          · exact off o _
        · exact off o _
    · rfl

/-- Grants handed over while no test is in progress leave a circuit that is not cut. -/
theorem handGrantsWith_uncut_circuit (g : Vector Nat 6) {p : Plant} (untested : p.ogd.test = none)
    (uncut : cutNow e p.cct[c] (grantedRow e p c g[c] p.cct[c]) = false) :
    (handGrantsWith (tripWith respread) e g p).cct[c] = grantedRow e p c g[c] p.cct[c] := by
  have fold : ∀ (l : List (Fin 6)) (b : Fin 6 → Bool) (q : Plant), q.ogd.test = none → b c = false →
      (l.foldl (fun q d => if b d then endPeriodWith (tripWith respread) e d q else q) q).cct[c] = q.cct[c] := by
    intro l b
    induction l with
    | nil => exact fun q _ _ => rfl
    | cons d l ih =>
      intro q none' still
      rw [List.foldl_cons]
      split
      · rename_i cut
        have apart : c ≠ d := fun h => by
          rw [h, cut] at still
          cases still
        rw [ih _ (endPeriodWith_untested respread e d none').test still]
        exact endPeriodWith_elsewhere respread e none' apart
      · exact ih q none' still
  have row : (mapRows p.cct fun c r => grantedRow e p c g[c] r)[c] = grantedRow e p c g[c] p.cct[c] :=
    mapRows_get _ _ c
  have taken := fold sixIds (fun d => cutNow e p.cct[d] (mapRows p.cct fun c r => grantedRow e p c g[c] r)[d])
    { p with cct := mapRows p.cct fun c r => grantedRow e p c g[c] r } untested (by rw [row]; exact uncut)
  exact taken.trans row

end

/-! ### The grants found again after a test -/

/-- What a re-spread at the end of the test `r` leaves of the plant `v` in which the test has ended (R66). -/
structure TestOver (x : TestOutcome) (r : TestRecord) (v : Plant) (t : State) : Prop where
  ended : TestEnded x r t
  alu : t.plant.alu = { v.alu with deduction := none }
  state : ∀ c : Fin 6, v.cct[c].onTime = 0 → t.plant.cct[c].state = v.cct[c].state
  held : ∀ y, v.fct.held y = true → Held t y
  bad : ∀ o : Fin 6, v.ogd.outputs[o].role = .bad → t.plant.ogd.outputs[o].role = .bad
  grants : (∀ j : Fin 6, j ≠ r.output → v.ogd.outputs[j].energized = false) → GrantsByKind t

theorem respread_over {x : TestOutcome} {r : TestRecord} {v : Plant} {t : State} (untested : v.ogd.test = none)
    (off : v.ogd.outputs[r.output].energized = false)
    (result : v.ogd.outputs[r.output].health.lastTest = some ⟨x, r.energizedMs, testMean r, r.peak⟩)
    (again : t.plant = respread t.env v) : TestOver x r v t := by
  have hand := handGrantsWith_untested (fun _ q => q) t.env
    (grantsByKind t.env { v with alu := { v.alu with deduction := none } })
    (p := { v with alu := { v.alu with deduction := none } }) untested
  have reach : Reach v t.plant := by
    rw [again]
    exact respread_reach t.env v
  have plant : t.plant = handGrantsWith (tripWith fun _ q => q) t.env
    (grantsByKind t.env { v with alu := { v.alu with deduction := none } })
    { v with alu := { v.alu with deduction := none } } := again
  rw [← plant] at hand
  refine ⟨testEnded_of hand.test ?_ ?_ ((hand.result r.output).trans result), hand.alu, fun c idle => ?_,
    fun y h => reach.raised _ h, reach.bad, fun quiet => ?_⟩
  · rw [← Bool.not_eq_true]
    exact fun on => Bool.false_ne_true (off.symm.trans (reach.off _ on))
  · rw [hand.alu]
  · rw [plant, handGrantsWith_uncut_circuit (fun _ q => q) t.env _
      (p := { v with alu := { v.alu with deduction := none } }) untested (cutNow_zero _ _ _ idle)]
    rfl
  · have quiet' : ∀ j : Fin 6, v.ogd.outputs[j].energized = false := fun j => by
      by_cases same : j = r.output
      · rw [same]
        exact off
      · exact quiet j same
    have spread := respread_quiet t.env quiet'
    rw [← again] at spread
    exact spread.grantsByKind rfl

/-! ### A test that is stopped -/

/-- The state that a circuit in TESTING enters at the end of its test (R130, R131). -/
def endState : TestOutcome → CState
  | .aborted .limit => .inhibited
  | _ => .settling

/-- The plant `v` in which the test `r` of the plant `p` has ended with its output off, and its circuit has
moved (R130, R131). -/
structure TestStopped (x : TestOutcome) (r : TestRecord) (p v : Plant) : Prop where
  none : v.ogd.test = none
  off : v.ogd.outputs[r.output].energized = false
  role : v.ogd.outputs[r.output].role = p.ogd.outputs[r.output].role
  result : v.ogd.outputs[r.output].health.lastTest = some ⟨x, r.energizedMs, testMean r, r.peak⟩
  others : ∀ j : Fin 6, j ≠ r.output → v.ogd.outputs[j] = p.ogd.outputs[j]
  alu : v.alu = p.alu
  fct : v.fct = p.fct
  circuits : ∀ c : Fin 6, r.circuit ≠ some c → v.cct[c] = p.cct[c]
  state : ∀ c : Fin 6, r.circuit = some c → p.cct[c].state = .testing →
    v.cct[c].state = endState x ∧ v.cct[c].onTime = 0

theorem endTest_stopped (x : TestOutcome) {p : Plant} {r : TestRecord} (test : p.ogd.test = some r) :
    TestStopped x { r with circuit := none } p (endTest x (switchOff r.output p)) ∧
      (endTest x (switchOff r.output p)).cct = p.cct := by
  obtain ⟨cct, role, off, fct, alu⟩ := switchOff_facts r.output p
  have running : (switchOff r.output p).ogd.test = some r := (switchOff_rows r.output p).test.trans test
  obtain ⟨none', cct', alu', fct', -, result, same, others⟩ := endTest_items x _ r running
  refine ⟨⟨none', (same r.output).1.trans off, (same r.output).2.trans (role _), result, fun j h => (others j h).trans ?_, alu'.trans alu,
    fct'.trans fct, fun c _ => by rw [cct', cct], fun c h => nomatch h⟩, cct'.trans cct⟩
  rw [switchOff_row, if_neg fun k => h k.1]

/-- The circuit of a stopped test moves, and nothing else does. -/
theorem TestStopped.moved {x : TestOutcome} {r : TestRecord} {p v : Plant} {c : Fin 6}
    (h : TestStopped x { r with circuit := Option.none } p v) (f : CircuitRow → CircuitRow) (circuit : r.circuit = some c)
    (state : ∀ u, (f u).state = endState x ∧ (f u).onTime = 0) : TestStopped x r p (v.updCct c f) := by
  refine ⟨h.none, h.off, h.role, h.result, h.others, h.alu, h.fct, fun d other => ?_, fun d same _ => ?_⟩
  · have apart : d ≠ c := fun same => other (by rw [circuit, same])
    exact (updCct_other v c d f apart).trans (h.circuits d nofun)
  · cases circuit.symm.trans same
    rw [updCct_row]
    exact state _

/-- A stopped test whose circuit is in no TESTING moves nothing. -/
theorem TestStopped.unmoved {x : TestOutcome} {r : TestRecord} {p v : Plant}
    (h : TestStopped x { r with circuit := Option.none } p v)
    (still : ∀ c : Fin 6, r.circuit = some c → p.cct[c].state ≠ .testing) : TestStopped x r p v :=
  ⟨h.none, h.off, h.role, h.result, h.others, h.alu, h.fct, fun c _ => h.circuits c nofun,
    fun c circuit testing => absurd testing (still c circuit)⟩

/-- R130: the end of a test at its duration. -/
theorem finishTest_stops (e : Env) {p : Plant} {r : TestRecord} (test : p.ogd.test = some r) :
    ∃ v, finishTest e p = respread e v ∧ TestStopped .done r p v := by
  obtain ⟨stopped, cct⟩ := endTest_stopped .done test
  unfold finishTest
  rw [test]
  dsimp only
  cases circuit : r.circuit with
  | none => exact ⟨_, rfl, stopped.unmoved fun c h => nomatch circuit.symm.trans h⟩
  | some c =>
    by_cases testing : p.cct[c].state = .testing
    · exact ⟨_, congrArg (respread e) (if_pos (by rw [cct]; exact testing)),
        stopped.moved _ circuit fun _ => ⟨rfl, rfl⟩⟩
    · refine ⟨_, congrArg (respread e) (if_neg (by rw [cct]; exact testing)), stopped.unmoved fun d h => ?_⟩
      cases circuit.symm.trans h
      exact testing

/-- R131: the abort of a test. -/
theorem abortWith_stops (respread : Env → Plant → Plant) (e : Env) (cause : AbortCause) {p : Plant}
    {r : TestRecord} (test : p.ogd.test = some r) :
    ∃ v, abortWith respread e cause p = respread e v ∧ TestStopped (.aborted cause) r p v := by
  obtain ⟨stopped, cct⟩ := endTest_stopped (.aborted cause) test
  unfold abortWith
  rw [test]
  dsimp only
  cases circuit : r.circuit with
  | none => exact ⟨_, rfl, stopped.unmoved fun c h => nomatch circuit.symm.trans h⟩
  | some c =>
    unfold afterAbort
    dsimp only
    by_cases testing : p.cct[c].state = .testing
    · rw [cct, if_pos testing]
      by_cases limit : cause = .limit
      · subst limit
        exact ⟨_, rfl, stopped.moved _ circuit fun _ => ⟨rfl, rfl⟩⟩
      · rw [if_neg limit]
        have settles : endState (.aborted cause) = .settling := by
          cases cause with
          | limit => exact absurd rfl limit
          | allotment => rfl
          | binding => rfl
        exact ⟨_, rfl, stopped.moved _ circuit fun _ => ⟨settles.symm, rfl⟩⟩
    · rw [cct, if_neg testing]
      refine ⟨_, rfl, stopped.unmoved fun d h => ?_⟩
      cases circuit.symm.trans h
      exact testing

theorem TestStopped.over {x : TestOutcome} {r : TestRecord} {p v : Plant} {t : State} (h : TestStopped x r p v)
    (again : t.plant = respread t.env v) :
    TestEnded x r t ∧ t.plant.alu = { p.alu with deduction := Option.none } ∧
      ((∀ j : Fin 6, j ≠ r.output → p.ogd.outputs[j].energized = false) → GrantsByKind t) ∧
      (∀ y, p.fct.held y = true → Held t y) ∧
      ∀ c : Fin 6, r.circuit = some c → p.cct[c].state = .testing → t.plant.cct[c].state = endState x := by
  have over' := respread_over h.none h.off h.result again
  refine ⟨over'.ended, by rw [over'.alu, h.alu], fun quiet => over'.grants fun j other => ?_,
    fun y held => over'.held y (by rw [h.fct]; exact held), fun c circuit testing => ?_⟩
  · rw [h.others j other]
    exact quiet j other
  · obtain ⟨state, onTime⟩ := h.state c circuit testing
    exact (over'.state c onTime).trans state

end Sys2Proof.Machine
end

section
/-! PROOFS. The ends of a test, one by one (R65, R66, R126, R130, R131). -/

namespace Sys2Proof.Machine

/-! ### DONE -/

/-- R130: what the end of the duration leaves. -/
theorem test_done {r : TestRecord} {s : State} (test : s.plant.ogd.test = some r) :
    ∃ t, exec .testDurationExpiry s = .next t ∧ t = { s with plant := t.plant } ∧
      TestEnded .done r t ∧ t.plant.alu = { s.plant.alu with deduction := none } ∧
      ((∀ j : Fin 6, j ≠ r.output → s.plant.ogd.outputs[j].energized = false) → GrantsByKind t) ∧
      ∀ c : Fin 6, r.circuit = some c → s.plant.cct[c].state = .testing →
        t.plant.cct[c].state = .settling := by
  obtain ⟨v, run, stopped⟩ := finishTest_stops s.env test
  obtain ⟨ended, alu, grants, -, state⟩ :=
    stopped.over (t := { s with plant := respread s.env v }) rfl
  exact ⟨_, plant_next run, rfl, ended, alu, grants, state⟩

/-! ### TRIPPED -/

/-- R130: what a trip of the output under test leaves of the circuit or of the free spare. -/
theorem test_tripped {x : Instr} {k : FaultKind} {r : TestRecord} {s : State}
    (test : s.plant.ogd.test = some r) (trips : Trips s r.output x k) (others : ∀ c, x ≠ .onTimeElapsed c)
    (on : s.plant.ogd.outputs[r.output].energized = true) :
    (∀ c : Fin 6, s.plant.ogd.outputs[r.output].role.circuit = some c →
      s.plant.ogd.trips[c].count + 1 < s.img.tripLimit →
      ∃ t, exec x s = .next t ∧ t = { s with plant := t.plant } ∧
        TestEnded (.tripped k) r t ∧ t.plant.cct[c].state = .tripped ∧ Held t .circuitTrip ∧
        ((∀ j : Fin 6, j ≠ r.output → s.plant.ogd.outputs[j].energized = false) →
          GrantsByKind t ∧ TripTaken k r.output s t ∧ TripHeldOff r.output c s t)) ∧
    (s.plant.ogd.outputs[r.output].role = .spareFree →
      ∃ t, exec x s = .next t ∧ t = { s with plant := t.plant } ∧
        TestEnded (.tripped k) r t ∧ t.plant.ogd.outputs[r.output].role = .bad ∧ Held t .circuitTrip ∧
        ((∀ j : Fin 6, j ≠ r.output → s.plant.ogd.outputs[j].energized = false) →
          GrantsByKind t ∧ TripTaken k r.output s t)) := by
  obtain ⟨q, run, ready, tested, cct, fct⟩ := exec_trips trips on (.inl others)
  have test' : q.ogd.test = some r := tested.trans test
  have under : q.ogd.underTest r.output = true := underTest_of q.ogd r test'
  refine ⟨fun c bound below => ⟨_, run, rfl, ?_⟩, fun free => ⟨_, run, rfl, ?_⟩⟩
  · have again := tripOutput_tested_below (e := s.env) (k := k) ready.on (by rw [ready.role]; exact bound) under
      (by rw [ready.trips]; exact below)
    obtain ⟨running, -, fct', row', -, -, -, row, -⟩ := tripHeld_items s.env r.output c k q
    have ended := endTest_tripped k (running.trans test')
    have over' := respread_over (t := { s with plant := tripOutput s.env r.output k q }) ended.none
      (by rw [ended.row]; exact row.off) (by rw [ended.row]) again
    have state := over'.state c (by rw [ended.cct, row']; rfl)
    rw [ended.cct, row'] at state
    refine ⟨over'.ended, state, over'.held _ ?_, fun quiet => ?_⟩
    · rw [ended.fct, fct']
      exact raise_held _ _
    · obtain ⟨grants, taken, -, held, -⟩ := tested_trip_below (k := k) ready test' bound below quiet rfl
      exact ⟨grants, taken, held⟩
  · have again := tripOutput_tested_spare (e := s.env) (k := k) ready.on (by rw [ready.role, free]; rfl) under
    obtain ⟨running, -, -, -, fct', row, bad, -⟩ := tripBad_items r.output k q
    have ended := endTest_tripped k (running.trans test')
    have over' := respread_over (t := { s with plant := tripOutput s.env r.output k q }) ended.none
      (by rw [ended.row]; exact row.off) (by rw [ended.row]) again
    refine ⟨over'.ended, over'.bad _ (by rw [ended.row]; exact bad), over'.held _ ?_, fun quiet => ?_⟩
    · rw [ended.fct, fct']
      exact raise_held _ _
    · obtain ⟨grants, taken, -⟩ := tested_trip_spare (k := k) ready test' free quiet rfl
      exact ⟨grants, taken⟩

/-- R126, R130: what a trip of the output under test leaves at the trip limit, with no further output on. -/
theorem test_tripped_out {x : Instr} {k : FaultKind} {r : TestRecord} {c : Fin 6} {s : State}
    (test : s.plant.ogd.test = some r) (trips : Trips s r.output x k) (others : ∀ c, x ≠ .onTimeElapsed c)
    (on : s.plant.ogd.outputs[r.output].energized = true)
    (bound : s.plant.ogd.outputs[r.output].role.circuit = some c)
    (reached : s.img.tripLimit = s.plant.ogd.trips[c].count + 1)
    (quiet : ∀ j : Fin 6, j ≠ r.output → s.plant.ogd.outputs[j].energized = false) :
    ∃ t, exec x s = .next t ∧ t = { s with plant := t.plant } ∧ TestEnded (.tripped k) r t ∧
      GrantsByKind t ∧ TripTaken k r.output s t ∧ TripFails r.output c s t := by
  obtain ⟨q, run, ready, tested, -, -⟩ := exec_trips trips on (.inl others)
  obtain ⟨grants, taken, ended, fails, -⟩ :=
    tested_trip_fails (k := k) ready (tested.trans test) bound reached.le quiet rfl
  exact ⟨_, run, rfl, ended, grants, taken, fails reached⟩

/-! ### ABORTED for LIMIT -/

/-- R131: the limit of the output under test opens. -/
theorem test_limit {r : TestRecord} {s : State} (test : s.plant.ogd.test = some r)
    (closed : s.plant.ogd.outputs[r.output].limit.level = some false)
    (circuit : r.circuit = s.plant.ogd.outputs[r.output].role.circuit) :
    ∃ t, exec (.limitFilteredChange r.output true) s = .next t ∧ t = { s with plant := t.plant } ∧
      TestEnded (.aborted .limit) r t ∧
      ((∀ j : Fin 6, j ≠ r.output → s.plant.ogd.outputs[j].energized = false) → GrantsByKind t) ∧
      ∀ c : Fin 6, r.circuit = some c → s.plant.cct[c].state = .testing →
        t.plant.cct[c].state = .inhibited ∧ Held t .limitOpen := by
  obtain ⟨u, hu⟩ : ∃ u, u = s.plant.updOut r.output fun y => { y with limit := ⟨some true, none⟩ } := ⟨_, rfl⟩
  have opens := limitChange_opens (e := s.env) closed
  rw [← hu] at opens
  have row : u.ogd.outputs[r.output] =
      { s.plant.ogd.outputs[r.output] with limit := ⟨some true, none⟩ } := by
    rw [hu]
    exact updOut_row _ _ _
  have others : ∀ j : Fin 6, j ≠ r.output → u.ogd.outputs[j] = s.plant.ogd.outputs[j] := fun j h => by
    rw [hu]
    exact updOut_other _ _ j _ h
  have cct : u.cct = s.plant.cct := by
    rw [hu]
    rfl
  have test' : u.ogd.test = some r := by
    rw [hu]
    exact test
  have under : u.ogd.underTest r.output = true := underTest_of u.ogd r test'
  -- the factor is raised for a circuit in service, and the test is aborted either way
  obtain ⟨w, opened, same, wcct, raised⟩ : ∃ w, limitOpened s.env r.output u = abortTest s.env .limit w ∧
      w.ogd = u.ogd ∧ w.cct = u.cct ∧ ∀ c : Fin 6, r.circuit = some c → u.cct[c].state ≠ .disabled →
        w.fct.held .limitOpen = true := by
    unfold limitOpened
    rw [show u.ogd.outputs[r.output].role.circuit = r.circuit by rw [row, circuit]]
    cases r.circuit with
    | none => exact ⟨u, if_pos under, rfl, rfl, fun c h => nomatch h⟩
    | some c =>
      refine ⟨_, if_pos under, rfl, rfl, fun d h enabled => ?_⟩
      cases h
      exact held_raiseIf_true u (decide_eq_true enabled) .limitOpen
  obtain ⟨v, aborted, stopped⟩ := abortWith_stops respread s.env .limit (p := w) (r := r) (by rw [same]; exact test')
  obtain ⟨ended, -, grants, held, state⟩ := stopped.over (t := { s with plant := respread s.env v }) rfl
  refine ⟨_, plant_next ((opens.trans opened).trans aborted), rfl, ended, fun quiet => grants fun j other => ?_,
    fun c hc testing => ?_⟩
  · rw [same, others j other]
    exact quiet j other
  · have testing' : u.cct[c].state = .testing := by
      rw [cct]
      exact testing
    exact ⟨state c hc (by rw [wcct]; exact testing'),
      held _ (raised c hc (by rw [testing']; decide))⟩

/-! ### ABORTED for ALLOTMENT at the entry to RETIRED -/

/-- R131: the entry to RETIRED ends a test, whatever its load, and grants nothing. -/
theorem test_retired {tag a : Byte} {r : TestRecord} {s : State} (hr : canReceive s = true)
    (follows : s.rct.membership.follows = true) (due : NoRestartDue s) (own : a.toNat = s.own)
    (test : s.plant.ogd.test = some r) (load : 0 < s.plant.ogd.outputs[r.output].rated) :
    ∃ t, exec (.retire 255 tag [a]) s = .next t ∧ TestEnded (.aborted .allotment) r t ∧ GrantsByKind t := by
  obtain ⟨retired, -, -⟩ := enterRetired_from (afterRequest s)
  have rated := (disableAll_still ((afterRequest s).raise .retired).plant).2
  have running : (disableAll ((afterRequest s).raise .retired).plant).ogd.test = some r :=
    (disableAll_test _).trans test
  refine ⟨_, receive_retire_self hr follows due own, ?_⟩
  generalize disableAll ((afterRequest s).raise .retired).plant = d at retired rated running
  generalize enterRetired (afterRequest s) = t at retired
  have loaded : d.ogd.outputs[r.output].rated ≠ 0 := by
    rw [rated]
    exact Nat.ne_of_gt load
  have deduction := retired.deduction fun u hu => by
    cases running.symm.trans hu
    exact loaded
  have ogd := retired.ogd
  rw [retiredTest_ended running loaded] at ogd
  obtain ⟨stopped, -⟩ := endTest_stopped (.aborted .allotment) running
  refine ⟨testEnded_of ?_ ?_ deduction ?_, deduction, ?_⟩
  · rw [ogd]
    exact stopped.none
  · rw [ogd]
    exact stopped.off
  · rw [ogd]
    exact stopped.result
  · refine Vector.ext fun i hi => ?_
    have zero := grantsByKind_zero t.env t.plant retired.division retired.own ⟨i, hi⟩
    refine Eq.trans ?_ zero.symm
    unfold grantsInForce
    rw [Vector.getElem_ofFn, retired.rows ⟨i, hi⟩]

end Sys2Proof.Machine
end

section
/-! PROOFS. A test that its spare's binding aborts (R126, R131), and one that a new allotment aborts or goes on
with (R49, R65, R131). -/

namespace Sys2Proof.Machine

/-! ### ABORTED for BINDING -/

/-- R126: what a circuit leaves that takes over the spare under test `d` from the plant `w`. -/
theorem takeSpare_binds (e : Env) (c : Fin 6) {d : Fin 6} {w : Plant} (lowest : w.ogd.lowestSpare = some d) :
    (takeSpare e c w).ogd.test = w.ogd.test ∧ (takeSpare e c w).alu = w.alu ∧ (takeSpare e c w).fct = w.fct ∧
      (takeSpare e c w).ogd.outputs[d] = { w.ogd.outputs[d] with role := .spareBound c, openCount := 0 } ∧
      (∀ j : Fin 6, j ≠ d → (takeSpare e c w).ogd.outputs[j] = w.ogd.outputs[j]) ∧
      ∀ j : Fin 6, (takeSpare e c w).cct[j].grant = w.cct[j].grant := by
  have run : takeSpare e c w = settleBound e c d (bindSpare c d w) := by
    unfold takeSpare
    rw [lowest]
  have ogd := settleBound_ogd e c d (bindSpare c d w)
  obtain ⟨fct, alu⟩ := settleBound_rest e c d (bindSpare c d w)
  have taken : (bindSpare c d w).ogd.outputs[d] =
      { w.ogd.outputs[d] with role := .spareBound c, openCount := 0 } := updOut_row w d _
  have others : ∀ j : Fin 6, j ≠ d → (bindSpare c d w).ogd.outputs[j] = w.ogd.outputs[j] :=
    fun j h => updOut_other w d j _ h
  have grant : ∀ j : Fin 6, (settleBound e c d (bindSpare c d w)).cct[j].grant = w.cct[j].grant := fun j => by
    have settled : (enterSettling e c (bindSpare c d w)).cct[j].grant = w.cct[j].grant :=
      updCct_grant (bindSpare c d w) c (settlingRow (fallbackInUse e (bindSpare c d w) c)) (fun _ => rfl) j
    unfold settleBound
    dsimp only
    split
    · exact (updCct_grant _ c inhibitedRow (fun _ => rfl) j).trans settled
    · exact settled
  rw [run]
  exact ⟨by rw [ogd]; rfl, alu, fct, by rw [ogd, taken], fun j h => by rw [ogd, others j h], grant⟩

/-- R59: a circuit that has failed takes part in no local spread, whatever its row holds else. -/
theorem spreadAgrees_failed {c : Fin 6} {p w : Plant} (failed : w.cct[c].state = .failed)
    (others : ∀ j : Fin 6, j ≠ c → w.cct[j].state = p.cct[j].state ∧ w.cct[j].need = p.cct[j].need ∧
      w.cct[j].cls = p.cct[j].cls ∧ w.cct[j].margin = p.cct[j].margin) :
    SpreadAgrees w (p.updCct c fun r => { r with state := .failed, need := 0 }) := by
  intro j
  unfold spreads localKey
  by_cases same : j = c
  · subst same
    rw [updCct_row, failed]
    exact ⟨rfl, fun h => nomatch h⟩
  · obtain ⟨state, need, cls, margin⟩ := others j same
    rw [updCct_other _ c j _ same, state, need, cls, margin]
    exact ⟨rfl, fun _ => ⟨rfl, rfl⟩⟩

/-- R126: the outputs and the alarm factor after the failure of an output at its trip limit. -/
theorem AtLimit.failedOutput_facts {k : FaultKind} {o c : Fin 6} {n : Nat} {p b : Plant} (h : AtLimit k o c n p b)
    (bound : p.ogd.outputs[o].role.circuit = some c) :
    (failedOutput o b).ogd.outputs[o] = { b.ogd.outputs[o] with role := .bad } ∧
      (∀ j : Fin 6, j ≠ o → (failedOutput o b).ogd.outputs[j] = p.ogd.outputs[j]) ∧
      (∀ j : Fin 6, (failedOutput o b).ogd.outputs[j].role = .spareFree ↔ p.ogd.outputs[j].role = .spareFree) ∧
      (failedOutput o b).fct.held .circuitTrip = true := by
  have notFree : b.ogd.outputs[o].role ≠ .spareFree := fun free => by
    rw [h.role] at free
    rw [free] at bound
    cases bound
  refine ⟨updOut_row b o _, fun j other => (updOut_other b o j _ other).trans (h.others j other), fun j => ?_, ?_⟩
  · rw [failedOutput_role o j notFree]
    by_cases same : j = o
    · rw [same, h.role]
    · rw [h.others j same]
  · rw [failedOutput_held, h.raised]
    rfl

/-- R126, R131: the test of the lowest free spare ends ABORTED for BINDING before the spare is taken, and the
grants are found again. -/
theorem clearSpare_aborts (e : Env) {r : TestRecord} {f : Plant} (test : f.ogd.test = some r)
    (lowest : f.ogd.lowestSpare = some r.output)
    (quiet : ∀ j : Fin 6, j ≠ r.output → f.ogd.outputs[j].energized = false) :
    ∃ v, TestStopped (.aborted .binding) r f v ∧ Respread e v (clearSpare respread e f) := by
  obtain ⟨v, aborted, stopped⟩ := abortWith_stops respread e .binding test
  have cleared : clearSpare respread e f = respread e v := by
    unfold clearSpare
    rw [lowest]
    exact (if_pos (underTest_of f.ogd r test)).trans aborted
  rw [cleared]
  refine ⟨v, stopped, respread_quiet e fun j => ?_⟩
  by_cases same : j = r.output
  · rw [same]
    exact stopped.off
  · rw [stopped.others j same]
    exact quiet j same

/-- R126, R131: a circuit at its trip limit takes the free spare whose test is in progress. -/
theorem test_bound {x : Instr} {k : FaultKind} {r : TestRecord} {o c : Fin 6} {s : State}
    (test : s.plant.ogd.test = some r) (free : r.circuit = none) (apart : r.output ≠ o) (due : TripDue s o c x k)
    (bound : s.plant.ogd.outputs[o].role.circuit = some c)
    (reached : s.img.tripLimit = s.plant.ogd.trips[c].count + 1)
    (spare : s.plant.ogd.outputs[r.output].role = .spareFree)
    (lowest : ∀ j : Fin 6, j < r.output → s.plant.ogd.outputs[j].role ≠ .spareFree)
    (quiet : ∀ j : Fin 6, j ≠ o → j ≠ r.output → s.plant.ogd.outputs[j].energized = false) :
    ∃ t, exec x s = .next t ∧ t = { s with plant := t.plant } ∧
      TestEnded (.aborted .binding) r t ∧ TripTaken k o s t ∧
      t.plant.ogd.outputs[o].role = .bad ∧ t.plant.ogd.outputs[r.output].role = .spareBound c ∧
      grantsInForce t.plant =
        grantsByKind t.env (s.plant.updCct c fun r => { r with state := .failed, need := 0 }) := by
  have under : ∀ g : Ogd, g.test = some r → g.underTest o = false := fun g h =>
    (underTest_some h o).trans (decide_eq_false apart)
  obtain ⟨q, run, ready, tested, rows, -, -⟩ := exec_tripDue due (under _ test)
  have test' : q.ogd.test = some r := tested.trans test
  have bound' : q.ogd.outputs[o].role.circuit = some c := by
    rw [ready.role]
    exact bound
  have trip := tripOutput_atLimit (e := s.env) (k := k) ready.on bound' (by rw [ready.trips]; exact reached.le)
  rw [under _ test', if_neg Bool.false_ne_true] at trip
  -- the plant in which the output is BAD and the circuit FAILED
  obtain ⟨running, alu, -, -, rowsOfLimit, -, -, -, -, -⟩ := tripLimit_items o c k q
  have limit := ready.atLimit (c := c) k
  generalize tripLimit o c k q = b at *
  obtain ⟨bad, others, role, raised⟩ := limit.failedOutput_facts bound
  have failing : failWith respread s.env c o b =
      takeSpare s.env c (clearSpare respread s.env (failedOutput o b)) := rfl
  have fTest : (failedOutput o b).ogd.test = some r := running.trans test'
  have fRows : (failedOutput o b).cct = b.cct := rfl
  have fAlu : (failedOutput o b).alu = b.alu := rfl
  generalize failedOutput o b = f at *
  have spares : ∀ g : Ogd, (∀ j : Fin 6, g.outputs[j].role = f.ogd.outputs[j].role) →
      g.lowestSpare = some r.output := fun g same =>
    lowestSpare_eq_some (by rw [same]; exact (role _).mpr spare) fun j h => by
      rw [same]
      exact fun h' => lowest j h ((role j).mp h')
  -- the test of the spare is aborted, and the grants are found again without the failed circuit
  obtain ⟨v, stopped, again⟩ := clearSpare_aborts s.env fTest (spares f.ogd fun _ => rfl) fun j same => by
    by_cases tripped : j = o
    · rw [tripped, bad]
      exact limit.off
    · rw [others j tripped]
      exact quiet j tripped same
  rw [trip, failing] at run
  generalize clearSpare respread s.env f = w at again run
  have vRows : ∀ j : Fin 6, v.cct[j] = b.cct[j] := fun j => by
    rw [stopped.circuits j (by rw [free]; exact nofun), fRows]
  have wRole : ∀ j : Fin 6, w.ogd.outputs[j].role = f.ogd.outputs[j].role := fun j => by
    rw [again.ogd]
    by_cases same : j = r.output
    · rw [same, stopped.role]
    · rw [stopped.others j same]
  obtain ⟨none', alu', fct', taken, kept, grant⟩ := takeSpare_binds s.env c (spares w.ogd wRole)
  have rowO : (takeSpare s.env c w).ogd.outputs[o] = { b.ogd.outputs[o] with role := .bad } := by
    rw [kept o (Ne.symm apart), again.ogd, stopped.others o (Ne.symm apart), bad]
  refine ⟨_, run, rfl, testEnded_of ?_ ?_ ?_ ?_, ⟨?_, ?_, ?_, ?_, ?_⟩, ?_, ?_, ?_⟩
  · show (takeSpare s.env c w).ogd.test = none
    rw [none', again.ogd, stopped.none]
  · show (takeSpare s.env c w).ogd.outputs[r.output].energized = false
    rw [taken, again.ogd]
    exact stopped.off
  · show (takeSpare s.env c w).alu.deduction = none
    rw [alu', again.alu]
  · show (takeSpare s.env c w).ogd.outputs[r.output].health.lastTest = _
    rw [taken, again.ogd]
    exact stopped.result
  · show (takeSpare s.env c w).ogd.outputs[o].energized = false
    rw [rowO]
    exact limit.off
  · show (takeSpare s.env c w).ogd.outputs[o].openCount = 0
    rw [rowO]
    exact limit.openCount
  · show (takeSpare s.env c w).ogd.outputs[o].health.tripTotal = _
    rw [rowO]
    exact limit.total
  · show (takeSpare s.env c w).ogd.outputs[o].health.lastFault = some k
    rw [rowO]
    exact limit.fault
  · show (takeSpare s.env c w).fct.held .circuitTrip = true
    rw [fct', again.fct, stopped.fct]
    exact raised
  · show (takeSpare s.env c w).ogd.outputs[o].role = .bad
    rw [rowO]
  · show (takeSpare s.env c w).ogd.outputs[r.output].role = .spareBound c
    rw [taken]
  · show grantsInForce (takeSpare s.env c w) = grantsByKind s.env _
    have force : grantsInForce (takeSpare s.env c w) = grantsInForce w := by
      refine Vector.ext fun i hi => ?_
      unfold grantsInForce
      rw [Vector.getElem_ofFn, Vector.getElem_ofFn, grant]
    have alu'' : w.alu = { s.plant.alu with deduction := none } := by
      rw [again.alu, stopped.alu, fAlu, alu, ready.alu]
    rw [force, again.grants]
    refine grantsByKind_agree s.env s.env _ _ rfl (spreadAgrees_failed ?_ fun j other => ?_)
      (by rw [alu'']; rfl) (by rw [alu'']; rfl)
    · rw [(again.kept c).1, vRows, limit.failed]
    · obtain ⟨g, row⟩ := again.row j
      rw [row, vRows, rowsOfLimit j other, rows j other]
      exact ⟨rfl, rfl, rfl, rfl⟩

end Sys2Proof.Machine
end

section
/-! PROOFS. A test in progress at a new allotment (R49, R65, R131). -/

namespace Sys2Proof.Machine

/-! ### The commands that bring a new allotment -/

/-- The plant of `t` is what a computation leaves of the outputs and the circuits of `s` (R49). -/
def Reallotted (s t : State) : Prop :=
  ∃ (e : Env) (round : Option RoundNo) (swap : Bool) (x : Computation) (p : Plant),
    e.own = s.own ∧ t.own = s.own ∧ p.ogd = s.plant.ogd ∧ p.cct = s.plant.cct ∧
      t.plant.ogd = (compute e round swap x p).ogd ∧ t.plant.cct = (compute e round swap x p).cct ∧
      t.plant.alu = (compute e round swap x p).alu

theorem adopt_reallotted (kind : AdoptKind) (round : RoundNo) (opener : Nat) (s : State) :
    Reallotted s (adopt kind round opener s) := by
  obtain ⟨-, sul, -⟩ := adopt_samePeriphery kind round opener s
  obtain ⟨-, sul', -, plant'⟩ := atSwap_blocks kind s
  have own : ∀ t : State, t.sul = s.sul → t.own = s.own := fun t h => by
    unfold State.own
    rw [h]
  have plant := adopt_plant kind round opener s
  have swapped := swap_plant kind round (degradedAlready s kind round) (atSwap kind s)
  dsimp only at swapped
  rw [swapped] at plant
  refine ⟨_, _, true, _, _, own (atSwap kind s) sul', own _ sul, ?_, ?_, by rw [plant]; rfl, by rw [plant]; rfl,
    by rw [plant]; rfl⟩
  · rw [plant']
    rfl
  · rw [plant']
    rfl

theorem Reallotted.same {s t u v : State} (h : Reallotted s t) (own : u.own = s.own) (ogd : u.plant.ogd = s.plant.ogd)
    (cct : u.plant.cct = s.plant.cct) (own' : v.own = t.own) (ogd' : v.plant.ogd = t.plant.ogd)
    (cct' : v.plant.cct = t.plant.cct) (alu' : v.plant.alu = t.plant.alu) : Reallotted u v := by
  obtain ⟨e, round, swap, x, p, h1, h2, h3, h4, h5, h6, h7⟩ := h
  exact ⟨e, round, swap, x, p, h1.trans own.symm, own'.trans (h2.trans own.symm), h3.trans ogd.symm,
    h4.trans cct.symm, ogd'.trans h5, cct'.trans h6, alu'.trans h7⟩

theorem conflict_reallotted {s : State} (complete : s.rct.degraded = false) (member : s.rct.membership = .member) :
    Reallotted s (conflict s) := by
  rw [conflict_of_member complete member]
  exact ⟨s.env, s.plant.alu.round, false, .degraded false, conflictRaised s.plant, rfl, rfl, rfl, rfl, rfl, rfl, rfl⟩

/-- R49: each of the commands of `Reallots` computes an allotment. -/
theorem Reallots.reallotted {s : State} {x : Instr} (h : Reallots s x) :
    ∃ t, exec x s = .next t ∧ Reallotted s t := by
  cases h with
  | openNewer f i hr hf ha hn ho newer =>
    exact ⟨_, exec_openReceived_newer hr hf ha hn ho newer,
      (adopt_reallotted (.received f) f.round f.opener (afterStation i false s)).same rfl rfl rfl rfl rfl rfl rfl⟩
  | bidNewer b i hr hf hw ha hn hb ho newer =>
    obtain ⟨sender, -, opener, -⟩ := bid_addresses b hw
    have offered : exec (.bidReceived b) s =
        .next (acceptBid b (adopt .late b.round b.opener (afterStation i true s))) := by
      rw [exec_bidReceived hr hw ha, bidReceived_newer b (afterStation i true s) hf ⟨sender, hn⟩ ⟨opener, hb⟩ newer,
        offerBid_adopted (s := afterStation i true s) hf (decide_eq_true ⟨sender, hn⟩)
          (decide_eq_true ⟨opener, hb⟩) ha, if_neg (show ¬b.sender = (afterStation i true s).own from ho)]
    exact ⟨_, offered,
      (adopt_reallotted .late b.round b.opener (afterStation i true s)).same rfl rfl rfl rfl rfl rfl rfl⟩
  | ownOpen f hf sending =>
    exact ⟨_, congrArg Host.Outcome.next (openCheckEnd_passed sending),
      (adopt_reallotted (.own f) f.round s.own (openPassed s)).same rfl rfl rfl rfl rfl rfl rfl⟩
  | openConflict f i hr hm hd ha hn ho round other =>
    have follows : s.rct.membership.follows = true := by
      rw [hm]
      rfl
    obtain ⟨isBid, run⟩ := exec_conflict (x := .openReceived f) (i := i) hr follows (by omega)
      (.inl ⟨f, rfl, ha, ho, round, other⟩)
    exact ⟨_, run, (conflict_reallotted (s := afterStation i isBid s) hd hm).same rfl rfl rfl rfl rfl rfl rfl⟩
  | bidConflict b i hr hm hd hw ha hn hb round other =>
    have follows : s.rct.membership.follows = true := by
      rw [hm]
      rfl
    obtain ⟨isBid, run⟩ := exec_conflict (x := .bidReceived b) (i := i) hr follows (by omega)
      (.inr ⟨b, rfl, hw, ha, hb, round, other⟩)
    exact ⟨_, run, (conflict_reallotted (s := afterStation i isBid s) hd hm).same rfl rfl rfl rfl rfl rfl rfl⟩

/-! ### The computation with a test in progress -/

/-- Grants handed over cut nothing where no output is on but the one under test. -/
theorem handGrantsWith_still (trip : Env → Fin 6 → FaultKind → Plant → Plant) (e : Env) (g : Vector Nat 6)
    {p : Plant} (still : ∀ o : Fin 6, p.ogd.outputs[o].energized = false ∨ p.ogd.underTest o = true) :
    handGrantsWith trip e g p = { p with cct := mapRows p.cct fun c r => grantedRow e p c g[c] r } := by
  unfold handGrantsWith
  refine foldl_still _ _ (fun c => ?_) _
  split
  · unfold endPeriodWith
    split
    · rfl
    · rename_i o _
      rcases still o with off | under
      · have off' : p.ogd.outputs[o].energized = false := off
        simp only [off', Bool.false_and, Bool.false_eq_true, if_false]
      · have under' : p.ogd.underTest o = true := under
        dsimp only
        rw [under', Bool.not_true, Bool.and_false, if_neg Bool.false_ne_true]
  · rfl

/-- What the hand-over of grants, and the update of the starved counts after it, leaves where nothing is cut. -/
structure HandedStill (p : Plant) (g : Vector Nat 6) (q : Plant) : Prop where
  ogd : q.ogd = p.ogd
  alu : q.alu = p.alu
  state : ∀ c : Fin 6, q.cct[c].state = p.cct[c].state
  grants : grantsInForce q = g

theorem handedStill (e : Env) (swap : Bool) (g : Vector Nat 6) {p : Plant}
    (still : ∀ o : Fin 6, p.ogd.outputs[o].energized = false ∨ p.ogd.underTest o = true) :
    HandedStill p g (if swap then starvedUpdate (handGrants e g p) else handGrants e g p) := by
  have run : handGrants e g p = _ := handGrantsWith_still tripOutput e g still
  have row : ∀ c : Fin 6, (handGrants e g p).cct[c] = grantedRow e p c g[c] p.cct[c] := fun c => by
    rw [run]
    exact mapRows_get _ _ c
  have starved : ∀ c : Fin 6, (starvedUpdate (handGrants e g p)).cct[c] = starvedRow (handGrants e g p).cct[c] :=
    fun c => mapRows_get _ _ c
  have force : ∀ q : Plant, (∀ c : Fin 6, q.cct[c].grant = g[c]) → grantsInForce q = g := fun q h =>
    Vector.ext fun i hi => by
      unfold grantsInForce
      rw [Vector.getElem_ofFn]
      exact h ⟨i, hi⟩
  have ogd : (handGrants e g p).ogd = p.ogd := by rw [run]
  have alu : (handGrants e g p).alu = p.alu := by rw [run]
  cases swap with
  | false =>
    rw [if_neg Bool.false_ne_true]
    refine ⟨ogd, alu, fun c => ?_, force _ fun c => ?_⟩
    · rw [row c]
      rfl
    · rw [row c]
      rfl
  | true =>
    refine ⟨ogd, alu, fun c => ?_, force _ fun c => ?_⟩
    · rw [if_pos rfl, starved c, row c]
      rfl
    · rw [if_pos rfl, starved c, row c]
      rfl

section
variable {e : Env} {round : Option RoundNo} {swap : Bool} {x : Computation} {p : Plant} {r : TestRecord}

/-- R65: the test that still fits goes on, and its load is deducted from the new grants. -/
theorem compute_test_goesOn (test : p.ogd.test = some r)
    (quiet : ∀ j : Fin 6, j ≠ r.output → p.ogd.outputs[j].energized = false)
    (fits : p.ogd.outputs[r.output].rated ≤ (allotTable e round x).own) :
    let q := { p with alu := { allotTable e round x with
      deduction := some (r.output, p.ogd.outputs[r.output].rated) } }
    HandedStill q (deductGrants e q r.circuit ((allotTable e round x).own - p.ogd.outputs[r.output].rated)
      (grantsByKind e { p with alu := allotTable e round x })) (compute e round swap x p) := by
  intro q
  rw [compute_fits test fits]
  refine handedStill e swap _ (p := q) fun o => ?_
  by_cases same : o = r.output
  · exact .inr (same ▸ underTest_of p.ogd r test)
  · exact .inl (quiet o same)

/-- R66, R131: a test without room ends, and the grants are found again. -/
theorem compute_test_ends (test : p.ogd.test = some r)
    (quiet : ∀ j : Fin 6, j ≠ r.output → p.ogd.outputs[j].energized = false)
    (short : (allotTable e round x).own < p.ogd.outputs[r.output].rated) :
    ∃ w v, w.ogd = p.ogd ∧ w.alu = allotTable e round x ∧ (∀ c : Fin 6, w.cct[c].state = p.cct[c].state) ∧
      TestStopped (.aborted .allotment) r w v ∧ Respread e v (compute e round swap x p) := by
  have handed := handedStill e swap (grantsByKind e { p with alu := allotTable e round x })
    (p := { p with alu := allotTable e round x }) fun o => by
      by_cases same : o = r.output
      · exact .inr (same ▸ underTest_of p.ogd r test)
      · exact .inl (quiet o same)
  have run := compute_short (swap := swap) test short
  dsimp only at run
  generalize (if swap then starvedUpdate _ else _) = w at handed run
  obtain ⟨v, aborted, stopped⟩ := abortWith_stops respread e .allotment (p := w) (r := r) (by
    rw [handed.ogd]
    exact test)
  have off : ∀ j : Fin 6, v.ogd.outputs[j].energized = false := fun j => by
    by_cases same : j = r.output
    · rw [same]
      exact stopped.off
    · rw [stopped.others j same, handed.ogd]
      exact quiet j same
  refine ⟨w, v, handed.ogd, handed.alu, handed.state, stopped, ?_⟩
  rw [run, show abortTest e .allotment w = _ from aborted]
  exact respread_quiet e off

end

/-- The grants by kind read the address, the allotment and the circuits. -/
theorem grantsByKind_same {e f : Env} {p q : Plant} (address : e.own = f.own) (cct : p.cct = q.cct)
    (division : p.alu.division = q.alu.division) (own : p.alu.own = q.alu.own) :
    grantsByKind e p = grantsByKind f q := by
  refine grantsByKind_agree e f p q address (fun c => ?_) division own
  unfold spreads localKey
  rw [cct]
  exact ⟨rfl, fun _ => ⟨rfl, rfl⟩⟩

/-- R49, R65, R131: a new allotment ends the test that it has no room for, and deducts the one that fits. -/
theorem test_reallotted {x : Instr} {r : TestRecord} {s : State} (h : Reallots s x)
    (test : s.plant.ogd.test = some r)
    (quiet : ∀ j : Fin 6, j ≠ r.output → s.plant.ogd.outputs[j].energized = false) :
    ∃ t, exec x s = .next t ∧
      (t.plant.alu.own < s.plant.ogd.outputs[r.output].rated →
        TestEnded (.aborted .allotment) r t ∧ GrantsByKind t ∧
        ∀ c : Fin 6, r.circuit = some c → s.plant.cct[c].state = .testing →
          t.plant.cct[c].state = .settling) ∧
      (s.plant.ogd.outputs[r.output].rated ≤ t.plant.alu.own →
        t.plant.ogd.test = some r ∧
        t.plant.ogd.outputs[r.output] = s.plant.ogd.outputs[r.output] ∧
        t.plant.alu.deduction = some (r.output, s.plant.ogd.outputs[r.output].rated) ∧
        Deducted (deductBefore s.own { s.plant with alu := t.plant.alu }) r.circuit
          (t.plant.alu.own - s.plant.ogd.outputs[r.output].rated)
          (grantsByKind t.env { s.plant with alu := t.plant.alu }) (grantsInForce t.plant)) := by
  obtain ⟨t, run, e, round, swap, y, p, address, address', ogd, cct, tOgd, tCct, tAlu⟩ := h.reallotted
  have force : grantsInForce t.plant = grantsInForce (compute e round swap y p) := by
    unfold grantsInForce
    rw [tCct]
  have own : t.env.own = e.own := address'.trans address.symm
  have table := (compute_reach e round swap y p).table
  have amount : t.plant.alu.own = (allotTable e round y).own := by
    rw [tAlu]
    show ({ (compute e round swap y p).alu with deduction := none } : Alu).own = _
    rw [table]
  rw [← ogd] at test quiet ⊢
  refine ⟨t, run, fun short => ?_, fun fits => ?_⟩
  · rw [amount] at short
    obtain ⟨w, v, -, -, state, stopped, again⟩ := compute_test_ends (swap := swap) test quiet short
    have deduction : t.plant.alu.deduction = none := by rw [tAlu, again.alu]
    refine ⟨testEnded_of ?_ ?_ deduction ?_, ⟨deduction, ?_⟩, fun c circuit testing => ?_⟩
    · rw [tOgd, again.ogd]
      exact stopped.none
    · rw [tOgd, again.ogd]
      exact stopped.off
    · rw [tOgd, again.ogd]
      exact stopped.result
    · rw [force, again.grants]
      exact grantsByKind_same own.symm tCct.symm (by rw [tAlu]) (by rw [tAlu])
    · rw [tCct, (again.kept c).1]
      exact (stopped.state c circuit (by rw [state, cct]; exact testing)).1
  · rw [amount] at fits
    have handed := compute_test_goesOn (swap := swap) test quiet fits
    have alu : t.plant.alu = { allotTable e round y with
        deduction := some (r.output, p.ogd.outputs[r.output].rated) } := tAlu.trans handed.alu
    have grants : grantsByKind t.env { s.plant with alu := t.plant.alu } =
        grantsByKind e { p with alu := allotTable e round y } :=
      grantsByKind_same own cct.symm (by rw [alu]) (by rw [alu])
    refine ⟨?_, ?_, by rw [alu], ?_⟩
    · rw [tOgd, handed.ogd]
      exact test
    · rw [tOgd, handed.ogd]
    · rw [force, handed.grants, grants, amount]
      refine (deductGrants_deducted e _ _ _ _).reordered fun a b _ _ later => ?_
      rw [address]
      exact (deductBefore_congr (by rw [alu]) (by rw [cct]) (by rw [cct])).mpr later

/-- Settles O52. -/
theorem testEndsDone : Obligations.TestEndsDone := by
  unfold Obligations.TestEndsDone
  exact ⟨fun _ _ test => test_done test, fun _ _ _ _ test trips others on => test_tripped test trips others on,
    fun _ _ test closed circuit => test_limit test closed circuit,
    fun _ _ _ _ hr follows due own test load => test_retired hr follows due own test load,
    fun _ _ _ h test quiet => test_reallotted h test quiet,
    fun _ _ _ _ _ test trips others on bound reached quiet =>
      test_tripped_out test trips others on bound reached quiet,
    fun _ _ _ _ _ _ test free apart due bound reached spare lowest quiet =>
      test_bound test free apart due bound reached spare lowest quiet⟩

end Sys2Proof.Machine
end

section
/-! PROOFS. The fields of the configuration image and its judgement in stages (R188, R189). -/

namespace Sys2Proof.Machine

/-! ### The fields -/

theorem byteAt_of_getElem? {l : List Byte} {i : Nat} {b : Byte} (h : l[i]? = some b) : byteAt l i = b.toNat := by
  unfold byteAt
  rw [List.getD_eq_getElem?_getD, h]
  rfl

theorem byteOf_byteAt (l : List Byte) (i : Nat) : (byteOf (byteAt l i)).toNat = byteAt l i :=
  (byteOf_toNat _).trans (Nat.mod_eq_of_lt (byteAt_lt l i))

theorem imageFields (l : List Byte) : ImageFields l (readImage l) where
  bytes _ _ h := byteAt_of_getElem? h
  header := ⟨rfl, rfl⟩
  feeder := ⟨rfl, rfl⟩
  reserves := ⟨rfl, rfl, rfl⟩
  heat := ⟨rfl, rfl, rfl, rfl⟩
  outputs o := by
    show (Vector.ofFn _)[o.val] = _
    rw [Vector.getElem_ofFn]
    have next : 19 + 2 * o.val = 18 + 2 * o.val + 1 := by omega
    rw [next]
  knownBad := byteOf_byteAt l 30
  circuits c := by
    show (Vector.ofFn _)[c.val] = _
    rw [Vector.getElem_ofFn]
    rfl
  channels := ⟨byteOf_byteAt l 97, rfl⟩
  leakage := rfl
  glitch := ⟨rfl, rfl, rfl⟩
  trips := ⟨rfl, rfl, rfl⟩
  window := ⟨rfl, rfl⟩
  mask := by
    have h0 := byteAt_lt l 111
    have h1 := byteAt_lt l 112
    have h2 := byteAt_lt l 113
    show (BitVec.ofNat 24 (byteAt l 111 + 256 * (byteAt l 112 + 256 * byteAt l 113))).toNat = _
    rw [BitVec.toNat_ofNat]
    omega
  checksum := rfl

/-! ### Stages 1 to 4 -/

theorem inRange_iff (lo x hi : Int) : inRange lo x hi = true ↔ lo ≤ x ∧ x ≤ hi := decide_eq_true_iff

theorem reserveOk_iff (m : Image) (used : Prop) [Decidable used] (r : Nat × Nat) :
    reserveOk m (decide used) r = true ↔ ReserveEntry m used r := by
  unfold reserveOk ReserveEntry
  by_cases h : used
  · rw [decide_eq_true h, if_pos rfl, Bool.and_eq_true]
    simp only [inRange_iff, h, not_true_eq_false, false_imp_iff, and_true, true_imp_iff]
    omega
  · rw [decide_eq_false h, if_neg Bool.false_ne_true, decide_eq_true_iff]
    simp [h]

theorem sharedPasses_iff (l : List Byte) : sharedPasses l = true ↔ SharedStages l (readImage l) := by
  have checksum : wordAt l 114 = (readImage l).checksum := rfl
  unfold sharedPasses formatOk lengthOk checksumOk Config.imageLength
  rw [checksum]
  generalize readImage l = m
  unfold sharedOk reserveSum
  simp only [Bool.and_eq_true, reserveOk_iff, inRange_iff, Bool.or_eq_true, decide_eq_true_eq]
  constructor
  · rintro ⟨⟨⟨format, length⟩, checksum⟩, ⟨⟨⟨⟨⟨⟨⟨⟨⟨⟨budget, stations⟩, count⟩, reserve1⟩, reserve2⟩, differ⟩, sum⟩,
      pourPoint⟩, lowMargin⟩, period⟩, stale⟩⟩
    exact ⟨format, length, checksum, by omega, by omega, by omega, reserve1, reserve2,
      fun two => differ.resolve_left (by omega), sum, pourPoint, by omega, by omega, by omega⟩
  · intro h
    obtain ⟨format, length, checksum, budget, stations, count, reserve1, reserve2, differ, sum, pourPoint,
      lowMargin, period, stale⟩ := h
    exact ⟨⟨⟨format, length⟩, checksum⟩, ⟨⟨⟨⟨⟨⟨⟨⟨⟨⟨by omega, by omega⟩, by omega⟩, reserve1⟩, reserve2⟩,
      (Nat.lt_or_ge m.reserveCount 2).imp id differ⟩, sum⟩, pourPoint⟩, by omega⟩, by omega⟩, by omega⟩⟩

/-! ### Stage 5 -/

theorem isConfigured_iff (m : Image) (c : Fin 6) : isConfigured m c = true ↔ m.circuits[c].configured = 1 :=
  decide_eq_true_iff

theorem sensorOk_iff (m : Image) (b : Nat) :
    sensorOk m b = true ↔ ∃ t : Fin 8, b = t.val + 1 ∧ m.channels.getLsbD t.val = true := by
  unfold sensorOk isEnabled bitOf
  cases h : channelOf b with
  | none =>
    refine iff_of_false Bool.false_ne_true fun ⟨t, ht, _⟩ => ?_
    rw [(channelOf_eq_some_iff b t).mpr ht] at h
    cases h
  | some t =>
    refine ⟨fun on => ⟨t, (channelOf_eq_some_iff b t).mp h, on⟩, fun ⟨u, hu, on⟩ => ?_⟩
    cases h.symm.trans ((channelOf_eq_some_iff b u).mpr hu)
    exact on

theorem circuitOk_iff (m : Image) (c : Fin 6) : circuitOk m c = true ↔ CircuitStage m m.circuits[c] := by
  unfold circuitOk
  generalize m.circuits[c] = k
  have output : (match outputOf k.primary with
      | some o => decide (m.outputs[o].1 = 1) && decide (k.fallback ≤ m.outputs[o].2)
      | none => false) = true ↔
      ∃ o : Fin 6, k.primary = o.val + 1 ∧ m.outputs[o].1 = 1 ∧ k.fallback ≤ m.outputs[o].2 := by
    cases h : outputOf k.primary with
    | none =>
      refine iff_of_false Bool.false_ne_true fun ⟨o, ho, _⟩ => ?_
      rw [(outputOf_eq_some_iff _ o).mpr ho] at h
      cases h
    | some o =>
      rw [Bool.and_eq_true, decide_eq_true_iff, decide_eq_true_iff]
      refine ⟨fun good => ⟨o, (outputOf_eq_some_iff _ o).mp h, good⟩, fun ⟨u, hu, good⟩ => ?_⟩
      cases h.symm.trans ((outputOf_eq_some_iff _ u).mpr hu)
      exact good
  refine Bool.and_eq_true_iff.trans ((and_congr_right fun _ => output).trans ?_)
  simp only [Bool.and_eq_true, inRange_iff, sensorOk_iff, Bool.or_eq_true, decide_eq_true_eq]
  constructor
  · rintro ⟨⟨⟨⟨⟨⟨flowing, standstill⟩, band⟩, fallback⟩, primary⟩, backup⟩, output⟩
    exact ⟨⟨flowing, standstill⟩, band, ⟨by omega, output⟩, primary, backup.imp id And.symm⟩
  · intro h
    obtain ⟨⟨flowing, standstill⟩, band, ⟨fallback, output⟩, primary, backup⟩ := h
    exact ⟨⟨⟨⟨⟨⟨flowing, standstill⟩, band⟩, by omega⟩, primary⟩, backup.imp id And.symm⟩, output⟩

/-- A filter of the circuits holds one circuit where exactly one fits. -/
theorem filter_length_eq_one_iff (fits : Fin 6 → Bool) :
    (sixIds.filter fits).length = 1 ↔ ∃ c : Fin 6, ∀ j : Fin 6, fits j = true ↔ j = c := by
  have nodup : (sixIds.filter fits).Nodup := List.Nodup.filter _ (by decide)
  have mem : ∀ j : Fin 6, j ∈ sixIds.filter fits ↔ fits j = true := fun j => by
    simp [mem_sixIds]
  constructor
  · intro one
    obtain ⟨c, only⟩ := List.length_eq_one_iff.mp one
    refine ⟨c, fun j => ?_⟩
    rw [← mem j, only, List.mem_singleton]
  · rintro ⟨c, only⟩
    refine List.length_eq_one_iff.mpr ⟨c, ?_⟩
    refine List.perm_singleton.mp ((List.perm_ext_iff_of_nodup nodup (List.nodup_singleton c)).mpr fun j => ?_)
    rw [mem j, only j, List.mem_singleton]

theorem primaryOnce_iff (m : Image) (o : Fin 6) : primaryOnce m o = true ↔
    (m.outputs[o].1 = 1 → ∃ c : Fin 6, ∀ j : Fin 6,
      m.circuits[j].configured = 1 ∧ m.circuits[j].primary = o.val + 1 ↔ j = c) := by
  unfold primaryOnce
  rw [Bool.or_eq_true, decide_eq_true_iff, decide_eq_true_iff, filter_length_eq_one_iff, ← imp_iff_not_or]
  have each : ∀ j : Fin 6, (isConfigured m j && decide (primaryOf m j = some o)) = true ↔
      m.circuits[j].configured = 1 ∧ m.circuits[j].primary = o.val + 1 := fun j => by
    unfold primaryOf
    rw [Bool.and_eq_true, isConfigured_iff, decide_eq_true_iff, outputOf_eq_some_iff]
  simp only [each]

theorem byte_below_64_iff (b : Byte) : b.toNat < 64 ↔ b.getLsbD 6 = false ∧ b.getLsbD 7 = false := by
  revert b
  decide

theorem mask_unnamed_iff (f : FactorSet) : f &&& 0xFC0000 = 0 ↔ ∀ i, 18 ≤ i → f.getLsbD i = false := by
  have bit : ∀ i, (0xFC0000 : FactorSet).getLsbD i = decide (18 ≤ i ∧ i < 24) := fun i => by
    by_cases inside : i < 24
    · interval_cases i <;> rfl
    · rw [BitVec.getLsbD_of_ge _ i (Nat.not_lt.mp inside), decide_eq_false fun h => inside h.2]
  constructor
  · intro none' i high
    by_cases inside : i < 24
    · have := congrArg (fun x : FactorSet => x.getLsbD i) none'
      rw [BitVec.getLsbD_and, bit, decide_eq_true ⟨high, inside⟩, Bool.and_true] at this
      exact this.trans BitVec.getLsbD_zero
    · exact BitVec.getLsbD_of_ge _ i (Nat.not_lt.mp inside)
  · intro low
    refine BitVec.eq_of_getLsbD_eq fun i _ => ?_
    refine Eq.trans ?_ BitVec.getLsbD_zero.symm
    rw [BitVec.getLsbD_and, bit]
    by_cases high : 18 ≤ i
    · rw [low i high, Bool.false_and]
    · rw [decide_eq_false fun h => high h.1, Bool.and_false]

theorem localOk_iff (m : Image) : localOk m = true ↔ LocalStage m := by
  unfold localOk
  simp only [Bool.and_eq_true, List.all_eq_true, mem_sixIds, true_imp_iff, primaryOnce_iff, inRange_iff,
    Bool.or_eq_true, Bool.not_eq_true', circuitOk_iff, decide_eq_true_eq, byte_below_64_iff, mask_unnamed_iff,
    outputOk]
  constructor
  · rintro ⟨⟨⟨⟨⟨⟨⟨⟨⟨⟨⟨⟨⟨⟨⟨outputs, knownBad⟩, configured⟩, circuits⟩, primaries⟩, rate⟩, leakage⟩, glitchLeakage⟩,
      glitchLimit⟩, glitchFlow⟩, holdOff⟩, tripLimit⟩, tripClear⟩, window⟩, flowWired⟩, mask⟩
    refine ⟨fun o => ?_, knownBad, fun c => ?_, fun c on => ?_, primaries, by omega, by omega, by omega, by omega,
      by omega, by omega, by omega, by omega, by omega, by omega, mask⟩
    · have := outputs o
      omega
    · have := configured c
      omega
    · exact (circuits c).resolve_left fun off =>
        Bool.false_ne_true (off.symm.trans ((isConfigured_iff m c).mpr on))
  · intro h
    obtain ⟨outputs, knownBad, configured, circuits, primaries, rate, leakage, glitchLeakage, glitchLimit, glitchFlow,
      holdOff, tripLimit, tripClear, window, flowWired, mask⟩ := h
    refine ⟨⟨⟨⟨⟨⟨⟨⟨⟨⟨⟨⟨⟨⟨⟨fun o => ?_, knownBad⟩, fun c => ?_⟩, fun c => ?_⟩, primaries⟩, by omega⟩, by omega⟩,
      by omega⟩, by omega⟩, by omega⟩, by omega⟩, by omega⟩, by omega⟩, by omega⟩, by omega⟩, mask⟩
    · have := outputs o
      omega
    · have := configured c
      omega
    · by_cases on : m.circuits[c].configured = 1
      · exact .inr (circuits c on)
      · exact .inl (Bool.eq_false_iff.mpr fun k => on ((isConfigured_iff m c).mp k))

theorem imagePasses_iff (l : List Byte) (rank : Fin 32) : imagePasses l rank = true ↔
    SharedStages l (readImage l) ∧ LocalStage (readImage l) ∧ rank.val + 1 ≤ (readImage l).stations := by
  unfold imagePasses addressOk
  rw [Bool.and_eq_true, Bool.and_eq_true, sharedPasses_iff, localOk_iff, decide_eq_true_iff, and_assoc]

end Sys2Proof.Machine
end

section
/-! PROOFS. The load of the roles: the BAD set, the roles of the image and the binding of the spares (R113 to
R115). -/

namespace Sys2Proof.Machine

/-! ### The roles of the image -/

theorem LocalStage.primary_output {m : Image} (h : LocalStage m) {c o : Fin 6}
    (on : m.circuits[c].configured = 1) (primary : m.circuits[c].primary = o.val + 1) : m.outputs[o].1 = 1 := by
  obtain ⟨-, j, named, role, -⟩ := (h.circuits c on).output
  obtain rfl : j = o := Fin.ext (by omega)
  exact role

/-- R114: the image gives an output the role PRIMARY of the configured circuit that names it. -/
theorem imageRole_primary_iff {m : Image} (h : LocalStage m) (o c : Fin 6) :
    imageRole m o = .primary c ↔ isConfigured m c = true ∧ m.circuits[c].primary = o.val + 1 := by
  have fits : ∀ j : Fin 6, (isConfigured m j && decide (primaryOf m j = some o)) = true ↔
      m.circuits[j].configured = 1 ∧ m.circuits[j].primary = o.val + 1 := fun j => by
    unfold primaryOf
    rw [Bool.and_eq_true, isConfigured_iff, decide_eq_true_iff, outputOf_eq_some_iff]
  rw [isConfigured_iff]
  unfold imageRole
  by_cases role : m.outputs[o].1 = 1
  · obtain ⟨d, only⟩ := h.primaries o role
    have found : (sixIds.find? fun j => isConfigured m j && decide (primaryOf m j = some o)) = some d :=
      find_sixIds ((fits d).mpr ((only d).mpr rfl)) fun j below => Bool.eq_false_iff.mpr fun k =>
        absurd ((only j).mp ((fits j).mp k)) (Fin.ne_of_lt below)
    rw [if_pos role, found, only c]
    dsimp only
    rw [Role.primary.injEq, eq_comm]
  · rw [if_neg role]
    refine iff_of_false ?_ fun named => role (h.primary_output named.1 named.2)
    split <;> nofun

theorem imageRole_spareFree_iff (m : Image) (o : Fin 6) : imageRole m o = .spareFree ↔ m.outputs[o].1 = 2 := by
  unfold imageRole
  by_cases primary : m.outputs[o].1 = 1
  · rw [if_pos primary]
    refine iff_of_false ?_ (by omega)
    split <;> nofun
  · rw [if_neg primary]
    by_cases spare : m.outputs[o].1 = 2
    · rw [if_pos spare]
      exact iff_of_true rfl spare
    · rw [if_neg spare]
      exact iff_of_false nofun spare

theorem imageRole_unused {m : Image} {o : Fin 6} (unused : m.outputs[o].1 = 0) : imageRole m o = .unused := by
  unfold imageRole
  rw [if_neg (by omega), if_neg (by omega)]

theorem imageRole_cases (m : Image) (o : Fin 6) :
    imageRole m o = .spareFree ∨ imageRole m o = .unused ∨ ∃ c, imageRole m o = .primary c := by
  unfold imageRole
  split
  · split
    · exact .inr (.inr ⟨_, rfl⟩)
    · exact .inr (.inl rfl)
  · split
    · exact .inl rfl
    · exact .inr (.inl rfl)

/-! ### The binding of the spares -/

/-- The outputs that are free spares, in ascending order. -/
def freeSpares (p : Plant) : List (Fin 6) := sixIds.filter fun o => decide (p.ogd.outputs[o].role = .spareFree)

theorem lowestSpare_eq_head (p : Plant) : p.ogd.lowestSpare = (freeSpares p).head? := by
  unfold freeSpares Ogd.lowestSpare
  rw [List.head?_filter]

theorem mem_freeSpares (p : Plant) (o : Fin 6) : o ∈ freeSpares p ↔ p.ogd.outputs[o].role = .spareFree := by
  unfold freeSpares
  rw [List.mem_filter, decide_eq_true_iff]
  exact and_iff_right (mem_sixIds o)

theorem freeSpares_nodup (p : Plant) : (freeSpares p).Nodup := List.Nodup.filter _ (by decide)

/-- The role of a spare that the circuit `c`, or no circuit, takes. -/
def spareRole : Option (Fin 6) → Role
  | some c => .spareBound c
  | none => .spareFree

/-- The spares of `p` are bound in ascending order to the circuits `waiting` (R114, R126). -/
structure SparesBound (waiting : List (Fin 6)) (p q : Plant) : Prop where
  bound : ∀ (n : Nat) (o : Fin 6), (freeSpares p)[n]? = some o → q.ogd.outputs[o].role = spareRole waiting[n]?
  others : ∀ o : Fin 6, p.ogd.outputs[o].role ≠ .spareFree → q.ogd.outputs[o] = p.ogd.outputs[o]
  short : (freeSpares p).length < waiting.length →
    q.fct.held .circuitFailed = true ∧ q.fct.held .spareExhausted = true

theorem SparesBound.refl (p : Plant) : SparesBound [] p p :=
  ⟨fun _ o h => (mem_freeSpares p o).mp (List.mem_of_getElem? h), fun _ _ => rfl, fun h => absurd h (Nat.not_lt_zero _)⟩

theorem bindSpare_freeSpares {c q : Fin 6} {l : List (Fin 6)} {p : Plant} (free : freeSpares p = q :: l) :
    freeSpares (bindSpare c q p) = l := by
  have nodup := freeSpares_nodup p
  rw [free] at nodup
  obtain ⟨apart, -⟩ := List.nodup_cons.mp nodup
  have row : (bindSpare c q p).ogd.outputs[q] = { p.ogd.outputs[q] with role := .spareBound c, openCount := 0 } :=
    updOut_row p q _
  have others : ∀ j : Fin 6, j ≠ q → (bindSpare c q p).ogd.outputs[j] = p.ogd.outputs[j] :=
    fun j h => updOut_other p q j _ h
  have fits : ∀ j : Fin 6, decide ((bindSpare c q p).ogd.outputs[j].role = .spareFree) =
      (decide (j ≠ q) && decide (p.ogd.outputs[j].role = .spareFree)) := fun j => by
    by_cases same : j = q
    · rw [same, row, decide_eq_false (p := q ≠ q) fun h => h rfl, Bool.false_and]
      exact decide_eq_false nofun
    · rw [others j same, decide_eq_true same, Bool.true_and]
  calc freeSpares (bindSpare c q p)
      = sixIds.filter fun j => decide (j ≠ q) && decide (p.ogd.outputs[j].role = .spareFree) :=
        congrArg (sixIds.filter ·) (funext fits)
    _ = (freeSpares p).filter fun j => decide (j ≠ q) := (List.filter_filter ..).symm
    _ = l := by
        rw [free, List.filter_cons_of_neg (by simp)]
        exact List.filter_eq_self.mpr fun j hj => decide_eq_true fun same => apart (same ▸ hj)

/-- The circuits that wait for a spare are told by their outputs, which the binding of another leaves. -/
theorem bindSpare_boundTo {c d q : Fin 6} {p : Plant} (free : p.ogd.outputs[q].role = .spareFree) (apart : d ≠ c) :
    (bindSpare c q p).ogd.boundTo d = p.ogd.boundTo d := by
  unfold Ogd.boundTo
  congr 1
  funext j
  by_cases same : j = q
  · rw [same, show (bindSpare c q p).ogd.outputs[q] =
      { p.ogd.outputs[q] with role := .spareBound c, openCount := 0 } from updOut_row p q _, free]
    simp [Role.circuit, Ne.symm apart]
  · rw [show (bindSpare c q p).ogd.outputs[j] = p.ogd.outputs[j] from updOut_other p q j _ same]

theorem SparesBound.taken {c q : Fin 6} {l waiting : List (Fin 6)} {p r : Plant} (free : freeSpares p = q :: l)
    (h : SparesBound waiting (bindSpare c q p) r) : SparesBound (c :: waiting) p r := by
  have rest := bindSpare_freeSpares (c := c) free
  have row : (bindSpare c q p).ogd.outputs[q] = { p.ogd.outputs[q] with role := .spareBound c, openCount := 0 } :=
    updOut_row p q _
  have role : p.ogd.outputs[q].role = .spareFree := (mem_freeSpares p q).mp (by rw [free]; exact List.mem_cons_self)
  refine ⟨fun n o at' => ?_, fun o other => ?_, fun less => h.short ?_⟩
  · rw [free] at at'
    cases n with
    | zero =>
      cases at'
      rw [h.others q (by rw [row]; exact nofun), row]
      rfl
    | succ n => exact h.bound n o (by rw [rest]; exact at')
  · have apart : o ≠ q := fun same => other (by rw [same]; exact role)
    have kept : (bindSpare c q p).ogd.outputs[o] = p.ogd.outputs[o] := updOut_other p q o _ apart
    rw [h.others o (by rw [kept]; exact other), kept]
  · rw [rest]
    rw [free] at less
    exact Nat.lt_of_succ_lt_succ less

theorem loadSpares_bound (e : Env) (waits : Fin 6 → Bool) (l : List (Fin 6)) : ∀ p : Plant, l.Nodup →
    (∀ c ∈ l, (isConfigured e.img c && (p.ogd.boundTo c).isNone) = waits c) →
    SparesBound (l.filter waits) p (l.foldl (fun q c => loadSpare e c q) p) := by
  induction l with
  | nil => exact fun p _ _ => .refl p
  | cons c l ih =>
    intro p nodup waiting
    obtain ⟨fresh, nodup'⟩ := List.nodup_cons.mp nodup
    have here := waiting c List.mem_cons_self
    rw [List.foldl_cons]
    by_cases waits' : waits c = true
    · rw [List.filter_cons_of_pos waits']
      rw [waits'] at here
      have lowest := lowestSpare_eq_head p
      cases free : freeSpares p with
      | nil =>
        rw [free, List.head?_nil] at lowest
        have none' : loadSpare e c p = (p.raise .circuitFailed).raise .spareExhausted := by
          unfold loadSpare
          rw [if_pos here, lowest]
        rw [none']
        have reach := foldl_reach _ (fun p c => loadSpare_reach e c p) l
          ((p.raise .circuitFailed).raise .spareExhausted)
        have done := ih ((p.raise .circuitFailed).raise .spareExhausted) nodup' fun d hd =>
          waiting d (List.mem_cons_of_mem c hd)
        refine ⟨fun n o at' => ?_, done.others, fun _ => ⟨reach.raised _ ?_, reach.raised _ ?_⟩⟩
        · rw [free] at at'
          cases at'
        · show ((p.fct.raise .circuitFailed).raise .spareExhausted).held .circuitFailed = true
          rw [Fct.held_raise, raise_held]
          rfl
        · exact raise_held _ _
      | cons q rest =>
        rw [free, List.head?_cons] at lowest
        have taken : loadSpare e c p = bindSpare c q p := by
          unfold loadSpare
          rw [if_pos here, lowest]
        have role : p.ogd.outputs[q].role = .spareFree := lowestSpare_role lowest
        rw [taken]
        refine SparesBound.taken free (ih (bindSpare c q p) nodup' fun d hd => ?_)
        rw [bindSpare_boundTo role fun same : d = c => fresh (same ▸ hd)]
        exact waiting d (List.mem_cons_of_mem c hd)
    · have still : loadSpare e c p = p := if_neg (by rw [here]; exact waits')
      rw [List.filter_cons_of_neg waits', still]
      exact ih p nodup' fun d hd => waiting d (List.mem_cons_of_mem c hd)

end Sys2Proof.Machine
end

section
/-! PROOFS. The image judged and loaded: the outputs, the circuits brought into service and their grants (R71,
R80, R87, R114, R115, R189 to R191). -/

namespace Sys2Proof.Machine

/-! ### The outputs after the load -/

/-- The plant with the rows of the image, before the spares are bound (R114). -/
def imageRows (e : Env) (p : Plant) : Plant :=
  { p with ogd := { p.ogd with
    outputs := mapRows p.ogd.outputs (loadedRow e),
    flow := if e.img.flowWired = 1 then ⟨some e.pins.flow, none⟩ else Filter.reset } }

theorem imageRows_row (e : Env) (p : Plant) (o : Fin 6) :
    (imageRows e p).ogd.outputs[o] = loadedRow e o p.ogd.outputs[o] := mapRows_get _ _ o

theorem imageRows_role (e : Env) (p : Plant) (o : Fin 6) : (imageRows e p).ogd.outputs[o].role =
    if p.ogd.outputs[o].role = .bad ∨ e.img.knownBad.getLsbD o.val = true then .bad else imageRole e.img o := by
  rw [imageRows_row]
  unfold loadedRow bitOf
  exact if_congr (by rw [Bool.or_eq_true, decide_eq_true_eq]) rfl rfl

/-- The circuits that have no output once the rows of the image are loaded (R114). -/
def waitsForSpare (e : Env) (p : Plant) (c : Fin 6) : Bool :=
  isConfigured e.img c && ((imageRows e p).ogd.boundTo c).isNone

theorem loadRoles_bound (e : Env) (p : Plant) :
    SparesBound (sixIds.filter (waitsForSpare e p)) (imageRows e p) (loadRoles e p) ∧
      Reach (imageRows e p) (loadRoles e p) :=
  ⟨loadSpares_bound e (waitsForSpare e p) sixIds (imageRows e p) (by decide) fun _ _ => rfl,
    foldl_reach _ (fun p c => loadSpare_reach e c p) sixIds (imageRows e p)⟩

section
variable {e : Env} {p : Plant}

/-- Only free spares change their role after the rows are loaded, and none becomes BAD or PRIMARY. -/
theorem loadRoles_role (o : Fin 6) :
    (loadRoles e p).ogd.outputs[o].role = (imageRows e p).ogd.outputs[o].role ∨
      (imageRows e p).ogd.outputs[o].role = .spareFree ∧
        ∃ w, (loadRoles e p).ogd.outputs[o].role = spareRole w := by
  obtain ⟨bound, -⟩ := loadRoles_bound e p
  by_cases free : (imageRows e p).ogd.outputs[o].role = .spareFree
  · obtain ⟨n, at'⟩ := List.mem_iff_getElem?.mp ((mem_freeSpares _ o).mpr free)
    exact .inr ⟨free, _, bound.bound n o at'⟩
  · exact .inl (by rw [bound.others o free])

theorem imageRows_bad_iff (o : Fin 6) : (imageRows e p).ogd.outputs[o].role = .bad ↔
    p.ogd.outputs[o].role = .bad ∨ e.img.knownBad.getLsbD o.val = true := by
  rw [imageRows_role]
  by_cases bad : p.ogd.outputs[o].role = .bad ∨ e.img.knownBad.getLsbD o.val = true
  · rw [if_pos bad]
    exact iff_of_true rfl bad
  · rw [if_neg bad]
    refine iff_of_false (fun h => ?_) bad
    rcases imageRole_cases e.img o with k | k | ⟨c, k⟩ <;> exact nomatch k.symm.trans h

/-- R113: the BAD set takes in the known-bad list, and no further output. -/
theorem loadRoles_bad_iff (o : Fin 6) : (loadRoles e p).ogd.outputs[o].role = .bad ↔
    p.ogd.outputs[o].role = .bad ∨ e.img.knownBad.getLsbD o.val = true := by
  rw [← imageRows_bad_iff]
  rcases loadRoles_role (e := e) (p := p) o with same | ⟨free, w, taken⟩
  · rw [same]
  · rw [free, taken]
    cases w <;> exact iff_of_false nofun nofun

/-- An output that is not BAD has the role of the image until the spares are bound. -/
theorem imageRows_fit {o : Fin 6} (fit : (imageRows e p).ogd.outputs[o].role ≠ .bad) :
    (imageRows e p).ogd.outputs[o].role = imageRole e.img o := by
  rw [imageRows_role]
  exact if_neg fun bad => fit ((imageRows_bad_iff o).mpr bad)

theorem loadRoles_fit {o : Fin 6} (fit : (loadRoles e p).ogd.outputs[o].role ≠ .bad) :
    (imageRows e p).ogd.outputs[o].role = imageRole e.img o :=
  imageRows_fit fun bad => fit ((loadRoles_bad_iff o).mpr ((imageRows_bad_iff o).mp bad))

theorem loadRoles_unused {o : Fin 6} (fit : (loadRoles e p).ogd.outputs[o].role ≠ .bad)
    (unused : e.img.outputs[o].1 = 0) : (loadRoles e p).ogd.outputs[o].role = .unused := by
  have role := (loadRoles_fit fit).trans (imageRole_unused unused)
  rcases loadRoles_role (e := e) (p := p) o with same | ⟨free, -⟩
  · rw [same, role]
  · cases role.symm.trans free

theorem loadRoles_primary_iff (good : LocalStage e.img) {o : Fin 6}
    (fit : (loadRoles e p).ogd.outputs[o].role ≠ .bad) (c : Fin 6) :
    (loadRoles e p).ogd.outputs[o].role = .primary c ↔
      isConfigured e.img c = true ∧ e.img.circuits[c].primary = o.val + 1 := by
  rw [← imageRole_primary_iff good, ← loadRoles_fit fit]
  rcases loadRoles_role (e := e) (p := p) o with same | ⟨free, w, taken⟩
  · rw [same]
  · rw [free, taken]
    cases w <;> exact iff_of_false nofun nofun

/-- The free spares of the image, in ascending order. -/
theorem freeSpares_loaded : freeSpares (imageRows e p) = sixIds.filter fun o =>
    decide (e.img.outputs[o].1 = 2 ∧ (loadRoles e p).ogd.outputs[o].role ≠ .bad) := by
  refine List.filter_congr fun o _ => ?_
  rw [decide_eq_decide]
  constructor
  · intro free
    have fit : (imageRows e p).ogd.outputs[o].role ≠ .bad := by
      rw [free]
      exact nofun
    refine ⟨(imageRole_spareFree_iff _ o).mp ((imageRows_fit fit).symm.trans free), fun bad => fit ?_⟩
    exact (imageRows_bad_iff o).mpr ((loadRoles_bad_iff o).mp bad)
  · rintro ⟨spare, fit⟩
    exact (loadRoles_fit fit).trans ((imageRole_spareFree_iff _ o).mpr spare)

/-- R114: a configured circuit waits for a spare where its primary output is BAD. -/
theorem waitsForSpare_eq (good : LocalStage e.img) (c : Fin 6) : waitsForSpare e p c =
    (isConfigured e.img c && sixIds.any fun o =>
      decide (e.img.circuits[c].primary = o.val + 1 ∧ (loadRoles e p).ogd.outputs[o].role = .bad)) := by
  unfold waitsForSpare
  by_cases configured : isConfigured e.img c = true
  · rw [configured, Bool.true_and, Bool.true_and, Bool.eq_iff_iff, List.any_eq_true]
    obtain ⟨-, o, primary, -, -⟩ := (good.circuits c ((isConfigured_iff _ c).mp configured)).output
    have named : ∀ j : Fin 6, e.img.circuits[c].primary = j.val + 1 → j = o := fun j h => Fin.ext (by omega)
    have image := (imageRole_primary_iff good o c).mpr ⟨configured, primary⟩
    by_cases bad : (loadRoles e p).ogd.outputs[o].role = .bad
    · refine iff_of_true ?_ ⟨o, mem_sixIds o, decide_eq_true ⟨primary, bad⟩⟩
      rw [Option.isNone_iff_eq_none]
      refine List.find?_eq_none.mpr fun j _ bound => ?_
      have bound : (imageRows e p).ogd.outputs[j].role.circuit = some c := by simpa using bound
      have fit : (imageRows e p).ogd.outputs[j].role ≠ .bad := fun h => by
        rw [h] at bound
        cases bound
      rw [imageRows_fit fit] at bound
      rcases imageRole_cases e.img j with k | k | ⟨d, k⟩
      · rw [k] at bound
        cases bound
      · rw [k] at bound
        cases bound
      · rw [k] at bound
        cases bound
        rw [named j ((imageRole_primary_iff good j c).mp k).2] at fit
        exact fit ((imageRows_bad_iff o).mpr ((loadRoles_bad_iff o).mp bad))
    · refine iff_of_false (fun none' => ?_) fun ⟨j, _, h⟩ => ?_
      · rw [Option.isNone_iff_eq_none] at none'
        have := List.find?_eq_none.mp none' o (mem_sixIds o)
        rw [loadRoles_fit bad, image] at this
        exact this (by simp [Role.circuit])
      · obtain ⟨h1, h2⟩ := of_decide_eq_true h
        rw [named j h1] at h2
        exact bad h2
  · rw [Bool.not_eq_true] at configured
    rw [configured, Bool.false_and, Bool.false_and]

end

/-! ### The circuits brought into service -/

/-- The row of circuit `c` as it leaves DISABLED, with the outputs `p` (R71, R80). -/
def serviceRow (e : Env) (p : Plant) (c : Fin 6) (r : CircuitRow) : CircuitRow :=
  if isConfigured e.img c then
    match p.ogd.boundTo c with
    | some o =>
      if p.ogd.outputs[o].limit.level = some true then inhibitedRow (settlingRow (fallbackInUse e p c) r)
      else settlingRow (fallbackInUse e p c) r
    | none => idleRow .failed r
  else r

theorem settleBound_row (e : Env) (c o : Fin 6) (p : Plant) : (settleBound e c o p).cct[c] =
    if p.ogd.outputs[o].limit.level = some true then inhibitedRow (settlingRow (fallbackInUse e p c) p.cct[c])
    else settlingRow (fallbackInUse e p c) p.cct[c] := by
  have ogd : (enterSettling e c p).ogd = p.ogd := rfl
  have row : (enterSettling e c p).cct[c] = settlingRow (fallbackInUse e p c) p.cct[c] := updCct_row p c _
  unfold settleBound
  dsimp only
  rw [ogd]
  split
  · rw [updCct_row, row]
  · exact row

theorem leaveDisabled_items (e : Env) (c : Fin 6) (p : Plant) :
    (leaveDisabled e c p).ogd = p.ogd ∧ (leaveDisabled e c p).fct = p.fct ∧
      (leaveDisabled e c p).cct[c] = serviceRow e p c p.cct[c] ∧
      ∀ d : Fin 6, d ≠ c → (leaveDisabled e c p).cct[d] = p.cct[d] := by
  unfold leaveDisabled serviceRow
  by_cases configured : isConfigured e.img c = true
  · rw [if_pos configured, if_pos configured]
    cases bound : p.ogd.boundTo c with
    | none => exact ⟨rfl, rfl, updCct_row p c _, fun d h => updCct_other p c d _ h⟩
    | some o =>
      exact ⟨settleBound_ogd e c o p, (settleBound_rest e c o p).1, settleBound_row e c o p,
        (settleBound_idle e c o p).2⟩
  · rw [if_neg configured, if_neg configured]
    exact ⟨rfl, rfl, rfl, fun _ _ => rfl⟩

theorem serviceRow_congr (e : Env) {p q : Plant} (ogd : p.ogd = q.ogd) (c : Fin 6) (r : CircuitRow) :
    serviceRow e p c r = serviceRow e q c r := by
  unfold serviceRow fallbackInUse
  rw [ogd]

theorem leaveEach_items (e : Env) (l : List (Fin 6)) : ∀ p : Plant, l.Nodup →
    (l.foldl (fun q c => leaveDisabled e c q) p).ogd = p.ogd ∧
      (l.foldl (fun q c => leaveDisabled e c q) p).fct = p.fct ∧
      ∀ c : Fin 6, (l.foldl (fun q c => leaveDisabled e c q) p).cct[c] =
        if c ∈ l then serviceRow e p c p.cct[c] else p.cct[c] := by
  induction l with
  | nil => exact fun p _ => ⟨rfl, rfl, fun c => (if_neg List.not_mem_nil).symm⟩
  | cons a l ih =>
    intro p nodup
    obtain ⟨fresh, nodup'⟩ := List.nodup_cons.mp nodup
    obtain ⟨ogd, fct, row, others⟩ := leaveDisabled_items e a p
    obtain ⟨ogd', fct', rows⟩ := ih (leaveDisabled e a p) nodup'
    rw [List.foldl_cons]
    refine ⟨ogd'.trans ogd, fct'.trans fct, fun c => ?_⟩
    rw [rows c, serviceRow_congr e ogd]
    by_cases same : c = a
    · rw [same, if_neg fresh, if_pos List.mem_cons_self, row]
    · rw [others c same]
      exact if_congr (by rw [List.mem_cons, or_iff_right same]) rfl rfl

/-- R71, R87: every configured circuit leaves DISABLED, and every window starts at its offset. -/
theorem circuitsIntoService_items (e : Env) (p : Plant) :
    (circuitsIntoService e p).ogd = p.ogd ∧ (circuitsIntoService e p).fct = p.fct ∧
      ∀ c : Fin 6, (circuitsIntoService e p).cct[c] =
        { serviceRow e p c p.cct[c] with toNext := some (windowOffset e c) } := by
  obtain ⟨ogd, fct, rows⟩ := leaveEach_items e sixIds p (by decide)
  refine ⟨ogd, fct, fun c => ?_⟩
  have row := rows c
  rw [if_pos (mem_sixIds c)] at row
  rw [← row]
  exact mapRows_get _ _ c

/-- A circuit that was DISABLED, or that is in service, has no on-time. -/
theorem serviceRow_onTime (e : Env) (p : Plant) (c : Fin 6) {r : CircuitRow} (idle : r.onTime = 0) :
    (serviceRow e p c r).onTime = 0 := by
  unfold serviceRow
  split
  · split
    · split <;> rfl
    · rfl
  · exact idle

/-! ### The entry to LISTEN -/

theorem enterListen_eq (s : State) : ∃ e0 e1 e2 : Env,
    (e0.img = s.img ∧ e0.pins = s.pins) ∧ (e1.img = s.img) ∧ (e2.img = s.img ∧ e2.own = s.own ∧ e2.good = true) ∧
    enterListen s = { s with
      sul := { s.sul with progress := .done, judgement := some .good },
      rct := { s.rct with membership := .listen, listenTimer := some (2 * (s.img.period * 1000) + 1280) },
      lif := { s.lif with receiver := .hunting, buffer := [], idle := some 0 },
      ssc := { s.ssc with conv := (firstChannel s.img).map fun ch => (ch, 80) },
      plant := compute e2 none false .capped (circuitsIntoService e1
        (loadRoles e0 { s.plant with fct := s.plant.fct.setMask s.img.mask })) } :=
  ⟨_, _, _, ⟨rfl, rfl⟩, rfl, ⟨rfl, rfl, rfl⟩, rfl⟩

/-- What the computation CAPPED leaves of a plant in which no circuit has an on-time (R63). -/
structure Capped (e : Env) (p q : Plant) : Prop where
  ogd : q.ogd = p.ogd
  fct : q.fct = p.fct
  kind : q.alu.kind = .capped
  own : q.alu.own = e.share e.own
  row : ∀ c : Fin 6, ∃ g : Nat, q.cct[c] = grantedRow e p c g p.cct[c]
  grants : grantsInForce q = localSpread p (e.share e.own)

theorem compute_capped (e : Env) {p : Plant} (untested : p.ogd.test = none)
    (idle : ∀ c : Fin 6, p.cct[c].onTime = 0) : Capped e p (compute e none false .capped p) := by
  rw [compute_untested_first e none .capped p untested]
  have run := handGrantsWith_uncut tripOutput e (grantsByKind e { p with alu := allotTable e none .capped })
    { p with alu := allotTable e none .capped } fun c => cutNow_zero _ _ _ (idle c)
  have row : ∀ c : Fin 6, (handGrantsWith tripOutput e (grantsByKind e { p with alu := allotTable e none .capped })
      { p with alu := allotTable e none .capped }).cct[c] =
      grantedRow e p c (grantsByKind e { p with alu := allotTable e none .capped })[c] p.cct[c] := fun c => by
    rw [run]
    exact mapRows_get _ _ c
  have spread : grantsByKind e { p with alu := allotTable e none .capped } = localSpread p (e.share e.own) :=
    localSpread_congr { p with alu := allotTable e none .capped } p (e.share e.own) rfl
  refine ⟨?_, ?_, ?_, ?_, fun c => ⟨_, row c⟩, ?_⟩
  · rw [show handGrants e _ _ = _ from run]
  · rw [show handGrants e _ _ = _ from run]
  · rw [show handGrants e _ _ = _ from run]
    rfl
  · rw [show handGrants e _ _ = _ from run]
    rfl
  · rw [← spread]
    refine Vector.ext fun i hi => ?_
    unfold grantsInForce
    rw [Vector.getElem_ofFn]
    exact congrArg CircuitRow.grant (row ⟨i, hi⟩)

end Sys2Proof.Machine
end

section
/-! PROOFS. The last transfer of the image: judged, loaded or refused (R189 to R192). -/

namespace Sys2Proof.Machine

theorem loadRoles_cct (e : Env) (p : Plant) : (loadRoles e p).cct = p.cct := by
  have fold : ∀ (l : List (Fin 6)) (q : Plant), (l.foldl (fun q c => loadSpare e c q) q).cct = q.cct := by
    intro l
    induction l with
    | nil => exact fun _ => rfl
    | cons c l ih =>
      intro q
      refine (ih _).trans ?_
      show (loadSpare e c q).cct = q.cct
      unfold loadSpare
      split
      · split <;> rfl
      · rfl
  exact fold sixIds (imageRows e p)

/-- The plant of a station whose GOOD image is loaded: the outputs and the factors are those of the load of the
roles, the circuits are in service, and the share is spread over them (R63, R71, R114). -/
structure Loaded (s t : State) : Prop where
  roles : ∃ e p, e.img = s.img ∧ e.pins = s.pins ∧ p.ogd = s.plant.ogd ∧
    t.plant.ogd = (loadRoles e p).ogd ∧ t.plant.fct = (loadRoles e p).fct ∧ p.fct.mask = s.img.mask
  kind : t.plant.alu.kind = .capped
  own : t.plant.alu.own = shareOf s.img s.own
  rows : ∃ e, e.img = s.img ∧ ∀ c : Fin 6, ∃ f p g, t.plant.cct[c] =
    grantedRow f p c g { serviceRow e t.plant c .reset with toNext := some (windowOffset e c) }
  spread : SpreadOf t.plant (shareOf s.img s.own) (grantsInForce t.plant)

theorem enterListen_loaded {s : State} (start : AtStart s) :
    Loaded s (enterListen s) := by
  obtain ⟨e0, e1, e2, ⟨img0, pins0⟩, img1, ⟨img2, own2, good2⟩, run⟩ := enterListen_eq s
  obtain ⟨reset, untested⟩ := start
  obtain ⟨m, hm⟩ : ∃ m : Plant, m = { s.plant with fct := s.plant.fct.setMask s.img.mask } := ⟨_, rfl⟩
  have parts : m.ogd = s.plant.ogd ∧ m.cct = s.plant.cct ∧ m.fct.mask = s.img.mask := by
    rw [hm]
    exact ⟨rfl, rfl, rfl⟩
  obtain ⟨ogd0, cct0, mask0⟩ := parts
  rw [← hm] at run
  obtain ⟨-, reach⟩ := loadRoles_bound e0 m
  have cct1 := (loadRoles_cct e0 m).trans cct0
  have test1 : (loadRoles e0 m).ogd.test = none := reach.untested (by
    show m.ogd.test = none
    rw [ogd0]
    exact untested)
  obtain ⟨q, hq⟩ : ∃ q, q = loadRoles e0 m := ⟨_, rfl⟩
  rw [← hq] at run cct1 test1
  obtain ⟨ogd2, fct2, rows2⟩ := circuitsIntoService_items e1 q
  have resetRow : ∀ c : Fin 6, q.cct[c] = .reset := fun c => by
    rw [cct1, reset]
    exact replicate_get _ c
  obtain ⟨u, hu⟩ : ∃ u, u = circuitsIntoService e1 q := ⟨_, rfl⟩
  rw [← hu] at run ogd2 fct2 rows2
  have capped := compute_capped e2 (p := u) (by rw [ogd2]; exact test1) fun c => by
    rw [rows2, resetRow]
    exact serviceRow_onTime e1 q c rfl
  have plant : (enterListen s).plant = compute e2 none false .capped u := by rw [run]
  have share : e2.share e2.own = shareOf s.img s.own := by
    unfold Env.share
    rw [good2, if_pos rfl, img2, own2]
  generalize enterListen s = t at plant
  rw [← plant] at capped
  have ogd : t.plant.ogd = q.ogd := capped.ogd.trans ogd2
  refine ⟨⟨e0, m, img0, pins0, ogd0, ogd.trans (congrArg Plant.ogd hq),
    (capped.fct.trans fct2).trans (congrArg Plant.fct hq), mask0⟩,
    capped.kind, capped.own.trans share, ⟨e1, img1, fun c => ?_⟩, ?_⟩
  · obtain ⟨g, row⟩ := capped.row c
    refine ⟨e2, u, g, row.trans ?_⟩
    rw [rows2, resetRow, serviceRow_congr e1 ogd]
  · rw [capped.grants, share]
    have same : localSpread u (shareOf s.img s.own) = localSpread t.plant (shareOf s.img s.own) :=
      localSpread_agree u t.plant _ fun c => by
        obtain ⟨g, row⟩ := capped.row c
        unfold spreads localKey
        rw [row]
        exact ⟨rfl, fun _ => ⟨rfl, rfl⟩⟩
    rw [same]
    exact localSpread_spreadOf t.plant _

/-! ### The judgement after the last transfer -/

/-- The station whose working copy is complete and whose shared section is judged (R189, R190). -/
def imageRead (bytes : List Byte) (s : State) : State :=
  { s with sul := { s.sul with
    copy := s.sul.copy ++ bytes,
    sharedGood := sharedPasses (s.sul.copy ++ bytes),
    digest := if sharedPasses (s.sul.copy ++ bytes) then some (sharedDigest (s.sul.copy ++ bytes)) else none } }

theorem exec_lastTransfer {a : Nat} {bytes : List Byte} {s : State} (reading : s.sul.progress = .reading 5 a none)
    (size : bytes.length = 17) : exec (.transferAttemptEnd (.success bytes)) s = .next
      (if imagePasses (s.sul.copy ++ bytes) s.sul.rank then enterListen (imageRead bytes s)
      else enterBlocked (imageRead bytes s)) :=
  congrArg Host.Outcome.next ((transferAttemptEnd_success reading size).trans rfl)

/-- R189 to R191: what the entry to LISTEN leaves of the station, the plant aside. -/
theorem listen_blocks {bytes : List Byte} {s : State} (start : AtStart s) :
    let t := enterListen (imageRead bytes s)
    t = { s with sul := t.sul, rct := t.rct, plant := t.plant, ssc := t.ssc, lif := t.lif } ∧
      t.sul = { (imageRead bytes s).sul with progress := .done, judgement := some .good } ∧
      t.lif = { s.lif with receiver := .hunting, buffer := [], idle := some 0 } ∧
      t.rct.membership = .listen ∧ t.rct.listenTimer = some (2 * (t.img.period * 1000) + 1280) ∧
      t.ssc.conv = ((firstChannel t.img).map fun ch => (ch, 80)) ∧ t.plant.fct.mask = t.img.mask ∧
      Loaded (imageRead bytes s) t := by
  intro t
  have loaded : Loaded (imageRead bytes s) t := enterListen_loaded (s := imageRead bytes s) start
  obtain ⟨e, p, -, -, -, -, fct, mask⟩ := loaded.roles
  have kept := (loadRoles_bound e p).2.mask
  have mask' : t.plant.fct.mask = t.img.mask := by
    rw [fct, kept]
    exact mask
  exact ⟨rfl, rfl, rfl, rfl, rfl, rfl, mask', loaded⟩

theorem sharedPasses_of_imagePasses {l : List Byte} {rank : Fin 32} (h : imagePasses l rank = true) :
    sharedPasses l = true ∧ LocalStage (readImage l) := by
  obtain ⟨shared, localGood, -⟩ := (imagePasses_iff l rank).mp h
  exact ⟨(sharedPasses_iff l).mpr shared, localGood⟩

theorem imageRead_digest (bytes : List Byte) (s : State) :
    (sharedPasses (s.sul.copy ++ bytes) = true →
      (imageRead bytes s).sul.digest = some (crc16 (((s.sul.copy ++ bytes).drop 3).take 15))) ∧
    (sharedPasses (s.sul.copy ++ bytes) = false → (imageRead bytes s).sul.digest = none) := by
  unfold imageRead
  exact ⟨fun good => if_pos good, fun bad => if_neg (by rw [bad]; exact Bool.false_ne_true)⟩

/-- R113 to R115: the outputs after the load. -/
theorem Loaded.outputs {s t : State} (h : Loaded s t) (good : LocalStage s.img) (o : Fin 6) :
    t.plant.ogd.outputs[o].rated = s.img.outputs[o].2 ∧
      (t.plant.ogd.outputs[o].role = .bad ↔
        s.plant.ogd.outputs[o].role = .bad ∨ s.img.knownBad.getLsbD o.val = true) ∧
      (t.plant.ogd.outputs[o].role ≠ .bad →
        (s.img.outputs[o].1 = 0 → t.plant.ogd.outputs[o].role = .unused) ∧
        ∀ c : Fin 6, t.plant.ogd.outputs[o].role = .primary c ↔
          isConfigured s.img c = true ∧ s.img.circuits[c].primary = o.val + 1) ∧
      t.plant.ogd.outputs[o].leakage = ⟨some (decide (s.img.leakThreshold ≤ s.pins.leakage[o])), none⟩ ∧
      t.plant.ogd.outputs[o].limit = ⟨some s.pins.limitOpen[o], none⟩ := by
  obtain ⟨e, p, img, pins, ogd, ogd', -, -⟩ := h.roles
  have reach := (loadRoles_bound e p).2
  have row := imageRows_row e p o
  rw [ogd', ← img, ← pins, ← ogd]
  rw [← img] at good
  refine ⟨?_, loadRoles_bad_iff o, fun fit => ⟨loadRoles_unused fit, loadRoles_primary_iff good fit⟩, ?_, ?_⟩
  · rw [reach.rated, row]
    rfl
  · rw [reach.leakage, row]
    rfl
  · rw [reach.limit, row]
    rfl

/-- R114: the spares and the circuits without an output after the load. -/
theorem Loaded.spares {s t : State} (h : Loaded s t) (good : LocalStage s.img) :
    let spares := sixIds.filter fun o =>
      decide (s.img.outputs[o].1 = 2 ∧ t.plant.ogd.outputs[o].role ≠ .bad)
    let lost := sixIds.filter fun c => isConfigured s.img c &&
      sixIds.any fun o =>
        decide (s.img.circuits[c].primary = o.val + 1 ∧ t.plant.ogd.outputs[o].role = .bad)
    (∀ (n : Nat) (o : Fin 6), spares[n]? = some o → t.plant.ogd.outputs[o].role = spareRole lost[n]?) ∧
      (spares.length < lost.length → Held t .circuitFailed ∧ Held t .spareExhausted) := by
  obtain ⟨e, p, img, -, -, ogd, fct, -⟩ := h.roles
  rw [← img] at good ⊢
  have bound := (loadRoles_bound e p).1
  have waits : sixIds.filter (waitsForSpare e p) = _ :=
    congrArg (sixIds.filter ·) (funext fun c => waitsForSpare_eq good c)
  have free := freeSpares_loaded (e := e) (p := p)
  unfold Held
  rw [ogd, fct]
  dsimp only
  rw [← free]
  rw [← waits]
  exact ⟨bound.bound, bound.short⟩

theorem Loaded.flow {s t : State} (h : Loaded s t) :
    t.plant.ogd.flow = ⟨if s.img.flowWired = 1 then some s.pins.flow else none, none⟩ := by
  obtain ⟨e, p, img, pins, -, ogd, -, -⟩ := h.roles
  rw [ogd, (loadRoles_bound e p).2.flow, ← img, ← pins]
  show (if e.img.flowWired = 1 then _ else Filter.reset) = _
  split <;> rfl

/-- R71, R80, R87: the circuits after the load. -/
theorem Loaded.circuits {s t : State} (h : Loaded s t) (good : LocalStage s.img) (c : Fin 6) :
    t.plant.cct[c].onTime = 0 ∧ t.plant.cct[c].toNext = some (c.val * (s.img.window * 1000) / 6) ∧
      (isConfigured s.img c = false → t.plant.cct[c].state = .disabled) ∧
      (isConfigured s.img c = true →
        (∀ o, t.plant.ogd.boundTo c = some o → s.pins.limitOpen[o] = false →
          t.plant.cct[c].state = .settling ∧ t.plant.cct[c].settle = .running 0 ∧
          t.plant.cct[c].cls = some .p1 ∧
          t.plant.cct[c].need = min s.img.circuits[c].fallback s.img.outputs[o].2) ∧
        (∀ o, t.plant.ogd.boundTo c = some o → s.pins.limitOpen[o] = true →
          t.plant.cct[c].state = .inhibited ∧ t.plant.cct[c].settle = .stopped ∧ t.plant.cct[c].need = 0) ∧
        (t.plant.ogd.boundTo c = none →
          t.plant.cct[c].state = .failed ∧ t.plant.cct[c].need = 0)) := by
  obtain ⟨e, img, rows⟩ := h.rows
  obtain ⟨f, p, g, row⟩ := rows c
  have onTime := serviceRow_onTime e t.plant c (r := .reset) rfl
  have outputs := h.outputs good
  rw [row, ← img]
  refine ⟨?_, rfl, fun off => ?_, fun on => ⟨fun o bound closed => ?_, fun o bound opened => ?_, fun none' => ?_⟩⟩
  · unfold grantedRow
    dsimp only
    split
    · rw [onTime, Nat.zero_min]
    · exact onTime
  · unfold serviceRow
    rw [if_neg (by rw [off]; exact Bool.false_ne_true)]
    rfl
  · obtain ⟨rated, -, -, -, limit⟩ := outputs o
    have service : serviceRow e t.plant c .reset = settlingRow (fallbackInUse e t.plant c) .reset := by
      unfold serviceRow
      rw [if_pos on, bound]
      exact if_neg (by rw [limit, closed]; decide)
    rw [service]
    refine ⟨rfl, rfl, rfl, ?_⟩
    show min _ (t.plant.ogd.ratedOf c) = _
    rw [ratedOf_bound bound, rated, img]
  · obtain ⟨-, -, -, -, limit⟩ := outputs o
    have service : serviceRow e t.plant c .reset = inhibitedRow (settlingRow (fallbackInUse e t.plant c) .reset) := by
      unfold serviceRow
      rw [if_pos on, bound]
      exact if_pos (by rw [limit, opened])
    rw [service]
    exact ⟨rfl, rfl, rfl⟩
  · have service : serviceRow e t.plant c .reset = idleRow .failed .reset := by
      unfold serviceRow
      rw [if_pos on, none']
    rw [service]
    exact ⟨rfl, rfl⟩

/-- Settles O7. -/
theorem imageIsJudgedAndLoaded : Obligations.ImageIsJudgedAndLoaded := by
  unfold Obligations.ImageIsJudgedAndLoaded
  refine ⟨fun l rank => ⟨imageFields l, sharedPasses_iff l, fun good => ?_, imagePasses_iff l rank⟩,
    fun m c t => ⟨isConfigured_iff m c, rfl⟩, fun a bytes s start reading size => ?_,
    fun a bytes s start reading size good => ?_⟩
  · unfold sharedPasses at good
    exact (Bool.and_eq_true_iff.mp good).2
  · have run := exec_lastTransfer reading size
    obtain ⟨digest, none'⟩ := imageRead_digest bytes s
    by_cases good : imagePasses (s.sul.copy ++ bytes) s.sul.rank = true
    · rw [if_pos good] at run
      obtain ⟨frame, sul, lif, membership, timer, conv, mask, loaded⟩ := listen_blocks (bytes := bytes) start
      exact ⟨_, run, frame, rfl, rfl, rfl, digest, none', lif,
        fun _ => ⟨rfl, membership, timer, mask, loaded.kind, loaded.own, conv⟩,
        fun bad => absurd (bad.symm.trans good) Bool.false_ne_true⟩
    · rw [if_neg good] at run
      obtain ⟨alu, held, -⟩ := enterBlocked_atStart (s := imageRead bytes s) start
      exact ⟨_, run, rfl, rfl, rfl, rfl, digest, none', rfl, fun bad => absurd bad good,
        fun _ => ⟨rfl, rfl, held, congrArg Alu.kind alu, congrArg Alu.own alu⟩⟩
  · obtain ⟨-, localGood⟩ := sharedPasses_of_imagePasses good
    have run := exec_lastTransfer reading size
    rw [if_pos good] at run
    obtain ⟨-, -, -, -, -, -, -, loaded⟩ := listen_blocks (bytes := bytes) start
    refine ⟨_, run, loaded.outputs localGood, loaded.flow, ?_, loaded.spread, loaded.circuits localGood⟩
    obtain ⟨bound, short⟩ := loaded.spares localGood
    exact ⟨fun n o at' => (bound n o at').trans rfl, short⟩

end Sys2Proof.Machine
end

section
/-! PROOFS. The reply pages: encodings, rows in chunks, and what the pages of the plant carry (R165 to R167). -/

namespace Sys2Proof.Machine

/-! ### Encodings -/

theorem encodings : Encodings where
  numbers _ := ⟨rfl, rfl⟩
  temperatures := ⟨by decide, fun _ => rfl⟩
  amounts := ⟨by decide, fun _ => rfl⟩
  outputs := ⟨rfl, fun _ => rfl⟩
  flags := ⟨rfl, rfl, rfl, fun _ => rfl⟩
  memberships := rfl
  lines := rfl
  ranks := rfl
  states := rfl
  settles := ⟨rfl, rfl, fun _ => rfl⟩
  sources := rfl
  qualities := rfl
  roles _ := rfl
  faults := rfl
  peers := rfl
  kinds := rfl
  classes := rfl
  caps _ := rfl
  tests := ⟨by decide, fun _ _ _ => ⟨rfl, fun _ => rfl, rfl⟩⟩

theorem freeQuot_isQuotient (a b : Nat) : IsQuotient a b (freeQuot a b) := by
  intro pos
  have split := Nat.div_add_mod a b
  have less := Nat.mod_lt a pos
  have expand : (a / b + 1) * b = b * (a / b) + b := by ring
  have plain : a / b * b = b * (a / b) := Nat.mul_comm _ _
  unfold freeQuot
  split
  · exact ⟨Nat.le_refl _, by omega⟩
  · split
    · exact ⟨Nat.le_add_right _ _, by omega⟩
    · exact ⟨Nat.le_refl _, by rw [Nat.add_zero]; omega⟩

/-! ### Rows of one length -/

/-- Rows of one length, one after another: row `k` stands at `m * k`. -/
theorem flatMap_chunk {α β : Type} {f : α → List β} {m : Nat} (length : ∀ x, (f x).length = m) :
    ∀ (l : List α) (k : Nat) (x : α), l[k]? = some x → ((l.flatMap f).drop (m * k)).take m = f x := by
  intro l
  induction l with
  | nil => exact fun k x h => nomatch h
  | cons a l ih =>
    intro k x h
    rw [List.flatMap_cons]
    cases k with
    | zero =>
      cases h
      rw [Nat.mul_zero, List.drop_zero, ← length a, List.take_left']
      rfl
    | succ k =>
      have skip : m * (k + 1) = (f a).length + m * k := by rw [length a]; ring
      rw [skip, List.drop_append, List.drop_eq_nil_of_le (by omega), List.nil_append, Nat.add_sub_cancel_left]
      exact ih k x h

theorem flatMap_length {α β : Type} {f : α → List β} {m : Nat} (length : ∀ x, (f x).length = m) (l : List α) :
    (l.flatMap f).length = m * l.length := by
  induction l with
  | nil => rfl
  | cons a l ih =>
    rw [List.flatMap_cons, List.length_append, length a, ih, List.length_cons]
    ring

/-- Entry `k` of a table cut into pages of `n` entries stands on its page. -/
theorem page_entry {α : Type} {l : List α} {n k : Nat} {x : α} (pos : 0 < n) (h : l[k]? = some x) :
    ((l.drop (n * (k / n))).take n)[k % n]? = some x := by
  rw [List.getElem?_take_of_lt (Nat.mod_lt k pos), List.getElem?_drop, Nat.div_add_mod]
  exact h

theorem stationAddresses_getElem? (i : Fin 32) : stationAddresses[i.val]? = some (i.val + 1) := by
  unfold stationAddresses
  rw [List.getElem?_range' i.isLt]
  congr 1
  omega

/-! ### STATION and FACTORS -/

theorem stationPage_carries (s : State) : pageBody s 1 0 =
    [byteOf s.own, byteOf (membershipCode s.rct.membership), yesNo s.rct.round.isSome,
      s.rct.round.getD 0, byteOf (s.rct.opener.getD 0), yesNo s.rct.degraded,
      byteOf s.rct.listenAdoptions] ++
    amountBytes s.rct.declaredCurrent ++ amountBytes s.rct.declaredClosed ++
    [byteOf (lineCode s.rst.line), yesNo s.srv.restartPending,
      if s.sul.sharedGood then byteOf s.img.stations else 0] ++
    (if s.sul.sharedGood then twoBytes s.img.budget else [0, 0]) ++
    (if s.sul.judgement = some .good then twoBytes (shareOf s.img s.own) else [0, 0]) ++
    twoBytes s.plant.alu.own ++ twoBytes (s.sul.digest.getD 0).toNat ++
    [yesNo s.plant.ogd.test.isSome, yesNo s.lck.emission.running] := by
  have stations : byteOf (if s.sul.sharedGood then s.img.stations else 0) =
      if s.sul.sharedGood then byteOf s.img.stations else 0 := by
    split <;> rfl
  have budget : twoBytes (if s.sul.sharedGood then s.img.budget else 0) =
      if s.sul.sharedGood then twoBytes s.img.budget else [0, 0] := by
    split <;> rfl
  have share : twoBytes (s.env.share s.own) =
      if s.sul.judgement = some .good then twoBytes (shareOf s.img s.own) else [0, 0] := by
    show twoBytes (if decide (s.sul.judgement = some .good) = true then _ else 0) = _
    by_cases good : s.sul.judgement = some .good
    · rw [if_pos good, if_pos (decide_eq_true good)]
      rfl
    · rw [if_neg good, if_neg (by rw [decide_eq_false good]; exact Bool.false_ne_true)]
      rfl
  show stationPage s = _
  unfold stationPage oneByte
  rw [stations, budget, share]
  simp only [List.append_assoc, List.cons_append, List.nil_append]

theorem factorsPage_carries (s : State) : pageBody s 7 0 =
    [s.plant.fct.status.extractLsb' 0 8, s.plant.fct.status.extractLsb' 8 8,
      s.plant.fct.status.extractLsb' 16 8, s.plant.fct.mask.extractLsb' 0 8,
      s.plant.fct.mask.extractLsb' 8 8, s.plant.fct.mask.extractLsb' 16 8, yesNo s.alarm,
      yesNo s.plant.fct.summary] := rfl

/-! ### CIRCUITS and OUTPUTS -/

theorem pageBody_circuit (s : State) (c : Fin 6) : pageBody s 2 c.val = circuitPage s c := by
  match c with
  | 0 | 1 | 2 | 3 | 4 | 5 => rfl

theorem pageBody_output (s : State) (o : Fin 6) : pageBody s 3 o.val = outputPage s o := by
  match o with
  | 0 | 1 | 2 | 3 | 4 | 5 => rfl

theorem pageBody_stationOutputs (s : State) : pageBody s 3 6 = stationOutputsPage s := rfl

theorem badSetByte_bit (g : Ogd) (o : Fin 6) :
    (badSetByte g).getLsbD o.val = decide (g.outputs[o].role = .bad) := by
  have bits : ∀ (b : Fin 6 → Bool) (o : Fin 6),
      (byteOf ((sixIds.map fun j => if b j then 2 ^ j.val else 0).sum)).getLsbD o.val = b o := by
    intro b o
    have each : ∀ (b0 b1 b2 b3 b4 b5 : Bool) (o : Fin 6),
        (byteOf ((if b0 then 1 else 0) + ((if b1 then 2 else 0) + ((if b2 then 4 else 0) +
          ((if b3 then 8 else 0) + ((if b4 then 16 else 0) + (if b5 then 32 else 0))))))).getLsbD o.val =
          (#v[b0, b1, b2, b3, b4, b5])[o] := by decide
    have := each (b 0) (b 1) (b 2) (b 3) (b 4) (b 5) o
    refine Eq.trans ?_ (this.trans ?_)
    · simp [sixIds]
    · match o with
      | 0 | 1 | 2 | 3 | 4 | 5 => rfl
  exact bits (fun j => g.isBad j) o

theorem circuitPage_carries (s : State) (c : Fin 6) : ∃ duty,
    IsQuotient (s.plant.cct[c].onTime * 1000) (s.img.window * 1000) duty ∧ pageBody s 2 c.val =
      [byteOf (c.val + 1), byteOf (stateCode s.plant.cct[c].state),
        idByte (s.plant.ogd.boundTo c), byteOf (s.plant.ogd.ratedOf c),
        byteOf (settleCode s.plant.cct[c].settle)] ++
      tempBytes s.plant.cct[c].temp ++ [byteOf (sourceCode s.plant.cct[c].source)] ++
      tempBytes s.plant.cct[c].setpoint ++
      [byteOf s.plant.cct[c].need, BitVec.ofInt 8 (s.plant.cct[c].margin.getD (-128)),
        byteOf ((s.plant.cct[c].cls.map classRank).getD 255), byteOf s.plant.cct[c].grant] ++
      twoBytes s.plant.cct[c].onTime ++ twoBytes duty ++
      [byteOf s.plant.cct[c].starved, byteOf s.plant.ogd.trips[c].count] ++
      fourBytes s.plant.ogd.trips[c].seconds :=
  ⟨_, freeQuot_isQuotient _ _, (pageBody_circuit s c).trans rfl⟩

/-- The hold-off of an output in whole seconds, or the code of none (R167). -/
def holdOffSeconds (r : OutputRow) : Nat :=
  match r.holdOff with
  | some ms => freeQuot ms 1000
  | none => 65535

theorem holdOffSeconds_none {r : OutputRow} (h : r.holdOff = none) : holdOffSeconds r = 65535 := by
  unfold holdOffSeconds
  rw [h]

theorem holdOffSeconds_some {r : OutputRow} {ms : Nat} (h : r.holdOff = some ms) :
    IsQuotient ms 1000 (holdOffSeconds r) := by
  unfold holdOffSeconds
  rw [h]
  exact freeQuot_isQuotient ms 1000

/-! ### Lengths of the parts -/

@[simp] theorem twoBytes_length (n : Nat) : (twoBytes n).length = 2 := rfl

@[simp] theorem fourBytes_length (n : Nat) : (fourBytes n).length = 4 := rfl

@[simp] theorem oneByte_length (n : Nat) : (oneByte n).length = 1 := rfl

@[simp] theorem amountBytes_length (x : Option Nat) : (amountBytes x).length = 2 := rfl

@[simp] theorem addrSetBytes_length (h : AddrSet) : (addrSetBytes h).length = 4 := rfl

@[simp] theorem tempBytes_length (x : Option Int) : (tempBytes x).length = 2 := by
  cases x <;> rfl

@[simp] theorem testResultBytes_length (x : Option TestResult) : (testResultBytes x).length = 9 := by
  cases x <;> rfl

/-- A part of the middle of three lists. -/
theorem drop_take_middle {α : Type} {a b c : List α} {n m : Nat} (inside : n + m ≤ b.length) :
    ((a ++ b ++ c).drop (a.length + n)).take m = (b.drop n).take m := by
  rw [List.append_assoc, List.drop_append, List.drop_eq_nil_of_le (Nat.le_add_right _ _), List.nil_append,
    Nat.add_sub_cancel_left, List.drop_append_of_le_length (by omega), List.take_append_of_le_length (by
      rw [List.length_drop]
      omega)]

/-! ### The station-wide page of OUTPUTS -/

/-- The bytes of the test in progress (R167). -/
def testBytes : Option TestRecord → List Byte
  | some t =>
    [1, byteOf (t.output.val + 1), idByte t.circuit, byteOf t.duration] ++
      twoBytes t.energizedMs ++ twoBytes (testMean t) ++ twoBytes t.peak
  | none => List.replicate 10 0

theorem testBytes_length (t : Option TestRecord) : (testBytes t).length = 10 := by
  cases t <;> rfl

/-- The bytes of a circuit's trip record (R167). -/
def tripBytes (g : Ogd) (c : Fin 6) : List Byte := byteOf g.trips[c].count :: fourBytes g.trips[c].seconds

theorem stationOutputsPage_eq (s : State) : pageBody s 3 6 =
    [badSetByte s.plant.ogd] ++ testBytes s.plant.ogd.test ++ sixIds.flatMap (tripBytes s.plant.ogd) ++
      [levelByte s.plant.ogd.flow.level] := by
  have test : ([badSetByte s.plant.ogd] ++ (match s.plant.ogd.test with
      | some t =>
        [1, byteOf (t.output.val + 1), idByte t.circuit, byteOf t.duration] ++
          twoBytes t.energizedMs ++ twoBytes (testMean t) ++ twoBytes t.peak
      | none => List.replicate 10 0)) = [badSetByte s.plant.ogd] ++ testBytes s.plant.ogd.test := by
    cases s.plant.ogd.test <;> rfl
  exact congrArg (fun l => l ++ sixIds.flatMap (tripBytes s.plant.ogd) ++
    [levelByte s.plant.ogd.flow.level]) test

theorem stationOutputsPage_carries (s : State) : ∃ bad : Byte, (∀ o : Fin 6, bad.getLsbD o.val =
      decide (s.plant.ogd.outputs[o].role = .bad)) ∧ (pageBody s 3 6).take 1 = [bad] ∧
    (∀ t, s.plant.ogd.test = some t → 0 < t.energizedMs →
      ∃ mean, IsMean t.loadSum t.energizedMs mean ∧ ((pageBody s 3 6).drop 1).take 10 =
        [1, byteOf (t.output.val + 1), idByte t.circuit, byteOf t.duration] ++
          twoBytes t.energizedMs ++ twoBytes mean ++ twoBytes t.peak) ∧
    (s.plant.ogd.test = none → ((pageBody s 3 6).drop 1).take 10 = List.replicate 10 0) ∧
    (∀ c : Fin 6, ((pageBody s 3 6).drop (11 + 5 * c.val)).take 5 =
      byteOf s.plant.ogd.trips[c].count :: fourBytes s.plant.ogd.trips[c].seconds) ∧
    (pageBody s 3 6).drop 41 = [levelByte s.plant.ogd.flow.level] := by
  have page := stationOutputsPage_eq s
  have length := testBytes_length s.plant.ogd.test
  have trips : (sixIds.flatMap (tripBytes s.plant.ogd)).length = 30 :=
    flatMap_length (f := tripBytes s.plant.ogd) (m := 5) (fun _ => rfl) sixIds
  have test : ((pageBody s 3 6).drop 1).take 10 = testBytes s.plant.ogd.test := by
    rw [page, List.append_assoc, List.append_assoc, List.singleton_append, List.drop_succ_cons, List.drop_zero,
      ← length, List.take_left']
    rfl
  refine ⟨badSetByte s.plant.ogd, badSetByte_bit s.plant.ogd, by rw [page]; rfl, fun t running ran => ?_,
    fun idle => ?_, fun c => ?_, ?_⟩
  · rw [test, running]
    exact ⟨testMean t, freeQuot_isMean t.loadSum t.energizedMs ran, rfl⟩
  · rw [test, idle]
    rfl
  · have here : ([badSetByte s.plant.ogd] ++ testBytes s.plant.ogd.test).length = 11 := by
      rw [List.length_append, length]
      rfl
    have at' : sixIds[c.val]? = some c := by
      revert c
      decide
    rw [page, ← here, drop_take_middle (by rw [trips]; omega)]
    exact flatMap_chunk (f := tripBytes s.plant.ogd) (m := 5) (fun _ => rfl) sixIds c.val c at'
  · have here : ([badSetByte s.plant.ogd] ++ testBytes s.plant.ogd.test ++
        sixIds.flatMap (tripBytes s.plant.ogd)).length = 41 := by
      rw [List.length_append, List.length_append, length, trips]
      rfl
    rw [page, ← here, List.drop_left']
    rfl

/-! ### SENSORS -/

theorem channelBytes_length (s : State) (t : Fin 8) : (channelBytes s t).length = 11 := by
  unfold channelBytes
  simp

theorem channelBytes_carries (s : State) (t : Fin 8) : channelBytes s t =
    [byteOf (t.val + 1), yesNo (isEnabled s.img t), byteOf (qualityCode s.ssc.rows[t].quality)] ++
      tempBytes s.ssc.rows[t].value ++ tempBytes s.ssc.rows[t].lastGood ++
      tempBytes s.ssc.rows[t].suspect ++
      match s.ssc.rows[t].lastAt with
      | some time => twoBytes (min 65535 (s.now - time))
      | none => [255, 255] := by
  have age : twoBytes (ageOf s s.ssc.rows[t]) = (match s.ssc.rows[t].lastAt with
      | some time => twoBytes (min 65535 (s.now - time))
      | none => [255, 255]) := by
    unfold ageOf
    cases s.ssc.rows[t].lastAt with
    | none => exact show twoBytes 65535 = [255, 255] by decide
    | some time => rfl
  unfold channelBytes
  dsimp only
  rw [age]

theorem sensorsPage_channel (s : State) (t : Fin 8) : (pageBody s 4 (t.val / 4)).take 2 = twoBytes s.img.rate ∧
    ((pageBody s 4 (t.val / 4)).drop (2 + 11 * (t.val % 4))).take 11 = channelBytes s t := by
  have page : pageBody s 4 (t.val / 4) = twoBytes s.img.rate ++
      (eightIds.filter fun u => decide (u.val / 4 = t.val / 4)).flatMap (channelBytes s) ++ [] := by
    rw [List.append_nil]
    rfl
  have found : ∀ t : Fin 8, (eightIds.filter fun u => decide (u.val / 4 = t.val / 4))[t.val % 4]? = some t ∧
      (eightIds.filter fun u => decide (u.val / 4 = t.val / 4)).length = 4 := by decide
  obtain ⟨at', four⟩ := found t
  have length := flatMap_length (channelBytes_length s) (eightIds.filter fun u => decide (u.val / 4 = t.val / 4))
  rw [four] at length
  have place := Nat.mod_lt t.val (show 0 < 4 by decide)
  rw [page]
  refine ⟨rfl, ?_⟩
  rw [show 2 + 11 * (t.val % 4) = (twoBytes s.img.rate).length + 11 * (t.val % 4) from rfl,
    drop_take_middle (by rw [length]; omega)]
  exact flatMap_chunk (channelBytes_length s) _ _ t at'

end Sys2Proof.Machine
end

section
/-! PROOFS. The reply pages of the roster, the allotment and the line check, and the lengths of all pages (R167 to R169). -/

namespace Sys2Proof.Machine

/-! ### OUTPUTS and SENSORS -/

theorem outputPage_carries (s : State) (o : Fin 6) : ∃ holdOff,
    (s.plant.ogd.outputs[o].holdOff = none → holdOff = 65535) ∧
    (∀ ms, s.plant.ogd.outputs[o].holdOff = some ms → IsQuotient ms 1000 holdOff) ∧
    pageBody s 3 o.val =
      [byteOf (o.val + 1), byteOf (roleCode s.plant.ogd.outputs[o].role),
        idByte s.plant.ogd.outputs[o].role.circuit, byteOf s.plant.ogd.outputs[o].rated,
        yesNo s.plant.ogd.outputs[o].energized, levelByte s.plant.ogd.outputs[o].leakage.level,
        levelByte s.plant.ogd.outputs[o].limit.level] ++
      twoBytes s.plant.ogd.outputs[o].measured ++ [byteOf s.plant.ogd.outputs[o].openCount] ++
      twoBytes holdOff ++ fourBytes s.plant.ogd.outputs[o].health.seconds ++
      twoBytes s.plant.ogd.outputs[o].health.tripTotal ++
      twoBytes s.plant.ogd.outputs[o].health.peak ++
      twoBytes s.plant.ogd.outputs[o].health.lastLoad ++
      [byteOf ((s.plant.ogd.outputs[o].health.lastFault.map faultCode).getD 3)] ++
      testResultBytes s.plant.ogd.outputs[o].health.lastTest :=
  ⟨holdOffSeconds s.plant.ogd.outputs[o], holdOffSeconds_none, fun _ => holdOffSeconds_some,
    (pageBody_output s o).trans rfl⟩

theorem channel_carries (s : State) (t : Fin 8) : (pageBody s 4 (t.val / 4)).take 2 = twoBytes s.img.rate ∧
    ((pageBody s 4 (t.val / 4)).drop (2 + 11 * (t.val % 4))).take 11 =
      [byteOf (t.val + 1), yesNo (isEnabled s.img t), byteOf (qualityCode s.ssc.rows[t].quality)] ++
      tempBytes s.ssc.rows[t].value ++ tempBytes s.ssc.rows[t].lastGood ++
      tempBytes s.ssc.rows[t].suspect ++
      match s.ssc.rows[t].lastAt with
      | some time => twoBytes (min 65535 (s.now - time))
      | none => [255, 255] := by
  obtain ⟨rate, bytes⟩ := sensorsPage_channel s t
  exact ⟨rate, bytes.trans ((channelBytes_carries s t).trans rfl)⟩

/-! ### ROSTER -/

theorem rosterSummary_carries (s : State) : (pageBody s 5 0).take 11 =
      [byteOf s.rst.settled.val] ++ addrSetBytes (heldSet s.rst.collecting) ++
      addrSetBytes (heldSet s.rst.settledBuf) ++
      [byteOf s.rst.silent, byteOf (lineCode s.rst.line)] ∧
    ∀ i : Fin 32, (pageBody s 5 0)[11 + i.val]? = some (statusByte s i) := by
  have page : pageBody s 5 0 = ([byteOf s.rst.settled.val] ++ addrSetBytes (heldSet s.rst.collecting) ++
      addrSetBytes (heldSet s.rst.settledBuf) ++ [byteOf s.rst.silent, byteOf (lineCode s.rst.line)]) ++
      (Vector.ofFn fun i => statusByte s i).toList := by
    show rosterSummary s = _
    unfold rosterSummary oneByte
    simp only [List.append_assoc, List.cons_append, List.nil_append]
  have eleven : ([byteOf s.rst.settled.val] ++ addrSetBytes (heldSet s.rst.collecting) ++
      addrSetBytes (heldSet s.rst.settledBuf) ++
      [byteOf s.rst.silent, byteOf (lineCode s.rst.line)]).length = 11 := rfl
  rw [page]
  refine ⟨List.take_left' eleven, fun i => ?_⟩
  rw [List.getElem?_append_right (by omega), eleven, Nat.add_sub_cancel_left]
  simp

theorem flowByte (r : FlowReport) : byteOf (flowCode r) = match r with
    | .noReport => 0
    | .flow => 1
    | .stop => 2 := by
  cases r <;> rfl

theorem pageBody_row (s : State) (i : Fin 32) : pageBody s 5 (i.val + 1) = rosterRow s i := by
  have found := place_succ i
  revert found
  generalize i.val + 1 = a
  intro found
  show (match place a with | some i => rosterRow s i | none => rosterSummary s) = _
  rw [found]

theorem rosterRow_carries (s : State) (i : Fin 32) : pageBody s 5 (i.val + 1) =
    [byteOf (i.val + 1), statusByte s i, byteOf s.rst.rows[i].missCount, s.rst.rows[i].lastRound.getD 0,
      yesNo s.rst.rows[i].lastRound.isSome, yesNo s.rst.rows[i].returnMark,
      yesNo s.rst.rows[i].lastBid.isSome] ++
    match s.rst.rows[i].lastBid with
    | none => []
    | some b =>
      [yesNo b.member,
        match b.flow with
        | .noReport => 0
        | .flow => 1
        | .stop => 2,
        yesNo b.alarm, b.round, byteOf b.opener] ++
      twoBytes b.digest.toNat ++ twoBytes b.load ++ [byteOf b.records.length] ++
      b.records.flatMap fun r =>
        [byteOf r.circuit, byteOf (classRank r.cls), BitVec.ofInt 8 r.margin, byteOf r.need] := by
  rw [pageBody_row]
  unfold rosterRow
  dsimp only
  congr 1
  cases s.rst.rows[i].lastBid with
  | none => rfl
  | some b =>
    show lastBidBytes b = _
    unfold lastBidBytes
    rw [flowByte, ← List.flatMap_def]
    rfl

/-! ### ALLOTMENT -/

theorem allotmentSummary_carries (s : State) : pageBody s 6 0 =
    [byteOf (kindCode s.plant.alu.kind), yesNo s.plant.alu.round.isSome,
      s.plant.alu.round.getD 0, byteOf (capCode s.plant.alu.cap)] ++
    (match s.plant.alu.cap with
      | some (.declared n) => twoBytes n
      | _ => [255, 255]) ++
    twoBytes s.plant.alu.own ++ (sixIds.map fun c => byteOf s.plant.cct[c].grant) ++
    (match s.plant.alu.deduction with
      | some (o, load) => [byteOf (o.val + 1), byteOf load]
      | none => [0, 0]) ++
    match s.plant.alu.division with
    | some d =>
      addrSetBytes d.heard ++ twoBytes d.poolTotal ++ twoBytes d.poolLeft ++
        [byteOf d.records.length]
    | none => List.replicate 9 0 := by
  have cap : amountBytes (declaredOf s.plant.alu.cap) = (match s.plant.alu.cap with
      | some (.declared n) => twoBytes n
      | _ => [255, 255]) := by
    cases s.plant.alu.cap with
    | none => decide
    | some source =>
      cases source with
      | share => exact show amountBytes none = [255, 255] by decide
      | declared n => rfl
      | unsettled => exact show amountBytes none = [255, 255] by decide
  have deduction : [idByte (s.plant.alu.deduction.map Prod.fst),
      byteOf ((s.plant.alu.deduction.map Prod.snd).getD 0)] = (match s.plant.alu.deduction with
      | some (o, load) => [byteOf (o.val + 1), byteOf load]
      | none => [0, 0]) := by
    cases s.plant.alu.deduction with
    | none => rfl
    | some pair => rfl
  have division : (match s.plant.alu.division with
      | some d => addrSetBytes d.heard ++ twoBytes d.poolTotal ++ twoBytes d.poolLeft ++ oneByte d.records.length
      | none => List.replicate 9 0) = (match s.plant.alu.division with
      | some d => addrSetBytes d.heard ++ twoBytes d.poolTotal ++ twoBytes d.poolLeft ++ [byteOf d.records.length]
      | none => List.replicate 9 0) := by
    cases s.plant.alu.division <;> rfl
  show allotmentSummary s = _
  refine Eq.trans ?_ (congrArg₂ (· ++ ·) (congrArg₂ (· ++ ·) (congrArg (fun l =>
    [byteOf (kindCode s.plant.alu.kind), yesNo s.plant.alu.round.isSome, s.plant.alu.round.getD 0,
      byteOf (capCode s.plant.alu.cap)] ++ l ++ twoBytes s.plant.alu.own ++
      (sixIds.map fun c => byteOf s.plant.cct[c].grant)) cap) deduction) division)
  rfl

/-- A page of the division part, while there is one. -/
theorem pageBody_division {s : State} {d : Division} (h : s.plant.alu.division = some d) (p : Nat) :
    pageBody s 6 (p + 1) = divisionPage d (p + 1) := by
  show allotmentPage s (p + 1) = _
  simp only [allotmentPage, h]

theorem divisionPage_addresses (d : Division) {p : Nat} (h : p < 6) :
    divisionPage d (p + 1) = ((stationAddresses.drop (6 * p)).take 6).flatMap (addressBytes d) := by
  unfold divisionPage
  rw [if_pos (by omega), Nat.add_sub_cancel]

theorem divisionPage_records (d : Division) (k : Nat) :
    divisionPage d (6 + k + 1) = ((d.records.drop (6 * k)).take 6).flatMap entryBytes := by
  unfold divisionPage
  rw [if_neg (by omega)]
  congr 4
  omega

theorem addressBytes_carries (d : Division) (a : Nat) : addressBytes d a =
    match d.entries.find? fun x => decide (x.addr = a) with
    | some x =>
      [byteOf a, byteOf (classificationCode x.cls)] ++ twoBytes x.charge ++ twoBytes x.base ++ twoBytes x.poolPart
    | none => [byteOf a, 255, 0, 0, 0, 0, 0, 0] := by
  unfold addressBytes
  cases d.entries.find? fun x => decide (x.addr = a) <;> rfl

theorem addressBytes_length (d : Division) (a : Nat) : (addressBytes d a).length = 8 := by
  unfold addressBytes
  cases d.entries.find? fun x => decide (x.addr = a) <;> rfl

theorem entryBytes_length (r : RecEntry) : (entryBytes r).length = 8 := rfl

theorem divisionPage_address {s : State} {d : Division} (i : Fin 32) (h : s.plant.alu.division = some d) :
    ((pageBody s 6 (1 + i.val / 6)).drop (8 * (i.val % 6))).take 8 = addressBytes d (i.val + 1) := by
  rw [Nat.add_comm, pageBody_division h, divisionPage_addresses d (by omega)]
  exact flatMap_chunk (addressBytes_length d) _ _ _ (page_entry (by decide) (stationAddresses_getElem? i))

theorem divisionPage_record {s : State} {d : Division} {k : Nat} {r : RecEntry}
    (h : s.plant.alu.division = some d) (entry : d.records[k]? = some r) :
    ((pageBody s 6 (7 + k / 6)).drop (8 * (k % 6))).take 8 = entryBytes r := by
  rw [show 7 + k / 6 = 6 + k / 6 + 1 by omega, pageBody_division h, divisionPage_records]
  exact flatMap_chunk entryBytes_length _ _ _ (page_entry (by decide) entry)

/-! ### QUALITY -/

theorem qualitySummary_carries (s : State) : pageBody s 8 0 =
    twoBytes s.lck.totals.good ++ twoBytes s.lck.totals.crcFailures ++
    twoBytes s.lck.totals.rejected ++ twoBytes s.lck.totals.tool ++
    twoBytes s.lck.totals.outOfRange ++
    [yesNo s.lck.emission.running, byteOf s.lck.emission.count] ++
    twoBytes s.lck.emission.seed.toNat ++
    [byteOf s.lck.emission.nextIndex, byteOf s.lck.emission.passed, byteOf s.lck.emission.failed] := by
  have running : oneByte (if s.lck.emission.running then 1 else 0) = [yesNo s.lck.emission.running] := by
    cases s.lck.emission.running <;> rfl
  show qualitySummary s = _
  unfold qualitySummary
  dsimp only
  rw [running]
  simp only [oneByte, List.append_assoc, List.cons_append, List.nil_append]

theorem pageBody_quality (s : State) (p : Nat) : pageBody s 8 (p + 1) =
    (((stationAddresses.drop (3 * p)).take 3).filterMap place).flatMap (qualityRow s) := rfl

theorem qualityRow_length (s : State) (i : Fin 32) : (qualityRow s i).length = 15 := rfl

theorem qualityPage_row (s : State) (i : Fin 32) :
    ((pageBody s 8 (1 + i.val / 3)).drop (15 * (i.val % 3))).take 15 = qualityRow s i := by
  have found : ∀ i : Fin 32,
      (((stationAddresses.drop (3 * (i.val / 3))).take 3).filterMap place)[i.val % 3]? = some i := by decide
  rw [Nat.add_comm, pageBody_quality]
  exact flatMap_chunk (qualityRow_length s) _ _ _ (found i)

/-! ### What every page carries -/

theorem pagesCarry (s : State) : PagesCarry s where
  station := (stationPage_carries s).trans rfl
  factors := factorsPage_carries s
  circuit := circuitPage_carries s
  output := outputPage_carries s
  stationOutputs := stationOutputsPage_carries s
  channel t := ⟨(channel_carries s t).1, (channel_carries s t).2.trans rfl⟩
  roster := ⟨(rosterSummary_carries s).1, fun i => ((rosterSummary_carries s).2 i).trans rfl⟩
  peer i := (rosterRow_carries s i).trans rfl
  allotment := (allotmentSummary_carries s).trans rfl
  address d i h := (divisionPage_address i h).trans ((addressBytes_carries d (i.val + 1)).trans rfl)
  record _ _ _ h entry := divisionPage_record h entry
  totals := qualitySummary_carries s
  quality i := qualityPage_row s i

/-! ### Lengths -/

theorem circuitPage_length (s : State) (c : Fin 6) : (circuitPage s c).length = 24 := by
  unfold circuitPage
  simp

theorem outputPage_length (s : State) (o : Fin 6) : (outputPage s o).length = 32 := by
  unfold outputPage
  simp

theorem stationOutputsPage_length (s : State) : (pageBody s 3 6).length = 42 := by
  have trips : (sixIds.flatMap (tripBytes s.plant.ogd)).length = 30 :=
    flatMap_length (f := tripBytes s.plant.ogd) (m := 5) (fun _ => rfl) sixIds
  simp only [stationOutputsPage_eq, List.length_append, testBytes_length, trips, List.length_cons, List.length_nil]

theorem sensorsPage_length (s : State) {p : Nat} (h : p < 2) : (pageBody s 4 p).length = 46 := by
  have four : (eightIds.filter fun t => decide (t.val / 4 = p)).length = 4 := by
    interval_cases p <;> decide
  have page : pageBody s 4 p = twoBytes s.img.rate ++
      (eightIds.filter fun t => decide (t.val / 4 = p)).flatMap (channelBytes s) := rfl
  rw [page, List.length_append, flatMap_length (channelBytes_length s), four]
  rfl

theorem rosterSummary_length (s : State) : (rosterSummary s).length = 43 := by
  unfold rosterSummary
  simp

theorem lastBidBytes_length (b : BidFrame) : (lastBidBytes b).length = 10 + 4 * b.records.length := by
  unfold lastBidBytes
  rw [← List.flatMap_def, List.length_append, flatMap_length (f := recordBytes) (m := 4) fun _ => rfl]
  rfl

theorem rosterRow_length (s : State) (i : Fin 32) : (rosterRow s i).length =
    match s.rst.rows[i].lastBid with
    | some b => 17 + 4 * b.records.length
    | none => 7 := by
  unfold rosterRow
  dsimp only
  rw [List.length_append]
  cases s.rst.rows[i].lastBid with
  | none => rfl
  | some b =>
    show 7 + (lastBidBytes b).length = 17 + 4 * b.records.length
    rw [lastBidBytes_length]
    omega

theorem allotmentSummary_length (s : State) : (allotmentSummary s).length = 25 := by
  have division : (match s.plant.alu.division with
      | some d => addrSetBytes d.heard ++ twoBytes d.poolTotal ++ twoBytes d.poolLeft ++ oneByte d.records.length
      | none => List.replicate 9 0).length = 9 := by
    cases s.plant.alu.division <;> rfl
  exact (List.length_append ..).trans (congrArg (16 + ·) division)

theorem divisionPage_length_addresses (d : Division) {p : Nat} (h : p < 6) :
    (divisionPage d (p + 1)).length = 8 * min 6 (32 - 6 * p) := by
  rw [divisionPage_addresses d h, flatMap_length (addressBytes_length d), List.length_take, List.length_drop]
  rfl

theorem divisionPage_length_records (d : Division) (k : Nat) :
    (divisionPage d (6 + k + 1)).length = 8 * min 6 (d.records.length - 6 * k) := by
  rw [divisionPage_records, flatMap_length entryBytes_length, List.length_take, List.length_drop]

theorem qualityPage_length (s : State) {p : Nat} (h : p < 11) :
    (pageBody s 8 (p + 1)).length = 15 * min 3 (32 - 3 * p) := by
  have rows : (((stationAddresses.drop (3 * p)).take 3).filterMap place).length = min 3 (32 - 3 * p) := by
    interval_cases p <;> decide
  rw [pageBody_quality, flatMap_length (qualityRow_length s), rows]

theorem division_lengths {s : State} {d : Division} (h : s.plant.alu.division = some d) :
    (∀ p, 1 ≤ p → p ≤ 5 → (pageBody s 6 p).length = 48) ∧ (pageBody s 6 6).length = 16 ∧
      ∀ k, (pageBody s 6 (7 + k)).length = 8 * min 6 (d.records.length - 6 * k) := by
  refine ⟨fun p low high => ?_, ?_, fun k => ?_⟩
  · obtain ⟨q, rfl⟩ := Nat.exists_eq_add_of_le' low
    rw [pageBody_division h, divisionPage_length_addresses d (by omega)]
    omega
  · rw [pageBody_division h, divisionPage_length_addresses d (by omega)]
    rfl
  · rw [show 7 + k = 6 + k + 1 by omega, pageBody_division h, divisionPage_length_records]

/-- Settles O28. -/
theorem pagesHaveTheirLengths : Obligations.PagesHaveTheirLengths := by
  refine ⟨encodings, pagesCarry, fun s => ⟨rfl, fun p h => ?_, fun p h => ?_, stationOutputsPage_length s,
    fun p h => sensorsPage_length s h, rosterSummary_length s, fun i => ?_, allotmentSummary_length s,
    fun d h => division_lengths h, rfl, rfl, fun p low high => ?_, qualityPage_length s (p := 10) (by decide)⟩⟩
  · rw [pageBody_circuit s ⟨p, h⟩, circuitPage_length]
  · rw [pageBody_output s ⟨p, h⟩, outputPage_length]
  · exact (congrArg List.length (pageBody_row s i)).trans ((rosterRow_length s i).trans rfl)
  · obtain ⟨q, rfl⟩ := Nat.exists_eq_add_of_le' low
    rw [qualityPage_length s (by omega)]
    omega

end Sys2Proof.Machine
end
